-- ==== Sys2Proof/Word.lean ====
section
/-!
DEFINITION. The words and the index ranges of the JC-4256 (00_scope.md, "Device Figures" and "Conventions"): bit
vectors only for what the manual treats as bits, bounded naturals for the numbers of hosts, pages, slots and words.
-/

namespace Sys2Proof

/-- A word of the page store or of the register area: 32 bits (R105, R180). -/
abbrev Word := BitVec 32

/-- One byte of a word (R105). -/
abbrev Byte := BitVec 8

/-- A host and its port share one number, 0 to 3 (00_scope.md, "Conventions"). -/
abbrev HostId := Fin 4

/-- A page, 0 to 255. -/
abbrev PageId := Fin 256

/-- A window slot, 0 to 127. -/
abbrev SlotId := Fin 128

/-- A word within a page, 0 to 255. -/
abbrev WordIdx := Fin 256

/-- A byte within a word, 0 to 3, byte 0 the least significant (R105). -/
abbrev ByteIdx := Fin 4

/-- The four hosts in the order of their numbers. -/
def hostIds : List HostId := [0, 1, 2, 3]

/-- Byte `b` of a word; byte 0 is the least significant (R105). -/
def Word.byte (w : Word) (b : ByteIdx) : Byte := w.extractLsb' (8 * b.val) 8

/-- The word whose bytes 0 to 3 are the four given. -/
def Word.ofBytes (b0 b1 b2 b3 : Byte) : Word := b3 ++ b2 ++ b1 ++ b0

/-- Apply `f` to every element of a vector, by structural recursion on its elements. -/
def mapVec {α β : Type} {n : Nat} (f : α → β) (v : Vector α n) : Vector β n :=
  ⟨⟨v.toList.map f⟩, by simp⟩

@[simp] theorem mapVec_getElem {α β : Type} {n : Nat} (f : α → β) (v : Vector α n) (i : Nat) (h : i < n) :
    (mapVec f v)[i] = f v[i] := by
  simp [mapVec]

end Sys2Proof
end

