-- ==== Sys2Proof/Config.lean ====
section
/-!
DEFINITION. The device figures (00_scope.md, "Device Figures") and the two free values of the model. An opaque constant
has no body a proof can see: a statement about it holds whatever it is.
-/

namespace Sys2Proof.Config

/-- Commands a ring holds (R69). -/
def ringSize : Nat := 16

/-- Records a completion queue holds, and the bound of the credit sum (R71). -/
def creditLimit : Nat := 16

/-- Records a notice queue holds (R147). -/
def noticeQueueSize : Nat := 8

/-- Records a fault record file holds (R136). -/
def faultFileSize : Nat := 4

/-- The largest repeat count of a fault record (R139). -/
def repeatLimit : Nat := 255

/-- Entries a translation cache holds (R91). -/
def cacheSize : Nat := 8

/-- Waiter records of the device (R7). -/
def waiterPoolSize : Nat := 32

/-- Jobs the engine queue holds (R119). -/
def engineQueueSize : Nat := 8

/-- The recall limit after device reset, in microseconds (R172). -/
def resetRecallLimit : BitVec 16 := 2000

/-- Every quota after device reset (R172). -/
def resetQuota : Nat := 64

/-- The largest slot count a FLUSH invalidates by range (R95). -/
def flushRangeLimit : Nat := 8

/-- The bytes of the page store (R105). -/
def storeBytes : Nat := 262144

/-- FREE VALUE (R117, "Its write may or may not have changed its word"): whether the write being performed at the `k`th
use of a free value lands. No body: notes/assumptions/11.md. -/
opaque resetWriteLands : Nat → Bool

/-- FREE VALUE (R117, "A sweep in progress stops at the word it had reached"): the number of words a sweep had written
when RESET was asserted, at the `k`th use of a free value. No body: notes/assumptions/11.md. -/
opaque sweepReached : Nat → Nat

end Sys2Proof.Config
end

