-- ==== Sys2Proof/Syntax.lean ====
section
/-!
DEFINITION. The commands of the block: one constructor per row of spec/opcode_table.json, in the table's order. The
table gives no operands; each constructor carries those its rule names. A write to a word whose rule says "whatever its
data" carries no data. A row that is an owner's event names the host whose command the owner takes and, where the owner
is a page entry, the page; the command's arguments are those of the descriptor taken earlier (R21, R72, R81).
-/

namespace Sys2Proof

/-- The direction of an access (R10, R99). -/
inductive Dir where
  | read
  | write
  deriving DecidableEq, Repr

/-- The rows of spec/opcode_table.json. -/
inductive Instr where
  /-- R117. -/
  | deviceResetAssert
  /-- R115, R171: bit `n` of `straps` is the level of MGRn at the negation. -/
  | deviceResetNegate (straps : BitVec 4)
  /-- R116. -/
  | initializationSweepEnd
  /-- R161. -/
  | prstAssert (port : HostId)
  /-- R161. -/
  | prstNegate (port : HostId)
  /-- R159. -/
  | attach (port : HostId)
  /-- R160. -/
  | detach (port : HostId)
  /-- R131. -/
  | teardownAtEngine (port : HostId)
  /-- R165. -/
  | teardownAtEntry (port : HostId) (page : PageId)
  /-- R167. -/
  | portDetached (port : HostId)
  /-- R67. -/
  | stagingWrite (port : HostId) (index : Fin 4) (enables : BitVec 4) (data : Word)
  /-- R68. -/
  | submit (port : HostId)
  /-- R72. -/
  | takeCommand (port : HostId)
  /-- R80. -/
  | completionPop (port : HostId)
  /-- R22. -/
  | acquire (host : HostId) (page : PageId)
  /-- R31. -/
  | release (host : HostId) (page : PageId)
  /-- R33. -/
  | downgrade (host : HostId) (page : PageId)
  /-- R39: the command unit takes a CANCEL at the head of its ring. -/
  | cancel (host : HostId)
  /-- R40. -/
  | cancelRequest (host : HostId) (page : PageId)
  /-- R76: the command unit takes a FENCE at the head of its ring. -/
  | fence (host : HostId)
  /-- R95. -/
  | flush (host : HostId)
  /-- R121: the source page's holding check. -/
  | copy (host : HostId) (page : PageId)
  /-- R122: the destination page's holding check. -/
  | copyDestinationCheck (host : HostId) (page : PageId)
  /-- R121. -/
  | fill (host : HostId) (page : PageId)
  /-- R121. -/
  | checksum (host : HostId) (page : PageId)
  /-- R121. -/
  | jobQueueing (host : HostId)
  /-- R17. -/
  | query (host : HostId) (page : PageId)
  /-- R173. -/
  | retire (host : HostId) (page : PageId)
  /-- R175. -/
  | restore (host : HostId) (page : PageId)
  /-- R132. -/
  | scrubAdmission (page : PageId)
  /-- R175. -/
  | scrubRefusal (page : PageId)
  /-- R177: `host` is the manager whose command the settings take. -/
  | setQuota (host : HostId)
  /-- R178. -/
  | setRecallLimit (host : HostId)
  /-- R36: `host` is the waiter's host. -/
  | waitTimeout (host : HostId) (page : PageId)
  /-- R52. -/
  | recallDeadline (page : PageId)
  /-- R63, R64. -/
  | drainEnd (page : PageId)
  /-- R92; the data are disregarded for a read. -/
  | windowAccess (port : HostId) (address : BitVec 18) (dir : Dir) (enables : BitVec 4) (data : Word)
  /-- R97. -/
  | accessCheck (port : HostId)
  /-- R88. -/
  | outOfRangeAccess (port : HostId) (address : BitVec 18) (dir : Dir)
  /-- R110. -/
  | wordOperationEnd
  /-- R123. -/
  | jobStart
  /-- R127: `which` picks one of the abort events handed to the engine and not yet taken, oldest first. -/
  | engineAbortEvent (which : Nat)
  /-- R150. -/
  | noticePop (port : HostId)
  /-- R149. -/
  | noticeLostClear (port : HostId)
  /-- R142. -/
  | faultPop (port : HostId)
  /-- R143. -/
  | overflowClear (port : HostId)
  /-- R154. -/
  | eventEnablesWrite (port : HostId) (enables : BitVec 4) (data : Word)
  /-- R90. -/
  | windowMapEntryWrite (port : HostId) (slot : SlotId) (enables : BitVec 4) (data : Word)
  /-- R180. -/
  | registerWrite (port : HostId) (address : BitVec 18) (enables : BitVec 4) (data : Word)
  /-- R19. -/
  | timebaseAdvance
  /-- R106: the data bits of one stored byte that flip, and whether its parity bit flips. -/
  | arrayUpset (page : PageId) (word : WordIdx) (byte : ByteIdx) (flips : Byte) (parityFlips : Bool)
  deriving DecidableEq, Repr

end Sys2Proof
end

