-- ==== Sys2Proof/Machine/State.lean ====
section
/-!
DEFINITION. The state of the block, as plain data, and the state right after reset. What the spec says is derived from
other state (ring state, credit, cause flags, interrupt lines, recall summary, quota counts) is computed in
Machine/Flags.lean and Machine/Ops.lean and not stored.
-/

namespace Sys2Proof.Machine

open Sys2Proof

/-- A holding's mode: shared or exclusive (00_scope.md, "Terms"). -/
inductive Mode where
  | S
  | X
  deriving DecidableEq, Repr

/-- The six page states (R14). -/
inductive PageState where
  | free
  | exclusive
  | shared
  | transfer
  | retired
  | scrub
  deriving DecidableEq, Repr

/-- A holding record (R2). -/
structure Holding where
  mode : Mode
  gen : BitVec 16
  deriving DecidableEq, Repr

/-- The completion place a command reserved when it was taken (R71), with what its completion carries back: the host,
the session in which it was taken (R163), its number among the commands taken since reset (the model's name of the
place), its tag and its kind code (R77). -/
structure Place where
  host : HostId
  session : Nat
  seq : Nat
  tag : BitVec 16
  kind : BitVec 8
  deriving DecidableEq, Repr

/-- A waiter record (R5). Host and tag are those of its place; `due` says that the timebase has delivered the expiry of
its deadline (R19) and the entry has not yet taken it. -/
structure Waiter where
  place : Place
  mode : Mode
  deadline : Option Word
  due : Bool
  upgrade : Bool
  deriving DecidableEq, Repr

/-- A recall record (R8, R42); `due` as in `Waiter`. -/
structure Recall where
  wanted : Mode
  requester : HostId
  targets : Vector Bool 4
  deadline : Word
  due : Bool
  deriving DecidableEq, Repr

/-- A pending grant (R9): the hosts of the chosen waiters that are still in the list, and whether a chosen waiter has
left during the drain (R38, R64). -/
structure PendingGrant where
  mode : Mode
  chosen : List HostId
  left : Bool
  deriving DecidableEq, Repr

/-- A job reference (R11): the job is named by the place of the command that made it, which names its host; the mode
needed is absent for a scrub. -/
structure JobRef where
  place : Place
  need : Option Mode
  running : Bool
  marked : Bool
  deriving DecidableEq, Repr

/-- A page entry (01, "Page Entry"). -/
structure Entry where
  state : PageState
  holdings : Vector (Option Holding) 4
  gen : BitVec 16
  waiters : List Waiter
  recalling : Option Recall
  grant : Option PendingGrant
  inFlight : Vector (Option Dir) 4
  refs : List JobRef
  deriving DecidableEq, Repr

/-- A page entry after device reset (R18). -/
def Entry.reset : Entry :=
  { state := .free, holdings := Vector.replicate 4 none, gen := 0, waiters := [], recalling := none, grant := none,
    inFlight := Vector.replicate 4 none, refs := [] }

/-- The statuses of a completion record (R77, R180). -/
inductive Status where
  | ok
  | denied
  | timedOut
  | cancelled
  | quota
  | notHeld
  | stale
  | duplicate
  | noWaiter
  | retired
  | badCommand
  | privilege
  | inUse
  | engineFull
  | aborted
  | parity
  | notFound
  | belowHeld
  deriving DecidableEq, Repr

/-- The result of a completion record (R77). -/
inductive Result where
  /-- FLUSH, scope RANGE (R95). -/
  | flushRange
  /-- FLUSH, scope ALL (R95). -/
  | flushAll
  /-- CHECKSUM's check value (R125). -/
  | check (value : BitVec 16)
  /-- QUERY's page contents (R17). -/
  | query (state : PageState) (modes : Vector (Option Mode) 4) (waiters : Nat) (recallPresent : Bool)
  deriving DecidableEq, Repr

/-- A completion record (R77). -/
structure Completion where
  tag : BitVec 16
  kind : BitVec 8
  status : Status
  page : Option PageId
  gen : Option (BitVec 16)
  result : Option Result
  deriving DecidableEq, Repr

/-- The cause of a REVOKED notice (R146). -/
inductive Cause where
  | recallTimeout
  | parity
  deriving DecidableEq, Repr

/-- A notice record (R146). -/
inductive Notice where
  | recallIssued (page : PageId) (gen : BitVec 16) (wanted : Mode) (requester : HostId) (remaining : BitVec 16)
  | recallWithdrawn (page : PageId) (requester : HostId)
  | holdingRevoked (page : PageId) (gen : BitVec 16) (cause : Cause)
  deriving DecidableEq, Repr

/-- The fault kinds (R135). -/
inductive FaultKind where
  | range
  | unmapped
  | notHeld
  | readOnly
  | retired
  | parity
  deriving DecidableEq, Repr

/-- A fault record (R135). -/
structure FaultRecord where
  kind : FaultKind
  slot : Option SlotId
  page : Option PageId
  dir : Dir
  count : Nat
  deriving DecidableEq, Repr

/-- One Boolean for each of the five events (R153, R154). -/
structure Events where
  cq : Bool
  nq : Bool
  nl : Bool
  fr : Bool
  fo : Bool
  deriving DecidableEq, Repr

/-- No event (R154, R155). -/
def Events.none : Events := { cq := false, nq := false, nl := false, fr := false, fo := false }

/-- A command descriptor: four words (R67, R182). -/
abbrev Descriptor := Vector Word 4

/-- A command that has been taken and not completed (R71); the page is that of an ACQUIRE (R39). -/
structure Taken where
  place : Place
  page : Option PageId
  deriving DecidableEq, Repr

/-- A window access that has been translated and awaits its check (R92, R93, R97). -/
structure WindowAccess where
  slot : SlotId
  word : WordIdx
  page : PageId
  dir : Dir
  enables : BitVec 4
  data : Option Word
  deriving DecidableEq, Repr

/-- An in-flight access record (R99); its stage is computed from the arbiter. -/
structure InFlight where
  page : PageId
  word : WordIdx
  slot : SlotId
  dir : Dir
  enables : BitVec 4
  data : Option Word
  abandoned : Bool
  deriving DecidableEq, Repr

/-- How an access ended on its port (R183). A read's acknowledge carries data; every error response reads zero. -/
inductive Answer where
  | acknowledge (data : Option Word)
  | errorResponse
  deriving DecidableEq, Repr

/-- The port state (R158). -/
inductive PortPhase where
  | detached
  | attached
  | detaching
  deriving DecidableEq, Repr

/-- One port group: command unit, access path, notice unit, fault unit, event logic and session logic. -/
structure PortGroup where
  phase : PortPhase
  sessionCount : Nat
  manager : Bool
  prst : Bool
  staging : Descriptor
  ring : List Descriptor
  uncompleted : List Taken
  cq : List Completion
  notices : List Notice
  noticeLost : Bool
  faults : List FaultRecord
  overflow : Bool
  enables : Events
  map : Vector (Option PageId) 128
  cache : List (SlotId × PageId)
  access : Option WindowAccess
  inFlight : Option InFlight
  answer : Option Answer
  teardownEngine : Bool
  teardownEntries : List PageId
  deriving DecidableEq, Repr

/-- A port group after device reset (R67, R82, R89, R91, R144, R151, R154, R158). The manager flag and the level of PRSTn
are inputs; both are taken negated here (notes/assumptions/10.md). -/
def PortGroup.reset : PortGroup :=
  { phase := .detached, sessionCount := 0, manager := false, prst := false, staging := Vector.replicate 4 0, ring := [],
    uncompleted := [], cq := [], notices := [], noticeLost := false, faults := [], overflow := false,
    enables := Events.none, map := Vector.replicate 128 none, cache := [], access := none, inFlight := none,
    answer := none, teardownEngine := false, teardownEntries := [] }

/-- What a command in transit asks of its owner (R75, R81). The arguments have passed the command unit's checks (R74). -/
inductive Errand where
  | acquire (page : PageId) (mode : Mode) (limit : BitVec 16)
  | release (page : PageId) (gen : BitVec 16)
  | downgrade (page : PageId) (gen : BitVec 16)
  /-- The cancel request of R39: the page and the completion place of the ACQUIRE selected. -/
  | cancelRequest (page : PageId) (target : Place)
  | flush (first : Nat) (count : Nat)
  /-- A COPY before its source check. -/
  | copySource (source : PageId) (destination : PageId)
  /-- A COPY whose source check has passed. -/
  | copyDestination (source : PageId) (destination : PageId)
  | fill (page : PageId) (pattern : Word)
  | checksum (page : PageId)
  | query (page : PageId)
  | retire (page : PageId)
  | restore (page : PageId)
  | setQuota (host : HostId) (limit : Nat)
  | setRecallLimit (limit : BitVec 16)
  deriving DecidableEq, Repr

/-- A command in transit (R81). -/
structure Transit where
  place : Place
  errand : Errand
  deriving DecidableEq, Repr

/-- The work of a job (R120). -/
inductive Work where
  | copy (source : PageId)
  | fill (pattern : Word)
  | checksum (register : BitVec 16)
  | scrub
  deriving DecidableEq, Repr

/-- A job record (R120). `held` is the source word a COPY has read and not yet written (R124); `stopping` says that the
engine has taken the abort event of the running job while a word was being performed (R128). -/
structure Job where
  place : Place
  work : Work
  target : PageId
  progress : Nat
  held : Option Word
  marked : Bool
  running : Bool
  stopping : Bool
  deriving DecidableEq, Repr

/-- The page engine: its queue (R119), and what has been handed to it or to an entry by it and not yet been taken. -/
structure Engine where
  queue : List Job
  arriving : List Job
  scrubs : List Job
  refusals : List Job
  abortEvents : List Place
  deriving DecidableEq, Repr

/-- The engine after device reset (R133). -/
def Engine.reset : Engine := { queue := [], arriving := [], scrubs := [], refusals := [], abortEvents := [] }

/-- The five requesters of the page store (R107, R111). -/
inductive Requester where
  | port (host : HostId)
  | engine
  deriving DecidableEq, Repr

/-- A word operation (R107); the write data are absent for a read. -/
structure WordOp where
  requester : Requester
  page : PageId
  word : WordIdx
  dir : Dir
  enables : BitVec 4
  data : Option Word
  deriving DecidableEq, Repr

/-- The memory array (R105, R106). `cells` lists the bytes that are not zero by strictly rising address; `mismatch`
lists by strictly rising address the bytes whose stored parity bit is wrong. -/
structure Store where
  cells : List Host.Cell
  mismatch : List Nat
  deriving DecidableEq, Repr

/-- The array as the sweep leaves it (R105); also taken before the sweep (notes/assumptions/11.md). -/
def Store.zero : Store := { cells := [], mismatch := [] }

/-- The arbiter of the page store (R111). -/
structure Arbiter where
  lastServed : Requester
  requests : List WordOp
  performing : Option WordOp
  deriving DecidableEq, Repr

/-- The arbiter after device reset (R111, R115). -/
def Arbiter.reset : Arbiter := { lastServed := .engine, requests := [], performing := none }

/-- The manager settings (R172). -/
structure Settings where
  recallLimit : BitVec 16
  quota : Vector Nat 4
  deriving DecidableEq, Repr

/-- The manager settings after device reset (R172). -/
def Settings.reset : Settings :=
  { recallLimit := Config.resetRecallLimit, quota := Vector.replicate 4 Config.resetQuota }

/-- The device: RESET asserted (R117), sweeping with status INIT (R115), or READY (R116). -/
inductive DevicePhase where
  | inReset
  | sweeping
  | ready
  deriving DecidableEq, Repr

/-- The whole block. `pending` is the queue of commands that are waiting; `taken` counts the commands taken since reset;
`freeCount` counts the free values used. -/
structure State where
  phase : DevicePhase
  timebase : Word
  pages : Vector Entry 256
  ports : Vector PortGroup 4
  transit : List Transit
  taken : Nat
  engine : Engine
  store : Store
  arbiter : Arbiter
  settings : Settings
  freeCount : Nat
  pending : List Instr
  deriving DecidableEq, Repr

/-- No command of this block stops the machine: what the spec calls a fault is a record in State (R135), so this type
has no constructor. -/
inductive Fault where
  deriving DecidableEq, Repr

/-- Why a command has no meaning. -/
inductive Refusal where
  /-- Raised by `exec` for a row that has no meaning yet. Safe: nothing is claimed of it. -/
  | notModelled (mnemonic : String)
  /-- Raised by WINDOW_ACCESS, OUT_OF_RANGE_ACCESS and REGISTER_WRITE for an address that is not of the kind the row
  names: the term is no command of the table. Safe: the machine stops where no row is spelled. -/
  | wrongAddress
  deriving DecidableEq, Repr

/-- The machine right after reset: RESET has been negated, the sweep runs, and every block holds its reset values
(R18, R19, R67, R82, R89, R91, R111, R115, R133, R144, R151, R154, R158, R172). -/
def State.reset : State :=
  { phase := .sweeping, timebase := 0, pages := Vector.replicate 256 Entry.reset,
    ports := Vector.replicate 4 PortGroup.reset, transit := [], taken := 0, engine := Engine.reset, store := Store.zero,
    arbiter := Arbiter.reset, settings := Settings.reset, freeCount := 0, pending := [] }

end Sys2Proof.Machine
end

