-- ==== Sys2Proof/Machine/Operands.lean ====
section
/-!
DEFINITION. The operand forms: the decoding of a port address (R86, R181), the register words (R180), byte enables
(R181), the command descriptor (R182) and the command unit's checks of it (R73, R74).
-/

namespace Sys2Proof.Machine

open Sys2Proof

/-- The words of the register area (R180, "Register Area Map"). -/
inductive RegWord where
  | identification0
  | identification1
  | deviceStatus
  | portControl
  | attach
  | detach
  | holdingCounts
  | staging (index : Fin 4)
  | submit
  | completionHead (index : Fin 4)
  | completionPop
  | noticeHead (index : Fin 4)
  | noticePop
  | noticeLostClear
  | faultHead (index : Fin 2)
  | faultPop
  | overflowClear
  | eventFlags
  | eventEnables
  | recallSummary (index : Fin 8)
  | mapEntry (slot : SlotId)
  deriving DecidableEq, Repr

/-- The register word at byte offset `o` of the register area, `o` a multiple of four (R180); none for an undefined
offset (R181). -/
def decodeRegister (o : Nat) : Option RegWord :=
  if o = 0x000 then some .identification0
  else if o = 0x004 then some .identification1
  else if o = 0x010 then some .deviceStatus
  else if o = 0x020 then some .portControl
  else if o = 0x024 then some .attach
  else if o = 0x028 then some .detach
  else if o = 0x030 then some .holdingCounts
  else if 0x040 ≤ o ∧ o ≤ 0x04C then some (.staging (Fin.ofNat 4 ((o - 0x040) / 4)))
  else if o = 0x050 then some .submit
  else if 0x060 ≤ o ∧ o ≤ 0x06C then some (.completionHead (Fin.ofNat 4 ((o - 0x060) / 4)))
  else if o = 0x070 then some .completionPop
  else if 0x080 ≤ o ∧ o ≤ 0x08C then some (.noticeHead (Fin.ofNat 4 ((o - 0x080) / 4)))
  else if o = 0x090 then some .noticePop
  else if o = 0x094 then some .noticeLostClear
  else if 0x0A0 ≤ o ∧ o ≤ 0x0A4 then some (.faultHead (Fin.ofNat 2 ((o - 0x0A0) / 4)))
  else if o = 0x0A8 then some .faultPop
  else if o = 0x0AC then some .overflowClear
  else if o = 0x0B0 then some .eventFlags
  else if o = 0x0B4 then some .eventEnables
  else if 0x0C0 ≤ o ∧ o ≤ 0x0DC then some (.recallSummary (Fin.ofNat 8 ((o - 0x0C0) / 4)))
  else if 0x400 ≤ o ∧ o ≤ 0x5FC then some (.mapEntry (Fin.ofNat 128 ((o - 0x400) / 4)))
  else none

/-- Where a port address leads (R86, R181). -/
inductive Region where
  | register (word : RegWord)
  | undefinedOffset
  | neither
  | window (slot : SlotId) (word : WordIdx)
  deriving DecidableEq, Repr

/-- Decode an 18-bit port address; bits 1:0 are disregarded (R86, R181). -/
def decodeAddress (a : BitVec 18) : Region :=
  if a.toNat < 0x01000 then
    match decodeRegister (4 * (a.toNat / 4)) with
    | some w => .register w
    | none => .undefinedOffset
  else if a.toNat < 0x20000 then .neither
  else .window (Fin.ofNat 128 ((a.toNat - 0x20000) / 1024)) (Fin.ofNat 256 ((a.toNat - 0x20000) % 1024 / 4))

/-- A defined register word that a write never changes and that starts nothing: the identification words and the
read-only words of R180. -/
def RegWord.isPassive : RegWord → Bool
  | .identification0 | .identification1 | .deviceStatus | .portControl | .holdingCounts | .completionHead _
  | .noticeHead _ | .faultHead _ | .eventFlags | .recallSummary _ => true
  | .attach | .detach | .staging _ | .submit | .completionPop | .noticePop | .noticeLostClear | .faultPop
  | .overflowClear | .eventEnables | .mapEntry _ => false

/-- The two words whose write is acknowledged in every port state (R180). -/
def RegWord.isIdentification : RegWord → Bool
  | .identification0 | .identification1 => true
  | _ => false

/-- Byte `b` after a write: the new byte where its enable is asserted, the old one otherwise (R181, R108). -/
def mergeByte (enables : BitVec 4) (old new : Word) (b : ByteIdx) : Byte :=
  if enables.getLsbD b.val then new.byte b else old.byte b

/-- A storage word after a write: the enabled bytes replaced (R181). -/
def mergeWord (enables : BitVec 4) (old new : Word) : Word :=
  Word.ofBytes (mergeByte enables old new 0) (mergeByte enables old new 1) (mergeByte enables old new 2)
    (mergeByte enables old new 3)

/-- The word that a window map entry reads as: bound in bit 31, page in bits 7:0 (R180). -/
def mapEntryWord : Option PageId → Word
  | none => 0
  | some p => (1#32 <<< 31) ||| BitVec.ofNat 32 p.val

/-- The entry that a written word stores; an entry whose bound bit is clear is unbound whatever its page (R181). -/
def mapEntryOfWord (w : Word) : Option PageId :=
  if w.getLsbD 31 then some (Fin.ofNat 256 (w.extractLsb' 0 8).toNat) else none

/-- The word that five event bits read as (R180). -/
def eventsWord (e : Events) : Word :=
  (if e.cq then 1 else 0) ||| (if e.nq then 2 else 0) ||| (if e.nl then 4 else 0) ||| (if e.fr then 8 else 0) |||
    (if e.fo then 16 else 0)

/-- The five event bits of a written word (R180). -/
def eventsOfWord (w : Word) : Events :=
  { cq := w.getLsbD 0, nq := w.getLsbD 1, nl := w.getLsbD 2, fr := w.getLsbD 3, fo := w.getLsbD 4 }

/-- The fourteen command kinds, by code (R182). -/
inductive Kind where
  | acquire
  | release
  | downgrade
  | cancel
  | fence
  | flush
  | copy
  | fill
  | checksum
  | query
  | retire
  | restore
  | setQuota
  | setRecallLimit
  deriving DecidableEq, Repr

/-- The code of a kind ("Command Descriptor"). -/
def Kind.code : Kind → BitVec 8
  | .acquire => 0x01
  | .release => 0x02
  | .downgrade => 0x03
  | .cancel => 0x04
  | .fence => 0x05
  | .flush => 0x06
  | .copy => 0x07
  | .fill => 0x08
  | .checksum => 0x09
  | .query => 0x0A
  | .retire => 0x0B
  | .restore => 0x0C
  | .setQuota => 0x0D
  | .setRecallLimit => 0x0E

/-- The kind a code names; none for 0x00 and 0x0F to 0xFF (R182). -/
def Kind.ofCode (c : BitVec 8) : Option Kind :=
  match c.toNat with
  | 1 => some .acquire
  | 2 => some .release
  | 3 => some .downgrade
  | 4 => some .cancel
  | 5 => some .fence
  | 6 => some .flush
  | 7 => some .copy
  | 8 => some .fill
  | 9 => some .checksum
  | 10 => some .query
  | 11 => some .retire
  | 12 => some .restore
  | 13 => some .setQuota
  | 14 => some .setRecallLimit
  | _ => none

/-- The manager kinds (R73). -/
def Kind.isManager : Kind → Bool
  | .retire | .restore | .setQuota | .setRecallLimit => true
  | _ => false

/-- The kind code of a descriptor: word 0, bits 7:0 (R182). -/
def Descriptor.kindCode (d : Descriptor) : BitVec 8 := d[0].extractLsb' 0 8

/-- The tag of a descriptor: word 0, bits 31:16 (R182). -/
def Descriptor.tag (d : Descriptor) : BitVec 16 := d[0].extractLsb' 16 16

/-- Bits 15:0 of argument word 1, 2 or 3 (R182). -/
def Descriptor.half (d : Descriptor) (i : Fin 4) : BitVec 16 := d[i].extractLsb' 0 16

/-- The page of a 16-bit field; none above 255 (R74). -/
def pageOfField (f : BitVec 16) : Option PageId :=
  if h : f.toNat < 256 then some ⟨f.toNat, h⟩ else none

/-- The host of a 16-bit field; none above 3 (R74). -/
def hostOfField (f : BitVec 16) : Option HostId :=
  if h : f.toNat < 4 then some ⟨f.toNat, h⟩ else none

/-- The mode field of an ACQUIRE: 1 for S, 2 for X, 0 and 3 for neither (R182). -/
def modeOfField (f : BitVec 2) : Option Mode :=
  match f.toNat with
  | 1 => some .S
  | 2 => some .X
  | _ => none

/-- A command whose kind and arguments the command unit has read and not refused (R73, R74). -/
inductive Command where
  /-- A command for an owner outside the command unit (R75). -/
  | errand (e : Errand)
  /-- CANCEL and its target tag (R39). -/
  | cancel (target : BitVec 16)
  /-- FENCE (R76). -/
  | fence
  deriving DecidableEq, Repr

/-- The arguments of a kind, or none where R74 refuses them. -/
def Descriptor.command (d : Descriptor) : Kind → Option Command
  | .acquire =>
    match pageOfField (d.half 1), modeOfField (d[2].extractLsb' 0 2) with
    | some p, some m => some (.errand (.acquire p m (d.half 3)))
    | _, _ => none
  | .release => (pageOfField (d.half 1)).map fun p => .errand (.release p (d.half 2))
  | .downgrade => (pageOfField (d.half 1)).map fun p => .errand (.downgrade p (d.half 2))
  | .cancel => some (.cancel (d.half 1))
  | .fence => some .fence
  | .flush =>
    let first := (d.half 1).toNat
    let count := (d.half 2).toNat
    if first ≤ 127 ∧ 1 ≤ count ∧ count ≤ 128 ∧ first + count ≤ 128 then some (.errand (.flush first count)) else none
  | .copy =>
    match pageOfField (d.half 1), pageOfField (d.half 2) with
    | some p, some q => if p = q then none else some (.errand (.copySource p q))
    | _, _ => none
  | .fill => (pageOfField (d.half 1)).map fun p => .errand (.fill p d[2])
  | .checksum => (pageOfField (d.half 1)).map fun p => .errand (.checksum p)
  | .query => (pageOfField (d.half 1)).map fun p => .errand (.query p)
  | .retire => (pageOfField (d.half 1)).map fun p => .errand (.retire p)
  | .restore => (pageOfField (d.half 1)).map fun p => .errand (.restore p)
  | .setQuota =>
    match hostOfField (d.half 1) with
    | some h => if (d.half 2).toNat ≤ 256 then some (.errand (.setQuota h (d.half 2).toNat)) else none
    | none => none
  | .setRecallLimit => if d.half 1 = 0 then none else some (.errand (.setRecallLimit (d.half 1)))

/-- The command unit's checks in their order: kind, privilege, arguments (R73, R74); a refusal is a status. -/
def checkCommand (manager : Bool) (d : Descriptor) : Except Status Command :=
  match Kind.ofCode d.kindCode with
  | none => .error .badCommand
  | some k =>
    if k.isManager && !manager then .error .privilege
    else
      match d.command k with
      | none => .error .badCommand
      | some c => .ok c

/-- The owner that takes an errand next (R75): a page entry, the port's own access path, or the manager settings. -/
inductive Owner where
  | entry (page : PageId)
  | path
  | settings
  deriving DecidableEq, Repr

/-- The owner an errand is on its way to (R75, R121). -/
def Errand.owner : Errand → Owner
  | .acquire p _ _ | .release p _ | .downgrade p _ | .cancelRequest p _ | .fill p _ | .checksum p | .query p
  | .retire p | .restore p => .entry p
  | .copySource p _ => .entry p
  | .copyDestination _ p => .entry p
  | .flush _ _ => .path
  | .setQuota _ _ | .setRecallLimit _ => .settings

/-- Whether an errand is yet to be taken by an owner: a COPY before its source check concerns both its pages
(R1, R21, R121; notes/assumptions/17.md). -/
def Errand.concerns (e : Errand) (o : Owner) : Bool :=
  match e with
  | .copySource p q => o = .entry p || o = .entry q
  | _ => e.owner = o

/-- The errand is of a kind that the page engine takes after the entries (R75): COPY, FILL, CHECKSUM, RESTORE. -/
def Errand.boundForEngine : Errand → Bool
  | .copySource _ _ | .copyDestination _ _ | .fill _ _ | .checksum _ | .restore _ => true
  | .acquire _ _ _ | .release _ _ | .downgrade _ _ | .cancelRequest _ _ | .flush _ _ | .query _ | .retire _
  | .setQuota _ _ | .setRecallLimit _ => false

end Sys2Proof.Machine
end

