-- ==== Sys2Proof/WellFormed.lean ====
section
/-!
DEFINITION. When a term of Instr is a command of the table. Every operand but a port address is in range by its type; an
address must be of the kind the row names (R86, R88, R180, R181).
-/

namespace Sys2Proof

/-- The address lies in the window (R86). -/
def isWindowAddress (a : BitVec 18) : Bool :=
  match Machine.decodeAddress a with
  | .window _ _ => true
  | _ => false

/-- The address lies in neither area or at an undefined register offset (R88). -/
def isOutOfRangeAddress (a : BitVec 18) : Bool :=
  match Machine.decodeAddress a with
  | .neither | .undefinedOffset => true
  | _ => false

/-- The address is that of a defined register word with no behaviour of its own (R180). -/
def isPassiveRegisterAddress (a : BitVec 18) : Bool :=
  match Machine.decodeAddress a with
  | .register w => w.isPassive
  | _ => false

/-- The term is a command of the table. -/
def Instr.wellFormed : Instr → Bool
  | .windowAccess _ a _ _ _ => isWindowAddress a
  | .outOfRangeAccess _ a _ => isOutOfRangeAddress a
  | .registerWrite _ a _ _ => isPassiveRegisterAddress a
  | _ => true

end Sys2Proof
end

