-- ==== Sys2Proof/Decode.lean ====
section
/-!
DEFINITION. The command that a word spells by the table's bits. spec/opcode_table.json gives no row a bit pattern (every
row's "fields" is empty and none has "fixed"), so no word spells a command (notes/assumptions/21.md). The encodings the
spec does give, those of the command descriptor, are read in Machine/Operands.lean.
-/

namespace Sys2Proof

/-- No row of the table has bits: every word spells no command. -/
def decodeTableWord (_nbits _w : Nat) : Option Instr := none

end Sys2Proof
end

