-- ==== Sys2Proof/Machine/Entry.lean ====
section
/-!
DEFINITION. The page entry: what one entry decides at each of its events (chapters 01, 02, 03, and the entry's side of
05, 06, 07, 10 and 11). Every function here is about ONE entry: it reads the entry and what the device tells it (its
page number, the timebase, the recall limit) and answers the new entry with what the event hands to other blocks (R1).
-/

namespace Sys2Proof.Machine

open Sys2Proof

/-- What an entry reads from outside itself at an event (R20, R45). -/
structure Env where
  page : PageId
  now : Word
  limit : BitVec 16
  deriving DecidableEq, Repr

/-- What a completion carries besides its place (R77). -/
structure Reply where
  status : Status
  page : Option PageId
  gen : Option (BitVec 16)
  result : Option Result
  deriving DecidableEq, Repr

/-- A reply with a status and a page, and nothing else. -/
def Reply.ofPage (st : Status) (p : PageId) : Reply := { status := st, page := some p, gen := none, result := none }

/-- A reply with a status alone. -/
def Reply.bare (st : Status) : Reply := { status := st, page := none, gen := none, result := none }

/-- What an event leaves and hands over (R1, R16): the entry, the notices and completions in their order, and the jobs
to be marked for abort. -/
structure EntryOut where
  entry : Entry
  notices : List (HostId × Notice)
  posts : List (Place × Reply)
  aborts : List Place
  deriving DecidableEq, Repr

/-- An event that has handed nothing over yet. -/
def EntryOut.start (e : Entry) : EntryOut := { entry := e, notices := [], posts := [], aborts := [] }

/-! ## What an entry reads from its own fields -/

/-- The host's holding on the page (R2). -/
def Entry.holding (e : Entry) (h : HostId) : Option Holding := e.holdings[h]

/-- The mode in which a host holds the page. -/
def Entry.mode (e : Entry) (h : HostId) : Option Mode := (e.holding h).map Holding.mode

/-- The host holds the page in S or X. -/
def Entry.holds (e : Entry) (h : HostId) : Bool := (e.holding h).isSome

/-- The host holds the page in X. -/
def Entry.holdsX (e : Entry) (h : HostId) : Bool := e.mode h = some .X

/-- The host holds the page in S. -/
def Entry.holdsS (e : Entry) (h : HostId) : Bool := e.mode h = some .S

/-- No host holds the page. -/
def Entry.unheld (e : Entry) : Bool := hostIds.all fun h => !e.holds h

/-- Some host holds the page in X. -/
def Entry.exclusivelyHeld (e : Entry) : Bool := hostIds.any fun h => e.holdsX h

/-- The host holds the page and no other host does. -/
def Entry.onlyHolder (e : Entry) (h : HostId) : Bool := hostIds.all fun k => e.holds k = (k = h)

/-- The host has a waiter on the page (R6). -/
def Entry.hasWaiter (e : Entry) (h : HostId) : Bool := e.waiters.any fun w => w.place.host = h

/-- A host's holdings plus waiters on this page (R15). -/
def Entry.count (e : Entry) (h : HostId) : Nat :=
  (if e.holds h then 1 else 0) + e.waiters.countP fun w => w.place.host = h

/-- The in-flight pair of a host is stray: a read whose host holds nothing, a write whose host holds no X (R12). -/
def Entry.strayPair (e : Entry) (h : HostId) : Bool :=
  match e.inFlight[h] with
  | none => false
  | some .read => !e.holds h
  | some .write => !e.holdsX h

/-- A job reference is stray: it runs and its host no longer holds the mode it needs (R12). -/
def Entry.strayRef (e : Entry) (r : JobRef) : Bool :=
  r.running &&
    match r.need with
    | none => false
    | some .S => !e.holds r.place.host
    | some .X => !e.holdsX r.place.host

/-- The page has a stray operation (R12). -/
def Entry.hasStray (e : Entry) : Bool := (hostIds.any fun h => e.strayPair h) || e.refs.any fun r => e.strayRef r

/-- The page is EXCLUSIVE or SHARED, the two states in which the list is served (R28). -/
def Entry.inUse (e : Entry) : Bool := e.state = .exclusive || e.state = .shared

/-- The state that the holdings give (R28). -/
def Entry.stateOfHoldings (e : Entry) : PageState :=
  if e.exclusivelyHeld then .exclusive else if e.unheld then .free else .shared

/-- Whether a head waiter can be served (R29). -/
def Entry.canServe (e : Entry) (w : Waiter) : Bool :=
  match w.mode, w.upgrade with
  | .X, true => e.onlyHolder w.place.host && e.holdsS w.place.host
  | .X, false => e.unheld
  | .S, _ => !e.exclusivelyHeld

/-- The waiters chosen when the head can be served: an exclusive head alone, or the run of shared waiters at the head
(R30). -/
def chosenRun : List Waiter → List Waiter
  | [] => []
  | w :: ws =>
    match w.mode with
    | .X => [w]
    | .S => w :: ws.takeWhile fun v => v.mode = .S

/-- An ACQUIRE that needs no wait (R24). -/
def Entry.grantable (e : Entry) (h : HostId) (m : Mode) : Bool :=
  e.waiters.isEmpty && (e.state = .free || (e.state = .shared && (m = .S || e.onlyHolder h)))

/-- The holding answers a request for `m` (R22, R23). -/
def Entry.answersFromHolding (e : Entry) (h : HostId) (m : Mode) : Bool := e.holdsX h || (e.holds h && m = .S)

/-! ## Small changes to an entry -/

/-- Give a host's place in the holdings map a value. -/
def Entry.setHolding (e : Entry) (h : HostId) (v : Option Holding) : Entry :=
  { e with holdings := e.holdings.set h.val v h.isLt }

/-- Remove a host's holding and clear the upgrade flag of its waiter (R5, R27, R32). -/
def Entry.dropHolding (e : Entry) (h : HostId) : Entry :=
  { (e.setHolding h none) with
    waiters := e.waiters.map fun w => if w.place.host = h then { w with upgrade := false } else w }

/-- Remove a host from the targets of the recall; the record goes with its last target (R8, R46, R49). -/
def Entry.answerRecall (e : Entry) (h : HostId) : Entry :=
  match e.recalling with
  | none => e
  | some r =>
    let targets := r.targets.set h.val false h.isLt
    { e with recalling := if hostIds.any fun k => targets[k] then some { r with targets := targets } else none }

/-- Set or clear the pair of a host in the in-flight set (R10). -/
def Entry.setPair (e : Entry) (h : HostId) (d : Option Dir) : Entry :=
  { e with inFlight := e.inFlight.set h.val d h.isLt }

/-- Place a job reference (R11, R121). -/
def Entry.addRef (e : Entry) (r : JobRef) : Entry := { e with refs := e.refs ++ [r] }

/-- Remove the reference of a job (R11). -/
def Entry.removeRef (e : Entry) (job : Place) : Entry := { e with refs := e.refs.filter fun r => r.place ≠ job }

/-- Remove the reference of a scrub: the scrub end (R176). -/
def Entry.endScrub (e : Entry) (job : Place) : Entry :=
  { (e.removeRef job) with state := if e.state = .scrub then .free else e.state }

/-- Set the abort mark of a job on its reference (R127). -/
def Entry.markRef (e : Entry) (job : Place) : Entry :=
  { e with refs := e.refs.map fun r => if r.place = job then { r with marked := true } else r }

/-- Set the running flag of a job on its reference (R123). -/
def Entry.runRef (e : Entry) (job : Place) : Entry :=
  { e with refs := e.refs.map fun r => if r.place = job then { r with running := true } else r }

/-- The page carries a reference of the job with an abort mark (R121). -/
def Entry.hasMarkedRef (e : Entry) (job : Place) : Bool := e.refs.any fun r => r.place = job && r.marked

/-- The timebase reaches `now`: each deadline equal to it delivers its expiry (R19, R20). -/
def Entry.expire (e : Entry) (now : Word) : Entry :=
  { e with
    waiters := e.waiters.map fun w => if w.deadline = some now then { w with due := true } else w
    recalling := e.recalling.map fun r => if r.deadline = now then { r with due := true } else r }

/-! ## Recall -/

/-- The holders that block the head waiter (R43). -/
def Entry.recallTargets (e : Entry) (w : Waiter) : Vector Bool 4 :=
  mapVec
    (fun h =>
      match w.mode, w.upgrade with
      | .X, true => e.holds h && h ≠ w.place.host
      | .X, false => e.holds h
      | .S, _ => e.holdsX h)
    #v[(0 : HostId), 1, 2, 3]

/-- The RECALL notice of one target (R44). -/
def Entry.recallNotice (e : Entry) (env : Env) (w : Waiter) (h : HostId) : HostId × Notice :=
  (h, .recallIssued env.page (((e.holding h).map Holding.gen).getD 0) w.mode w.place.host env.limit)

/-- Start a recall for the head waiter `w` (R42): the record, and one RECALL notice to each target. -/
def EntryOut.startRecall (env : Env) (w : Waiter) (o : EntryOut) : EntryOut :=
  let targets := o.entry.recallTargets w
  { o with
    entry :=
      { o.entry with
        recalling :=
          some
            { wanted := w.mode, requester := w.place.host, targets := targets,
              deadline := env.now + env.limit.setWidth 32, due := false } }
    notices := o.notices ++ ((hostIds.filter fun h => targets[h]).map fun h => o.entry.recallNotice env w h) }

/-- The end of an event at which R42 starts a recall: the page is EXCLUSIVE or SHARED, the head must wait, and no
recall runs. -/
def EntryOut.recallIfBlocked (env : Env) (o : EntryOut) : EntryOut :=
  match o.entry.waiters with
  | [] => o
  | w :: _ =>
    if o.entry.inUse && o.entry.recalling.isNone && !o.entry.canServe w then o.startRecall env w else o

/-- Withdraw the running recall, if any: WITHDRAWN to each remaining target (R50). -/
def EntryOut.withdraw (env : Env) (o : EntryOut) : EntryOut :=
  match o.entry.recalling with
  | none => o
  | some r =>
    { o with
      entry := { o.entry with recalling := none }
      notices :=
        o.notices ++ (hostIds.filter fun h => r.targets[h]).map fun h => (h, .recallWithdrawn env.page r.requester) }

/-! ## Grants and the serving of the list -/

/-- The state a grant in a mode leaves (R4). -/
def stateOfGrant : Mode → PageState
  | .X => .exclusive
  | .S => .shared

/-- Give each of the hosts a holding in one mode and generation. -/
def Entry.giveHoldings (e : Entry) (v : Holding) : List HostId → Entry
  | [] => e
  | h :: hs => (e.setHolding h (some v)).giveHoldings v hs

/-- The grant event (R4): one advance of the generation, the holdings, the waiters granted removed, one completion for
each place, the pending grant removed, the state set. -/
def EntryOut.grant (env : Env) (m : Mode) (places : List Place) (o : EntryOut) : EntryOut :=
  let gen := o.entry.gen + 1
  let hosts := places.map Place.host
  { o with
    entry :=
      { (o.entry.giveHoldings { mode := m, gen := gen } hosts) with
        gen := gen
        waiters := o.entry.waiters.filter fun w => !hosts.contains w.place.host
        grant := none
        state := stateOfGrant m }
    posts :=
      o.posts ++
        places.map fun pl => (pl, { status := .ok, page := some env.page, gen := some gen, result := none }) }

/-- A grant that is decided while the page has a stray operation is held back: the page enters TRANSFER (R61). -/
def EntryOut.holdBack (m : Mode) (hosts : List HostId) (o : EntryOut) : EntryOut :=
  { o with
    entry :=
      { o.entry with state := .transfer, recalling := none, grant := some { mode := m, chosen := hosts, left := false } } }

/-- The grant decided for a head that can be served (R30, R49): made now, with a recall for a new head that must wait
(R66), or held back. -/
def EntryOut.decideGrant (env : Env) (w : Waiter) (o : EntryOut) : EntryOut :=
  let chosen := (chosenRun o.entry.waiters).map Waiter.place
  if o.entry.hasStray then o.holdBack w.mode (chosen.map Place.host)
  else (({ o with entry := { o.entry with recalling := none } }).grant env w.mode chosen).recallIfBlocked env

/-- Serve the waiting list (R28). -/
def EntryOut.serve (env : Env) (o : EntryOut) : EntryOut :=
  match o.entry.waiters with
  | [] => { o with entry := { o.entry with state := o.entry.stateOfHoldings } }
  | w :: _ =>
    if o.entry.canServe w then o.decideGrant env w
    else ({ o with entry := { o.entry with state := o.entry.stateOfHoldings } }).recallIfBlocked env

/-- Serve the list when the page was EXCLUSIVE or SHARED at the start of the event (R28). -/
def EntryOut.serveIf (env : Env) (was : Bool) (o : EntryOut) : EntryOut := if was then o.serve env else o

/-- The waiter of a host leaves the list without a completion: the recall of a departing head is withdrawn, and a chosen
waiter leaves the choice (R38, R50). -/
def EntryOut.removeWaiter (env : Env) (h : HostId) (o : EntryOut) : EntryOut :=
  let e := o.entry
  let wasHead := (e.waiters.head?.map fun w => w.place.host) = some h
  let entry :=
    { e with
      waiters := e.waiters.filter fun w => w.place.host ≠ h
      grant :=
        e.grant.map fun g =>
          if g.chosen.contains h then { g with chosen := g.chosen.filter fun k => k ≠ h, left := true } else g }
  if wasHead then ({ o with entry := entry }).withdraw env else { o with entry := entry }

/-- The departure of a waiter by timeout or cancel, with its completion (R36, R38, R40). -/
def Entry.depart (e : Entry) (env : Env) (w : Waiter) (st : Status) : EntryOut :=
  let o := ((EntryOut.start e).removeWaiter env w.place.host).serveIf env e.inUse
  { o with posts := o.posts ++ [(w.place, Reply.ofPage st env.page)] }

/-! ## The events -/

/-- One reply and nothing else: the entry is unchanged. -/
def Entry.reply (e : Entry) (pl : Place) (r : Reply) : EntryOut := { EntryOut.start e with posts := [(pl, r)] }

/-- The waiter record of an ACQUIRE that must wait (R5, R20, R26). -/
def newWaiter (e : Entry) (env : Env) (pl : Place) (m : Mode) (limit : BitVec 16) : Waiter :=
  { place := pl, mode := m,
    deadline := if limit = 65535 then none else some (env.now + limit.setWidth 32),
    due := false,
    upgrade := e.holdsS pl.host && m = .X }

/-- The wait decision (R26). `overQuota`: the host's count already equals its quota. `poolFull`: all 32 records are in
use. -/
def Entry.waitDecision (e : Entry) (env : Env) (overQuota poolFull : Bool) (pl : Place) (m : Mode)
    (limit : BitVec 16) : EntryOut :=
  if limit = 0 then e.reply pl (Reply.ofPage .denied env.page)
  else if overQuota then e.reply pl (Reply.ofPage .quota env.page)
  else if poolFull then e.reply pl (Reply.ofPage .noWaiter env.page)
  else
    let o := EntryOut.start { e with waiters := e.waiters ++ [newWaiter e env pl m limit] }
    if e.grantable pl.host m then o.holdBack m [pl.host]
    else if e.waiters.isEmpty then o.recallIfBlocked env
    else o

/-- ACQUIRE at the entry (R22). -/
def Entry.acquire (e : Entry) (env : Env) (overQuota poolFull : Bool) (pl : Place) (m : Mode)
    (limit : BitVec 16) : EntryOut :=
  if e.state = .retired ∨ e.state = .scrub then e.reply pl (Reply.ofPage .retired env.page)
  else if e.answersFromHolding pl.host m then
    e.reply pl
      { status := .ok, page := some env.page, gen := (e.holding pl.host).map Holding.gen, result := none }
  else if e.hasWaiter pl.host then e.reply pl (Reply.ofPage .duplicate env.page)
  else if e.grantable pl.host m && !e.hasStray then
    if !e.holds pl.host && overQuota then e.reply pl (Reply.ofPage .quota env.page)
    else (EntryOut.start e).grant env m [pl]
  else e.waitDecision env overQuota poolFull pl m limit

/-- A job of the host without an abort mark is referenced by the page (R31, R35). -/
def Entry.blocksRelease (e : Entry) (h : HostId) : Bool := e.refs.any fun r => r.place.host = h && !r.marked

/-- A job of the host without an abort mark needs X on the page (R33, R35). -/
def Entry.blocksDowngrade (e : Entry) (h : HostId) : Bool :=
  e.refs.any fun r => r.place.host = h && !r.marked && r.need = some .X

/-- The holding goes, the recall is answered, and the list is served (R32, R46). -/
def Entry.surrender (e : Entry) (env : Env) (h : HostId) : EntryOut :=
  (EntryOut.start ((e.dropHolding h).answerRecall h)).serveIf env e.inUse

/-- RELEASE at the entry (R31, R32). -/
def Entry.release (e : Entry) (env : Env) (pl : Place) (gen : BitVec 16) : EntryOut :=
  match e.holding pl.host with
  | none => e.reply pl (Reply.ofPage .notHeld env.page)
  | some v =>
    if v.gen ≠ gen then e.reply pl (Reply.ofPage .stale env.page)
    else if e.blocksRelease pl.host then e.reply pl (Reply.ofPage .inUse env.page)
    else
      let o := e.surrender env pl.host
      { o with posts := o.posts ++ [(pl, Reply.ofPage .ok env.page)] }

/-- A downgrade answers a recall for shared mode and leaves the host a target of one for exclusive mode (R47). -/
def Entry.answerByDowngrade (e : Entry) (h : HostId) : Entry :=
  match e.recalling with
  | some r => if r.wanted = .S then e.answerRecall h else e
  | none => e

/-- DOWNGRADE at the entry (R33). -/
def Entry.downgrade (e : Entry) (env : Env) (pl : Place) (gen : BitVec 16) : EntryOut :=
  match e.holding pl.host with
  | none => e.reply pl (Reply.ofPage .notHeld env.page)
  | some v =>
    if v.mode = .S then e.reply pl (Reply.ofPage .notHeld env.page)
    else if v.gen ≠ gen then e.reply pl (Reply.ofPage .stale env.page)
    else if e.blocksDowngrade pl.host then e.reply pl (Reply.ofPage .inUse env.page)
    else
      let e' := (e.setHolding pl.host (some { v with mode := .S })).answerByDowngrade pl.host
      let o := (EntryOut.start { e' with state := if e.inUse then .shared else e.state }).serveIf env e.inUse
      { o with posts := o.posts ++ [(pl, Reply.ofPage .ok env.page)] }

/-- The cancel request at the entry (R40): the waiter of the selected ACQUIRE leaves CANCELLED and the CANCEL completes
OK after it, or the CANCEL completes NOT_FOUND. -/
def Entry.cancelRequest (e : Entry) (env : Env) (pl : Place) (target : Place) : EntryOut :=
  match e.waiters.find? fun w => w.place = target with
  | none => e.reply pl (Reply.bare .notFound)
  | some w =>
    let o := e.depart env w .cancelled
    { o with posts := o.posts ++ [(pl, Reply.bare .ok)] }

/-- The expiry of a wait deadline (R36): only a waiter whose expiry has been delivered leaves. -/
def Entry.waitTimeout (e : Entry) (env : Env) (h : HostId) : EntryOut :=
  match e.waiters.find? fun w => w.place.host = h && w.due with
  | none => EntryOut.start e
  | some w => e.depart env w .timedOut

/-- The jobs of a host that reference the page and carry no abort mark (R11, R52). -/
def Entry.jobsOf (e : Entry) (h : HostId) : List Place :=
  (e.refs.filter fun r => r.place.host = h && !r.marked).map JobRef.place

/-- Revoke one host's holding: marks, notice, removal (R52). -/
def EntryOut.revoke (env : Env) (h : HostId) (o : EntryOut) : EntryOut :=
  { o with
    entry := o.entry.dropHolding h
    notices :=
      o.notices ++
        (match o.entry.holding h with
        | some v => [(h, Notice.holdingRevoked env.page v.gen .recallTimeout)]
        | none => [])
    aborts := o.aborts ++ o.entry.jobsOf h }

/-- Revoke each of the hosts in turn. -/
def EntryOut.revokeAll (env : Env) : List HostId → EntryOut → EntryOut
  | [], o => o
  | h :: hs, o => EntryOut.revokeAll env hs (o.revoke env h)

/-- The recall deadline (R52): only a recall whose expiry has been delivered revokes. -/
def Entry.recallDeadline (e : Entry) (env : Env) : EntryOut :=
  match e.recalling with
  | none => EntryOut.start e
  | some r =>
    if r.due then
      let o := EntryOut.revokeAll env (hostIds.filter fun h => r.targets[h]) (EntryOut.start e)
      ({ o with entry := { o.entry with recalling := none } }).serveIf env e.inUse
    else EntryOut.start e

/-- The drain end (R63, R64): taken by a page in TRANSFER with no stray operation. -/
def Entry.drainEnd (e : Entry) (env : Env) : EntryOut :=
  match e.grant with
  | none => EntryOut.start e
  | some g =>
    if e.state = .transfer && !e.hasStray then
      if g.left then (EntryOut.start { e with grant := none }).serve env
      else
        let places := (e.waiters.filter fun w => g.chosen.contains w.place.host).map Waiter.place
        ((EntryOut.start e).grant env g.mode places).serve env
    else EntryOut.start e

/-- The teardown of a host on the page (R57, R165); on a page in TRANSFER the list is not served (R62). -/
def Entry.teardown (e : Entry) (env : Env) (h : HostId) : EntryOut :=
  if e.holds h || e.hasWaiter h then
    let o := (EntryOut.start e).removeWaiter env h
    ({ o with entry := (o.entry.dropHolding h).answerRecall h }).serveIf env e.inUse
  else EntryOut.start e

/-- QUERY (R17). -/
def Entry.query (e : Entry) (env : Env) (pl : Place) : EntryOut :=
  e.reply pl
    { status := .ok, page := some env.page, gen := some e.gen,
      result :=
        some
          (.query e.state (mapVec (fun v => v.map Holding.mode) e.holdings) e.waiters.length e.recalling.isSome) }

/-- The outcome of an access check (R97): the fault, or none where it passes. -/
def Entry.checkAccess (e : Entry) (h : HostId) (d : Dir) : Option FaultKind :=
  if e.state = .retired ∨ e.state = .scrub then some .retired
  else if !e.holds h then some .notHeld
  else if d = .write ∧ e.holdsS h then some .readOnly
  else none

/-- A holding check of a job (R122). -/
def Entry.checkHolding (e : Entry) (h : HostId) (need : Mode) : Bool :=
  match need with
  | .X => e.holdsX h
  | .S => e.holds h

/-- Retirement on a parity report (R58); a page already RETIRED or in SCRUB is left as it is (R60). The reference or
pair whose read found the mismatch has been removed in the same event (R113). -/
def Entry.parityReport (e : Entry) (env : Env) : EntryOut :=
  if e.state = .retired ∨ e.state = .scrub then EntryOut.start e
  else
    { entry :=
        { e with state := .retired, holdings := Vector.replicate 4 none, waiters := [], recalling := none, grant := none }
      notices :=
        hostIds.flatMap fun h =>
          match e.holding h with
          | some v => [(h, Notice.holdingRevoked env.page v.gen .parity)]
          | none => []
      posts := e.waiters.map fun w => (w.place, Reply.ofPage .retired env.page)
      aborts := (e.refs.filter fun r => !r.marked).map JobRef.place }

/-- RETIRE (R173). -/
def Entry.retire (e : Entry) (env : Env) (pl : Place) : EntryOut :=
  match e.state with
  | .free => ({ e with state := .retired } : Entry).reply pl (Reply.ofPage .ok env.page)
  | .retired => e.reply pl (Reply.ofPage .ok env.page)
  | .exclusive | .shared | .transfer | .scrub => e.reply pl (Reply.ofPage .inUse env.page)

/-- The engine's refusal of a scrub (R175). -/
def Entry.scrubRefused (e : Entry) (env : Env) (pl : Place) : EntryOut :=
  ({ e with state := if e.state = .scrub then .retired else e.state } : Entry).reply pl
    (Reply.ofPage .engineFull env.page)

end Sys2Proof.Machine
end

