-- ==== Sys2Proof/Machine/Ops.lean ====
section
/-!
DEFINITION. The named operations over the state: pages and ports, completions, notices and faults, the array and the
arbiter, what an entry's event hands to other blocks, and the taking of a command in transit by its owner.
-/

namespace Sys2Proof.Machine

open Sys2Proof

/-! ## Pages and ports -/

/-- The entry of a page. -/
def State.page (s : State) (p : PageId) : Entry := s.pages[p]

/-- Replace the entry of a page. -/
def State.setPage (s : State) (p : PageId) (e : Entry) : State := { s with pages := s.pages.set p.val e p.isLt }

/-- Change the entry of a page. -/
def State.modifyPage (s : State) (p : PageId) (f : Entry → Entry) : State := s.setPage p (f (s.page p))

/-- Change every entry. -/
def State.mapPages (s : State) (f : Entry → Entry) : State := { s with pages := mapVec f s.pages }

/-- The port group of a port. -/
def State.port (s : State) (n : HostId) : PortGroup := s.ports[n]

/-- Replace a port group. -/
def State.setPort (s : State) (n : HostId) (g : PortGroup) : State := { s with ports := s.ports.set n.val g n.isLt }

/-- Change a port group. -/
def State.modifyPort (s : State) (n : HostId) (f : PortGroup → PortGroup) : State := s.setPort n (f (s.port n))

/-- What an entry reads from outside itself (R20, R45). -/
def State.env (s : State) (p : PageId) : Env := { page := p, now := s.timebase, limit := s.settings.recallLimit }

/-! ## Counts over the table -/

/-- A host's holdings plus waiters over all pages: its quota count, computed and not stored (R15). -/
def State.quotaCount (s : State) (h : HostId) : Nat := (s.pages.toList.map fun e => e.count h).sum

/-- A host's holdings over all pages. -/
def State.holdingCount (s : State) (h : HostId) : Nat := s.pages.toList.countP fun e => e.holds h

/-- A host's waiter records in use over all pages. -/
def State.waiterCount (s : State) (h : HostId) : Nat :=
  (s.pages.toList.map fun e => e.waiters.countP fun w => w.place.host = h).sum

/-- The waiter records in use (R7): each belongs to exactly one list (R6). -/
def State.waitersInUse (s : State) : Nat := (s.pages.toList.map fun e => e.waiters.length).sum

/-- The quota of a host (R172). -/
def State.quota (s : State) (h : HostId) : Nat := s.settings.quota[h]

/-! ## Sessions and completions -/

/-- The present session of a port: a number while ATTACHED, absent otherwise (R158). -/
def PortGroup.session (g : PortGroup) : Option Nat := if g.phase = .attached then some g.sessionCount else none

/-- The session of a place is the present session of its port (R163). -/
def State.current (s : State) (pl : Place) : Bool := (s.port pl.host).session = some pl.session

/-- The completion record of a command from its place and its owner's reply (R77). -/
def completionOf (pl : Place) (r : Reply) : Completion :=
  { tag := pl.tag, kind := pl.kind, status := r.status, page := r.page, gen := r.gen, result := r.result }

/-- An outstanding FENCE completes OK when no other command of the host is uncompleted (R76). No command is taken while
a FENCE is outstanding, so every other uncompleted command was taken before it. -/
def PortGroup.settleFence (g : PortGroup) : PortGroup :=
  match g.uncompleted with
  | [t] =>
    if t.place.kind = Kind.fence.code then
      { g with uncompleted := [], cq := g.cq ++ [completionOf t.place (Reply.bare .ok)] }
    else g
  | _ => g

/-- Put a completion into its reserved place and settle the FENCE (R76, R78). -/
def PortGroup.complete (g : PortGroup) (pl : Place) (r : Reply) : PortGroup :=
  ({ g with
      uncompleted := g.uncompleted.filter fun t => t.place ≠ pl
      cq := g.cq ++ [completionOf pl r] } : PortGroup).settleFence

/-- The port still holds the completion place (R71, R78): its session is present and the command is uncompleted. -/
def PortGroup.hasPlace (g : PortGroup) (pl : Place) : Bool :=
  g.session = some pl.session && g.uncompleted.any fun t => t.place = pl

/-- Post a completion (R78): discarded when its session has ended (R163). -/
def State.post (s : State) (pl : Place) (r : Reply) : State :=
  if (s.port pl.host).hasPlace pl then s.modifyPort pl.host fun g => g.complete pl r else s

/-- Post completions in their order. -/
def State.postAll (s : State) : List (Place × Reply) → State
  | [] => s
  | (pl, r) :: rest => (s.post pl r).postAll rest

/-! ## Notices and faults -/

/-- The notice unit takes a notice (R148, R149). -/
def PortGroup.notify (g : PortGroup) (n : Notice) : PortGroup :=
  if g.phase ≠ .attached then g
  else if g.notices.length < Config.noticeQueueSize then { g with notices := g.notices ++ [n] }
  else { g with noticeLost := true }

/-- Hand notices to their hosts in order (R148). -/
def State.notifyAll (s : State) : List (HostId × Notice) → State
  | [] => s
  | (h, n) :: rest => (s.modifyPort h fun g => g.notify n).notifyAll rest

/-- A fault folds into a record of the same kind, slot and direction (R139). -/
def FaultRecord.matches (r : FaultRecord) (kind : FaultKind) (slot : Option SlotId) (dir : Dir) : Bool :=
  r.kind = kind && r.slot = slot && r.dir = dir

/-- A record after one more fault has been folded into it (R139). -/
def FaultRecord.fold (r : FaultRecord) : FaultRecord :=
  { r with count := if r.count < Config.repeatLimit then r.count + 1 else r.count }

/-- The fault unit takes a fault (R138): discarded during overflow, folded into the newest record, recorded, or the
overflow flag set. No fault reaches the unit of a port that is not ATTACHED (R137). -/
def PortGroup.recordFault (g : PortGroup) (kind : FaultKind) (slot : Option SlotId) (page : Option PageId)
    (dir : Dir) : PortGroup :=
  if g.phase ≠ .attached then g
  else if g.overflow then g
  else if (g.faults.getLast?.map fun r => r.matches kind slot dir) = some true then
    { g with faults := g.faults.dropLast ++ (g.faults.getLast?.map FaultRecord.fold).toList }
  else if g.faults.length < Config.faultFileSize then
    { g with faults := g.faults ++ [{ kind := kind, slot := slot, page := page, dir := dir, count := 1 }] }
  else { g with overflow := true }

/-! ## Accesses on a port -/

/-- The port's one access is outstanding: translated, or in flight and not abandoned (R99, R102). -/
def PortGroup.busy (g : PortGroup) : Bool :=
  g.access.isSome || (g.inFlight.map fun r => !r.abandoned) = some true

/-- A new access can start on the port: RESET is not asserted and no access is outstanding (R117, R183). -/
def State.accepts (s : State) (n : HostId) : Bool := s.phase ≠ .inReset && !(s.port n).busy

/-- End an access with an answer (R183). -/
def State.answer (s : State) (n : HostId) (a : Answer) : State := s.modifyPort n fun g => { g with answer := some a }

/-- The acknowledge of a write. -/
def ackWrite : Answer := .acknowledge none

/-- A register write that an ATTACHED port acknowledges with an effect and any other port answers with the error
response (R180). -/
def State.attachedWrite (s : State) (n : HostId) (f : PortGroup → PortGroup) : State :=
  if s.accepts n then
    if (s.port n).phase = .attached then (s.modifyPort n f).answer n ackWrite else s.answer n .errorResponse
  else s

/-! ## The array -/

/-- The model address of a byte of the store (R105): byte 0 of a word at the lowest address. -/
def byteAddress (p : PageId) (w : WordIdx) (b : ByteIdx) : Nat := 1024 * p.val + 4 * w.val + b.val

/-- What an address that is not listed reads as: zero, as the sweep leaves it (R105). -/
def blankByte : Byte := 0

/-- The byte at an address of a list of cells. -/
def readCells : List Host.Cell → Nat → Byte
  | [], _ => blankByte
  | (k, v) :: rest, a => if k = a then v else readCells rest a

/-- The cells with one byte written: sorted, and no cell for a byte that is zero. -/
def writeCells : List Host.Cell → Nat → Byte → List Host.Cell
  | [], a, v => if v = blankByte then [] else [(a, v)]
  | (k, u) :: rest, a, v =>
    if a < k then (if v = blankByte then (k, u) :: rest else (a, v) :: (k, u) :: rest)
    else if a = k then (if v = blankByte then rest else (k, v) :: rest)
    else (k, u) :: writeCells rest a v

/-- The sorted list of addresses with one put in. -/
def insertAddress : List Nat → Nat → List Nat
  | [], a => [a]
  | k :: rest, a => if a < k then a :: k :: rest else if a = k then k :: rest else k :: insertAddress rest a

/-- The byte at an address. -/
def Store.readByte (m : Store) (a : Nat) : Byte := readCells m.cells a

/-- The byte at an address has a parity mismatch (R106). -/
def Store.mismatched (m : Store) (a : Nat) : Bool := m.mismatch.contains a

/-- Whether a byte holds an odd number of ones. -/
def Byte.odd (v : Byte) : Bool :=
  v.getLsbD 0 ^^ v.getLsbD 1 ^^ v.getLsbD 2 ^^ v.getLsbD 3 ^^ v.getLsbD 4 ^^ v.getLsbD 5 ^^ v.getLsbD 6 ^^ v.getLsbD 7

/-- The stored parity bit of a byte: right, so that the nine bits hold an odd number of ones, unless the byte is
mismatched (R106). -/
def Store.parityBit (m : Store) (a : Nat) : Bool := !Byte.odd (m.readByte a) ^^ m.mismatched a

/-- Write a byte with correct parity (R106). -/
def Store.writeByte (m : Store) (a : Nat) (v : Byte) : Store :=
  { cells := writeCells m.cells a v, mismatch := m.mismatch.filter fun k => k ≠ a }

/-- An upset of one stored byte (R106): some of its data bits and perhaps its parity bit flip. -/
def Store.upset (m : Store) (a : Nat) (flips : Byte) (parityFlips : Bool) : Store :=
  { cells := writeCells m.cells a (m.readByte a ^^^ flips)
    mismatch :=
      if (m.mismatched a ^^ Byte.odd flips ^^ parityFlips) then insertAddress m.mismatch a
      else m.mismatch.filter fun k => k ≠ a }

/-- The word at a place of the store (R105). -/
def Store.readWord (m : Store) (p : PageId) (w : WordIdx) : Word :=
  Word.ofBytes (m.readByte (byteAddress p w 0)) (m.readByte (byteAddress p w 1)) (m.readByte (byteAddress p w 2))
    (m.readByte (byteAddress p w 3))

/-- Some byte of the word has a parity mismatch (R109). -/
def Store.wordMismatched (m : Store) (p : PageId) (w : WordIdx) : Bool :=
  m.mismatched (byteAddress p w 0) || m.mismatched (byteAddress p w 1) || m.mismatched (byteAddress p w 2) ||
    m.mismatched (byteAddress p w 3)

/-- Write one byte of a word if its enable is asserted (R108). -/
def Store.writeLane (m : Store) (p : PageId) (w : WordIdx) (enables : BitVec 4) (data : Word) (b : ByteIdx) : Store :=
  if enables.getLsbD b.val then m.writeByte (byteAddress p w b) (data.byte b) else m

/-- A write word operation (R108). -/
def Store.writeWord (m : Store) (p : PageId) (w : WordIdx) (enables : BitVec 4) (data : Word) : Store :=
  (((m.writeLane p w enables data 0).writeLane p w enables data 1).writeLane p w enables data 2).writeLane p w enables
    data 3

/-- The array after a sweep has written its first `k` words (R115, R117). -/
def Store.sweptTo (m : Store) (k : Nat) : Store :=
  { cells := m.cells.filter fun c => 4 * k ≤ c.1, mismatch := m.mismatch.filter fun a => 4 * k ≤ a }

/-- The addresses of the cells rise strictly. -/
def risingCells : List Host.Cell → Bool
  | [] => true
  | [_] => true
  | (a, _) :: (b, v) :: rest => decide (a < b) && risingCells ((b, v) :: rest)

/-- The addresses rise strictly. -/
def risingAddresses : List Nat → Bool
  | [] => true
  | [_] => true
  | a :: b :: rest => decide (a < b) && risingAddresses (b :: rest)

/-- The canonical form of the array: cells by strictly rising address inside the store, none of them zero; mismatched
addresses strictly rising inside the store. -/
def Store.wf (m : Store) : Bool :=
  risingCells m.cells && m.cells.all (fun c => c.1 < Config.storeBytes && c.2 ≠ blankByte) &&
    risingAddresses m.mismatch && m.mismatch.all fun a => a < Config.storeBytes

/-! ## The arbiter -/

/-- The cyclic order of the arbiter after a requester (R111). -/
def Requester.orderAfter : Requester → List Requester
  | .port 0 => [.port 1, .port 2, .port 3, .engine, .port 0]
  | .port 1 => [.port 2, .port 3, .engine, .port 0, .port 1]
  | .port 2 => [.port 3, .engine, .port 0, .port 1, .port 2]
  | .port 3 => [.engine, .port 0, .port 1, .port 2, .port 3]
  | .engine => [.port 0, .port 1, .port 2, .port 3, .engine]

/-- The pending request of a requester. -/
def Arbiter.requestOf (a : Arbiter) (r : Requester) : Option WordOp := a.requests.find? fun op => op.requester = r

/-- The first pending request in cyclic order (R111). -/
def Arbiter.next (a : Arbiter) : Option WordOp := a.lastServed.orderAfter.findSome? a.requestOf

/-- A choice: while no operation is being performed, the first pending requester in cyclic order is served (R111). -/
def Arbiter.choose (a : Arbiter) : Arbiter :=
  match a.performing with
  | some _ => a
  | none =>
    match a.next with
    | none => a
    | some op =>
      { lastServed := op.requester, requests := a.requests.filter fun o => o.requester ≠ op.requester,
        performing := some op }

/-- The arrival of a request; at an idle store a choice is made at once (R111). -/
def Arbiter.request (a : Arbiter) (op : WordOp) : Arbiter := ({ a with requests := a.requests ++ [op] } : Arbiter).choose

/-- The withdrawal of a requester's pending request (R112). -/
def Arbiter.withdraw (a : Arbiter) (r : Requester) : Arbiter :=
  { a with requests := a.requests.filter fun op => op.requester ≠ r }

/-- The operation being performed is the requester's. -/
def Arbiter.performs (a : Arbiter) (r : Requester) : Bool := (a.performing.map WordOp.requester) = some r

/-- The requester has a pending request. -/
def Arbiter.awaits (a : Arbiter) (r : Requester) : Bool := a.requests.any fun op => op.requester = r

/-- A request arrives at the store. -/
def State.request (s : State) (op : WordOp) : State := { s with arbiter := s.arbiter.request op }

/-! ## Abort marks, and what an entry's event hands over -/

/-- The abort mark of a job: set on its references and in its record, and an abort event handed to the engine
(R11, R120, R127). -/
def State.markJob (s : State) (job : Place) : State :=
  { (s.mapPages fun e => e.markRef job) with
    engine :=
      { s.engine with
        queue := s.engine.queue.map fun j => if j.place = job then { j with marked := true } else j
        abortEvents := s.engine.abortEvents ++ [job] } }

/-- Mark jobs in their order. -/
def State.markAll (s : State) : List Place → State
  | [] => s
  | j :: js => (s.markJob j).markAll js

/-- An entry's event is taken whole (R1, R16): the entry, the abort marks, the notices, the completions. -/
def State.applyEntry (s : State) (p : PageId) (o : EntryOut) : State :=
  ((((s.setPage p o.entry).markAll o.aborts).notifyAll o.notices).postAll o.posts)

/-! ## Commands in transit -/

/-- The oldest command in transit of a host that concerns an owner (R21). -/
def State.nextFor (s : State) (h : HostId) (o : Owner) : Option Transit :=
  s.transit.find? fun t => t.place.host = h && t.errand.concerns o

/-- The command that an owner can take next from a host: the oldest that concerns it, if it is on its way to it. -/
def State.arrival (s : State) (h : HostId) (o : Owner) : Option Transit :=
  match s.nextFor h o with
  | some t => if t.errand.owner = o then some t else none
  | none => none

/-- A command leaves the list of those in transit. -/
def State.dropTransit (s : State) (pl : Place) : State :=
  { s with transit := s.transit.filter fun t => t.place ≠ pl }

/-- A command in transit goes on to its next owner, in its place in the order. -/
def State.redirect (s : State) (pl : Place) (e : Errand) : State :=
  { s with transit := s.transit.map fun t => if t.place = pl then { t with errand := e } else t }

/-- An owner takes a command that has arrived: one whose session has ended is discarded as no event (R81, R163). -/
def State.taking (s : State) (pl : Place) (f : State → State) : State :=
  if s.current pl then f (s.dropTransit pl) else s.dropTransit pl

end Sys2Proof.Machine
end

