-- ==== Sys2Proof/Machine/Flags.lean ====
section
/-!
DEFINITION. What the spec derives from other state: ring state and credit (R70, R71), the in-flight stage (R99), the cause
flags and interrupt lines (R153, R155), the recall summary (R152), and the device status (R116).
-/

namespace Sys2Proof.Machine

open Sys2Proof

/-- The five ring states (R70). -/
inductive RingState where
  | stopped
  | idle
  | running
  | creditWait
  | fenceWait
  deriving DecidableEq, Repr

/-- The credit sum: uncompleted commands plus unread completions (R71). -/
def PortGroup.creditSum (g : PortGroup) : Nat := g.uncompleted.length + g.cq.length

/-- A FENCE has been taken and has not completed (R70, R76). -/
def PortGroup.fenceOutstanding (g : PortGroup) : Bool := g.uncompleted.any fun t => t.place.kind = Kind.fence.code

/-- The ring state: the first row of R70 that applies. -/
def PortGroup.ringState (g : PortGroup) : RingState :=
  if g.phase ≠ .attached then .stopped
  else if g.fenceOutstanding then .fenceWait
  else if g.ring.isEmpty then .idle
  else if Config.creditLimit ≤ g.creditSum then .creditWait
  else .running

/-- The credit: 16 minus the credit sum (R71). -/
def PortGroup.credit (g : PortGroup) : Nat := Config.creditLimit - g.creditSum

/-- The five cause flags (R153). -/
def PortGroup.flags (g : PortGroup) : Events :=
  { cq := !g.cq.isEmpty, nq := !g.notices.isEmpty, nl := g.noticeLost, fr := !g.faults.isEmpty, fo := g.overflow }

/-- INTn: some cause flag is set and has its enable set (R155). -/
def PortGroup.interrupt (g : PortGroup) : Bool :=
  (g.flags.cq && g.enables.cq) || (g.flags.nq && g.enables.nq) || (g.flags.nl && g.enables.nl) ||
    (g.flags.fr && g.enables.fr) || (g.flags.fo && g.enables.fo)

/-- The level of INTn (R155). -/
def State.int (s : State) (n : HostId) : Bool := (s.port n).interrupt

/-- The stage of an in-flight access (R99). -/
inductive Stage where
  | awaiting
  | performing
  deriving DecidableEq, Repr

/-- The stage of a port's in-flight access: PERFORMING from the moment the arbiter serves its request (R99). -/
def State.stage (s : State) (n : HostId) : Option Stage :=
  (s.port n).inFlight.map fun _ => if s.arbiter.performs (.port n) then .performing else .awaiting

/-- The host is a remaining target of a recall on the page: its bit of the recall summary (R152). -/
def Entry.summaryBit (e : Entry) (h : HostId) : Bool :=
  match e.recalling with
  | some r => r.targets[h]
  | none => false

/-- The bit of a page in a host's recall summary (R16, R152). -/
def State.summaryBit (s : State) (h : HostId) (p : PageId) : Bool := (s.page p).summaryBit h

/-- The device status reads READY from the end of the sweep until the next assertion of RESET (R116). -/
def State.isReady (s : State) : Bool := s.phase = .ready

end Sys2Proof.Machine
end

