-- ==== Sys2Proof/Machine/AccessPath.lean ====
section
/-!
DEFINITION. The window access path (chapter 05): WINDOW_ACCESS, ACCESS_CHECK, OUT_OF_RANGE_ACCESS, FLUSH and the window
map.
-/

namespace Sys2Proof.Machine

open Sys2Proof

/-- The page a cache pairs with a slot (R92). -/
def cacheLookup (cache : List (SlotId × PageId)) (slot : SlotId) : Option PageId :=
  (cache.find? fun c => c.1 = slot).map Prod.snd

/-- An entry put at the most recent end; an entry of the same slot leaves its place (R91, R92). -/
def cacheTouch (cache : List (SlotId × PageId)) (slot : SlotId) (page : PageId) : List (SlotId × PageId) :=
  (slot, page) :: cache.filter fun c => c.1 ≠ slot

/-- A fill: the least recently used entry is evicted from a full cache (R93). -/
def cacheFill (cache : List (SlotId × PageId)) (slot : SlotId) (page : PageId) : List (SlotId × PageId) :=
  (cacheTouch cache slot page).take Config.cacheSize

/-- The translation of a slot with the cache after it: a hit, a fill, or none for an unbound slot (R92, R93). -/
def PortGroup.translate (g : PortGroup) (slot : SlotId) : Option (PageId × List (SlotId × PageId)) :=
  match cacheLookup g.cache slot with
  | some p => some (p, cacheTouch g.cache slot p)
  | none =>
    match g.map[slot] with
    | some p => some (p, cacheFill g.cache slot p)
    | none => none

/-- The write data of an access; absent for a read (R99). -/
def dataOf (d : Dir) (data : Word) : Option Word :=
  match d with
  | .read => none
  | .write => some data

/-- A window access on an ATTACHED port (R92, R93): translated and on its way to its check, or UNMAPPED. -/
def PortGroup.windowAccess (g : PortGroup) (slot : SlotId) (w : WordIdx) (d : Dir) (enables : BitVec 4)
    (data : Word) : PortGroup :=
  match g.translate slot with
  | some (p, cache) =>
    { g with
      cache := cache
      access := some { slot := slot, word := w, page := p, dir := d, enables := enables, data := dataOf d data }
      answer := none }
  | none => { (g.recordFault .unmapped (some slot) none d) with answer := some .errorResponse }

/-- WINDOW_ACCESS (R87, R92): on a port that is not ATTACHED the error response and nothing else. -/
def execWindowAccess (n : HostId) (a : BitVec 18) (d : Dir) (enables : BitVec 4) (data : Word) (s : State) :
    Host.Outcome State Fault Refusal :=
  match decodeAddress a with
  | .window slot w =>
    .next
      (if s.accepts n then
        if (s.port n).phase = .attached then s.modifyPort n fun g => g.windowAccess slot w d enables data
        else s.answer n .errorResponse
      else s)
  | .register _ | .undefinedOffset | .neither => .refused .wrongAddress

/-- The in-flight record of an access that has passed its check (R99). -/
def WindowAccess.inFlight (a : WindowAccess) : InFlight :=
  { page := a.page, word := a.word, slot := a.slot, dir := a.dir, enables := a.enables, data := a.data,
    abandoned := false }

/-- The word operation an access requests (R99). -/
def WindowAccess.request (a : WindowAccess) (n : HostId) : WordOp :=
  { requester := .port n, page := a.page, word := a.word, dir := a.dir, enables := a.enables, data := a.data }

/-- The check passes: the pair joins the in-flight set, the record is made and the word operation requested (R97,
R99). -/
def State.passCheck (s : State) (n : HostId) (a : WindowAccess) : State :=
  ((s.modifyPage a.page fun e => e.setPair n (some a.dir)).modifyPort n
      fun g => { g with access := none, inFlight := some a.inFlight }).request (a.request n)

/-- The check fails: the error response and the fault (R97, R103). -/
def State.failCheck (s : State) (n : HostId) (a : WindowAccess) (k : FaultKind) : State :=
  s.modifyPort n fun g =>
    { (g.recordFault k (some a.slot) (some a.page) a.dir) with access := none, answer := some .errorResponse }

/-- ACCESS_CHECK (R97). -/
def execAccessCheck (n : HostId) (s : State) : Host.Outcome State Fault Refusal :=
  .next
    (match (s.port n).access with
    | none => s
    | some a =>
      match (s.page a.page).checkAccess n a.dir with
      | none => s.passCheck n a
      | some k => s.failCheck n a k)

/-- OUT_OF_RANGE_ACCESS (R88, R181): the error response, with fault RANGE on an ATTACHED port. -/
def execOutOfRangeAccess (n : HostId) (a : BitVec 18) (d : Dir) (s : State) : Host.Outcome State Fault Refusal :=
  match decodeAddress a with
  | .neither | .undefinedOffset =>
    .next
      (if s.accepts n then (s.modifyPort n fun g => g.recordFault .range none none d).answer n .errorResponse else s)
  | .register _ | .window _ _ => .refused .wrongAddress

/-- The cache after a FLUSH (R95). -/
def flushCache (cache : List (SlotId × PageId)) (first count : Nat) : List (SlotId × PageId) :=
  if count ≤ Config.flushRangeLimit then cache.filter fun c => ¬(first ≤ c.1.val ∧ c.1.val < first + count) else []

/-- The scope a FLUSH reports (R95). -/
def flushScope (count : Nat) : Result := if count ≤ Config.flushRangeLimit then .flushRange else .flushAll

/-- FLUSH (R95): the port's own access path takes it. -/
def execFlush (h : HostId) (s : State) : Host.Outcome State Fault Refusal :=
  .next
    (match s.arrival h .path with
    | some ⟨pl, .flush first count⟩ =>
      s.taking pl fun u =>
        (u.modifyPort h fun g => { g with cache := flushCache g.cache first count }).post pl
          { status := .ok, page := none, gen := none, result := some (flushScope count) }
    | _ => s)

/-- WINDOW_MAP_ENTRY_WRITE (R90, R181). -/
def execWindowMapEntryWrite (n : HostId) (slot : SlotId) (enables : BitVec 4) (data : Word) (s : State) :
    Host.Outcome State Fault Refusal :=
  .next
    (s.attachedWrite n fun g =>
      { g with
        map := g.map.set slot.val (mapEntryOfWord (mergeWord enables (mapEntryWord g.map[slot]) data)) slot.isLt })

end Sys2Proof.Machine
end

