-- ==== Sys2Proof/Machine/CommandUnit.lean ====
section
/-!
DEFINITION. The command unit (chapter 04): staging, SUBMIT, the taking of a command, FENCE, CANCEL's selection, and the
completion POP.
-/

namespace Sys2Proof.Machine

open Sys2Proof

/-- STAGING_WRITE (R67, R181). -/
def execStagingWrite (n : HostId) (k : Fin 4) (enables : BitVec 4) (data : Word) (s : State) :
    Host.Outcome State Fault Refusal :=
  .next (s.attachedWrite n fun g => { g with staging := g.staging.set k.val (mergeWord enables g.staging[k] data) k.isLt })

/-- The SUBMIT write (R68). -/
def State.submit (s : State) (n : HostId) : State :=
  if s.accepts n then
    if (s.port n).phase = .attached ∧ (s.port n).ring.length < Config.ringSize then
      (s.modifyPort n fun g => { g with ring := g.ring ++ [g.staging] }).answer n ackWrite
    else s.answer n .errorResponse
  else s

/-- SUBMIT (R68). -/
def execSubmit (n : HostId) (s : State) : Host.Outcome State Fault Refusal := .next (s.submit n)

/-- The place a command reserves when it is taken (R71, R72, R163). -/
def State.placeFor (s : State) (n : HostId) (d : Descriptor) : Place :=
  { host := n, session := (s.port n).sessionCount, seq := s.taken, tag := d.tag, kind := d.kindCode }

/-- The page of an ACQUIRE, kept for CANCEL (R39). -/
def Command.acquirePage : Except Status Command → Option PageId
  | .ok (.errand (.acquire p _ _)) => some p
  | _ => none

/-- The oldest uncompleted ACQUIRE of the port with the target tag (R39). -/
def PortGroup.selectAcquire (g : PortGroup) (target : BitVec 16) : Option (Place × PageId) :=
  g.uncompleted.findSome? fun t => if t.place.tag = target then t.page.map fun p => (t.place, p) else none

/-- What becomes of a command that has just been taken (R72 to R76): refused at once, dispatched to its owner, or, for
FENCE and CANCEL, begun by the command unit itself. -/
def State.dispatch (s : State) (pl : Place) : Except Status Command → State
  | .error st => s.post pl (Reply.bare st)
  | .ok (.errand e) => { s with transit := s.transit ++ [Transit.mk pl e] }
  | .ok (.cancel target) =>
    match (s.port pl.host).selectAcquire target with
    | none => s.post pl (Reply.bare .notFound)
    | some (target, p) => { s with transit := s.transit ++ [Transit.mk pl (.cancelRequest p target)] }
  | .ok .fence => s.modifyPort pl.host PortGroup.settleFence

/-- Take the descriptor at the head of the ring (R72). -/
def State.takeDescriptor (s : State) (n : HostId) (d : Descriptor) (rest : List Descriptor) : State :=
  let c := checkCommand (s.port n).manager d
  let pl := s.placeFor n d
  (({ s with taken := s.taken + 1 }).modifyPort n fun g =>
      { g with ring := rest, uncompleted := g.uncompleted ++ [Taken.mk pl (Command.acquirePage c)] }).dispatch
    pl c

/-- While the ring is RUNNING the command at its head is taken, if it is of the kinds wanted (R72). -/
def State.takeHead (s : State) (n : HostId) (wanted : Descriptor → Bool) : State :=
  if (s.port n).ringState = .running then
    match (s.port n).ring with
    | [] => s
    | d :: rest => if wanted d then s.takeDescriptor n d rest else s
  else s

/-- TAKE_COMMAND (R72). -/
def execTakeCommand (n : HostId) (s : State) : Host.Outcome State Fault Refusal := .next (s.takeHead n fun _ => true)

/-- CANCEL (R39): the command unit takes the CANCEL at the head of its ring. -/
def execCancel (n : HostId) (s : State) : Host.Outcome State Fault Refusal :=
  .next (s.takeHead n fun d => d.kindCode = Kind.cancel.code)

/-- FENCE (R76): the command unit takes the FENCE at the head of its ring. -/
def execFence (n : HostId) (s : State) : Host.Outcome State Fault Refusal :=
  .next (s.takeHead n fun d => d.kindCode = Kind.fence.code)

/-- COMPLETION_POP (R80). -/
def execCompletionPop (n : HostId) (s : State) : Host.Outcome State Fault Refusal :=
  .next (s.attachedWrite n fun g => { g with cq := g.cq.tail })

end Sys2Proof.Machine
end

