-- ==== Sys2Proof/Machine/Device.lean ====
section
/-!
DEFINITION. The device's commands: RESET, the end of the sweep, the timebase, and an upset of the array (R19, R106,
R115 to R117).
-/

namespace Sys2Proof.Machine

open Sys2Proof

/-- A port group with its reset values, keeping the level of PRSTn, which is a pin. -/
def PortGroup.afterReset (g : PortGroup) (manager : Bool) : PortGroup :=
  { PortGroup.reset with manager := manager, prst := g.prst }

/-- The array when RESET is asserted (R117): a sweep stops at a word the spec does not give, and a write being performed
may or may not have changed its word; both are free values. -/
def State.storeAtReset (s : State) : Store :=
  match s.phase, s.arbiter.performing with
  | .sweeping, _ => s.store.sweptTo (Config.sweepReached s.freeCount)
  | .ready, some op =>
    if op.dir = .write ∧ Config.resetWriteLands s.freeCount then
      s.store.writeWord op.page op.word op.enables (op.data.getD 0)
    else s.store
  | _, _ => s.store

/-- The assertion of RESET ends every activity without completion, empties every block and holds the timebase at 0
(R18, R19, R82, R117, R133, R144, R151, R155). -/
def State.resetAssert (s : State) : State :=
  if s.phase = .inReset then s
  else
    { s with
      phase := .inReset, timebase := 0, pages := Vector.replicate 256 Entry.reset,
      ports := mapVec (fun g => g.afterReset g.manager) s.ports, transit := [], taken := 0, engine := Engine.reset,
      store := s.storeAtReset, arbiter := { Arbiter.reset with lastServed := s.arbiter.lastServed },
      freeCount := s.freeCount + 1 }

/-- The negation of RESET: every block at its reset values, the straps sampled, the sweep begun (R115, R171). -/
def State.resetNegate (s : State) (straps : BitVec 4) : State :=
  if s.phase = .inReset then
    { s with
      phase := .sweeping, timebase := 0, pages := Vector.replicate 256 Entry.reset,
      ports := mapVec (fun n => (s.port n).afterReset (straps.getLsbD n.val)) #v[(0 : HostId), 1, 2, 3],
      transit := [], taken := 0, engine := Engine.reset, arbiter := Arbiter.reset, settings := Settings.reset }
  else s

/-- The sweep has written its last word: every byte zero with correct parity, status READY (R105, R115, R116). -/
def State.sweepEnd (s : State) : State :=
  if s.phase = .sweeping then { s with phase := .ready, store := Store.zero } else s

/-- One microsecond (R19): held at 0 while RESET is asserted; deadlines equal to the new value deliver their expiries. -/
def State.tick (s : State) : State :=
  if s.phase = .inReset then s
  else ({ s with timebase := s.timebase + 1 }).mapPages fun e => e.expire (s.timebase + 1)

/-- DEVICE_RESET_ASSERT (R117). -/
def execDeviceResetAssert (s : State) : Host.Outcome State Fault Refusal := .next s.resetAssert

/-- DEVICE_RESET_NEGATE (R115). -/
def execDeviceResetNegate (straps : BitVec 4) (s : State) : Host.Outcome State Fault Refusal :=
  .next (s.resetNegate straps)

/-- INITIALIZATION_SWEEP_END (R116). -/
def execInitializationSweepEnd (s : State) : Host.Outcome State Fault Refusal := .next s.sweepEnd

/-- TIMEBASE_ADVANCE (R19). -/
def execTimebaseAdvance (s : State) : Host.Outcome State Fault Refusal := .next s.tick

/-- ARRAY_UPSET (R106). -/
def execArrayUpset (p : PageId) (w : WordIdx) (b : ByteIdx) (flips : Byte) (parityFlips : Bool) (s : State) :
    Host.Outcome State Fault Refusal :=
  .next { s with store := s.store.upset (byteAddress p w b) flips parityFlips }

end Sys2Proof.Machine
end

