-- ==== Sys2Proof/Machine/Engine.lean ====
section
/-!
DEFINITION. The page engine's shared operations (chapter 07): the check register, word requests, the start, the stop and
the end of a job.
-/

namespace Sys2Proof.Machine

open Sys2Proof

/-- One bit through the check register, most significant bit first, polynomial 0x1021 (R125). -/
def crcBit (r : BitVec 16) (b : Bool) : BitVec 16 :=
  if r.getLsbD 15 ^^ b then (r <<< 1) ^^^ 0x1021 else r <<< 1

/-- One byte through the check register, most significant bit first (R125). -/
def crcByte (r : BitVec 16) (v : Byte) : BitVec 16 :=
  [7, 6, 5, 4, 3, 2, 1, 0].foldl (fun acc i => crcBit acc (v.getLsbD i)) r

/-- One word through the check register, byte 0 first (R125). -/
def crcWord (r : BitVec 16) (w : Word) : BitVec 16 :=
  crcByte (crcByte (crcByte (crcByte r (w.byte 0)) (w.byte 1)) (w.byte 2)) (w.byte 3)

/-- The check register at admission (R120). -/
def crcStart : BitVec 16 := 0xFFFF

/-- The words of a page (R126). -/
def pageWords : Nat := 256

/-- A job at admission (R120): progress 0, queued, no abort mark. -/
def Job.fresh (pl : Place) (w : Work) (target : PageId) : Job :=
  { place := pl, work := w, target := target, progress := 0, held := none, marked := false, running := false,
    stopping := false }

/-- The job is a scrub (R132). -/
def Job.isScrub (j : Job) : Bool := j.work = .scrub

/-- The pages a job names (R120): the target, and for a COPY the source. -/
def Job.pages (j : Job) : List PageId :=
  match j.work with
  | .copy source => [source, j.target]
  | _ => [j.target]

/-- The word whose work is next: word number `progress` (R124). -/
def Job.nextWord (j : Job) : WordIdx := Fin.ofNat 256 j.progress

/-- A read request of the engine. -/
def engineRead (p : PageId) (w : WordIdx) : WordOp :=
  { requester := .engine, page := p, word := w, dir := .read, enables := 0xF, data := none }

/-- A write request of the engine, all four enables asserted (R124). -/
def engineWrite (p : PageId) (w : WordIdx) (data : Word) : WordOp :=
  { requester := .engine, page := p, word := w, dir := .write, enables := 0xF, data := some data }

/-- The word operation a running job requests next (R124). -/
def Job.request (j : Job) : WordOp :=
  match j.work with
  | .fill pattern => engineWrite j.target j.nextWord pattern
  | .checksum _ => engineRead j.target j.nextWord
  | .scrub => engineWrite j.target j.nextWord 0
  | .copy source =>
    match j.held with
    | none => engineRead source j.nextWord
    | some data => engineWrite j.target j.nextWord data

/-- Change the engine. -/
def State.modifyEngine (s : State) (f : Engine → Engine) : State := { s with engine := f s.engine }

/-- Replace the queue. -/
def State.setQueue (s : State) (q : List Job) : State := s.modifyEngine fun g => { g with queue := q }

/-- The commands that the page engine is yet to take (R75): those in transit that it takes after the entries, the jobs
whose checks have passed (R121), and the scrubs handed over by an entry (R132). -/
def State.engineBound (s : State) : List Place :=
  (s.transit.filter fun t => t.errand.boundForEngine).map Transit.place ++ s.engine.arriving.map Job.place ++
    s.engine.scrubs.map Job.place

/-- The engine takes one host's commands in the order they were dispatched (R75): no earlier command of the host is yet
to be taken (notes/assumptions/18.md). -/
def State.engineTurn (s : State) (pl : Place) : Bool :=
  s.engineBound.all fun q => q.host ≠ pl.host || pl.seq ≤ q.seq

/-- The running job, if any (R119). -/
def Engine.running (g : Engine) : Option Job := g.queue.find? fun j => j.running

/-- Replace the record of a job in the queue. -/
def State.setJob (s : State) (j : Job) : State :=
  s.setQueue (s.engine.queue.map fun k => if k.place = j.place then j else k)

/-- Remove a job's references, each at the entry of its page (R11); a scrub's removal is the scrub end (R176). -/
def State.removeRefs (s : State) (j : Job) : State :=
  match j.work with
  | .copy source => (s.modifyPage source fun e => e.removeRef j.place).modifyPage j.target fun e => e.removeRef j.place
  | .scrub => s.modifyPage j.target fun e => e.endScrub j.place
  | _ => s.modifyPage j.target fun e => e.removeRef j.place

/-- Set the running flag in a job's references (R123). -/
def State.runRefs (s : State) (j : Job) : State :=
  j.pages.foldl (fun t p => t.modifyPage p fun e => e.runRef j.place) s

/-- Some reference of the job carries an abort mark (R121). -/
def State.refMarked (s : State) (j : Job) : Bool := j.pages.any fun p => (s.page p).hasMarkedRef j.place

/-- The completion of a job: the target page, and for a CHECKSUM that ends OK the check value (R126, R127, R130). -/
def Job.reply (j : Job) (st : Status) : Reply :=
  { status := st, page := some j.target, gen := none,
    result :=
      match st, j.work with
      | .ok, .checksum r => some (.check r)
      | _, _ => none }

/-- Post a job's completion (R126, R127, R128, R130). -/
def State.completeJob (s : State) (j : Job) (st : Status) : State := s.post j.place (j.reply st)

/-- Start the oldest job of a queue in which none runs (R123): a job that carries an abort mark does not start but
completes ABORTED, and the next is taken. -/
def State.startFrom (s : State) : List Job → State
  | [] => s.setQueue []
  | j :: js =>
    if j.marked then (((s.removeRefs j).completeJob j .aborted)).startFrom js
    else (((s.setQueue ({ j with running := true } :: js)).runRefs j).request j.request)

/-- Start the oldest job if none runs (R123). -/
def State.startNext (s : State) : State :=
  match s.engine.running with
  | some _ => s
  | none => s.startFrom s.engine.queue

/-- A job leaves the queue. -/
def State.dequeue (s : State) (j : Job) : State :=
  s.setQueue (s.engine.queue.filter fun k => k.place ≠ j.place)

/-- The end of the running job, its references removed before its completion is posted, and the next oldest started
(R126, R128, R130). -/
def State.endJob (s : State) (j : Job) (st : Status) : State :=
  ((((s.removeRefs j).dequeue j).completeJob j st)).startNext

/-- The running job goes on: its record replaced, its next word requested (R124). -/
def State.advanceJob (s : State) (j : Job) : State := (s.setJob j).request j.request

/-- A word of the running job has been written (R124, R126, R128). -/
def State.engineWriteEnd (s : State) (j : Job) : State :=
  let j' := { j with progress := j.progress + 1, held := none }
  if j.stopping then s.endJob j' .aborted
  else if pageWords ≤ j'.progress then s.endJob j' .ok
  else s.advanceJob j'

/-- A word of the running job has been read without a mismatch (R124, R126, R128). -/
def State.engineReadEnd (s : State) (j : Job) (data : Word) : State :=
  if j.stopping then s.endJob j .aborted
  else
    match j.work with
    | .copy _ => s.advanceJob { j with held := some data }
    | .checksum r =>
      let j' := { j with work := .checksum (crcWord r data), progress := j.progress + 1 }
      if pageWords ≤ j'.progress then s.endJob j' .ok else s.advanceJob j'
    | .fill _ | .scrub => s

/-- A read of the running job has met a mismatch (R130): the report, with the removal of the reference on the page read,
is one event at that page's entry; then the other references, the queue place, the completion and the next job. -/
def State.engineParity (s : State) (j : Job) (p : PageId) : State :=
  (s.applyEntry p (((s.page p).removeRef j.place).parityReport (s.env p))).endJob j .parity

/-- The running job stops at once: its pending request is withdrawn (R128). -/
def State.withdrawAndStop (s : State) (j : Job) : State :=
  ({ s with arbiter := s.arbiter.withdraw .engine }).endJob j .aborted

/-- The engine takes an abort event for the running job (R128). -/
def State.stopRunning (s : State) (j : Job) : State :=
  if s.arbiter.performs .engine then s.setJob { j with stopping := true } else s.withdrawAndStop j

/-- A queued job leaves at once without a word (R127). -/
def State.dropQueued (s : State) (j : Job) : State := (s.removeRefs j).dequeue j

end Sys2Proof.Machine
end

