-- ==== Sys2Proof/Machine/Jobs.lean ====
section
/-!
DEFINITION. The engine commands (chapter 07): the holding checks of COPY, FILL and CHECKSUM, the queueing, the start, and
the abort event.
-/

namespace Sys2Proof.Machine

open Sys2Proof

/-- The reference that a passing check places (R11, R121): queued, no abort mark. -/
def queuedRef (pl : Place) (need : Option Mode) : JobRef :=
  { place := pl, need := need, running := false, marked := false }

/-- A job whose checks have passed is on its way to the engine (R121). -/
def State.sendJob (s : State) (j : Job) : State := s.modifyEngine fun g => { g with arriving := g.arriving ++ [j] }

/-- The holding check of a job on its last page (R121, R122): the reference and the job, or NOT_HELD with the target page. -/
def State.lastCheck (s : State) (p : PageId) (need : Mode) (j : Job) : State :=
  if (s.page p).checkHolding j.place.host need then
    (s.modifyPage p fun e => e.addRef (queuedRef j.place (some need))).sendJob j
  else (s.removeRefs j).completeJob j .notHeld

/-- COPY at the source page (R121, R122). -/
def execCopy (h : HostId) (p : PageId) (s : State) : Host.Outcome State Fault Refusal :=
  .next
    (match s.arrival h (.entry p) with
    | some ⟨pl, .copySource source destination⟩ =>
      if s.current pl then
        if (s.page source).checkHolding h .S then
          (s.modifyPage source fun e => e.addRef (queuedRef pl (some .S))).redirect pl
            (.copyDestination source destination)
        else (s.dropTransit pl).completeJob (Job.fresh pl (.copy source) destination) .notHeld
      else s.dropTransit pl
    | _ => s)

/-- COPY at the destination page (R121, R122): a COPY whose session has ended takes its source reference with it. -/
def execCopyDestinationCheck (h : HostId) (p : PageId) (s : State) : Host.Outcome State Fault Refusal :=
  .next
    (match s.arrival h (.entry p) with
    | some ⟨pl, .copyDestination source destination⟩ =>
      let j := Job.fresh pl (.copy source) destination
      if s.current pl then (s.dropTransit pl).lastCheck destination .X j
      else (s.dropTransit pl).removeRefs j
    | _ => s)

/-- FILL at its page (R121, R122). -/
def execFill (h : HostId) (p : PageId) (s : State) : Host.Outcome State Fault Refusal :=
  .next
    (match s.arrival h (.entry p) with
    | some ⟨pl, .fill target pattern⟩ => s.taking pl fun u => u.lastCheck target .X (Job.fresh pl (.fill pattern) target)
    | _ => s)

/-- CHECKSUM at its page (R121, R122). -/
def execChecksum (h : HostId) (p : PageId) (s : State) : Host.Outcome State Fault Refusal :=
  .next
    (match s.arrival h (.entry p) with
    | some ⟨pl, .checksum target⟩ =>
      s.taking pl fun u => u.lastCheck target .S (Job.fresh pl (.checksum crcStart) target)
    | _ => s)

/-- The job of a host that the engine can take next (R75, R121): one whose checks have passed, in its host's order. -/
def State.engineArrival (s : State) (h : HostId) : Option Job :=
  s.engine.arriving.find? fun j => j.place.host = h && s.engineTurn j.place

/-- The engine takes a job whose checks have passed (R121 steps 3 to 5): nothing of an ended session, ABORTED for one
marked on the way, ENGINE_FULL when the queue holds 8 jobs, and otherwise the tail of the queue. -/
def State.queueJob (s : State) (j : Job) : State :=
  if !s.current j.place then s.removeRefs j
  else if s.refMarked j then (s.removeRefs j).completeJob j .aborted
  else if Config.engineQueueSize ≤ s.engine.queue.length then (s.removeRefs j).completeJob j .engineFull
  else s.setQueue (s.engine.queue ++ [j])

/-- JOB_QUEUEING (R121). -/
def execJobQueueing (h : HostId) (s : State) : Host.Outcome State Fault Refusal :=
  .next
    (match s.engineArrival h with
    | none => s
    | some j =>
      (s.modifyEngine fun g => { g with arriving := g.arriving.filter fun k => k.place ≠ j.place }).queueJob j)

/-- JOB_START (R123). -/
def execJobStart (s : State) : Host.Outcome State Fault Refusal := .next s.startNext

/-- The engine takes the abort event of a job (R127, R128): disregarded for a job that has left the queue (R129). -/
def State.takeAbort (s : State) (job : Place) : State :=
  match s.engine.queue.find? fun j => j.place = job with
  | none => s
  | some j => if j.running then s.stopRunning j else (s.dropQueued j).completeJob j .aborted

/-- ENGINE_ABORT_EVENT (R127): the engine takes one of the abort events handed to it. -/
def execEngineAbortEvent (which : Nat) (s : State) : Host.Outcome State Fault Refusal :=
  .next
    (match s.engine.abortEvents[which]? with
    | none => s
    | some job => (s.modifyEngine fun g => { g with abortEvents := g.abortEvents.eraseIdx which }).takeAbort job)

end Sys2Proof.Machine
end

