-- ==== Sys2Proof/Machine/Ownership.lean ====
section
/-!
DEFINITION. The ownership commands at the page entry (chapters 01 to 03): ACQUIRE, RELEASE, DOWNGRADE, CANCEL_REQUEST,
QUERY, WAIT_TIMEOUT, RECALL_DEADLINE and DRAIN_END.
-/

namespace Sys2Proof.Machine

open Sys2Proof

/-- An entry takes the command that has arrived from a host, if `f` gives it a meaning there (R21, R163). -/
def State.entryTakes (s : State) (h : HostId) (p : PageId) (f : Transit → Option (State → EntryOut)) : State :=
  match s.arrival h (.entry p) with
  | none => s
  | some t =>
    match f t with
    | none => s
    | some g => s.taking t.place fun u => u.applyEntry p (g u)

/-- The host's quota count already equals its quota (R25). -/
def State.overQuota (s : State) (h : HostId) : Bool := s.quota h ≤ s.quotaCount h

/-- All waiter records are in use (R7). -/
def State.poolFull (s : State) : Bool := Config.waiterPoolSize ≤ s.waitersInUse

/-- ACQUIRE (R22). -/
def execAcquire (h : HostId) (p : PageId) (s : State) : Host.Outcome State Fault Refusal :=
  .next
    (s.entryTakes h p fun t =>
      match t.errand with
      | .acquire _ m limit =>
        some fun u => (u.page p).acquire (u.env p) (u.overQuota h) u.poolFull t.place m limit
      | _ => none)

/-- RELEASE (R31). -/
def execRelease (h : HostId) (p : PageId) (s : State) : Host.Outcome State Fault Refusal :=
  .next
    (s.entryTakes h p fun t =>
      match t.errand with
      | .release _ gen => some fun u => (u.page p).release (u.env p) t.place gen
      | _ => none)

/-- DOWNGRADE (R33). -/
def execDowngrade (h : HostId) (p : PageId) (s : State) : Host.Outcome State Fault Refusal :=
  .next
    (s.entryTakes h p fun t =>
      match t.errand with
      | .downgrade _ gen => some fun u => (u.page p).downgrade (u.env p) t.place gen
      | _ => none)

/-- CANCEL_REQUEST (R40). -/
def execCancelRequest (h : HostId) (p : PageId) (s : State) : Host.Outcome State Fault Refusal :=
  .next
    (s.entryTakes h p fun t =>
      match t.errand with
      | .cancelRequest _ target => some fun u => (u.page p).cancelRequest (u.env p) t.place target
      | _ => none)

/-- QUERY (R17). -/
def execQuery (h : HostId) (p : PageId) (s : State) : Host.Outcome State Fault Refusal :=
  .next
    (s.entryTakes h p fun t =>
      match t.errand with
      | .query _ => some fun u => (u.page p).query (u.env p) t.place
      | _ => none)

/-- WAIT_TIMEOUT (R36). -/
def execWaitTimeout (h : HostId) (p : PageId) (s : State) : Host.Outcome State Fault Refusal :=
  .next (s.applyEntry p ((s.page p).waitTimeout (s.env p) h))

/-- RECALL_DEADLINE (R52). -/
def execRecallDeadline (p : PageId) (s : State) : Host.Outcome State Fault Refusal :=
  .next (s.applyEntry p ((s.page p).recallDeadline (s.env p)))

/-- DRAIN_END (R63, R64). -/
def execDrainEnd (p : PageId) (s : State) : Host.Outcome State Fault Refusal :=
  .next (s.applyEntry p ((s.page p).drainEnd (s.env p)))

end Sys2Proof.Machine
end

