-- ==== Sys2Proof/Machine/Manager.lean ====
section
/-!
DEFINITION. Manager functions (chapter 11) and the admission of a scrub (R132): RETIRE, RESTORE, SCRUB_ADMISSION,
SCRUB_REFUSAL, SET_QUOTA and SET_RECALL_LIMIT.
-/

namespace Sys2Proof.Machine

open Sys2Proof

/-- RETIRE (R173). -/
def execRetire (h : HostId) (p : PageId) (s : State) : Host.Outcome State Fault Refusal :=
  .next
    (s.entryTakes h p fun t =>
      match t.errand with
      | .retire _ => some fun u => (u.page p).retire (u.env p) t.place
      | _ => none)

/-- RESTORE at the entry (R175): a RETIRED page goes to SCRUB and hands a scrub to the engine. -/
def State.restore (s : State) (p : PageId) (pl : Place) : State :=
  if (s.page p).state = .retired then
    (s.modifyPage p fun e => { e with state := .scrub }).modifyEngine fun g =>
      { g with scrubs := g.scrubs ++ [Job.fresh pl .scrub p] }
  else s.post pl (Reply.ofPage .badCommand p)

/-- RESTORE (R175). -/
def execRestore (h : HostId) (p : PageId) (s : State) : Host.Outcome State Fault Refusal :=
  .next
    (match s.arrival h (.entry p) with
    | some ⟨pl, .restore target⟩ => s.taking pl fun u => u.restore target pl
    | _ => s)

/-- The reference of a scrub: mode needed none (R132). -/
def scrubRef (pl : Place) : JobRef :=
  { place := pl, need := none, running := false, marked := false }

/-- The engine takes a scrub (R132): queued, or refused when the queue holds 8 jobs. -/
def State.admitScrub (s : State) (j : Job) : State :=
  if s.engine.queue.length < Config.engineQueueSize then
    (s.setQueue (s.engine.queue ++ [j])).modifyPage j.target fun e => e.addRef (scrubRef j.place)
  else s.modifyEngine fun g => { g with refusals := g.refusals ++ [j] }

/-- The scrub of a page that the engine can take (R75, R132): handed over by the entry, in its host's order. -/
def State.scrubArrival (s : State) (p : PageId) : Option Job :=
  s.engine.scrubs.find? fun j => j.target = p && s.engineTurn j.place

/-- SCRUB_ADMISSION (R132). -/
def execScrubAdmission (p : PageId) (s : State) : Host.Outcome State Fault Refusal :=
  .next
    (match s.scrubArrival p with
    | none => s
    | some j =>
      (s.modifyEngine fun g => { g with scrubs := g.scrubs.filter fun k => k.place ≠ j.place }).admitScrub j)

/-- SCRUB_REFUSAL (R175). -/
def execScrubRefusal (p : PageId) (s : State) : Host.Outcome State Fault Refusal :=
  .next
    (match s.engine.refusals.find? fun j => j.target = p with
    | none => s
    | some j =>
      (s.modifyEngine fun g => { g with refusals := g.refusals.filter fun k => k.place ≠ j.place }).applyEntry p
        ((s.page p).scrubRefused (s.env p) j.place))

/-- The settings take a SET_QUOTA (R177). -/
def State.setQuota (s : State) (pl : Place) (h : HostId) (limit : Nat) : State :=
  if limit < s.quotaCount h then s.post pl (Reply.bare .belowHeld)
  else
    ({ s with settings := { s.settings with quota := s.settings.quota.set h.val limit h.isLt } }).post pl
      (Reply.bare .ok)

/-- SET_QUOTA (R177). -/
def execSetQuota (h : HostId) (s : State) : Host.Outcome State Fault Refusal :=
  .next
    (match s.arrival h .settings with
    | some ⟨pl, .setQuota named limit⟩ => s.taking pl fun u => u.setQuota pl named limit
    | _ => s)

/-- SET_RECALL_LIMIT (R178). -/
def execSetRecallLimit (h : HostId) (s : State) : Host.Outcome State Fault Refusal :=
  .next
    (match s.arrival h .settings with
    | some ⟨pl, .setRecallLimit limit⟩ =>
      s.taking pl fun u =>
        ({ u with settings := { u.settings with recallLimit := limit } }).post pl (Reply.bare .ok)
    | _ => s)

end Sys2Proof.Machine
end

