-- ==== Sys2Proof/Machine/Records.lean ====
section
/-!
DEFINITION. The host's writes to its notice unit, fault unit and event logic, and to a register word with no behaviour of
its own (chapters 08, 09 and 12).
-/

namespace Sys2Proof.Machine

open Sys2Proof

/-- NOTICE_POP (R150). -/
def execNoticePop (n : HostId) (s : State) : Host.Outcome State Fault Refusal :=
  .next (s.attachedWrite n fun g => { g with notices := g.notices.tail })

/-- NOTICE_LOST_CLEAR (R149). -/
def execNoticeLostClear (n : HostId) (s : State) : Host.Outcome State Fault Refusal :=
  .next (s.attachedWrite n fun g => { g with noticeLost := false })

/-- FAULT_POP (R142). -/
def execFaultPop (n : HostId) (s : State) : Host.Outcome State Fault Refusal :=
  .next (s.attachedWrite n fun g => { g with faults := g.faults.tail })

/-- OVERFLOW_CLEAR (R143). -/
def execOverflowClear (n : HostId) (s : State) : Host.Outcome State Fault Refusal :=
  .next (s.attachedWrite n fun g => { g with overflow := false })

/-- EVENT_ENABLES_WRITE (R154): byte 0 enabled replaces all five, otherwise none changes. -/
def execEventEnablesWrite (n : HostId) (enables : BitVec 4) (data : Word) (s : State) :
    Host.Outcome State Fault Refusal :=
  .next (s.attachedWrite n fun g => { g with enables := eventsOfWord (mergeWord enables (eventsWord g.enables) data) })

/-- REGISTER_WRITE (R180): acknowledged on an ATTACHED port, and on every port for an identification word; the error
response otherwise; nothing changes. -/
def execRegisterWrite (n : HostId) (a : BitVec 18) (_enables : BitVec 4) (_data : Word) (s : State) :
    Host.Outcome State Fault Refusal :=
  match decodeAddress a with
  | .register w =>
    if w.isPassive then
      .next
        (if s.accepts n then
          s.answer n (if w.isIdentification || (s.port n).phase = .attached then ackWrite else .errorResponse)
        else s)
    else .refused .wrongAddress
  | .undefinedOffset | .neither | .window _ _ => .refused .wrongAddress

end Sys2Proof.Machine
end

