-- ==== Sys2Proof/Machine/Sessions.lean ====
section
/-!
DEFINITION. Port sessions (chapter 10): PRSTn, ATTACH, DETACH, the teardown at the page engine and the page entries, and
the end of DETACHING.
-/

namespace Sys2Proof.Machine

open Sys2Proof

/-- The start of DETACHING at the blocks of the port's own group (R84, R144, R151, R154, R162): emptied, and a teardown
that neither the engine nor any entry has taken. -/
def PortGroup.startDetaching (g : PortGroup) : PortGroup :=
  { g with
    phase := .detaching, staging := Vector.replicate 4 0, ring := [], uncompleted := [], cq := [], notices := [],
    noticeLost := false, faults := [], overflow := false, enables := Events.none, map := Vector.replicate 128 none,
    cache := [], access := none, teardownEngine := false, teardownEntries := List.finRange 256 }

/-- PRSTn abandons the port's in-flight access (R102): dropped at the arbiter in stage AWAITING, marked and left to
complete in stage PERFORMING. -/
def State.abandon (s : State) (n : HostId) : State :=
  match (s.port n).inFlight with
  | none => s
  | some r =>
    if s.arbiter.performs (.port n) then
      s.modifyPort n fun g => { g with inFlight := some { r with abandoned := true } }
    else
      (({ s with arbiter := s.arbiter.withdraw (.port n) }).modifyPage r.page fun e => e.setPair n none).modifyPort n
        fun g => { g with inFlight := none }

/-- The assertion of PRSTn (R161): DETACHING starts on an ATTACHED port, and an outstanding access is abandoned without
an answer. -/
def State.prstAssert (s : State) (n : HostId) : State :=
  if (s.port n).prst then s
  else
    let t := s.modifyPort n fun g => { g with prst := true, answer := none }
    if (s.port n).phase = .attached then (t.abandon n).modifyPort n PortGroup.startDetaching else t

/-- PRST_ASSERT (R161). -/
def execPrstAssert (n : HostId) (s : State) : Host.Outcome State Fault Refusal := .next (s.prstAssert n)

/-- PRST_NEGATE (R161): the port state is unchanged. -/
def execPrstNegate (n : HostId) (s : State) : Host.Outcome State Fault Refusal :=
  .next (s.modifyPort n fun g => { g with prst := false })

/-- The ATTACH write (R159). -/
def State.attach (s : State) (n : HostId) : State :=
  if s.accepts n then
    if (s.port n).phase = .detached ∧ s.phase = .ready ∧ (s.port n).prst = false then
      (s.modifyPort n fun g =>
          { g with phase := .attached, sessionCount := g.sessionCount + 1, enables := Events.none }).answer n ackWrite
    else s.answer n .errorResponse
  else s

/-- ATTACH (R159). -/
def execAttach (n : HostId) (s : State) : Host.Outcome State Fault Refusal := .next (s.attach n)

/-- DETACH (R160): acknowledged on an ATTACHED port, the error response on any other. -/
def execDetach (n : HostId) (s : State) : Host.Outcome State Fault Refusal :=
  .next (s.attachedWrite n PortGroup.startDetaching)

/-- The host's queued jobs other than scrubs leave the queue with their references (R131). -/
def State.dropQueuedOf (s : State) (n : HostId) : State :=
  (s.engine.queue.filter fun j => j.place.host = n && !j.running && !j.isScrub).foldl State.dropQueued s

/-- The running job of the host, if it is not a scrub, is marked and stops (R131). -/
def State.stopRunningOf (s : State) (n : HostId) : State :=
  match s.engine.running with
  | none => s
  | some j =>
    if j.place.host = n && !j.isScrub then
      ((s.mapPages fun e => e.markRef j.place).setJob { j with marked := true }).stopRunning { j with marked := true }
    else s

/-- The page engine takes the teardown of a host as one event (R131, R164). -/
def State.teardownAtEngine (s : State) (n : HostId) : State :=
  if (s.port n).phase = .detaching ∧ (s.port n).teardownEngine = false then
    ((s.dropQueuedOf n).stopRunningOf n).modifyPort n fun g => { g with teardownEngine := true }
  else s

/-- TEARDOWN_AT_ENGINE (R131). -/
def execTeardownAtEngine (n : HostId) (s : State) : Host.Outcome State Fault Refusal := .next (s.teardownAtEngine n)

/-- A page entry takes the teardown of a host, after the engine has taken it (R57, R164, R165). -/
def State.teardownAtEntry (s : State) (n : HostId) (p : PageId) : State :=
  if (s.port n).phase = .detaching ∧ (s.port n).teardownEngine ∧ p ∈ (s.port n).teardownEntries then
    (s.applyEntry p ((s.page p).teardown (s.env p) n)).modifyPort n
      fun g => { g with teardownEntries := g.teardownEntries.filter fun q => q ≠ p }
  else s

/-- TEARDOWN_AT_ENTRY (R165). -/
def execTeardownAtEntry (n : HostId) (p : PageId) (s : State) : Host.Outcome State Fault Refusal :=
  .next (s.teardownAtEntry n p)

/-- The engine runs a job of the host other than a scrub (R167). -/
def State.runsJobOf (s : State) (n : HostId) : Bool :=
  s.engine.queue.any fun j => j.running && j.place.host = n && !j.isScrub

/-- Every condition for the end of DETACHING holds (R167). -/
def State.canDetach (s : State) (n : HostId) : Bool :=
  (s.port n).phase = .detaching && (s.port n).teardownEngine && (s.port n).teardownEntries.isEmpty &&
    (s.port n).inFlight.isNone && !s.runsJobOf n

/-- PORT_DETACHED (R167). -/
def execPortDetached (n : HostId) (s : State) : Host.Outcome State Fault Refusal :=
  .next (if s.canDetach n then s.modifyPort n fun g => { g with phase := .detached } else s)

end Sys2Proof.Machine
end

