-- ==== Sys2Proof/Machine/StoreUnit.lean ====
section
/-!
DEFINITION. The end of a word operation (R110) and what it brings to its requester: the end of a window access (R100 to
R102) or of an engine word (R124 to R130), with the parity report of a read that met a mismatch (R113).
-/

namespace Sys2Proof.Machine

open Sys2Proof

/-- The in-flight record of a port ends: an abandoned access gets no answer (R100, R102). -/
def PortGroup.endAccess (g : PortGroup) (r : InFlight) (a : Answer) : PortGroup :=
  if r.abandoned then { g with inFlight := none } else { g with inFlight := none, answer := some a }

/-- The answer of an access whose word operation ended without a parity failure (R100). -/
def InFlight.answer (r : InFlight) (m : Store) : Answer :=
  match r.dir with
  | .read => .acknowledge (some (m.readWord r.page r.word))
  | .write => ackWrite

/-- The end of a window access without a parity failure (R100). -/
def State.accessEnd (s : State) (n : HostId) (r : InFlight) : State :=
  (s.modifyPage r.page fun e => e.setPair n none).modifyPort n fun g => g.endAccess r (r.answer s.store)

/-- The end of a host read with a parity failure (R101, R102): the pair leaves and the report is taken in one event; the
fault is recorded unless the access was abandoned. -/
def State.accessParity (s : State) (n : HostId) (r : InFlight) : State :=
  (s.applyEntry r.page (((s.page r.page).setPair n none).parityReport (s.env r.page))).modifyPort n fun g =>
    (if r.abandoned then g else g.recordFault .parity (some r.slot) (some r.page) .read).endAccess r .errorResponse

/-- The end of an operation of an access path. -/
def State.portOperationEnd (s : State) (n : HostId) (failed : Bool) : State :=
  match (s.port n).inFlight with
  | none => s
  | some r => if failed then s.accessParity n r else s.accessEnd n r

/-- The end of an operation of the page engine. -/
def State.engineOperationEnd (s : State) (op : WordOp) (failed : Bool) : State :=
  match s.engine.running with
  | none => s
  | some j =>
    if failed then s.engineParity j op.page
    else
      match op.dir with
      | .write => s.engineWriteEnd j
      | .read => s.engineReadEnd j (s.store.readWord op.page op.word)

/-- The array after an operation (R108, R109). -/
def Store.perform (m : Store) (op : WordOp) : Store :=
  match op.dir with
  | .read => m
  | .write => m.writeWord op.page op.word op.enables (op.data.getD 0)

/-- The operation ends with a parity failure: only a read checks (R108, R109). -/
def Store.failed (m : Store) (op : WordOp) : Bool :=
  match op.dir with
  | .read => m.wordMismatched op.page op.word
  | .write => false

/-- The operation being performed ends: the array changed, the requester told (R110). -/
def State.operationEnd (s : State) (op : WordOp) : State :=
  let t := { s with store := s.store.perform op, arbiter := { s.arbiter with performing := none } }
  match op.requester with
  | .port n => t.portOperationEnd n (s.store.failed op)
  | .engine => t.engineOperationEnd op (s.store.failed op)

/-- The arbiter makes its choice (R111). -/
def State.choose (s : State) : State := { s with arbiter := s.arbiter.choose }

/-- WORD_OPERATION_END (R110): the end, then the arbiter's choice of the next request. -/
def execWordOperationEnd (s : State) : Host.Outcome State Fault Refusal :=
  .next
    (match s.arbiter.performing with
    | none => s
    | some op => (s.operationEnd op).choose)

end Sys2Proof.Machine
end

