-- ==== Sys2Proof/Machine/Dispatch.lean ====
section
/-! DEFINITION. The meaning of every command: one arm per constructor of Instr, in the table's order. -/

namespace Sys2Proof.Machine

open Sys2Proof

-- A command's effect on everything but the queue.
def exec (i : Instr) (s : State) : Host.Outcome State Fault Refusal :=
  match i with
  | .deviceResetAssert => Sys2Proof.Machine.execDeviceResetAssert s
  | .deviceResetNegate straps => Sys2Proof.Machine.execDeviceResetNegate straps s
  | .initializationSweepEnd => Sys2Proof.Machine.execInitializationSweepEnd s
  | .prstAssert port => Sys2Proof.Machine.execPrstAssert port s
  | .prstNegate port => Sys2Proof.Machine.execPrstNegate port s
  | .attach port => Sys2Proof.Machine.execAttach port s
  | .detach port => Sys2Proof.Machine.execDetach port s
  | .teardownAtEngine port => Sys2Proof.Machine.execTeardownAtEngine port s
  | .teardownAtEntry port page => Sys2Proof.Machine.execTeardownAtEntry port page s
  | .portDetached port => Sys2Proof.Machine.execPortDetached port s
  | .stagingWrite port index en data => Sys2Proof.Machine.execStagingWrite port index en data s
  | .submit port => Sys2Proof.Machine.execSubmit port s
  | .takeCommand port => Sys2Proof.Machine.execTakeCommand port s
  | .completionPop port => Sys2Proof.Machine.execCompletionPop port s
  | .acquire host page => Sys2Proof.Machine.execAcquire host page s
  | .release host page => Sys2Proof.Machine.execRelease host page s
  | .downgrade host page => Sys2Proof.Machine.execDowngrade host page s
  | .cancel host => Sys2Proof.Machine.execCancel host s
  | .cancelRequest host page => Sys2Proof.Machine.execCancelRequest host page s
  | .fence host => Sys2Proof.Machine.execFence host s
  | .flush host => Sys2Proof.Machine.execFlush host s
  | .copy host page => Sys2Proof.Machine.execCopy host page s
  | .copyDestinationCheck host page => Sys2Proof.Machine.execCopyDestinationCheck host page s
  | .fill host page => Sys2Proof.Machine.execFill host page s
  | .checksum host page => Sys2Proof.Machine.execChecksum host page s
  | .jobQueueing host => Sys2Proof.Machine.execJobQueueing host s
  | .query host page => Sys2Proof.Machine.execQuery host page s
  | .retire host page => Sys2Proof.Machine.execRetire host page s
  | .restore host page => Sys2Proof.Machine.execRestore host page s
  | .scrubAdmission page => Sys2Proof.Machine.execScrubAdmission page s
  | .scrubRefusal page => Sys2Proof.Machine.execScrubRefusal page s
  | .setQuota host => Sys2Proof.Machine.execSetQuota host s
  | .setRecallLimit host => Sys2Proof.Machine.execSetRecallLimit host s
  | .waitTimeout host page => Sys2Proof.Machine.execWaitTimeout host page s
  | .recallDeadline page => Sys2Proof.Machine.execRecallDeadline page s
  | .drainEnd page => Sys2Proof.Machine.execDrainEnd page s
  | .windowAccess port address dir en data => Sys2Proof.Machine.execWindowAccess port address dir en data s
  | .accessCheck port => Sys2Proof.Machine.execAccessCheck port s
  | .outOfRangeAccess port address dir => Sys2Proof.Machine.execOutOfRangeAccess port address dir s
  | .wordOperationEnd => Sys2Proof.Machine.execWordOperationEnd s
  | .jobStart => Sys2Proof.Machine.execJobStart s
  | .engineAbortEvent which => Sys2Proof.Machine.execEngineAbortEvent which s
  | .noticePop port => Sys2Proof.Machine.execNoticePop port s
  | .noticeLostClear port => Sys2Proof.Machine.execNoticeLostClear port s
  | .faultPop port => Sys2Proof.Machine.execFaultPop port s
  | .overflowClear port => Sys2Proof.Machine.execOverflowClear port s
  | .eventEnablesWrite port en data => Sys2Proof.Machine.execEventEnablesWrite port en data s
  | .windowMapEntryWrite port slot en data => Sys2Proof.Machine.execWindowMapEntryWrite port slot en data s
  | .registerWrite port address en data => Sys2Proof.Machine.execRegisterWrite port address en data s
  | .timebaseAdvance => Sys2Proof.Machine.execTimebaseAdvance s
  | .arrayUpset page word byte flips parityFlips => Sys2Proof.Machine.execArrayUpset page word byte flips parityFlips s

end Sys2Proof.Machine
end

