-- ==== Sys2Proof/Machine/Registers.lean ====
section
/-!
DEFINITION. The read side of the register area: the layouts of chapter 12 (R180, R182) and the answer of a register read.
A register read changes nothing (R180) and has no row in spec/opcode_table.json, so it is a function of the state and no
command (notes/assumptions/13.md).
-/

namespace Sys2Proof.Machine

open Sys2Proof

/-- A field of `w` bits at bit `lo` of a word. -/
def fieldAt (lo w : Nat) (v : Nat) : Word := (BitVec.ofNat 32 (v % 2 ^ w)) <<< lo

/-- One bit of a word. -/
def bitAt (lo : Nat) (b : Bool) : Word := fieldAt lo 1 b.toNat

/-- The code of a status ("Completion Record"). -/
def Status.code : Status → Nat
  | .ok => 0x00
  | .denied => 0x01
  | .timedOut => 0x02
  | .cancelled => 0x03
  | .quota => 0x04
  | .notHeld => 0x05
  | .stale => 0x06
  | .duplicate => 0x07
  | .noWaiter => 0x08
  | .retired => 0x09
  | .badCommand => 0x0A
  | .privilege => 0x0B
  | .inUse => 0x0C
  | .engineFull => 0x0D
  | .aborted => 0x0E
  | .parity => 0x0F
  | .notFound => 0x10
  | .belowHeld => 0x11

/-- Port states in the port control status word. -/
def PortPhase.code : PortPhase → Nat
  | .detached => 0
  | .attached => 1
  | .detaching => 2

/-- Ring states in the port control status word. -/
def RingState.code : RingState → Nat
  | .stopped => 0
  | .idle => 1
  | .running => 2
  | .creditWait => 3
  | .fenceWait => 4

/-- Page states in a QUERY result. -/
def PageState.code : PageState → Nat
  | .free => 0
  | .exclusive => 1
  | .shared => 2
  | .transfer => 3
  | .retired => 4
  | .scrub => 5

/-- Modes in records. -/
def Mode.code : Mode → Nat
  | .S => 1
  | .X => 2

/-- A mode or none, in a QUERY result. -/
def modeCode : Option Mode → Nat
  | none => 0
  | some m => m.code

/-- Causes in a notice record. -/
def Cause.code : Cause → Nat
  | .recallTimeout => 0
  | .parity => 1

/-- Fault kinds in a fault record. -/
def FaultKind.code : FaultKind → Nat
  | .range => 1
  | .unmapped => 2
  | .notHeld => 3
  | .readOnly => 4
  | .retired => 5
  | .parity => 6

/-- Directions in a fault record. -/
def dirCode : Dir → Nat
  | .read => 0
  | .write => 1

/-- The result word of a completion record. -/
def Result.word : Result → Word
  | .flushRange => 0
  | .flushAll => 1
  | .check v => v.setWidth 32
  | .query st modes n present =>
    fieldAt 0 3 st.code ||| fieldAt 4 2 (modeCode modes[0]) ||| fieldAt 6 2 (modeCode modes[1]) |||
      fieldAt 8 2 (modeCode modes[2]) ||| fieldAt 10 2 (modeCode modes[3]) ||| fieldAt 16 6 n ||| bitAt 24 present

/-- The four completion head words (R80); a field that is absent reads zero (R77). -/
def Completion.word (c : Completion) (i : Fin 4) : Word :=
  match i with
  | 0 =>
    bitAt 31 true ||| bitAt 18 c.result.isSome ||| bitAt 17 c.gen.isSome ||| bitAt 16 c.page.isSome |||
      fieldAt 8 8 c.status.code ||| fieldAt 0 8 c.kind.toNat
  | 1 => fieldAt 16 16 c.tag.toNat ||| fieldAt 0 8 ((c.page.map Fin.val).getD 0)
  | 2 => fieldAt 0 16 ((c.gen.map BitVec.toNat).getD 0)
  | 3 => (c.result.map Result.word).getD 0

/-- The record fields of the four notice head words; word 0 without count and flag (R150). -/
def Notice.word (n : Notice) (i : Fin 4) : Word :=
  match n, i with
  | .recallIssued .., 0 => bitAt 31 true ||| fieldAt 0 2 1
  | .recallWithdrawn .., 0 => bitAt 31 true ||| fieldAt 0 2 2
  | .holdingRevoked .., 0 => bitAt 31 true ||| fieldAt 0 2 3
  | .recallIssued p g _ _ _, 1 => fieldAt 16 16 g.toNat ||| fieldAt 0 8 p.val
  | .recallWithdrawn p _, 1 => fieldAt 0 8 p.val
  | .holdingRevoked p g _, 1 => fieldAt 16 16 g.toNat ||| fieldAt 0 8 p.val
  | .recallIssued _ _ m r _, 2 => fieldAt 8 2 r.val ||| fieldAt 0 2 m.code
  | .recallWithdrawn _ r, 2 => fieldAt 8 2 r.val
  | .holdingRevoked _ _ c, 2 => fieldAt 16 1 c.code
  | .recallIssued _ _ _ _ us, 3 => fieldAt 0 16 us.toNat
  | .recallWithdrawn .., 3 => 0
  | .holdingRevoked .., 3 => 0

/-- The record fields of the two fault head words; word 0 without count and flag (R141). -/
def FaultRecord.word (r : FaultRecord) (i : Fin 2) : Word :=
  match i with
  | 0 =>
    bitAt 31 true ||| bitAt 9 r.page.isSome ||| bitAt 8 r.slot.isSome ||| fieldAt 4 1 (dirCode r.dir) |||
      fieldAt 0 3 r.kind.code
  | 1 => fieldAt 24 8 r.count ||| fieldAt 8 8 ((r.page.map Fin.val).getD 0) ||| fieldAt 0 7 ((r.slot.map Fin.val).getD 0)

/-- A notice head word: the count and the notice-lost flag are shown whether or not the queue is empty. -/
def PortGroup.noticeHead (g : PortGroup) (i : Fin 4) : Word :=
  let record := (g.notices.head?.map fun n => n.word i).getD 0
  if i = 0 then record ||| bitAt 30 g.noticeLost ||| fieldAt 16 4 g.notices.length else record

/-- A fault head word: the count and the overflow flag are shown whether or not the file is empty. -/
def PortGroup.faultHead (g : PortGroup) (i : Fin 2) : Word :=
  let record := (g.faults.head?.map fun r => r.word i).getD 0
  if i = 0 then record ||| bitAt 30 g.overflow ||| fieldAt 16 3 g.faults.length else record

/-- The port control status word. -/
def PortGroup.controlWord (g : PortGroup) : Word :=
  fieldAt 0 2 g.phase.code ||| fieldAt 4 3 g.ringState.code ||| fieldAt 8 5 g.ring.length ||| fieldAt 16 5 g.credit |||
    bitAt 24 g.manager

/-- The holding counts word of a host. -/
def State.countsWord (s : State) (n : HostId) : Word :=
  fieldAt 0 9 (s.holdingCount n) ||| fieldAt 16 6 (s.waiterCount n) ||| fieldAt 23 9 (s.quota n)

/-- One word of a word-sized list of bits, bit 0 first. -/
def wordOfBits : List Bool → Word
  | [] => 0
  | b :: bs => (wordOfBits bs <<< 1) ||| bitAt 0 b

/-- Recall summary word `k` of a port: bit `b` is page 32 k + b (R152). -/
def State.summaryWord (s : State) (n : HostId) (k : Fin 8) : Word :=
  wordOfBits ((List.range 32).map fun b => s.summaryBit n (Fin.ofNat 256 (32 * k.val + b)))

/-- What a register word reads as, in every port state (R180): the port group is already empty while the port is
DETACHING or DETACHED. -/
def State.readWord (s : State) (n : HostId) : RegWord → Word
  | .identification0 => 0x00004256
  | .identification1 => fieldAt 0 2 n.val
  | .deviceStatus => bitAt 0 s.isReady
  | .portControl => (s.port n).controlWord
  | .holdingCounts => s.countsWord n
  | .staging k => (s.port n).staging[k]
  | .completionHead k => ((s.port n).cq.head?.map fun c => c.word k).getD 0
  | .noticeHead k => (s.port n).noticeHead k
  | .faultHead k => (s.port n).faultHead k
  | .eventFlags => eventsWord (s.port n).flags
  | .eventEnables => eventsWord (s.port n).enables
  | .recallSummary k => s.summaryWord n k
  | .mapEntry slot => mapEntryWord (s.port n).map[slot]
  | .attach | .detach | .submit | .completionPop | .noticePop | .noticeLostClear | .faultPop | .overflowClear => 0

/-- The answer of a register read at a port address: the word; none where no access can start (R117, R183) or where the
address is no defined register word (that access is the command OUT_OF_RANGE_ACCESS or WINDOW_ACCESS). -/
def State.registerRead (s : State) (n : HostId) (a : BitVec 18) : Option Answer :=
  match decodeAddress a with
  | .register w => if s.accepts n then some (.acknowledge (some (s.readWord n w))) else none
  | .undefinedOffset | .neither | .window _ _ => none

end Sys2Proof.Machine
end

