-- ==== Sys2Proof/Safety.lean ====
section
/-!
DEFINITION. What the statements call safe: the well-formedness of a page entry (R2, R6, R8, R9, R14, R29, R42, R43), the
ownership guarantee on operations in flight (R4, R12, R97), the bounds of a port group (R69, R71, R91, R136, R147) with
its emptiness outside a session (R162), the device-wide resources (R7, R15), and the canonical form of the array.
-/

namespace Sys2Proof.Machine

open Sys2Proof

/-- What the state of an entry says of its other fields (R14). -/
def Entry.shapeOk (e : Entry) : Bool :=
  match e.state with
  | .free | .retired | .scrub => e.unheld && e.waiters.isEmpty && e.recalling.isNone && e.grant.isNone
  | .exclusive => (hostIds.any fun h => e.onlyHolder h && e.holdsX h) && e.grant.isNone
  | .shared => !e.unheld && !e.exclusivelyHeld && e.grant.isNone
  | .transfer => !e.exclusivelyHeld && e.recalling.isNone && e.grant.isSome

/-- Hosts of the waiting list, oldest first. -/
def Entry.waitingHosts (e : Entry) : List HostId := e.waiters.map fun w => w.place.host

/-- One waiter a host (R6); an upgrader holds S and every other waiter's host holds nothing (R5, R27). -/
def Entry.waitersOk (e : Entry) : Bool :=
  decide e.waitingHosts.Nodup &&
    e.waiters.all fun w => if w.upgrade then w.mode = .X && e.holdsS w.place.host else !e.holds w.place.host

/-- A recall runs exactly while the page is EXCLUSIVE or SHARED with a waiter; it is for the head, which must wait, and
its targets are the holders that block the head (R8, R42, R43). -/
def Entry.recallOk (e : Entry) : Bool :=
  match e.waiters with
  | [] => e.recalling.isNone
  | w :: _ =>
    if e.inUse then
      match e.recalling with
      | none => false
      | some r =>
        r.wanted = w.mode && r.requester = w.place.host && r.targets = e.recallTargets w &&
          hostIds.any fun h => r.targets[h]
    else e.recalling.isNone

/-- The chosen waiters head the list in the granted mode; a whole exclusive choice is one host, and no other host holds
the page (R9, R63). -/
def Entry.grantOk (e : Entry) : Bool :=
  match e.grant with
  | none => true
  | some g =>
    (e.waitingHosts.take g.chosen.length = g.chosen) &&
      (e.waiters.all fun w => !g.chosen.contains w.place.host || w.mode = g.mode) &&
      (g.left || (!g.chosen.isEmpty && (g.mode = .S ||
        (g.chosen.length = 1 && hostIds.all fun h => g.chosen.contains h || !e.holds h))))

/-- While a host holds the page in X, every access in flight on the page is that host's; while a write is in flight, no
other host holds the page (R4, R12, R97). -/
def Entry.accessOk (e : Entry) : Bool :=
  hostIds.all fun h =>
    (!e.holdsX h || hostIds.all fun k => k = h || e.inFlight[k] = none) &&
      (e.inFlight[h] ≠ some .write || hostIds.all fun k => k = h || !e.holds k)

/-- A well-formed page entry. -/
def Entry.wf (e : Entry) : Bool := e.shapeOk && e.waitersOk && e.recallOk && e.grantOk && e.accessOk

/-- Every page entry is well formed. -/
def State.pagesOk (s : State) : Prop := ∀ p : PageId, (s.page p).wf = true

/-- The bounds of a port group: ring, credit sum, notice queue, fault file, repeat counts, translation cache (R69, R71,
R91, R136, R147). -/
def PortGroup.bounded (g : PortGroup) : Bool :=
  g.ring.length ≤ Config.ringSize && g.creditSum ≤ Config.creditLimit && g.notices.length ≤ Config.noticeQueueSize &&
    g.faults.length ≤ Config.faultFileSize && (g.faults.all fun r => 1 ≤ r.count && r.count ≤ Config.repeatLimit) &&
    g.cache.length ≤ Config.cacheSize && decide (g.cache.map Prod.fst).Nodup

/-- Outside a session the port group is empty (R162, R170): nothing of an ended session is left, and an access in flight
has been abandoned. -/
def PortGroup.quiet (g : PortGroup) : Bool :=
  g.phase = .attached ||
    (g.staging = Vector.replicate 4 0 && g.ring.isEmpty && g.uncompleted.isEmpty && g.cq.isEmpty && g.notices.isEmpty &&
      !g.noticeLost && g.faults.isEmpty && !g.overflow && g.enables = Events.none && g.map = Vector.replicate 128 none &&
      g.cache.isEmpty && g.access.isNone && (g.inFlight.all fun r => r.abandoned))

/-- The uncompleted commands of a port are of its host and of its last session, and each has a place of its own, named by
a number below the count of commands taken (R71, R163). -/
def PortGroup.placesOk (g : PortGroup) (n : HostId) (taken : Nat) : Bool :=
  (g.uncompleted.all fun t => t.place.host = n && t.place.session = g.sessionCount && t.place.seq < taken) &&
    decide (g.uncompleted.map Taken.place).Nodup

/-- A well-formed port group. -/
def PortGroup.wf (g : PortGroup) : Bool := g.bounded && g.quiet

/-- Every port group is well formed, and its uncompleted commands have places of their own. -/
def State.portsOk (s : State) : Prop := ∀ n : HostId, (s.port n).wf = true ∧ (s.port n).placesOk n s.taken = true

/-- No host's holdings plus waiters exceed its quota (R15), and no more than 32 waiter records are in use (R7). -/
def State.resourcesOk (s : State) : Prop :=
  (∀ h : HostId, s.quotaCount h ≤ s.quota h) ∧ s.waitersInUse ≤ Config.waiterPoolSize

/-- The array is in its canonical form. -/
def State.storeOk (s : State) : Prop := s.store.wf = true

/-- The completion places of the commands that an owner, the engine or a page entry is yet to take or is at work on. -/
def State.workPlaces (s : State) : List Place :=
  s.transit.map Transit.place ++ s.engine.arriving.map Job.place ++ s.engine.scrubs.map Job.place ++
    s.engine.refusals.map Job.place ++ s.engine.queue.map Job.place

/-- The engine queue holds at most 8 jobs, only the oldest of which can be running, and no job on its way to it runs
(R119, R120); and no two commands between their take and their end share a place. -/
def State.jobsOk (s : State) : Prop :=
  s.engine.queue.length ≤ Config.engineQueueSize ∧
    (∀ j ∈ s.engine.queue.tail ++ s.engine.arriving ++ s.engine.scrubs, j.running = false) ∧
    s.workPlaces.Nodup ∧ ∀ pl ∈ s.workPlaces, pl.seq < s.taken

/-- The operations at the store: the one being performed and those pending. -/
def Arbiter.operations (a : Arbiter) : List WordOp := a.performing.toList ++ a.requests

/-- The word operation that an in-flight access asks for (R99). -/
def InFlight.request (r : InFlight) (n : HostId) : WordOp :=
  { requester := .port n, page := r.page, word := r.word, dir := r.dir, enables := r.enables, data := r.data }

/-- The one operation that a requester has at the store: that of its in-flight access or of its running job (R107). -/
def State.operationOf (s : State) : Requester → Option WordOp
  | .port n => (s.port n).inFlight.map fun r => r.request n
  | .engine => s.engine.running.map Job.request

/-- Each requester has at the store exactly the operation of its in-flight access or running job (R107); a page's
in-flight pairs are those of the ports' in-flight accesses (R10); a port has one access outstanding, an ATTACHED port
none that is abandoned and a DETACHED port none in flight (R99, R102, R167). -/
def State.requestsOk (s : State) : Prop :=
  (∀ r : Requester, (s.arbiter.operations.filter fun op => op.requester = r) = (s.operationOf r).toList) ∧
    (∀ (n : HostId) (p : PageId),
      (s.page p).inFlight[n] = (s.port n).inFlight.bind fun r => if r.page = p then some r.dir else none) ∧
      ∀ n : HostId,
        ((s.port n).access ≠ none → (s.port n).inFlight = none) ∧
          ((s.port n).phase = .attached → ∀ r ∈ (s.port n).inFlight, r.abandoned = false) ∧
            ((s.port n).phase = .detached → (s.port n).inFlight = none)

/-! ## The terms in which the statements speak -/

/-- The next command that the owner `o` takes from host `h` is the one of place `pl` with errand `e`, and the host's
command unit still holds its place (R21, R71). -/
def State.delivers (s : State) (h : HostId) (o : Owner) (pl : Place) (e : Errand) : Prop :=
  s.arrival h o = some ⟨pl, e⟩ ∧ (s.port h).hasPlace pl = true

/-- The row of the table by which an owner takes an errand. -/
def Errand.row (h : HostId) : Errand → Instr
  | .acquire p _ _ => .acquire h p
  | .release p _ => .release h p
  | .downgrade p _ => .downgrade h p
  | .cancelRequest p _ => .cancelRequest h p
  | .flush _ _ => .flush h
  | .copySource p _ => .copy h p
  | .copyDestination _ p => .copyDestinationCheck h p
  | .fill p _ => .fill h p
  | .checksum p => .checksum h p
  | .query p => .query h p
  | .retire p => .retire h p
  | .restore p => .restore h p
  | .setQuota _ _ => .setQuota h
  | .setRecallLimit _ => .setRecallLimit h

/-- A port group at the start of DETACHING (R162, R170): the values device reset gives, but for the port state, the
session count, the pins and flags of the host index, the in-flight access and the teardown. -/
def PortGroup.emptied (g : PortGroup) : PortGroup :=
  { PortGroup.reset with
    phase := .detaching, sessionCount := g.sessionCount, manager := g.manager, prst := g.prst, inFlight := g.inFlight,
    answer := g.answer, teardownEntries := List.finRange 256 }

/-- What a descriptor asks of an owner, read off the table "Command Descriptor" (R182). -/
def Descriptor.asks (d : Descriptor) : Errand → Prop
  | .acquire p m limit =>
    d.kindCode = 0x01 ∧ (d.half 1).toNat = p.val ∧
      (d[2].extractLsb' 0 2).toNat = (match m with | .S => 1 | .X => 2) ∧ d.half 3 = limit
  | .release p gen => d.kindCode = 0x02 ∧ (d.half 1).toNat = p.val ∧ d.half 2 = gen
  | .downgrade p gen => d.kindCode = 0x03 ∧ (d.half 1).toNat = p.val ∧ d.half 2 = gen
  | .flush first count =>
    d.kindCode = 0x06 ∧ (d.half 1).toNat = first ∧ (d.half 2).toNat = count ∧ first ≤ 127 ∧ 1 ≤ count ∧ count ≤ 128 ∧
      first + count ≤ 128
  | .copySource p q => d.kindCode = 0x07 ∧ (d.half 1).toNat = p.val ∧ (d.half 2).toNat = q.val ∧ p ≠ q
  | .fill p pattern => d.kindCode = 0x08 ∧ (d.half 1).toNat = p.val ∧ d[2] = pattern
  | .checksum p => d.kindCode = 0x09 ∧ (d.half 1).toNat = p.val
  | .query p => d.kindCode = 0x0A ∧ (d.half 1).toNat = p.val
  | .retire p => d.kindCode = 0x0B ∧ (d.half 1).toNat = p.val
  | .restore p => d.kindCode = 0x0C ∧ (d.half 1).toNat = p.val
  | .setQuota h limit => d.kindCode = 0x0D ∧ (d.half 1).toNat = h.val ∧ (d.half 2).toNat = limit ∧ limit ≤ 256
  | .setRecallLimit limit => d.kindCode = 0x0E ∧ d.half 1 = limit ∧ limit ≠ 0
  | .cancelRequest _ _ | .copyDestination _ _ => False

/-- The errand is of a manager kind (R73). -/
def Errand.isManager : Errand → Bool
  | .retire _ | .restore _ | .setQuota _ _ | .setRecallLimit _ => true
  | _ => false

/-- The command unit refuses the arguments of a descriptor (the table of R74). -/
def Descriptor.badArguments (d : Descriptor) : Prop :=
  match d.kindCode.toNat with
  | 0x01 => 255 < (d.half 1).toNat ∨ (d[2].extractLsb' 0 2).toNat = 0 ∨ (d[2].extractLsb' 0 2).toNat = 3
  | 0x02 | 0x03 | 0x08 | 0x09 | 0x0A | 0x0B | 0x0C => 255 < (d.half 1).toNat
  | 0x06 =>
    127 < (d.half 1).toNat ∨ (d.half 2).toNat = 0 ∨ 128 < (d.half 2).toNat ∨ 128 < (d.half 1).toNat + (d.half 2).toNat
  | 0x07 => 255 < (d.half 1).toNat ∨ 255 < (d.half 2).toNat ∨ d.half 1 = d.half 2
  | 0x0D => 3 < (d.half 1).toNat ∨ 256 < (d.half 2).toNat
  | 0x0E => (d.half 1).toNat = 0
  | _ => False

/-- The record of a command that the command unit itself completes, with no page, generation or result (R73, R76). -/
def Descriptor.bareRecord (d : Descriptor) (st : Status) : Completion :=
  { tag := d.tag, kind := d.kindCode, status := st, page := none, gen := none, result := none }

/-- No command of the same host that was dispatched earlier is yet to be taken by the page engine (R75): neither on its
way to its entry nor on its way from it. The number of a place counts the commands taken (notes/assumptions/3.md). -/
def State.firstForEngine (s : State) (pl : Place) : Prop :=
  (∀ t ∈ s.transit, t.place.host = pl.host → t.place.seq < pl.seq → ∀ (p q : PageId) (pattern : Word),
    t.errand ≠ .copySource p q ∧ t.errand ≠ .copyDestination p q ∧ t.errand ≠ .fill p pattern ∧
      t.errand ≠ .checksum p ∧ t.errand ≠ .restore p) ∧
    ∀ k ∈ s.engine.arriving ++ s.engine.scrubs, k.place.host = pl.host → pl.seq ≤ k.place.seq

/-- The waiter that an ACQUIRE by the host of `pl` leaves on an entry at time `now` (R5, R20). -/
def waiterOf (e : Entry) (pl : Place) (m : Mode) (limit : BitVec 16) (now : Word) : Waiter :=
  { place := pl, mode := m, deadline := if limit = 65535 then none else some (now + limit.setWidth 32), due := false,
    upgrade := decide (e.mode pl.host = some .S ∧ m = .X) }

/-- The holdings of an entry after a grant of one mode to some hosts (R4). -/
def Entry.granted (e : Entry) (m : Mode) (hs : List HostId) : Vector (Option Holding) 4 :=
  mapVec (fun h => if hs.contains h then some { mode := m, gen := e.gen + 1 } else e.holding h) #v[(0 : HostId), 1, 2, 3]

/-- A waiter with its upgrade flag cleared if it is of the host given (R27). -/
def Waiter.clearedFor (w : Waiter) (h : HostId) : Waiter := if w.place.host = h then { w with upgrade := false } else w

/-- The head waiter can be served (the table of R29). -/
abbrev Entry.serves (e : Entry) (w : Waiter) : Prop :=
  (w.mode = .S → ∀ k, e.mode k ≠ some .X) ∧ (w.mode = .X → w.upgrade = false → ∀ k, e.holds k = false) ∧
    (w.mode = .X → w.upgrade = true → e.mode w.place.host = some .S ∧ ∀ k, k ≠ w.place.host → e.holds k = false)

/-- The list `gs ++ rest` splits into the waiters that one grant in mode `m` chooses and the others (R30). -/
abbrev isRun (m : Mode) (gs rest : List Waiter) : Prop :=
  gs ≠ [] ∧ (∀ w ∈ gs, w.mode = m) ∧ (m = .X → gs.length = 1) ∧ (m = .S → ∀ w ∈ rest.head?, w.mode = .X)

/-- The recall for a head that must wait, of every holder but its own host (R42, R43). -/
def Entry.recallFor (e : Entry) (w : Waiter) (now : Word) (limit : BitVec 16) : Recall :=
  { wanted := w.mode, requester := w.place.host,
    targets := mapVec (fun k => e.holds k && k ≠ w.place.host) #v[(0 : HostId), 1, 2, 3],
    deadline := now + limit.setWidth 32, due := false }

/-- The RECALL notices of that recall, one to each target (R44). -/
def Entry.recallNotices (e : Entry) (p : PageId) (w : Waiter) (limit : BitVec 16) : List (HostId × Notice) :=
  (hostIds.filter fun k => e.holds k && k ≠ w.place.host).map fun k =>
    (k, .recallIssued p ((e.holding k).elim 0 Holding.gen) w.mode w.place.host limit)

/-- The entry after one grant event for the waiters `gs`, before a recall for a waiter of `rest` (R4). -/
def Entry.grantedTo (e : Entry) (m : Mode) (gs rest : List Waiter) : Entry :=
  { e with
    state := (match m with | .S => .shared | .X => .exclusive)
    holdings := e.granted m (gs.map fun w => w.place.host)
    gen := e.gen + 1
    waiters := rest
    recalling := none
    grant := none }

/-- The completions of one grant event: OK with the new generation to each waiter granted (R4). -/
def grantReplies (p : PageId) (gen : BitVec 16) (gs : List Waiter) : List (Place × Reply) :=
  gs.map fun w => (w.place, { status := .ok, page := some p, gen := some gen, result := none })

/-- What the serving of a non-empty list makes of an entry without a recall (R28 to R30, R42, R61, R66): the head must
wait, and a recall starts for it; or the run at the head is granted, with a recall for the new head if waiters remain; or
it is chosen for a held-back grant, if the page has a stray operation. -/
def Entry.servedAs (e : Entry) (p : PageId) (now : Word) (limit : BitVec 16) (t : Entry) (ns : List (HostId × Notice))
    (posts : List (Place × Reply)) : Prop :=
  (∃ w ws, e.waiters = w :: ws ∧ ¬e.serves w ∧ ns = e.recallNotices p w limit ∧ posts = [] ∧
    t =
      { e with
        state := if ∃ k, e.mode k = some .X then .exclusive else .shared
        recalling := some (e.recallFor w now limit) }) ∨
  ∃ w m gs rest, e.waiters = gs ++ rest ∧ isRun m gs rest ∧ gs.head? = some w ∧ e.serves w ∧
    ((e.hasStray = true ∧ ns = [] ∧ posts = [] ∧
        t =
          { e with
            state := .transfer
            grant := some { mode := m, chosen := gs.map fun v => v.place.host, left := false } }) ∨
      (e.hasStray = false ∧ ∃ g : Entry, g = e.grantedTo m gs rest ∧ posts = grantReplies p (e.gen + 1) gs ∧
        (rest = [] → ns = [] ∧ t = g) ∧
        ∀ v vs, rest = v :: vs →
          ns = g.recallNotices p v limit ∧ t = { g with recalling := some (g.recallFor v now limit) }))

/-- The position of a requester in the cyclic order of the arbiter (R111). -/
def Requester.position : Requester → Nat
  | .port n => n.val
  | .engine => 4

/-- How many places a requester stands behind the last served one in the cyclic order, the next in order first (R111). -/
def Requester.turnsAfter (last r : Requester) : Nat := (r.position + 4 - last.position) % 5

end Sys2Proof.Machine
end

