-- ==== Sys2Proof/Certificates/Slice0/Obligations.lean ====
section
/-!
DEFINITION. The statements for the provers. A statement that gives a command's next state writes it as the old state with
the parts that change replaced, so that it says of every other part that it is unchanged. A completion
is written with `PortGroup.complete` and `State.post`, whose own effect is the statement RecordsReachTheirQueues.
-/

open Sys2Proof Sys2Proof.Machine

/-! ## The block as a whole -/

/-- A step takes the command at the front of the queue; on an empty queue the block idles (the model's choice,
notes/assumptions/2.md). -/
def Obligations.StepTakesTheFrontCommand : Prop :=
  (∀ (c : Instr) (rest : List Instr) (s : State),
    step { s with pending := c :: rest } = exec c { s with pending := rest }) ∧
    ∀ s : State, s.pending = [] → step s = .next s

/-- Every command of the table completes in every state and leaves the queue alone; a term that is no command of the
table, by its address, is refused (the model's choice, notes/assumptions/22.md). -/
def Obligations.EveryCommandCompletes : Prop :=
  ∀ (c : Instr) (s : State),
    (c.wellFormed = true → ∃ t, exec c s = .next t ∧ t.pending = s.pending) ∧
      (c.wellFormed = false → exec c s = .refused .wrongAddress)

/-- R19, R171, R172: only the tick and RESET move the timebase; only the settings' own commands and the negation of RESET
move the settings; only the negation of RESET moves a manager flag. -/
def Obligations.TimebaseSettingsAndManagerFlagsKept : Prop :=
  ∀ (c : Instr) (s t : State), exec c s = .next t →
    (c ≠ .timebaseAdvance → c ≠ .deviceResetAssert → (∀ straps, c ≠ .deviceResetNegate straps) →
      t.timebase = s.timebase) ∧
      ((∀ h, c ≠ .setQuota h) → (∀ h, c ≠ .setRecallLimit h) → (∀ straps, c ≠ .deviceResetNegate straps) →
        t.settings = s.settings) ∧
      ((∀ straps, c ≠ .deviceResetNegate straps) → ∀ n, (t.port n).manager = (s.port n).manager)

/-- R105: the array changes only at the end of a write, at the end of the sweep, at an upset and at the assertion of
RESET; in particular no teardown, no retirement and no command that moves ownership changes it. -/
def Obligations.ArrayChangesOnlyByItsEvents : Prop :=
  ∀ (c : Instr) (s t : State), exec c s = .next t → c ≠ .initializationSweepEnd → c ≠ .deviceResetAssert →
    (∀ p w b f g, c ≠ .arrayUpset p w b f g) →
      (c = .wordOperationEnd → ∀ op ∈ s.arbiter.performing, op.dir = .read) → t.store = s.store

/-! ## Reset, the sweep, the timebase and the array -/

/-- R18, R19, R82, R115 to R117, R133, R155, R158, R171, R172: what the assertion of RESET ends, what its negation sets, and
what the end of the sweep leaves. A write being performed at the assertion may or may not have changed its word. -/
def Obligations.ResetSetsResetValues : Prop :=
  ∀ s : State,
    (s.phase ≠ .inReset → ∃ t, exec .deviceResetAssert s = .next t ∧ t.phase = .inReset ∧ t.timebase = 0 ∧
      (∀ p, t.page p = Entry.reset) ∧
      (∀ n, t.port n = { PortGroup.reset with manager := (s.port n).manager, prst := (s.port n).prst }) ∧
      (∀ n, t.int n = false) ∧ t.transit = [] ∧ t.engine = Engine.reset ∧ t.arbiter.operations = [] ∧
      (s.phase = .ready → t.store = s.store ∨ ∃ op ∈ s.arbiter.performing, t.store = s.store.perform op)) ∧
    (s.phase = .inReset → ∀ straps : BitVec 4, ∃ t, exec (.deviceResetNegate straps) s = .next t ∧
      t.phase = .sweeping ∧ t.isReady = false ∧ t.timebase = 0 ∧ (∀ p, t.page p = Entry.reset) ∧
      (∀ n, t.port n = { PortGroup.reset with manager := straps.getLsbD n.val, prst := (s.port n).prst }) ∧
      t.transit = [] ∧ t.engine = Engine.reset ∧
      t.arbiter = { lastServed := .engine, requests := [], performing := none } ∧
      t.settings = { recallLimit := 2000, quota := #v[64, 64, 64, 64] } ∧ t.store = s.store) ∧
    (s.phase = .sweeping → ∃ t, exec .initializationSweepEnd s = .next t ∧
      t = { s with phase := .ready, store := t.store } ∧ t.isReady = true ∧
      ∀ a, t.store.readByte a = 0 ∧ t.store.mismatched a = false ∧ t.store.parityBit a = true)

/-- R19, R20: the timebase counts, wraps, and is held at 0 while RESET is asserted; each deadline equal to the new value
is delivered to the entry that holds it, and nothing else changes. -/
def Obligations.TimebaseAdvanceDeliversDeadlines : Prop :=
  ∀ s : State,
    (s.phase ≠ .inReset → ∃ t, exec .timebaseAdvance s = .next t ∧
      t = { s with timebase := t.timebase, pages := t.pages } ∧ t.timebase.toNat = (s.timebase.toNat + 1) % 2 ^ 32 ∧
      ∀ p, t.page p =
        { s.page p with
          waiters :=
            (s.page p).waiters.map fun w => { w with due := w.due || decide (w.deadline = some t.timebase) }
          recalling :=
            (s.page p).recalling.map fun r => { r with due := r.due || decide (r.deadline = t.timebase) } }) ∧
      (s.phase = .inReset → exec .timebaseAdvance s = .next s)

/-- R106: an upset changes one stored byte or its parity bit, and nothing else of the array or of the block; the byte
mismatches when an odd number of its nine bits has flipped since its parity was right. -/
def Obligations.UpsetChangesOneByte : Prop :=
  ∀ (s : State) (p : PageId) (w : WordIdx) (b : ByteIdx) (flips : Byte) (parityFlips : Bool), s.storeOk →
    ∃ t, exec (.arrayUpset p w b flips parityFlips) s = .next t ∧ t = { s with store := t.store } ∧
      t.store.readByte (byteAddress p w b) = s.store.readByte (byteAddress p w b) ^^^ flips ∧
      t.store.parityBit (byteAddress p w b) = (s.store.parityBit (byteAddress p w b) ^^ parityFlips) ∧
      (t.store.mismatched (byteAddress p w b) =
        (s.store.mismatched (byteAddress p w b) ^^ (Byte.odd flips ^^ parityFlips))) ∧
      ∀ a, a ≠ byteAddress p w b →
        t.store.readByte a = s.store.readByte a ∧ t.store.mismatched a = s.store.mismatched a

/-! ## Port sessions -/

/-- R159: an ATTACH write on a DETACHED port of a READY device with PRSTn negated opens a new session; every other is
answered by the error response and changes nothing. -/
def Obligations.AttachOpensASession : Prop :=
  ∀ (s : State) (n : HostId), s.accepts n = true →
    ((s.port n).phase = .detached ∧ s.phase = .ready ∧ (s.port n).prst = false →
      exec (.attach n) s =
        .next
          (s.setPort n
            { s.port n with
              phase := .attached, sessionCount := (s.port n).sessionCount + 1, enables := Events.none,
              answer := some (.acknowledge none) })) ∧
    (¬((s.port n).phase = .detached ∧ s.phase = .ready ∧ (s.port n).prst = false) →
      exec (.attach n) s = .next (s.setPort n { s.port n with answer := some .errorResponse }))

/-- R160, R162, R170: a DETACH write on an ATTACHED port is acknowledged and starts DETACHING, which empties the port
group; on any other port it receives the error response and changes nothing. -/
def Obligations.DetachStartsDetaching : Prop :=
  ∀ (s : State) (n : HostId), s.accepts n = true →
    ((s.port n).phase = .attached →
      exec (.detach n) s = .next (s.setPort n { (s.port n).emptied with answer := some (.acknowledge none) })) ∧
    ((s.port n).phase ≠ .attached →
      exec (.detach n) s = .next (s.setPort n { s.port n with answer := some .errorResponse }))

/-- R161, R162, R102, R112: PRSTn starts DETACHING on an ATTACHED port and abandons its access: before its check without a
trace, AWAITING by withdrawing its request, PERFORMING by the abandoned mark. On any other port it changes no more than
its own level and the answer; its negation changes its level only. -/
def Obligations.PortResetAbandonsTheAccess : Prop :=
  ∀ (s : State) (n : HostId),
    ((s.port n).prst = false →
      ((s.port n).phase = .attached → (s.port n).inFlight = none →
        exec (.prstAssert n) s = .next (s.setPort n { (s.port n).emptied with prst := true, answer := none })) ∧
      (∀ r, (s.port n).phase = .attached → (s.port n).inFlight = some r → s.stage n = some .performing →
        exec (.prstAssert n) s =
          .next
            (s.setPort n
              { (s.port n).emptied with
                prst := true, answer := none, inFlight := some { r with abandoned := true } })) ∧
      (∀ r, (s.port n).phase = .attached → (s.port n).inFlight = some r → s.stage n = some .awaiting →
        exec (.prstAssert n) s =
          .next
            { ((s.setPage r.page
                  { s.page r.page with inFlight := (s.page r.page).inFlight.set n.val none n.isLt }).setPort n
                { (s.port n).emptied with prst := true, answer := none, inFlight := none }) with
              arbiter :=
                { s.arbiter with requests := s.arbiter.requests.filter fun op => op.requester ≠ .port n } }) ∧
      ((s.port n).phase ≠ .attached →
        exec (.prstAssert n) s = .next (s.setPort n { s.port n with prst := true, answer := none }))) ∧
    exec (.prstNegate n) s = .next (s.setPort n { s.port n with prst := false })

/-- R131, R164: the engine takes the teardown of a host: its queued jobs other than scrubs leave the queue and the pages
without a completion, its scrubs and the jobs of other hosts stay in order, and a running job of the host, if it stays for
its word, is marked and stopping. -/
def Obligations.EngineTakesTheTeardown : Prop :=
  ∀ (s : State) (n : HostId), (s.port n).phase = .detaching → (s.port n).teardownEngine = false →
    ((∀ j ∈ s.engine.queue, j.running = true → j.place.host = n → j.isScrub = true) →
      ∃ t, exec (.teardownAtEngine n) s = .next t ∧
        t = { s.setPort n { s.port n with teardownEngine := true } with pages := t.pages, engine := t.engine } ∧
        t.engine =
          { s.engine with
            queue :=
              s.engine.queue.filter fun j =>
                !s.engine.queue.any fun g =>
                  g.place = j.place && (g.place.host = n && !g.running && !g.isScrub) } ∧
        ∀ p, t.page p =
          { s.page p with
            refs :=
              (s.page p).refs.filter fun r =>
                !s.engine.queue.any fun g =>
                  g.place = r.place && g.pages.contains p && (g.place.host = n && !g.running && !g.isScrub) }) ∧
    (s.jobsOk → ∃ t, exec (.teardownAtEngine n) s = .next t ∧ (t.port n).teardownEngine = true ∧
      (t.port n).cq = (s.port n).cq ∧ (∀ p, (t.page p).holdings = (s.page p).holdings) ∧
      ∀ j ∈ t.engine.queue, j.place.host = n → j.isScrub = false →
        j.running = true ∧ j.marked = true ∧ j.stopping = true)

/-- R57, R165: a page entry takes the teardown of a host: afterwards the host has no holding, no waiter and no summary bit
there; nothing is posted to it, and an entry without a holding or a waiter of it is unchanged. -/
def Obligations.EntryTakesTheTeardown : Prop :=
  ∀ (s : State) (n : HostId) (p : PageId), s.pagesOk → (s.port n).phase = .detaching →
    (s.port n).teardownEngine = true → p ∈ (s.port n).teardownEntries →
      ∃ t, exec (.teardownAtEntry n p) s = .next t ∧
        (t.page p).holds n = false ∧ (t.page p).hasWaiter n = false ∧ t.summaryBit n p = false ∧
        t.port n = { s.port n with teardownEntries := (s.port n).teardownEntries.filter fun q => q ≠ p } ∧
        (∀ q, q ≠ p → t.page q = s.page q) ∧
        t = { s with pages := t.pages, ports := t.ports } ∧
        ((s.page p).holds n = false → (s.page p).hasWaiter n = false → t.pages = s.pages)

/-- R167: the port becomes DETACHED when the engine and every entry have taken the teardown, it holds no in-flight record
and the engine runs no job of the host other than a scrub; it stays as it is while one of these does not hold. -/
def Obligations.DetachingEndsWhenAllIsDone : Prop :=
  ∀ (s : State) (n : HostId), (s.port n).phase = .detaching →
    ((s.port n).teardownEngine = true ∧ (s.port n).teardownEntries = [] ∧ (s.port n).inFlight = none ∧
        (∀ j ∈ s.engine.queue, j.running = true → j.place.host = n → j.isScrub = true) →
      exec (.portDetached n) s = .next (s.setPort n { s.port n with phase := .detached })) ∧
    (¬((s.port n).teardownEngine = true ∧ (s.port n).teardownEntries = [] ∧ (s.port n).inFlight = none ∧
        (∀ j ∈ s.engine.queue, j.running = true → j.place.host = n → j.isScrub = true)) →
      exec (.portDetached n) s = .next s)

/-! ## Register writes and the command unit -/

/-- R67, R90, R154, R181: a write to a storage word of an ATTACHED port replaces the bytes whose enables are asserted and is
acknowledged; on any other port it receives the error response and changes nothing. A map entry whose bound bit is then
clear is stored as unbound, and the translation cache keeps its entries. -/
def Obligations.StorageWordsTakeEnabledBytes : Prop :=
  ∀ (s : State) (n : HostId) (k : Fin 4) (slot : SlotId) (en : BitVec 4) (data : Word), s.accepts n = true →
    ((s.port n).phase = .attached →
      (∃ w : Word, exec (.stagingWrite n k en data) s =
          .next
            (s.setPort n
              { s.port n with
                staging := (s.port n).staging.set k.val w k.isLt, answer := some (.acknowledge none) }) ∧
        ∀ b : ByteIdx, w.byte b = if en.getLsbD b.val then data.byte b else (s.port n).staging[k].byte b) ∧
      exec (.eventEnablesWrite n en data) s =
        .next
          (s.setPort n
            { s.port n with
              enables :=
                if en.getLsbD 0 then
                  { cq := data.getLsbD 0, nq := data.getLsbD 1, nl := data.getLsbD 2, fr := data.getLsbD 3,
                    fo := data.getLsbD 4 }
                else (s.port n).enables
              answer := some (.acknowledge none) }) ∧
      exec (.windowMapEntryWrite n slot en data) s =
        .next
          (s.setPort n
            { s.port n with
              map :=
                (s.port n).map.set slot.val
                  (if (if en.getLsbD 3 then data.getLsbD 31 else (s.port n).map[slot].isSome) then
                    some (if en.getLsbD 0 then Fin.ofNat 256 (data.byte 0).toNat else (s.port n).map[slot].getD 0)
                  else none)
                  slot.isLt
              answer := some (.acknowledge none) })) ∧
    ((s.port n).phase ≠ .attached → ∀ c : Instr,
      c = .stagingWrite n k en data ∨ c = .eventEnablesWrite n en data ∨ c = .windowMapEntryWrite n slot en data →
        exec c s = .next (s.setPort n { s.port n with answer := some .errorResponse }))

/-- R68: SUBMIT appends a copy of the staging words to a ring that has room on an ATTACHED port, and otherwise receives
the error response; nothing else changes. -/
def Obligations.SubmitAppendsTheStagedDescriptor : Prop :=
  ∀ (s : State) (n : HostId), s.accepts n = true →
    ((s.port n).phase = .attached → (s.port n).ring.length < 16 →
      exec (.submit n) s =
        .next
          (s.setPort n
            { s.port n with
              ring := (s.port n).ring ++ [(s.port n).staging], answer := some (.acknowledge none) })) ∧
    ((s.port n).phase ≠ .attached ∨ 16 ≤ (s.port n).ring.length →
      exec (.submit n) s = .next (s.setPort n { s.port n with answer := some .errorResponse }))

/-- R72 to R74: a taken command of an unknown kind, of a manager kind on a port that is not a manager, or with an argument
out of range completes at once BAD_COMMAND, PRIVILEGE or BAD_COMMAND, tested in this order; its record carries tag and
kind and no page, generation or result, and no owner sees it. -/
def Obligations.TakeRefusesBadCommands : Prop :=
  ∀ (s : State) (n : HostId) (d : Descriptor) (rest : List Descriptor) (st : Status), s.portsOk →
    (s.port n).ringState = .running → (s.port n).ring = d :: rest →
      ((d.kindCode.toNat = 0 ∨ 0x0E < d.kindCode.toNat) ∧ st = .badCommand) ∨
        ((0x0B ≤ d.kindCode.toNat ∧ d.kindCode.toNat ≤ 0x0E) ∧ (s.port n).manager = false ∧ st = .privilege) ∨
        ((d.kindCode.toNat < 0x0B ∨ (d.kindCode.toNat ≤ 0x0E ∧ (s.port n).manager = true)) ∧ d.badArguments ∧
          st = .badCommand) →
        exec (.takeCommand n) s =
          .next
            ({ s with taken := s.taken + 1 }.setPort n
              { s.port n with ring := rest, cq := (s.port n).cq ++ [d.bareRecord st] })

/-- R39, R72, R75, R81, R182: a taken command that passes its checks leaves the ring, reserves a completion place and is
in transit to its owner with the arguments its descriptor carries; the credit sum rises by one; the page is kept with an
uncompleted ACQUIRE, for CANCEL, and with no other command. -/
def Obligations.TakeDispatchesToTheOwner : Prop :=
  ∀ (s : State) (n : HostId) (d : Descriptor) (rest : List Descriptor) (e : Errand),
    (s.port n).ringState = .running → (s.port n).ring = d :: rest → d.asks e →
      (e.isManager = true → (s.port n).manager = true) →
        ∃ g : PortGroup, exec (.takeCommand n) s =
            .next
              ({ s with taken := s.taken + 1, transit := s.transit ++ [Transit.mk (s.placeFor n d) e] }.setPort n g) ∧
          g.creditSum = (s.port n).creditSum + 1 ∧
          g = { s.port n with ring := rest, uncompleted := g.uncompleted } ∧
          ∃ page, g.uncompleted = (s.port n).uncompleted ++ [Taken.mk (s.placeFor n d) page] ∧
            (∀ p m limit, e = .acquire p m limit → page = some p) ∧
            ((∀ p m limit, e ≠ .acquire p m limit) → page = none)

/-- R39: the command unit takes a CANCEL: NOT_FOUND at once when no uncompleted ACQUIRE of the host has the target tag, and
otherwise a cancel request to the page of the oldest of them. -/
def Obligations.CancelSelectsTheOldestAcquire : Prop :=
  ∀ (s : State) (n : HostId) (d : Descriptor) (rest : List Descriptor), s.portsOk →
    (s.port n).ringState = .running → (s.port n).ring = d :: rest → d.kindCode = 0x04 →
      exec (.takeCommand n) s = exec (.cancel n) s ∧
      ((∀ t ∈ (s.port n).uncompleted, t.place.tag = d.half 1 → t.page = none) →
        exec (.cancel n) s =
          .next
            ({ s with taken := s.taken + 1 }.setPort n
              { s.port n with ring := rest, cq := (s.port n).cq ++ [d.bareRecord .notFound] })) ∧
      ∀ (older newer : List Taken) (target : Place) (p : PageId),
        (s.port n).uncompleted = older ++ ⟨target, some p⟩ :: newer → target.tag = d.half 1 →
          (∀ t ∈ older, t.place.tag = d.half 1 → t.page = none) →
            exec (.cancel n) s =
              .next
                ({ s with
                    taken := s.taken + 1
                    transit := s.transit ++ [Transit.mk (s.placeFor n d) (.cancelRequest p target)] }.setPort n
                  { s.port n with
                    ring := rest, uncompleted := (s.port n).uncompleted ++ [Taken.mk (s.placeFor n d) none] })

/-- R76, R70: the command unit takes a FENCE: OK at once when no earlier-taken command is uncompleted, and otherwise the
ring is in FENCE_WAIT. -/
def Obligations.FenceCompletesOrWaits : Prop :=
  ∀ (s : State) (n : HostId) (d : Descriptor) (rest : List Descriptor),
    (s.port n).ringState = .running → (s.port n).ring = d :: rest → d.kindCode = 0x05 →
      exec (.takeCommand n) s = exec (.fence n) s ∧
      ((s.port n).uncompleted = [] →
        exec (.fence n) s =
          .next
            ({ s with taken := s.taken + 1 }.setPort n
              { s.port n with ring := rest, cq := (s.port n).cq ++ [d.bareRecord .ok] })) ∧
      ((s.port n).uncompleted ≠ [] → ∃ t, exec (.fence n) s = .next t ∧ (t.port n).ringState = .fenceWait ∧
        t =
          { s with taken := s.taken + 1 }.setPort n
            { s.port n with ring := rest, uncompleted := (s.port n).uncompleted ++ [Taken.mk (s.placeFor n d) none] })

/-- R11, R76, R78, R120, R127, R148, R163: a completion joins the tail of its host's queue and ends its command; the one
that leaves only a FENCE uncompleted is followed by the FENCE's OK; one whose place is gone is discarded. A notice is
stored, or dropped with the notice-lost flag, or on a port that is not ATTACHED discarded. An abort mark is set in the
job's record and in each of its references, on every page at one event (the model's reading, notes/assumptions/7.md), and
one abort event is handed to the engine. Several completions, notices or marks are handed over one after the other. -/
def Obligations.RecordsReachTheirQueues : Prop :=
  (∀ (s : State) (pl : Place) (r : Reply),
    ((s.port pl.host).session ≠ some pl.session → s.post pl r = s) ∧
    ((s.port pl.host).hasPlace pl = true →
      (∀ f : Taken, f.place.kind = 0x05 →
        ((s.port pl.host).uncompleted.filter fun t => t.place ≠ pl) = [f] →
          s.post pl r =
            s.setPort pl.host
              { s.port pl.host with
                uncompleted := []
                cq :=
                  (s.port pl.host).cq ++
                    [{ tag := pl.tag, kind := pl.kind, status := r.status, page := r.page, gen := r.gen,
                       result := r.result },
                     { tag := f.place.tag, kind := f.place.kind, status := .ok, page := none, gen := none,
                       result := none }] }) ∧
      ((∀ f : Taken, f.place.kind = 0x05 →
          ((s.port pl.host).uncompleted.filter fun t => t.place ≠ pl) ≠ [f]) →
        s.post pl r =
          s.setPort pl.host
            { s.port pl.host with
              uncompleted := (s.port pl.host).uncompleted.filter fun t => t.place ≠ pl
              cq :=
                (s.port pl.host).cq ++
                  [{ tag := pl.tag, kind := pl.kind, status := r.status, page := r.page, gen := r.gen,
                     result := r.result }] }))) ∧
  (∀ (g : PortGroup) (x : Notice),
    (g.phase ≠ .attached → g.notify x = g) ∧
    (g.phase = .attached → g.notices.length < 8 → g.notify x = { g with notices := g.notices ++ [x] }) ∧
    (g.phase = .attached → 8 ≤ g.notices.length → g.notify x = { g with noticeLost := true })) ∧
  ∀ s : State,
    (s.postAll [] = s ∧ s.notifyAll [] = s ∧ s.markAll [] = s) ∧
    (∀ (pl : Place) (r : Reply) (l : List (Place × Reply)), s.postAll ((pl, r) :: l) = (s.post pl r).postAll l) ∧
    (∀ (h : HostId) (x : Notice) (l : List (HostId × Notice)),
      s.notifyAll ((h, x) :: l) = (s.setPort h ((s.port h).notify x)).notifyAll l) ∧
    ∀ job : Place, ∃ t : State,
      (∀ l : List Place, s.markAll (job :: l) = t.markAll l) ∧ t = { s with pages := t.pages, engine := t.engine } ∧
      (∀ p, t.page p =
        { s.page p with
          refs := (s.page p).refs.map fun r => if r.place = job then { r with marked := true } else r }) ∧
      t.engine =
        { s.engine with
          queue := s.engine.queue.map fun j => if j.place = job then { j with marked := true } else j
          abortEvents := s.engine.abortEvents ++ [job] }

/-- R80, R149, R150: the completion POP, the notice POP and the notice-lost clear on an ATTACHED port remove the head
record or clear the flag and are acknowledged; on any other port they receive the error response and change nothing. -/
def Obligations.PopAndClearAnswer : Prop :=
  ∀ (s : State) (n : HostId), s.accepts n = true →
    ((s.port n).phase = .attached →
      exec (.completionPop n) s =
        .next (s.setPort n { s.port n with cq := (s.port n).cq.drop 1, answer := some (.acknowledge none) }) ∧
      exec (.noticePop n) s =
        .next
          (s.setPort n { s.port n with notices := (s.port n).notices.drop 1, answer := some (.acknowledge none) }) ∧
      exec (.noticeLostClear n) s =
        .next (s.setPort n { s.port n with noticeLost := false, answer := some (.acknowledge none) })) ∧
    ((s.port n).phase ≠ .attached → ∀ c : Instr,
      c = .completionPop n ∨ c = .noticePop n ∨ c = .noticeLostClear n ∨ c = .faultPop n ∨ c = .overflowClear n →
        exec c s = .next (s.setPort n { s.port n with answer := some .errorResponse }))

/-- R142: the fault POP on an ATTACHED port. -/
def Obligations.FaultPopRemovesTheHead : Prop :=
  ∀ (s : State) (n : HostId), s.accepts n = true → (s.port n).phase = .attached →
    ∃ t, exec (.faultPop n) s = .next t ∧
      (∀ r rest, (s.port n).faults = r :: rest →
        t = s.setPort n { s.port n with faults := rest, answer := some (.acknowledge none) } ∧
        (rest ≠ [] → (t.port n).faults.getLast? = (s.port n).faults.getLast?)) ∧
      ((s.port n).faults = [] → t = s.setPort n { s.port n with answer := some (.acknowledge none) }) ∧
      (t.port n).overflow = (s.port n).overflow ∧ ((t.port n).flags.fr = true ↔ (t.port n).faults ≠ [])

/-- R143: the overflow clear write on an ATTACHED port. -/
def Obligations.OverflowClearResumesRecording : Prop :=
  ∀ (s : State) (n : HostId), s.accepts n = true → (s.port n).phase = .attached →
    ∃ t, exec (.overflowClear n) s = .next t ∧
      t = s.setPort n { s.port n with overflow := false, answer := some (.acknowledge none) } ∧
      (t.port n).flags.fo = false ∧
      ∀ (k : FaultKind) (slot : Option SlotId) (page : Option PageId) (d : Dir),
        (∀ (older : List FaultRecord) (r : FaultRecord), (t.port n).faults = older ++ [r] →
          r.kind = k → r.slot = slot → r.dir = d →
            (t.port n).recordFault k slot page d =
              { t.port n with
                faults := older ++ [{ r with count := if r.count < 255 then r.count + 1 else r.count }] }) ∧
        ((∀ r, (t.port n).faults.getLast? = some r → ¬(r.kind = k ∧ r.slot = slot ∧ r.dir = d)) →
          ((t.port n).faults.length < 4 →
            (t.port n).recordFault k slot page d =
              { t.port n with
                faults :=
                  (t.port n).faults ++ [{ kind := k, slot := slot, page := page, dir := d, count := 1 }] }) ∧
          (4 ≤ (t.port n).faults.length →
            (t.port n).recordFault k slot page d = { t.port n with overflow := true }))

/-- R180: a write to a defined word with no behaviour of its own is acknowledged on an ATTACHED port, an identification
word's in every port state, and otherwise receives the error response; nothing else changes. -/
def Obligations.RegisterWriteChangesNothing : Prop :=
  ∀ (s : State) (n : HostId) (a : BitVec 18) (w : RegWord) (en : BitVec 4) (data : Word), s.accepts n = true →
    decodeAddress a = .register w → w.isPassive = true →
      ((s.port n).phase = .attached ∨ w = .identification0 ∨ w = .identification1 →
        exec (.registerWrite n a en data) s =
          .next (s.setPort n { s.port n with answer := some (.acknowledge none) })) ∧
      ((s.port n).phase ≠ .attached → w ≠ .identification0 → w ≠ .identification1 →
        exec (.registerWrite n a en data) s =
          .next (s.setPort n { s.port n with answer := some .errorResponse }))

/-- R155: INTn follows the flags and the enables, and nothing else. -/
def Obligations.InterruptFollowsFlagsAndEnables : Prop :=
  (∀ (s : State) (n : HostId), s.int n = true ↔
    ((s.port n).cq ≠ [] ∧ (s.port n).enables.cq = true) ∨ ((s.port n).notices ≠ [] ∧ (s.port n).enables.nq = true) ∨
      ((s.port n).noticeLost = true ∧ (s.port n).enables.nl = true) ∨
      ((s.port n).faults ≠ [] ∧ (s.port n).enables.fr = true) ∨
      ((s.port n).overflow = true ∧ (s.port n).enables.fo = true)) ∧
  (∀ (s t : State), s.phase ≠ .inReset → exec .deviceResetAssert s = .next t → ∀ n, t.int n = false) ∧
  (∀ (s t : State) (straps : BitVec 4), s.phase = .inReset → exec (.deviceResetNegate straps) s = .next t →
    ∀ n, t.int n = false) ∧
  (∀ (s : State) (n : HostId), s.portsOk → (s.port n).phase ≠ .attached → s.int n = false) ∧
  ∀ (s t : State) (n : HostId), s.accepts n = true → (s.port n).phase = .detached → s.phase = .ready →
    (s.port n).prst = false → exec (.attach n) s = .next t → t.int n = false

/-! ## Ownership commands at the page entry -/

/-- R23: an ACQUIRE that finds the host already holding the mode, or X when S is requested. -/
def Obligations.AcquireAnsweredFromTheHolding : Prop :=
  ∀ (s : State) (h : HostId) (p : PageId) (pl : Place) (m : Mode) (limit : BitVec 16) (v : Holding),
    s.delivers h (.entry p) pl (.acquire p m limit) → (s.page p).state ≠ .retired → (s.page p).state ≠ .scrub →
      (s.page p).holding h = some v → v.mode = m ∨ v.mode = .X →
        exec (.acquire h p) s =
          .next
            ((s.dropTransit pl).setPort h
              ((s.port h).complete pl { status := .ok, page := some p, gen := some v.gen, result := none }))

/-- R22, R25, R26: the refusals of an ACQUIRE, each with the entry unchanged. -/
def Obligations.AcquireRefusals : Prop :=
  ∀ (s : State) (h : HostId) (p : PageId) (pl : Place) (m : Mode) (limit : BitVec 16),
    s.delivers h (.entry p) pl (.acquire p m limit) → ∀ st : Status,
      (((s.page p).state = .retired ∨ (s.page p).state = .scrub) ∧ st = .retired) ∨
      ((s.page p).state ≠ .retired ∧ (s.page p).state ≠ .scrub ∧
        (s.page p).mode h ≠ some .X ∧ (s.page p).mode h ≠ some m ∧
        (((s.page p).hasWaiter h = true ∧ st = .duplicate) ∨
          ((s.page p).hasWaiter h = false ∧
            (((s.page p).grantable h m = true ∧ (s.page p).hasStray = false ∧ (s.page p).holds h = false ∧
                s.quota h ≤ s.quotaCount h ∧ st = .quota) ∨
              (((s.page p).grantable h m = false ∨ (s.page p).hasStray = true) ∧
                ((limit = 0 ∧ st = .denied) ∨
                  (limit ≠ 0 ∧ s.quota h ≤ s.quotaCount h ∧ st = .quota) ∨
                  (limit ≠ 0 ∧ s.quotaCount h < s.quota h ∧ 32 ≤ s.waitersInUse ∧ st = .noWaiter))))))) →
        exec (.acquire h p) s =
          .next ((s.dropTransit pl).setPort h ((s.port h).complete pl (Reply.ofPage st p)))

/-- R24, R4, R27: an ACQUIRE that is grantable at once, on a FREE page, by joining the holders of a SHARED page, or by an
upgrade of the only holder: one grant event, and no waiter record. -/
def Obligations.AcquireGrantedAtOnce : Prop :=
  ∀ (s : State) (h : HostId) (p : PageId) (pl : Place) (m : Mode) (limit : BitVec 16),
    s.delivers h (.entry p) pl (.acquire p m limit) → (s.page p).waiters = [] → (s.page p).hasStray = false →
      (((s.page p).state = .free ∧ (s.page p).holds h = false ∧ s.quotaCount h < s.quota h) ∨
        ((s.page p).state = .shared ∧ m = .S ∧ (s.page p).holds h = false ∧ s.quotaCount h < s.quota h) ∨
        ((s.page p).state = .shared ∧ m = .X ∧ (s.page p).mode h = some .S ∧
          ∀ k, k ≠ h → (s.page p).holds k = false)) →
        exec (.acquire h p) s =
          .next
            (((s.dropTransit pl).setPage p
                { s.page p with
                  state := (match m with | .S => .shared | .X => .exclusive)
                  holdings := (s.page p).holdings.set h.val (some { mode := m, gen := (s.page p).gen + 1 }) h.isLt
                  gen := (s.page p).gen + 1
                  grant := none }).setPort h
              ((s.port h).complete pl
                { status := .ok, page := some p, gen := some ((s.page p).gen + 1), result := none }))

/-- R26, R42 to R44, R61: an ACQUIRE that must wait joins the tail; as the head of a page in use it starts a recall of
every holder but its own host; and one grantable but for a stray operation is the chosen waiter of a held-back grant. -/
def Obligations.AcquireThatMustWait : Prop :=
  ∀ (s : State) (h : HostId) (p : PageId) (pl : Place) (m : Mode) (limit : BitVec 16), s.pagesOk →
    s.delivers h (.entry p) pl (.acquire p m limit) → (s.page p).mode h ≠ some .X → (s.page p).mode h ≠ some m →
      (s.page p).hasWaiter h = false → limit ≠ 0 → s.quotaCount h < s.quota h → s.waitersInUse < 32 →
        ((s.page p).state ≠ .retired → (s.page p).state ≠ .scrub → (s.page p).waiters ≠ [] ∨ (s.page p).state = .transfer →
          exec (.acquire h p) s =
            .next
              ((s.dropTransit pl).setPage p
                { s.page p with
                  waiters := (s.page p).waiters ++ [waiterOf (s.page p) pl m limit s.timebase] })) ∧
        ((s.page p).inUse = true → (s.page p).waiters = [] → (s.page p).grantable h m = false →
          ∃ targets : Vector Bool 4, (∀ k : HostId, targets[k] = true ↔ (s.page p).holds k = true ∧ k ≠ h) ∧
            exec (.acquire h p) s =
              .next
                (((s.dropTransit pl).setPage p
                    { s.page p with
                      waiters := [waiterOf (s.page p) pl m limit s.timebase]
                      recalling :=
                        some
                          { wanted := m, requester := h, targets := targets,
                            deadline := s.timebase + s.settings.recallLimit.setWidth 32, due := false } }).notifyAll
                  ((hostIds.filter fun k => targets[k]).map fun k =>
                    (k,
                      .recallIssued p (((s.page p).holding k).elim 0 Holding.gen) m h s.settings.recallLimit)))) ∧
        ((s.page p).grantable h m = true → (s.page p).hasStray = true →
          exec (.acquire h p) s =
            .next
              ((s.dropTransit pl).setPage p
                { s.page p with
                  state := .transfer
                  waiters := [waiterOf (s.page p) pl m limit s.timebase]
                  recalling := none
                  grant := some { mode := m, chosen := [h], left := false } }))

/-- R31, R33, R35: the refusals of RELEASE and DOWNGRADE, in their order, each with the entry unchanged. -/
def Obligations.ReleaseAndDowngradeRefusals : Prop :=
  ∀ (s : State) (h : HostId) (p : PageId) (pl : Place) (gen : BitVec 16) (st : Status),
    (s.delivers h (.entry p) pl (.release p gen) →
      ((s.page p).holds h = false ∧ st = .notHeld) ∨
        (∃ v, (s.page p).holding h = some v ∧ ((v.gen ≠ gen ∧ st = .stale) ∨
          (v.gen = gen ∧ (∃ r ∈ (s.page p).refs, r.place.host = h ∧ r.marked = false) ∧ st = .inUse))) →
        exec (.release h p) s =
          .next ((s.dropTransit pl).setPort h ((s.port h).complete pl (Reply.ofPage st p)))) ∧
    (s.delivers h (.entry p) pl (.downgrade p gen) →
      ((s.page p).mode h ≠ some .X ∧ st = .notHeld) ∨
        (∃ v, (s.page p).holding h = some v ∧ v.mode = .X ∧ ((v.gen ≠ gen ∧ st = .stale) ∨
          (v.gen = gen ∧ (∃ r ∈ (s.page p).refs, r.place.host = h ∧ r.marked = false ∧ r.need = some .X) ∧
            st = .inUse))) →
        exec (.downgrade h p) s =
          .next ((s.dropTransit pl).setPort h ((s.port h).complete pl (Reply.ofPage st p))))

/-- R27, R32, R33, R46, R47, R62: an accepted RELEASE or DOWNGRADE. On a page with an empty list it changes the host's
holding and the state alone. A RELEASE in TRANSFER removes the holding, clears the flag of the host's upgrade, and serves
nothing. A RELEASE that leaves the recall a target takes the host out of the targets, and the recall goes on. A DOWNGRADE
answers no exclusive recall; it answers a shared one, and the list is served. -/
def Obligations.ReleaseAndDowngradeAccepted : Prop :=
  ∀ (s : State) (h : HostId) (p : PageId) (pl : Place) (v : Holding), s.pagesOk →
    (s.page p).holding h = some v →
      (s.delivers h (.entry p) pl (.release p v.gen) →
        (∀ r ∈ (s.page p).refs, r.place.host = h → r.marked = true) →
          ((s.page p).waiters = [] →
            exec (.release h p) s =
              .next
                (((s.dropTransit pl).setPage p
                    { s.page p with
                      holdings := (s.page p).holdings.set h.val none h.isLt
                      state :=
                        if (s.page p).state = .transfer then .transfer
                        else if ∀ k, k ≠ h → (s.page p).holds k = false then .free else .shared }).setPort h
                  ((s.port h).complete pl (Reply.ofPage .ok p)))) ∧
          ((s.page p).state = .transfer →
            exec (.release h p) s =
              .next
                (((s.dropTransit pl).setPage p
                    { s.page p with
                      holdings := (s.page p).holdings.set h.val none h.isLt
                      waiters := (s.page p).waiters.map fun w => w.clearedFor h }).setPort h
                  ((s.port h).complete pl (Reply.ofPage .ok p)))) ∧
          ∀ r : Recall, (s.page p).recalling = some r → (∃ k, k ≠ h ∧ r.targets[k] = true) →
            exec (.release h p) s =
              .next
                (((s.dropTransit pl).setPage p
                    { s.page p with
                      holdings := (s.page p).holdings.set h.val none h.isLt
                      waiters := (s.page p).waiters.map fun w => w.clearedFor h
                      state := .shared
                      recalling := some { r with targets := r.targets.set h.val false h.isLt } }).setPort h
                  ((s.port h).complete pl (Reply.ofPage .ok p)))) ∧
      (v.mode = .X → s.delivers h (.entry p) pl (.downgrade p v.gen) →
        (∀ r ∈ (s.page p).refs, r.place.host = h → r.need = some .X → r.marked = true) →
          ∀ e : Entry,
            e =
              { s.page p with
                holdings := (s.page p).holdings.set h.val (some { mode := .S, gen := v.gen }) h.isLt
                state := .shared } →
            ((s.page p).waiters = [] ∨ (∃ r, (s.page p).recalling = some r ∧ r.wanted = .X) →
              exec (.downgrade h p) s =
                .next
                  (((s.dropTransit pl).setPage p e).setPort h ((s.port h).complete pl (Reply.ofPage .ok p)))) ∧
            ((∃ r, (s.page p).recalling = some r ∧ r.wanted = .S) →
              ∃ t ns posts,
                ({ e with recalling := none } : Entry).servedAs p s.timebase s.settings.recallLimit t ns posts ∧
                (∀ w ∈ e.waiters.head?, e.serves w) ∧
                exec (.downgrade h p) s =
                  .next
                    (((((s.dropTransit pl).setPage p t).notifyAll ns).postAll posts).post pl (Reply.ofPage .ok p))))

/-- R30, R32, R46, R49, R61, R66: the RELEASE that leaves the recall no target ends it, and the list is served: the run of
waiters at the head is granted with one new generation, an exclusive head alone, and a fresh recall starts for a waiter
left behind; or it is chosen for a held-back grant, if a stray operation remains. -/
def Obligations.LastReleaseGrantsTheHead : Prop :=
  ∀ (s : State) (h : HostId) (p : PageId) (pl : Place) (v : Holding) (r : Recall), s.pagesOk →
    s.delivers h (.entry p) pl (.release p v.gen) → (s.page p).holding h = some v →
      (∀ x ∈ (s.page p).refs, x.place.host = h → x.marked = true) → (s.page p).recalling = some r →
        (∀ k, k ≠ h → r.targets[k] = false) →
          ∀ e : Entry,
            e =
              { s.page p with
                holdings := (s.page p).holdings.set h.val none h.isLt
                waiters := (s.page p).waiters.map fun w => w.clearedFor h
                recalling := none } →
            ∃ t ns posts, e.servedAs p s.timebase s.settings.recallLimit t ns posts ∧
              (∀ w ∈ e.waiters.head?, e.serves w) ∧
              exec (.release h p) s =
                .next (((((s.dropTransit pl).setPage p t).notifyAll ns).postAll posts).post pl (Reply.ofPage .ok p))

/-- R36, R38, R40, R50, R51, R62: a waiter leaves by timeout or cancel. From behind the head nothing else changes. A head
takes the recall with it, WITHDRAWN to each remaining target, and the list behind it is served: a fresh recall for a head
that must wait, or a grant. In TRANSFER a chosen waiter leaves the choice. A cancel request whose waiter has gone
completes the CANCEL NOT_FOUND. -/
def Obligations.WaiterDeparts : Prop :=
  ∀ (s : State) (h : HostId) (p : PageId), s.pagesOk →
    (∀ (pl target : Place), s.delivers h (.entry p) pl (.cancelRequest p target) →
      (∀ w ∈ (s.page p).waiters, w.place ≠ target) →
        exec (.cancelRequest h p) s =
          .next ((s.dropTransit pl).setPort h ((s.port h).complete pl (Reply.bare .notFound)))) ∧
    ∀ (ahead behind : List Waiter) (w : Waiter), (s.page p).waiters = ahead ++ w :: behind →
      ∃ (t : Entry) (ns : List (HostId × Notice)) (posts : List (Place × Reply)),
        ((s.page p).inUse = true → ahead ≠ [] →
          t = { s.page p with waiters := ahead ++ behind } ∧ ns = [] ∧ posts = []) ∧
        (∀ r, (s.page p).inUse = true → ahead = [] → (s.page p).recalling = some r → ∃ fresh,
          ns = ((hostIds.filter fun k => r.targets[k]).map fun k => (k, .recallWithdrawn p w.place.host)) ++ fresh ∧
          (behind = [] → t = { s.page p with waiters := [], recalling := none } ∧ fresh = [] ∧ posts = []) ∧
          (behind ≠ [] →
            ({ s.page p with waiters := behind, recalling := none } : Entry).servedAs p s.timebase
              s.settings.recallLimit t fresh posts)) ∧
        (∀ g, (s.page p).state = .transfer → (s.page p).grant = some g → ns = [] ∧ posts = [] ∧
          t =
            { s.page p with
              waiters := ahead ++ behind
              grant :=
                some
                  (if w.place.host ∈ g.chosen then
                    { g with chosen := g.chosen.filter fun k => k ≠ w.place.host, left := true }
                  else g) }) ∧
        (w.place.host = h → w.due = true →
          exec (.waitTimeout h p) s =
            .next ((((s.setPage p t).notifyAll ns).postAll posts).post w.place (Reply.ofPage .timedOut p))) ∧
        ∀ pl : Place, s.delivers h (.entry p) pl (.cancelRequest p w.place) →
          exec (.cancelRequest h p) s =
            .next
              ((((((s.dropTransit pl).setPage p t).notifyAll ns).postAll posts).post w.place
                (Reply.ofPage .cancelled p)).post pl (Reply.bare .ok))

/-- R52, R53, R61, R66: at the recall deadline every remaining target is revoked, its jobs marked first, with REVOKED, and
the flag of its upgrade is cleared; the head can then be served: the run at the head is granted with the next generation,
with a fresh recall for a waiter left behind, or chosen for a held-back grant if a stray operation remains. -/
def Obligations.RecallDeadlineRevokes : Prop :=
  ∀ (s : State) (p : PageId) (r : Recall), s.pagesOk → (s.page p).recalling = some r → r.due = true →
    ∀ (kept : Vector (Option Holding) 4) (jobs : List Place) (ns : List (HostId × Notice)) (e : Entry),
      (∀ k : HostId, kept[k] = if r.targets[k] then none else (s.page p).holding k) →
      jobs = (hostIds.filter fun k => r.targets[k]).flatMap (fun k =>
        ((s.page p).refs.filter fun x => x.place.host = k && !x.marked).map JobRef.place) →
      ns = (hostIds.filter fun k => r.targets[k]).map (fun k =>
        (k, .holdingRevoked p (((s.page p).holding k).elim 0 Holding.gen) .recallTimeout)) →
      e =
        { s.page p with
          holdings := kept
          waiters := (s.page p).waiters.map fun w => if r.targets[w.place.host] then { w with upgrade := false } else w
          recalling := none } →
      ∃ t fresh posts, e.servedAs p s.timebase s.settings.recallLimit t fresh posts ∧
        (∀ w ∈ e.waiters.head?, e.serves w) ∧
        exec (.recallDeadline p) s = .next ((((s.setPage p t).markAll jobs).notifyAll (ns ++ fresh)).postAll posts)

/-- R13, R63, R64, R66: the drain end leaves TRANSFER for good. With every chosen waiter present it makes the held-back
grant as one grant event and serves the list behind once more: a recall for a head that must wait, or a second grant of a
later generation for shared waiters behind a shared grant. With a chosen waiter gone the list is served anew; with no
waiter left no grant is made. While a stray operation remains it is no event. -/
def Obligations.DrainEndMakesTheHeldBackGrant : Prop :=
  ∀ (s : State) (p : PageId) (g : PendingGrant), s.pagesOk → (s.page p).state = .transfer →
    (s.page p).grant = some g →
      ((s.page p).hasStray = true → exec (.drainEnd p) s = .next s) ∧
      ((s.page p).hasStray = false →
        (∃ t, exec (.drainEnd p) s = .next t ∧ (t.page p).state ≠ .transfer ∧ (t.page p).grant = none ∧
          t = { s with pages := t.pages, ports := t.ports } ∧ ∀ q, q ≠ p → t.page q = s.page q) ∧
        (g.left = false → ∀ chosen behind : List Waiter, (s.page p).waiters = chosen ++ behind →
          (chosen.map fun w => w.place.host) = g.chosen →
            ∃ t ns posts,
              (behind = [] → t = (s.page p).grantedTo g.mode chosen [] ∧ ns = [] ∧ posts = []) ∧
              (behind ≠ [] →
                ((s.page p).grantedTo g.mode chosen behind).servedAs p s.timebase s.settings.recallLimit t ns posts) ∧
              exec (.drainEnd p) s =
                .next
                  (((s.setPage p t).notifyAll ns).postAll
                    (grantReplies p ((s.page p).gen + 1) chosen ++ posts))) ∧
        (g.left = true → (s.page p).waiters = [] →
          exec (.drainEnd p) s =
            .next
              (s.setPage p
                { s.page p with
                  state := if ∀ k, (s.page p).holds k = false then .free else .shared
                  grant := none })) ∧
        (g.left = true → (s.page p).waiters ≠ [] →
          ∃ t ns posts,
            ({ s.page p with grant := none } : Entry).servedAs p s.timebase s.settings.recallLimit t ns posts ∧
            exec (.drainEnd p) s = .next (((s.setPage p t).notifyAll ns).postAll posts)))

/-- R17: QUERY answers the entry's contents and changes nothing. -/
def Obligations.QueryAnswersTheEntry : Prop :=
  ∀ (s : State) (h : HostId) (p : PageId) (pl : Place), s.delivers h (.entry p) pl (.query p) →
    ∃ modes : Vector (Option Mode) 4, (∀ k : HostId, modes[k] = (s.page p).mode k) ∧
      exec (.query h p) s =
        .next
          ((s.dropTransit pl).setPort h
            ((s.port h).complete pl
              { status := .ok, page := some p, gen := some (s.page p).gen,
                result :=
                  some
                    (.query (s.page p).state modes (s.page p).waiters.length (s.page p).recalling.isSome) }))

/-! ## Manager functions -/

/-- R173: RETIRE by the state of the page. -/
def Obligations.RetireTakesOnlyFreePages : Prop :=
  ∀ (s : State) (h : HostId) (p : PageId) (pl : Place), s.delivers h (.entry p) pl (.retire p) →
    ((s.page p).state = .free →
      exec (.retire h p) s =
        .next
          (((s.dropTransit pl).setPage p { s.page p with state := .retired }).setPort h
            ((s.port h).complete pl (Reply.ofPage .ok p)))) ∧
    ((s.page p).state = .retired →
      exec (.retire h p) s =
        .next ((s.dropTransit pl).setPort h ((s.port h).complete pl (Reply.ofPage .ok p)))) ∧
    ((s.page p).state ≠ .free → (s.page p).state ≠ .retired →
      exec (.retire h p) s =
        .next ((s.dropTransit pl).setPort h ((s.port h).complete pl (Reply.ofPage .inUse p))))

/-- R75, R132, R175: RESTORE takes a RETIRED page to SCRUB and hands a scrub to the engine; the engine takes it in the
order in which its host's commands were dispatched (how far that reaches is the model's reading, notes/assumptions/18.md),
and queues it with a reference or refuses it; the refusal returns the page to RETIRED and completes the RESTORE
ENGINE_FULL. -/
def Obligations.RestoreRunsAScrub : Prop :=
  (∀ (s : State) (h : HostId) (p : PageId) (pl : Place), s.delivers h (.entry p) pl (.restore p) →
    ((s.page p).state = .retired →
      exec (.restore h p) s =
        .next
          { (s.dropTransit pl).setPage p { s.page p with state := .scrub } with
            engine := { s.engine with scrubs := s.engine.scrubs ++ [Job.fresh pl .scrub p] } }) ∧
    ((s.page p).state ≠ .retired →
      exec (.restore h p) s =
        .next ((s.dropTransit pl).setPort h ((s.port h).complete pl (Reply.ofPage .badCommand p))))) ∧
  (∀ (s : State) (p : PageId) (j : Job) (older newer : List Job), s.engine.scrubs = older ++ j :: newer →
    j.target = p → (∀ k ∈ older, k.target ≠ p) → s.firstForEngine j.place →
    (s.engine.queue.length < 8 →
      exec (.scrubAdmission p) s =
        .next
          { s.setPage p
              { s.page p with
                refs :=
                  (s.page p).refs ++ [{ place := j.place, need := none, running := false, marked := false }] } with
            engine :=
              { s.engine with
                scrubs := s.engine.scrubs.filter fun k => k.place ≠ j.place, queue := s.engine.queue ++ [j] } }) ∧
    (8 ≤ s.engine.queue.length →
      exec (.scrubAdmission p) s =
        .next
          { s with
            engine :=
              { s.engine with
                scrubs := s.engine.scrubs.filter fun k => k.place ≠ j.place
                refusals := s.engine.refusals ++ [j] } })) ∧
  (∀ (s : State) (p : PageId), (∀ j ∈ s.engine.scrubs, j.target = p → ¬s.firstForEngine j.place) →
    exec (.scrubAdmission p) s = .next s) ∧
  ∀ (s : State) (p : PageId) (j : Job), (s.engine.refusals.find? fun k => k.target = p) = some j →
    (s.page p).state = .scrub →
      exec (.scrubRefusal p) s =
        .next
          ({ s.setPage p { s.page p with state := .retired } with
            engine := { s.engine with refusals := s.engine.refusals.filter fun k => k.place ≠ j.place } }.post j.place
              (Reply.ofPage .engineFull p))

/-- R177, R178: SET_QUOTA sets a quota that is not below the host's count and otherwise completes BELOW_HELD;
SET_RECALL_LIMIT sets the limit; nothing is granted, removed or moved. -/
def Obligations.ManagerSettingsTakeTheirCommands : Prop :=
  ∀ (s : State) (h named : HostId) (pl : Place) (limit : Nat) (us : BitVec 16),
    (s.delivers h .settings pl (.setQuota named limit) →
      (s.quotaCount named ≤ limit →
        exec (.setQuota h) s =
          .next
            { (s.dropTransit pl).setPort h ((s.port h).complete pl (Reply.bare .ok)) with
              settings := { s.settings with quota := s.settings.quota.set named.val limit named.isLt } }) ∧
      (limit < s.quotaCount named →
        exec (.setQuota h) s =
          .next ((s.dropTransit pl).setPort h ((s.port h).complete pl (Reply.bare .belowHeld))))) ∧
    (s.delivers h .settings pl (.setRecallLimit us) →
      exec (.setRecallLimit h) s =
        .next
          { (s.dropTransit pl).setPort h ((s.port h).complete pl (Reply.bare .ok)) with
            settings := { s.settings with recallLimit := us } })

/-- R81, R121, R163: a command whose session has ended is discarded by its owner as no event; a COPY whose source check had
passed takes its source reference with it. -/
def Obligations.EndedSessionsCommandsAreDiscarded : Prop :=
  ∀ (s : State) (h : HostId) (pl : Place) (e : Errand), s.arrival h e.owner = some ⟨pl, e⟩ →
    (s.port h).session ≠ some pl.session →
      ((∀ a b, e ≠ .copyDestination a b) → exec (e.row h) s = .next (s.dropTransit pl)) ∧
      ∀ a b, e = .copyDestination a b →
        ∃ t, exec (e.row h) s = .next t ∧ t = { s.dropTransit pl with pages := t.pages } ∧
          ∀ q, t.page q =
            if q = a ∨ q = b then { s.page q with refs := (s.page q).refs.filter fun r => r.place ≠ pl } else s.page q

/-! ## The window access path and the page store -/

/-- R86, R87, R91 to R93: a window access decodes to its slot and word; on an ATTACHED port it is translated by the cache,
by the map with a fill, or faults UNMAPPED; on any other it ends with the error response and nothing else. -/
def Obligations.WindowAccessTranslates : Prop :=
  (∀ (slot : SlotId) (w : WordIdx) (low : Fin 4),
    decodeAddress (BitVec.ofNat 18 (0x20000 + 1024 * slot.val + 4 * w.val + low.val)) = .window slot w) ∧
  ∀ (s : State) (n : HostId) (a : BitVec 18) (slot : SlotId) (w : WordIdx) (d : Dir) (en : BitVec 4) (data : Word),
    s.accepts n = true → decodeAddress a = .window slot w →
      ((s.port n).phase ≠ .attached →
        exec (.windowAccess n a d en data) s =
          .next (s.setPort n { s.port n with answer := some .errorResponse })) ∧
      (∀ (older newer : List (SlotId × PageId)) (p : PageId), (s.port n).phase = .attached → s.portsOk →
        (s.port n).cache = newer ++ (slot, p) :: older →
          exec (.windowAccess n a d en data) s =
            .next
              (s.setPort n
                { s.port n with
                  cache := (slot, p) :: (newer ++ older)
                  access :=
                    some
                      { slot := slot, word := w, page := p, dir := d, enables := en,
                        data := (match d with | .read => none | .write => some data) }
                  answer := none })) ∧
      (∀ p : PageId, (s.port n).phase = .attached → (∀ c ∈ (s.port n).cache, c.1 ≠ slot) →
        (s.port n).map[slot] = some p →
          exec (.windowAccess n a d en data) s =
            .next
              (s.setPort n
                { s.port n with
                  cache := (slot, p) :: (s.port n).cache.take 7
                  access :=
                    some
                      { slot := slot, word := w, page := p, dir := d, enables := en,
                        data := (match d with | .read => none | .write => some data) }
                  answer := none })) ∧
      ((s.port n).phase = .attached → (∀ c ∈ (s.port n).cache, c.1 ≠ slot) → (s.port n).map[slot] = none →
        exec (.windowAccess n a d en data) s =
          .next
            (s.setPort n
              { (s.port n).recordFault .unmapped (some slot) none d with answer := some .errorResponse }))

/-- R97, R99, R103: the access check: RETIRED, NOT_HELD and READ_ONLY in this order, with the fault, the error response and
the entry unchanged; otherwise the pair joins the in-flight set and one word operation is requested. -/
def Obligations.AccessCheckDecides : Prop :=
  ∀ (s : State) (n : HostId) (a : WindowAccess), (s.port n).access = some a →
    (∀ k : FaultKind,
      (((s.page a.page).state = .retired ∨ (s.page a.page).state = .scrub) ∧ k = .retired) ∨
      ((s.page a.page).state ≠ .retired ∧ (s.page a.page).state ≠ .scrub ∧
        (((s.page a.page).mode n = none ∧ k = .notHeld) ∨
          ((s.page a.page).mode n = some .S ∧ a.dir = .write ∧ k = .readOnly))) →
        exec (.accessCheck n) s =
          .next
            (s.setPort n
              { (s.port n).recordFault k (some a.slot) (some a.page) a.dir with
                access := none, answer := some .errorResponse })) ∧
    ((s.page a.page).state ≠ .retired → (s.page a.page).state ≠ .scrub →
      (s.page a.page).mode n = some .X ∨ ((s.page a.page).mode n = some .S ∧ a.dir = .read) →
        exec (.accessCheck n) s =
          .next
            { (s.setPage a.page
                  { s.page a.page with
                    inFlight := (s.page a.page).inFlight.set n.val (some a.dir) n.isLt }).setPort n
                { s.port n with
                  access := none
                  inFlight :=
                    some
                      { page := a.page, word := a.word, slot := a.slot, dir := a.dir, enables := a.enables,
                        data := a.data, abandoned := false } } with
              arbiter :=
                s.arbiter.request
                  { requester := .port n, page := a.page, word := a.word, dir := a.dir, enables := a.enables,
                    data := a.data } })

/-- R88, R136 to R139: an access in neither area or to an undefined offset ends with the error response; on an ATTACHED
port fault RANGE is discarded during overflow, folded into a newest record of its kind, slot and direction, recorded in a
file with room, or sets the overflow flag; on any other port nothing is recorded. -/
def Obligations.OutOfRangeAccessFaults : Prop :=
  ∀ (s : State) (n : HostId) (a : BitVec 18) (d : Dir), s.accepts n = true →
    decodeAddress a = .neither ∨ decodeAddress a = .undefinedOffset →
      ∃ g, exec (.outOfRangeAccess n a d) s = .next (s.setPort n { g with answer := some .errorResponse }) ∧
        ((s.port n).phase ≠ .attached → g = s.port n) ∧
        ((s.port n).phase = .attached →
          ((s.port n).overflow = true → g = s.port n) ∧
          ((s.port n).overflow = false →
            (∀ (older : List FaultRecord) (r : FaultRecord), (s.port n).faults = older ++ [r] →
              r.kind = .range → r.slot = none → r.dir = d →
                g =
                  { s.port n with
                    faults := older ++ [{ r with count := if r.count < 255 then r.count + 1 else r.count }] }) ∧
            ((∀ r ∈ (s.port n).faults.getLast?, ¬(r.kind = .range ∧ r.slot = none ∧ r.dir = d)) →
              ((s.port n).faults.length < 4 →
                g =
                  { s.port n with
                    faults :=
                      (s.port n).faults ++ [{ kind := .range, slot := none, page := none, dir := d, count := 1 }] }) ∧
              (4 ≤ (s.port n).faults.length → g = { s.port n with overflow := true }))))

/-- R95: FLUSH, from the command unit to the access path of its own port, and there. An access that misses afterwards is
translated from the map as it stands. -/
def Obligations.FlushInvalidatesItsScope : Prop :=
  (∀ (s : State) (n : HostId) (d : Descriptor) (rest : List Descriptor) (first count : Nat),
    (s.port n).ringState = .running → (s.port n).ring = d :: rest → d.asks (.flush first count) →
      ∃ t, exec (.takeCommand n) s = .next t ∧
        t.transit = s.transit ++ [Transit.mk (s.placeFor n d) (.flush first count)] ∧
        (Errand.flush first count).owner = .path ∧ (s.placeFor n d).host = n) ∧
  ∀ (s : State) (h : HostId) (pl : Place) (first count : Nat), s.delivers h .path pl (.flush first count) →
    first ≤ 127 → 1 ≤ count → first + count ≤ 128 →
      ∃ cache, exec (.flush h) s =
          .next
            ((s.dropTransit pl).setPort h
              ({ s.port h with cache := cache }.complete pl
                { status := .ok, page := none, gen := none,
                  result := some (if count ≤ 8 then .flushRange else .flushAll) })) ∧
        (count ≤ 8 → cache = (s.port h).cache.filter fun c => c.1.val < first || first + count ≤ c.1.val) ∧
        (9 ≤ count → cache = []) ∧
        ∀ (slot : SlotId) (p : PageId), (∀ c ∈ cache, c.1 ≠ slot) → (s.port h).map[slot] = some p →
          ({ s.port h with cache := cache }.translate slot).map Prod.fst = some p

/-- R111: at a choice the arbiter serves the first pending requester in the cyclic order HP0, HP1, HP2, HP3, page engine
after the last served; a request at an idle store is served at once, and one at a busy store waits. -/
def Obligations.ArbiterServesInCyclicOrder : Prop :=
  ∀ (a : Arbiter),
    (∀ op ∈ a.performing, a.choose = a) ∧
    (a.performing = none → a.requests ≠ [] → ∃ op ∈ a.requests,
      a.choose =
        { lastServed := op.requester, requests := a.requests.filter fun o => o.requester ≠ op.requester,
          performing := some op } ∧
      ∀ o ∈ a.requests, a.lastServed.turnsAfter op.requester ≤ a.lastServed.turnsAfter o.requester) ∧
    (a.performing = none → a.requests = [] → a.choose = a) ∧
    ∀ op : WordOp,
      (a.performing = none → a.requests = [] →
        a.request op = { lastServed := op.requester, requests := [], performing := some op }) ∧
      (∀ o ∈ a.performing, a.request op = { a with requests := a.requests ++ [op] })

/-- R100, R102, R106, R108: the end of a host write: the enabled bytes hold the data with correct parity and every other
byte of the store is as it was; the pair and the record are gone; the acknowledge is given unless the access was
abandoned; then the arbiter chooses. -/
def Obligations.HostWriteEnds : Prop :=
  ∀ (s : State) (n : HostId) (r : InFlight) (data : Word), s.storeOk →
    s.arbiter.performing = some (r.request n) → (s.port n).inFlight = some r → r.dir = .write → r.data = some data →
      ∃ t, exec .wordOperationEnd s = .next t ∧
        t =
          { (s.setPage r.page
                { s.page r.page with inFlight := (s.page r.page).inFlight.set n.val none n.isLt }).setPort n
              { s.port n with
                inFlight := none
                answer := if r.abandoned then (s.port n).answer else some (.acknowledge none) } with
            store := t.store, arbiter := { s.arbiter with performing := none }.choose } ∧
        (∀ b : ByteIdx,
          t.store.readByte (byteAddress r.page r.word b) =
            (if r.enables.getLsbD b.val then data.byte b else s.store.readByte (byteAddress r.page r.word b)) ∧
          t.store.mismatched (byteAddress r.page r.word b) =
            (!r.enables.getLsbD b.val && s.store.mismatched (byteAddress r.page r.word b))) ∧
        ∀ x, (∀ b : ByteIdx, x ≠ byteAddress r.page r.word b) →
          t.store.readByte x = s.store.readByte x ∧ t.store.mismatched x = s.store.mismatched x

/-- R58, R60, R100, R101, R109, R113: the end of a host read: the word when its four bytes are sound; with a mismatch the
error response and fault PARITY, unless abandoned, and the page in use retired: every holder REVOKED, every waiter
RETIRED, the jobs on it marked; a page already RETIRED or in SCRUB stays as it is. -/
def Obligations.HostReadEnds : Prop :=
  ∀ (s : State) (n : HostId) (r : InFlight), s.arbiter.performing = some (r.request n) →
    (s.port n).inFlight = some r → r.dir = .read →
      ∀ (e : Entry) (a : Arbiter), e = { s.page r.page with inFlight := (s.page r.page).inFlight.set n.val none n.isLt } →
        a = { s.arbiter with performing := none } →
        ((∀ b : ByteIdx, s.store.mismatched (byteAddress r.page r.word b) = false) →
          ∃ v : Word, (∀ b : ByteIdx, v.byte b = s.store.readByte (byteAddress r.page r.word b)) ∧
            exec .wordOperationEnd s =
              .next
                { (s.setPage r.page e).setPort n
                    { s.port n with
                      inFlight := none
                      answer := if r.abandoned then (s.port n).answer else some (.acknowledge (some v)) } with
                  arbiter := a.choose }) ∧
        ((∃ b : ByteIdx, s.store.mismatched (byteAddress r.page r.word b) = true) →
          ∃ t u : State, exec .wordOperationEnd s = .next t ∧
            t =
              { u.setPort n
                  { (if r.abandoned then u.port n
                      else (u.port n).recordFault .parity (some r.slot) (some r.page) .read) with
                    inFlight := none
                    answer := if r.abandoned then (u.port n).answer else some .errorResponse } with
                arbiter := a.choose } ∧
            (e.state = .retired ∨ e.state = .scrub → u = { s.setPage r.page e with arbiter := a }) ∧
            (e.state ≠ .retired → e.state ≠ .scrub →
              u =
                (((({ s with arbiter := a }.setPage r.page
                        { e with
                          state := .retired, holdings := Vector.replicate 4 none, waiters := [], recalling := none,
                          grant := none }).markAll
                      ((e.refs.filter fun (x : JobRef) => !x.marked).map JobRef.place)).notifyAll
                    ((hostIds.filter fun k => e.holds k).map fun k =>
                      (k, .holdingRevoked r.page ((e.holding k).elim 0 Holding.gen) .parity))).postAll
                  (e.waiters.map fun (w : Waiter) => (w.place, Reply.ofPage .retired r.page)))))

/-! ## The page engine -/

/-- R121, R122: the holding checks of FILL (X), CHECKSUM (S or X), a COPY's source (S or X) and its destination (X): a
passing check places a queued reference and sends the job on; a failing one completes NOT_HELD with the target page, and
at a COPY's destination removes the source reference. -/
def Obligations.HoldingChecksOfJobs : Prop :=
  ∀ (s : State) (h : HostId) (p q : PageId) (pl : Place) (pattern : Word),
    (∀ (e : Errand) (need : Mode) (job : Job),
      (e = .fill p pattern ∧ need = .X ∧ job = Job.fresh pl (.fill pattern) p) ∨
        (e = .checksum p ∧ need = .S ∧ job = Job.fresh pl (.checksum 0xFFFF) p) →
      s.delivers h (.entry p) pl e →
        ((s.page p).mode h = some .X ∨ (s.page p).mode h = some need →
          exec (e.row h) s =
            .next
              { (s.dropTransit pl).setPage p
                  { s.page p with
                    refs :=
                      (s.page p).refs ++ [{ place := pl, need := some need, running := false, marked := false }] } with
                engine := { s.engine with arriving := s.engine.arriving ++ [job] } }) ∧
        ((s.page p).mode h ≠ some .X → (s.page p).mode h ≠ some need →
          (∀ r ∈ (s.page p).refs, r.place ≠ pl) →
            exec (e.row h) s =
              .next ((s.dropTransit pl).setPort h ((s.port h).complete pl (Reply.ofPage .notHeld p))))) ∧
    (s.delivers h (.entry p) pl (.copySource p q) →
      ((s.page p).mode h ≠ none →
        exec (.copy h p) s =
          .next
            { s.setPage p
                { s.page p with
                  refs := (s.page p).refs ++ [{ place := pl, need := some .S, running := false, marked := false }] } with
              transit :=
                s.transit.map fun t => if t.place = pl then { t with errand := .copyDestination p q } else t }) ∧
      ((s.page p).mode h = none →
        exec (.copy h p) s =
          .next ((s.dropTransit pl).setPort h ((s.port h).complete pl (Reply.ofPage .notHeld q))))) ∧
    (p ≠ q → s.delivers h (.entry q) pl (.copyDestination p q) →
      ((s.page q).mode h = some .X →
        exec (.copyDestinationCheck h q) s =
          .next
            { (s.dropTransit pl).setPage q
                { s.page q with
                  refs := (s.page q).refs ++ [{ place := pl, need := some .X, running := false, marked := false }] } with
              engine := { s.engine with arriving := s.engine.arriving ++ [Job.fresh pl (.copy p) q] } }) ∧
      ((s.page q).mode h ≠ some .X → (∀ r ∈ (s.page q).refs, r.place ≠ pl) →
        exec (.copyDestinationCheck h q) s =
          .next
            (((s.dropTransit pl).setPage p
                { s.page p with refs := (s.page p).refs.filter fun r => r.place ≠ pl }).setPort h
              ((s.port h).complete pl (Reply.ofPage .notHeld q)))))

/-- R75, R121, R123, R124: the engine takes a host's checked jobs in the order they were dispatched (how far that reaches
is the model's reading, notes/assumptions/18.md): the tail of a queue with room, ENGINE_FULL of a full one, ABORTED for a
job marked on its way (before ENGINE_FULL: the model's reading, notes/assumptions/9.md), nothing for one of an ended
session, in the last three with its references removed; it starts the oldest job when none runs, unless it is marked. What
a job requests for its next word is given for each kind of work. -/
def Obligations.JobsAreQueuedAndStarted : Prop :=
  (∀ j : Job,
    (j.progress ≤ 255 → j.nextWord.val = j.progress) ∧
    (∀ pattern, j.work = .fill pattern →
      j.request =
        { requester := .engine, page := j.target, word := j.nextWord, dir := .write, enables := 0xF,
          data := some pattern }) ∧
    (j.work = .scrub →
      j.request =
        { requester := .engine, page := j.target, word := j.nextWord, dir := .write, enables := 0xF, data := some 0 }) ∧
    (∀ c, j.work = .checksum c →
      j.request =
        { requester := .engine, page := j.target, word := j.nextWord, dir := .read, enables := 0xF, data := none }) ∧
    ∀ src, j.work = .copy src →
      j.request =
        (match j.held with
        | none =>
          { requester := .engine, page := src, word := j.nextWord, dir := .read, enables := 0xF, data := none }
        | some read =>
          { requester := .engine, page := j.target, word := j.nextWord, dir := .write, enables := 0xF,
            data := some read })) ∧
  (∀ (s : State) (h : HostId) (j : Job) (older newer : List Job), s.engine.arriving = older ++ j :: newer →
    j.place.host = h → (∀ k ∈ older, k.place.host = h → j.place.seq < k.place.seq) → s.firstForEngine j.place →
      j.work ≠ .scrub →
        ∀ e : Engine, e = { s.engine with arriving := s.engine.arriving.filter fun k => k.place ≠ j.place } →
          ((s.port h).session = some j.place.session →
            (∀ p ∈ j.pages, ∀ r ∈ (s.page p).refs, r.place = j.place → r.marked = false) →
              s.engine.queue.length < 8 →
                exec (.jobQueueing h) s = .next { s with engine := { e with queue := s.engine.queue ++ [j] } }) ∧
          ∃ t, t = { s with pages := t.pages, ports := t.ports, engine := e } ∧
            (∀ p, t.page p =
              if p ∈ j.pages then { s.page p with refs := (s.page p).refs.filter fun r => r.place ≠ j.place }
              else s.page p) ∧
            ((s.port h).session ≠ some j.place.session → t.ports = s.ports ∧ exec (.jobQueueing h) s = .next t) ∧
            ((s.port h).session = some j.place.session →
              (∃ p ∈ j.pages, ∃ r ∈ (s.page p).refs, r.place = j.place ∧ r.marked = true) →
                t.ports = (s.post j.place (Reply.ofPage .aborted j.target)).ports ∧
                  exec (.jobQueueing h) s = .next t) ∧
            ((s.port h).session = some j.place.session →
              (∀ p ∈ j.pages, ∀ r ∈ (s.page p).refs, r.place = j.place → r.marked = false) →
                8 ≤ s.engine.queue.length →
                  t.ports = (s.post j.place (Reply.ofPage .engineFull j.target)).ports ∧
                    exec (.jobQueueing h) s = .next t)) ∧
  (∀ (s : State) (h : HostId), (∀ j ∈ s.engine.arriving, j.place.host = h → ¬s.firstForEngine j.place) →
    exec (.jobQueueing h) s = .next s) ∧
  ∀ (s : State) (j : Job) (js : List Job), s.engine.queue = j :: js → (∀ k ∈ j :: js, k.running = false) →
    (j.marked = false → ∃ t, exec .jobStart s = .next t ∧
      t = { s with pages := t.pages, engine := t.engine, arbiter := s.arbiter.request j.request } ∧
      t.engine = { s.engine with queue := { j with running := true } :: js } ∧
      ∀ p, t.page p =
        if p ∈ j.pages then
          { s.page p with
            refs := (s.page p).refs.map fun r => if r.place = j.place then { r with running := true } else r }
        else s.page p) ∧
    (j.marked = true → js = [] → ∃ t, exec .jobStart s = .next t ∧ t.engine = { s.engine with queue := [] } ∧
      t.arbiter = s.arbiter ∧ t.port j.place.host = (s.post j.place (Reply.ofPage .aborted j.target)).port j.place.host ∧
      ∀ p, p ∈ j.pages → ∀ r ∈ (t.page p).refs, r.place ≠ j.place)

/-- R112, R127 to R129: the engine takes an abort event: a queued job leaves without a word and completes ABORTED; the
running job's pending request is withdrawn and it stops, or it is left to end the word being performed; the event of a job
that has left the queue is disregarded. -/
def Obligations.AbortEventStopsTheJob : Prop :=
  ∀ (s : State) (which : Nat) (job : Place), s.engine.abortEvents[which]? = some job →
    ∀ e : Engine, e = { s.engine with abortEvents := s.engine.abortEvents.eraseIdx which } →
      ((∀ j ∈ s.engine.queue, j.place ≠ job) → exec (.engineAbortEvent which) s = .next { s with engine := e }) ∧
      ∀ j ∈ s.engine.queue, j.place = job → s.jobsOk →
        (j.running = false → j.isScrub = false → ∃ t, exec (.engineAbortEvent which) s = .next t ∧
          t.engine = { e with queue := s.engine.queue.filter fun k => k.place ≠ job } ∧
          t.ports = (s.post job (Reply.ofPage .aborted j.target)).ports ∧
          t = { s with pages := t.pages, ports := t.ports, engine := t.engine } ∧
          ∀ p, t.page p =
            if p ∈ j.pages then { s.page p with refs := (s.page p).refs.filter fun r => r.place ≠ job }
            else s.page p) ∧
        (j.running = true → (∀ op ∈ s.arbiter.performing, op.requester ≠ .engine) → s.engine.queue = [j] →
          j.isScrub = false → ∃ t, exec (.engineAbortEvent which) s = .next t ∧ t.engine = { e with queue := [] } ∧
            t.arbiter =
              { s.arbiter with requests := s.arbiter.requests.filter fun op => op.requester ≠ .engine } ∧
            t.ports = (s.post job (Reply.ofPage .aborted j.target)).ports ∧ t.store = s.store ∧
            ∀ p, t.page p =
              if p ∈ j.pages then { s.page p with refs := (s.page p).refs.filter fun r => r.place ≠ job }
              else s.page p) ∧
        (j.running = true → (∃ op ∈ s.arbiter.performing, op.requester = .engine) →
          exec (.engineAbortEvent which) s =
            .next
              { s with
                engine :=
                  { e with
                    queue := s.engine.queue.map fun k => if k.place = job then { j with stopping := true } else k } })

/-- R124 to R126, R128, R132, R176: the check register takes the four bytes of a word, byte 0 first and each byte's most
significant bit first, with polynomial 0x1021. The end of a word of the running job: the next word of a FILL, a scrub or a
COPY's destination, the write of a COPY's word, the check register of a CHECKSUM; after word 255 the job's references go, a
scrub ends at its entry, and the job completes OK; a stopping job completes ABORTED, also at word 255 (the model's reading,
notes/assumptions/8.md); then the next oldest, if it carries no abort mark, starts. -/
def Obligations.EngineWordEnds : Prop :=
  (∀ (c : BitVec 16) (w : Word),
    crcWord c w =
      ([0, 1, 2, 3].flatMap fun i => [7, 6, 5, 4, 3, 2, 1, 0].map fun k => w.getLsbD (8 * i + k)).foldl
        (fun (r : BitVec 16) b => if r.msb ≠ b then (r <<< 1) ^^^ 0x1021 else r <<< 1) c) ∧
  ∀ (s : State) (j : Job) (js : List Job), s.jobsOk → s.engine.queue = j :: js → j.running = true →
    s.arbiter.performing = some j.request →
      (j.request.dir = .write → j.stopping = false → j.progress < 255 →
        exec .wordOperationEnd s =
          .next
            { s with
              store := s.store.writeWord j.target j.nextWord 0xF (j.request.data.getD 0)
              engine := { s.engine with queue := { j with progress := j.progress + 1, held := none } :: js }
              arbiter :=
                ({ s.arbiter with performing := none }.request
                  ({ j with progress := j.progress + 1, held := none } : Job).request).choose }) ∧
      (∀ src : PageId, j.work = .copy src → j.held = none → j.stopping = false →
        s.store.wordMismatched src j.nextWord = false →
          exec .wordOperationEnd s =
            .next
              { s with
                engine :=
                  { s.engine with queue := { j with held := some (s.store.readWord src j.nextWord) } :: js }
                arbiter :=
                  ({ s.arbiter with performing := none }.request
                    (engineWrite j.target j.nextWord (s.store.readWord src j.nextWord))).choose }) ∧
      (∀ c : BitVec 16, j.work = .checksum c → j.stopping = false → j.progress < 255 →
        s.store.wordMismatched j.target j.nextWord = false →
          ∃ k : Job, k =
              { j with
                work := .checksum (crcWord c (s.store.readWord j.target j.nextWord)), progress := j.progress + 1 } ∧
            exec .wordOperationEnd s =
              .next
                { s with
                  engine := { s.engine with queue := k :: js }
                  arbiter := ({ s.arbiter with performing := none }.request k.request).choose }) ∧
      ∀ (rep : Reply) (after : PageId → Entry), (∀ k ∈ js.head?, k.marked = false) →
        ((j.request.dir = .read → s.store.wordMismatched j.request.page j.nextWord = false) ∧
          ((j.stopping = true ∧ rep = Reply.ofPage .aborted j.target) ∨
            (j.stopping = false ∧ j.request.dir = .write ∧ j.progress = 255 ∧ rep = Reply.ofPage .ok j.target) ∨
            (∃ c : BitVec 16, j.work = .checksum c ∧ j.stopping = false ∧ j.progress = 255 ∧
              rep =
                { status := .ok, page := some j.target, gen := none,
                  result := some (.check (crcWord c (s.store.readWord j.target j.nextWord))) }))) →
        (∀ p, after p =
          if p ∈ j.pages then
            { s.page p with
              refs := (s.page p).refs.filter fun r => r.place ≠ j.place
              state := if j.work = .scrub ∧ (s.page p).state = .scrub then .free else (s.page p).state }
          else s.page p) →
          ∃ t, exec .wordOperationEnd s = .next t ∧ t.store = s.store.perform j.request ∧
            t.ports = (s.post j.place rep).ports ∧
            (t = { s with
              pages := t.pages, ports := t.ports, engine := t.engine, store := t.store, arbiter := t.arbiter }) ∧
            (js = [] → t.engine = { s.engine with queue := [] } ∧
              t.arbiter = { s.arbiter with performing := none }.choose ∧ ∀ p, t.page p = after p) ∧
            ∀ (k : Job) (ks : List Job), js = k :: ks →
              t.engine = { s.engine with queue := { k with running := true } :: ks } ∧
              t.arbiter = ({ s.arbiter with performing := none }.request k.request).choose ∧
              ∀ p, t.page p =
                if p ∈ k.pages then
                  { after p with
                    refs := (after p).refs.map fun r => if r.place = k.place then { r with running := true } else r }
                else after p

/-- R113, R126, R130, R58, R60: a read of the running job that meets a mismatch: the job's reference leaves the page read
and the page, if it is in use, is retired in the same event, with REVOKED to every holder, RETIRED to every waiter and the
other jobs on it marked; then the job's references are gone and it completes PARITY. Stated for a job alone in the
queue; what starts after the end of a job is in EngineWordEnds. -/
def Obligations.EngineReadMeetsAMismatch : Prop :=
  ∀ (s : State) (j : Job) (q : PageId) (e : Entry), s.jobsOk → s.engine.queue = [j] → j.running = true →
    s.arbiter.performing = some j.request → j.request.dir = .read → j.request.page = q →
      s.store.wordMismatched q j.nextWord = true →
        e = { s.page q with refs := (s.page q).refs.filter fun r => r.place ≠ j.place } →
          ∃ t u : State, exec .wordOperationEnd s = .next t ∧
            (e.state = .retired ∨ e.state = .scrub → u = s.setPage q e) ∧
            (e.state ≠ .retired → e.state ≠ .scrub →
              u =
                (((s.setPage q
                        { e with
                          state := .retired, holdings := Vector.replicate 4 none, waiters := [], recalling := none,
                          grant := none }).markAll
                      ((e.refs.filter fun (x : JobRef) => !x.marked).map JobRef.place)).notifyAll
                    ((hostIds.filter fun k => e.holds k).map fun k =>
                      (k, .holdingRevoked q ((e.holding k).elim 0 Holding.gen) .parity))).postAll
                  (e.waiters.map fun (w : Waiter) => (w.place, Reply.ofPage .retired q))) ∧
            t.ports = (u.post j.place (Reply.ofPage .parity j.target)).ports ∧
            t.engine = { u.engine with queue := [] } ∧ t.arbiter = { s.arbiter with performing := none }.choose ∧
            t = { s with pages := t.pages, ports := t.ports, engine := t.engine, arbiter := t.arbiter } ∧
            ∀ p, t.page p =
              if p ∈ j.pages then { u.page p with refs := (u.page p).refs.filter fun r => r.place ≠ j.place }
              else u.page p

/-! ## What every step keeps -/

/-- The state after reset has every property that the statements below say each step keeps. -/
def Obligations.ResetMeetsEveryInvariant : Prop :=
  State.reset.pagesOk ∧ State.reset.portsOk ∧ State.reset.resourcesOk ∧ State.reset.storeOk ∧ State.reset.jobsOk ∧
    State.reset.requestsOk

/-- R2, R5, R6, R8, R9, R14, R29, R42, R43, R97: page entries stay well formed. -/
def Obligations.PagesStayWellFormed : Prop :=
  ∀ s t : State, s.pagesOk → step s = .next t → t.pagesOk

/-- R69, R71, R91, R136, R147, R162, R163: port groups stay within their bounds and are empty outside a session. -/
def Obligations.PortsStayWithinBounds : Prop :=
  ∀ s t : State, s.portsOk → step s = .next t → t.portsOk

/-- R7, R15, R25, R177: holdings plus waiters of each host never exceed its quota, nor waiter records the pool. -/
def Obligations.QuotaAndPoolNeverExceeded : Prop :=
  ∀ s t : State, s.resourcesOk → step s = .next t → t.resourcesOk

/-- The array keeps its canonical form (the model's own, notes/assumptions/11.md). -/
def Obligations.ArrayStaysCanonical : Prop :=
  ∀ s t : State, s.storeOk → step s = .next t → t.storeOk

/-- R119, R121: the engine queue holds at most 8 jobs of which only the oldest runs, and every command between its take
and its end has a completion place of its own. -/
def Obligations.EngineQueueStaysInOrder : Prop :=
  ∀ s t : State, s.jobsOk → step s = .next t → t.jobsOk

/-- R10, R99, R107: each requester has at the store exactly the operation of its in-flight access or running job, and each
page's in-flight set is that of the ports' accesses. -/
def Obligations.StoreRequestsMatchTheirOwners : Prop :=
  ∀ s t : State, s.portsOk → s.jobsOk → s.requestsOk → step s = .next t → t.requestsOk

/-- R3, R4, R12, R61: which operations at work on a page are stray; and no command but device reset advances the
generation of a page that has one: no grant event is made on it. A queued job's reference and a scrub's are never stray. -/
def Obligations.NoGrantWhileStray : Prop :=
  (∀ e : Entry, e.hasStray = true ↔
    (∃ h : HostId, e.inFlight[h] = some .read ∧ e.holding h = none) ∨
    (∃ h : HostId, e.inFlight[h] = some .write ∧ e.mode h ≠ some .X) ∨
    (∃ r ∈ e.refs, r.running = true ∧ r.need = some .S ∧ e.holding r.place.host = none) ∨
    ∃ r ∈ e.refs, r.running = true ∧ r.need = some .X ∧ e.mode r.place.host ≠ some .X) ∧
  ∀ (c : Instr) (s t : State) (p : PageId), (s.page p).hasStray = true → exec c s = .next t →
    c ≠ .deviceResetAssert → (∀ straps, c ≠ .deviceResetNegate straps) → (t.page p).gen = (s.page p).gen
end

