-- ==== Sys2Proof/Laws/Entry.lean ====
section
/-!
SUPPORT. The page entry: what no event of an entry changes. Every event keeps the in-flight set and the job references
(they are the access path's and the engine's), and only the recall deadline and the parity report mark jobs.
-/

namespace Sys2Proof.Machine

open Sys2Proof

/-! ## Small changes -/

@[simp] theorem Entry.setHolding_self (e : Entry) (h : HostId) (v : Option Holding) : (e.setHolding h v).holding h = v := by
  simp [Entry.holding, Entry.setHolding]

theorem Entry.setHolding_of_ne (e : Entry) {h k : HostId} (v : Option Holding) (hk : k ≠ h) :
    (e.setHolding h v).holding k = e.holding k := by
  simp [Entry.holding, Entry.setHolding, Fin.val_ne_iff.2 hk.symm]

theorem Entry.dropHolding_holding (e : Entry) (h k : HostId) :
    (e.dropHolding h).holding k = if k = h then none else e.holding k := by
  by_cases hk : k = h
  · subst hk
    simp only [if_pos]
    exact e.setHolding_self k none
  · rw [if_neg hk]
    exact e.setHolding_of_ne none hk

/-- Giving holdings changes the holdings map alone. -/
theorem Entry.giveHoldings_frame (e : Entry) (v : Holding) (hs : List HostId) :
    e.giveHoldings v hs = { e with holdings := (e.giveHoldings v hs).holdings } := by
  induction hs generalizing e with
  | nil => rfl
  | cons h hs ih =>
    simp only [Entry.giveHoldings]
    rw [ih]
    rfl

/-- The hosts that are given a holding have it, and every other host has what it had. -/
theorem Entry.giveHoldings_holding (e : Entry) (v : Holding) (hs : List HostId) (k : HostId) :
    (e.giveHoldings v hs).holding k = if k ∈ hs then some v else e.holding k := by
  induction hs generalizing e with
  | nil => simp [Entry.giveHoldings]
  | cons h hs ih =>
    simp only [Entry.giveHoldings, ih, List.mem_cons]
    by_cases hk : k ∈ hs
    · simp [hk]
    · by_cases hh : k = h
      · subst hh
        simp [hk]
      · simp [hk, hh, Entry.setHolding_of_ne e (some v) hh]

/-- A recall that a host answers changes the recall record alone. -/
theorem Entry.answerRecall_frame (e : Entry) (h : HostId) :
    e.answerRecall h = { e with recalling := (e.answerRecall h).recalling } := by
  simp only [Entry.answerRecall]
  split <;> rfl

/-! ## What an event keeps -/

/-- The second event keeps the in-flight set, the job references and the marks of the first. -/
structure EntryOut.Keeps (o u : EntryOut) : Prop where
  inFlight : u.entry.inFlight = o.entry.inFlight
  refs : u.entry.refs = o.entry.refs
  aborts : u.aborts = o.aborts

theorem EntryOut.Keeps.refl (o : EntryOut) : o.Keeps o := ⟨rfl, rfl, rfl⟩

theorem EntryOut.Keeps.trans {o u v : EntryOut} (h : o.Keeps u) (k : u.Keeps v) : o.Keeps v :=
  ⟨k.inFlight.trans h.inFlight, k.refs.trans h.refs, k.aborts.trans h.aborts⟩

/-- An event that keeps what a small change of the entry left keeps what was there before. -/
theorem EntryOut.Keeps.of_eq {o u v : EntryOut} (k : u.Keeps v) (h1 : u.entry.inFlight = o.entry.inFlight)
    (h2 : u.entry.refs = o.entry.refs) (h3 : u.aborts = o.aborts) : o.Keeps v :=
  ⟨k.inFlight.trans h1, k.refs.trans h2, k.aborts.trans h3⟩

theorem EntryOut.keeps_startRecall (env : Env) (w : Waiter) (o : EntryOut) : o.Keeps (o.startRecall env w) :=
  ⟨rfl, rfl, rfl⟩

theorem EntryOut.keeps_recallIfBlocked (env : Env) (o : EntryOut) : o.Keeps (o.recallIfBlocked env) := by
  simp only [EntryOut.recallIfBlocked]
  split
  · exact .refl o
  · split
    · exact EntryOut.keeps_startRecall env _ o
    · exact .refl o

theorem EntryOut.keeps_withdraw (env : Env) (o : EntryOut) : o.Keeps (o.withdraw env) := by
  simp only [EntryOut.withdraw]
  split
  · exact .refl o
  · exact ⟨rfl, rfl, rfl⟩

theorem EntryOut.keeps_grant (env : Env) (m : Mode) (pls : List Place) (o : EntryOut) : o.Keeps (o.grant env m pls) := by
  refine ⟨?_, ?_, rfl⟩ <;> simp only [EntryOut.grant] <;> rw [Entry.giveHoldings_frame]

theorem EntryOut.keeps_holdBack (m : Mode) (hs : List HostId) (o : EntryOut) : o.Keeps (o.holdBack m hs) := ⟨rfl, rfl, rfl⟩

theorem EntryOut.keeps_decideGrant (env : Env) (w : Waiter) (o : EntryOut) : o.Keeps (o.decideGrant env w) := by
  simp only [EntryOut.decideGrant]
  split
  · exact EntryOut.keeps_holdBack _ _ o
  · exact ((EntryOut.keeps_grant env _ _ _).trans (EntryOut.keeps_recallIfBlocked env _)).of_eq rfl rfl rfl

/-- The serving of the list (R28). -/
theorem EntryOut.keeps_serve (env : Env) (o : EntryOut) : o.Keeps (o.serve env) := by
  simp only [EntryOut.serve]
  split
  · exact ⟨rfl, rfl, rfl⟩
  · split
    · exact EntryOut.keeps_decideGrant env _ o
    · exact (EntryOut.keeps_recallIfBlocked env _).of_eq rfl rfl rfl

theorem EntryOut.keeps_serveIf (env : Env) (was : Bool) (o : EntryOut) : o.Keeps (o.serveIf env was) := by
  simp only [EntryOut.serveIf]
  split
  · exact EntryOut.keeps_serve env o
  · exact .refl o

/-- The departure of a waiter without its completion (R38, R50). -/
theorem EntryOut.keeps_removeWaiter (env : Env) (h : HostId) (o : EntryOut) : o.Keeps (o.removeWaiter env h) := by
  simp only [EntryOut.removeWaiter]
  split
  · exact (EntryOut.keeps_withdraw env _).of_eq rfl rfl rfl
  · exact ⟨rfl, rfl, rfl⟩

/-- More postings change none of what an event keeps. -/
theorem EntryOut.Keeps.post {o u : EntryOut} (h : o.Keeps u) (l : List (Place × Reply)) : o.Keeps { u with posts := l } :=
  ⟨h.inFlight, h.refs, h.aborts⟩

theorem Entry.keeps_depart (e : Entry) (env : Env) (w : Waiter) (st : Status) :
    (EntryOut.start e).Keeps (e.depart env w st) :=
  ((EntryOut.keeps_removeWaiter env _ _).trans (EntryOut.keeps_serveIf env _ _)).post _

theorem Entry.keeps_surrender (e : Entry) (env : Env) (h : HostId) : (EntryOut.start e).Keeps (e.surrender env h) := by
  refine (EntryOut.keeps_serveIf env _ _).of_eq ?_ ?_ rfl
  all_goals simp only [EntryOut.start]; rw [Entry.answerRecall_frame]; rfl

/-- ACQUIRE. -/
theorem Entry.keeps_acquire (e : Entry) (env : Env) (q f : Bool) (pl : Place) (m : Mode) (limit : BitVec 16) :
    (EntryOut.start e).Keeps (e.acquire env q f pl m limit) := by
  simp only [Entry.acquire, Entry.waitDecision]
  split_ifs
  all_goals first
    | exact ⟨rfl, rfl, rfl⟩
    | exact EntryOut.keeps_grant env m [pl] _
    | exact (EntryOut.keeps_recallIfBlocked env _).of_eq rfl rfl rfl

/-- RELEASE. -/
theorem Entry.keeps_release (e : Entry) (env : Env) (pl : Place) (gen : BitVec 16) :
    (EntryOut.start e).Keeps (e.release env pl gen) := by
  simp only [Entry.release]
  split
  · exact ⟨rfl, rfl, rfl⟩
  · split_ifs
    · exact ⟨rfl, rfl, rfl⟩
    · exact ⟨rfl, rfl, rfl⟩
    · exact (e.keeps_surrender env pl.host).post _

/-- DOWNGRADE. -/
theorem Entry.keeps_downgrade (e : Entry) (env : Env) (pl : Place) (gen : BitVec 16) :
    (EntryOut.start e).Keeps (e.downgrade env pl gen) := by
  have answer : ∀ (f : Entry) (h : HostId), f.answerByDowngrade h = { f with recalling := (f.answerByDowngrade h).recalling } := by
    intro f h
    simp only [Entry.answerByDowngrade]
    split
    · split
      · exact Entry.answerRecall_frame f h
      · rfl
    · rfl
  simp only [Entry.downgrade]
  split
  · exact ⟨rfl, rfl, rfl⟩
  · split_ifs
    · exact ⟨rfl, rfl, rfl⟩
    · exact ⟨rfl, rfl, rfl⟩
    · exact ⟨rfl, rfl, rfl⟩
    all_goals
      refine EntryOut.Keeps.post (o := EntryOut.start e) ?_ _
      refine (EntryOut.keeps_serveIf env _ _).of_eq ?_ ?_ rfl
      all_goals simp only [EntryOut.start]; rw [answer]; rfl

/-- The cancel request. -/
theorem Entry.keeps_cancelRequest (e : Entry) (env : Env) (pl target : Place) :
    (EntryOut.start e).Keeps (e.cancelRequest env pl target) := by
  simp only [Entry.cancelRequest]
  split
  · exact ⟨rfl, rfl, rfl⟩
  · exact (e.keeps_depart env _ _).post _

/-- The wait deadline. -/
theorem Entry.keeps_waitTimeout (e : Entry) (env : Env) (h : HostId) : (EntryOut.start e).Keeps (e.waitTimeout env h) := by
  simp only [Entry.waitTimeout]
  split
  · exact .refl _
  · exact e.keeps_depart env _ _

/-- The drain end. -/
theorem Entry.keeps_drainEnd (e : Entry) (env : Env) : (EntryOut.start e).Keeps (e.drainEnd env) := by
  simp only [Entry.drainEnd]
  split
  · exact .refl _
  · split_ifs
    · exact (EntryOut.keeps_serve env _).of_eq rfl rfl rfl
    · exact (EntryOut.keeps_grant env _ _ _).trans (EntryOut.keeps_serve env _)
    · exact .refl _

/-- The teardown of a host. -/
theorem Entry.keeps_teardown (e : Entry) (env : Env) (h : HostId) : (EntryOut.start e).Keeps (e.teardown env h) := by
  simp only [Entry.teardown]
  split_ifs
  · refine (EntryOut.keeps_removeWaiter env h _).trans ((EntryOut.keeps_serveIf env _ _).of_eq ?_ ?_ rfl)
    all_goals
      simp only []
      rw [Entry.answerRecall_frame]
      rfl
  · exact .refl _

/-- The recall deadline keeps the in-flight set and the references; it adds marks. -/
theorem Entry.recallDeadline_inFlight_refs (e : Entry) (env : Env) :
    (e.recallDeadline env).entry.inFlight = e.inFlight ∧ (e.recallDeadline env).entry.refs = e.refs := by
  have all : ∀ (hs : List HostId) (o : EntryOut),
      (EntryOut.revokeAll env hs o).entry.inFlight = o.entry.inFlight ∧
        (EntryOut.revokeAll env hs o).entry.refs = o.entry.refs := by
    intro hs
    induction hs with
    | nil => exact fun _ => ⟨rfl, rfl⟩
    | cons h hs ih => exact fun o => ih (o.revoke env h)
  simp only [Entry.recallDeadline]
  split
  · exact ⟨rfl, rfl⟩
  · split
    · rename_i r _ _
      obtain ⟨h1, h2⟩ := all (hostIds.filter fun h => r.targets[h]) (EntryOut.start e)
      have k := EntryOut.keeps_serveIf env e.inUse
        { (EntryOut.revokeAll env (hostIds.filter fun h => r.targets[h]) (EntryOut.start e)) with
          entry :=
            { (EntryOut.revokeAll env (hostIds.filter fun h => r.targets[h]) (EntryOut.start e)).entry with
              recalling := none } }
      exact ⟨k.inFlight.trans h1, k.refs.trans h2⟩
    · exact ⟨rfl, rfl⟩

/-- The parity report keeps the in-flight set and the references. -/
theorem Entry.parityReport_inFlight_refs (e : Entry) (env : Env) :
    (e.parityReport env).entry.inFlight = e.inFlight ∧ (e.parityReport env).entry.refs = e.refs := by
  simp only [Entry.parityReport]
  split <;> exact ⟨rfl, rfl⟩

end Sys2Proof.Machine
end

