-- ==== Sys2Proof/Laws/State.lean ====
section
/-!
SUPPORT. One lemma per field per update of the state: what each named update leaves unchanged, and what the entry and the
port group of a given number are after it. A later proof cites these and unfolds no record update.
-/

namespace Sys2Proof.Machine

open Sys2Proof

/-! ## Fields an update leaves unchanged -/

@[simp] theorem State.setPage_phase (s : State) (p : PageId) (e : Entry) : (s.setPage p e).phase = s.phase := rfl
@[simp] theorem State.setPage_timebase (s : State) (p : PageId) (e : Entry) : (s.setPage p e).timebase = s.timebase := rfl
@[simp] theorem State.setPage_ports (s : State) (p : PageId) (e : Entry) : (s.setPage p e).ports = s.ports := rfl
@[simp] theorem State.setPage_transit (s : State) (p : PageId) (e : Entry) : (s.setPage p e).transit = s.transit := rfl
@[simp] theorem State.setPage_taken (s : State) (p : PageId) (e : Entry) : (s.setPage p e).taken = s.taken := rfl
@[simp] theorem State.setPage_engine (s : State) (p : PageId) (e : Entry) : (s.setPage p e).engine = s.engine := rfl
@[simp] theorem State.setPage_store (s : State) (p : PageId) (e : Entry) : (s.setPage p e).store = s.store := rfl
@[simp] theorem State.setPage_arbiter (s : State) (p : PageId) (e : Entry) : (s.setPage p e).arbiter = s.arbiter := rfl
@[simp] theorem State.setPage_settings (s : State) (p : PageId) (e : Entry) : (s.setPage p e).settings = s.settings := rfl
@[simp] theorem State.setPage_freeCount (s : State) (p : PageId) (e : Entry) : (s.setPage p e).freeCount = s.freeCount := rfl
@[simp] theorem State.setPage_pending (s : State) (p : PageId) (e : Entry) : (s.setPage p e).pending = s.pending := rfl

@[simp] theorem State.modifyPage_phase (s : State) (p : PageId) (f : Entry → Entry) : (s.modifyPage p f).phase = s.phase := rfl
@[simp] theorem State.modifyPage_timebase (s : State) (p : PageId) (f : Entry → Entry) : (s.modifyPage p f).timebase = s.timebase := rfl
@[simp] theorem State.modifyPage_ports (s : State) (p : PageId) (f : Entry → Entry) : (s.modifyPage p f).ports = s.ports := rfl
@[simp] theorem State.modifyPage_transit (s : State) (p : PageId) (f : Entry → Entry) : (s.modifyPage p f).transit = s.transit := rfl
@[simp] theorem State.modifyPage_taken (s : State) (p : PageId) (f : Entry → Entry) : (s.modifyPage p f).taken = s.taken := rfl
@[simp] theorem State.modifyPage_engine (s : State) (p : PageId) (f : Entry → Entry) : (s.modifyPage p f).engine = s.engine := rfl
@[simp] theorem State.modifyPage_store (s : State) (p : PageId) (f : Entry → Entry) : (s.modifyPage p f).store = s.store := rfl
@[simp] theorem State.modifyPage_arbiter (s : State) (p : PageId) (f : Entry → Entry) : (s.modifyPage p f).arbiter = s.arbiter := rfl
@[simp] theorem State.modifyPage_settings (s : State) (p : PageId) (f : Entry → Entry) : (s.modifyPage p f).settings = s.settings := rfl
@[simp] theorem State.modifyPage_freeCount (s : State) (p : PageId) (f : Entry → Entry) : (s.modifyPage p f).freeCount = s.freeCount := rfl
@[simp] theorem State.modifyPage_pending (s : State) (p : PageId) (f : Entry → Entry) : (s.modifyPage p f).pending = s.pending := rfl

@[simp] theorem State.mapPages_phase (s : State) (f : Entry → Entry) : (s.mapPages f).phase = s.phase := rfl
@[simp] theorem State.mapPages_timebase (s : State) (f : Entry → Entry) : (s.mapPages f).timebase = s.timebase := rfl
@[simp] theorem State.mapPages_ports (s : State) (f : Entry → Entry) : (s.mapPages f).ports = s.ports := rfl
@[simp] theorem State.mapPages_transit (s : State) (f : Entry → Entry) : (s.mapPages f).transit = s.transit := rfl
@[simp] theorem State.mapPages_taken (s : State) (f : Entry → Entry) : (s.mapPages f).taken = s.taken := rfl
@[simp] theorem State.mapPages_engine (s : State) (f : Entry → Entry) : (s.mapPages f).engine = s.engine := rfl
@[simp] theorem State.mapPages_store (s : State) (f : Entry → Entry) : (s.mapPages f).store = s.store := rfl
@[simp] theorem State.mapPages_arbiter (s : State) (f : Entry → Entry) : (s.mapPages f).arbiter = s.arbiter := rfl
@[simp] theorem State.mapPages_settings (s : State) (f : Entry → Entry) : (s.mapPages f).settings = s.settings := rfl
@[simp] theorem State.mapPages_freeCount (s : State) (f : Entry → Entry) : (s.mapPages f).freeCount = s.freeCount := rfl
@[simp] theorem State.mapPages_pending (s : State) (f : Entry → Entry) : (s.mapPages f).pending = s.pending := rfl

@[simp] theorem State.setPort_phase (s : State) (n : HostId) (g : PortGroup) : (s.setPort n g).phase = s.phase := rfl
@[simp] theorem State.setPort_timebase (s : State) (n : HostId) (g : PortGroup) : (s.setPort n g).timebase = s.timebase := rfl
@[simp] theorem State.setPort_pages (s : State) (n : HostId) (g : PortGroup) : (s.setPort n g).pages = s.pages := rfl
@[simp] theorem State.setPort_transit (s : State) (n : HostId) (g : PortGroup) : (s.setPort n g).transit = s.transit := rfl
@[simp] theorem State.setPort_taken (s : State) (n : HostId) (g : PortGroup) : (s.setPort n g).taken = s.taken := rfl
@[simp] theorem State.setPort_engine (s : State) (n : HostId) (g : PortGroup) : (s.setPort n g).engine = s.engine := rfl
@[simp] theorem State.setPort_store (s : State) (n : HostId) (g : PortGroup) : (s.setPort n g).store = s.store := rfl
@[simp] theorem State.setPort_arbiter (s : State) (n : HostId) (g : PortGroup) : (s.setPort n g).arbiter = s.arbiter := rfl
@[simp] theorem State.setPort_settings (s : State) (n : HostId) (g : PortGroup) : (s.setPort n g).settings = s.settings := rfl
@[simp] theorem State.setPort_freeCount (s : State) (n : HostId) (g : PortGroup) : (s.setPort n g).freeCount = s.freeCount := rfl
@[simp] theorem State.setPort_pending (s : State) (n : HostId) (g : PortGroup) : (s.setPort n g).pending = s.pending := rfl

@[simp] theorem State.modifyPort_phase (s : State) (n : HostId) (f : PortGroup → PortGroup) : (s.modifyPort n f).phase = s.phase := rfl
@[simp] theorem State.modifyPort_timebase (s : State) (n : HostId) (f : PortGroup → PortGroup) : (s.modifyPort n f).timebase = s.timebase := rfl
@[simp] theorem State.modifyPort_pages (s : State) (n : HostId) (f : PortGroup → PortGroup) : (s.modifyPort n f).pages = s.pages := rfl
@[simp] theorem State.modifyPort_transit (s : State) (n : HostId) (f : PortGroup → PortGroup) : (s.modifyPort n f).transit = s.transit := rfl
@[simp] theorem State.modifyPort_taken (s : State) (n : HostId) (f : PortGroup → PortGroup) : (s.modifyPort n f).taken = s.taken := rfl
@[simp] theorem State.modifyPort_engine (s : State) (n : HostId) (f : PortGroup → PortGroup) : (s.modifyPort n f).engine = s.engine := rfl
@[simp] theorem State.modifyPort_store (s : State) (n : HostId) (f : PortGroup → PortGroup) : (s.modifyPort n f).store = s.store := rfl
@[simp] theorem State.modifyPort_arbiter (s : State) (n : HostId) (f : PortGroup → PortGroup) : (s.modifyPort n f).arbiter = s.arbiter := rfl
@[simp] theorem State.modifyPort_settings (s : State) (n : HostId) (f : PortGroup → PortGroup) : (s.modifyPort n f).settings = s.settings := rfl
@[simp] theorem State.modifyPort_freeCount (s : State) (n : HostId) (f : PortGroup → PortGroup) : (s.modifyPort n f).freeCount = s.freeCount := rfl
@[simp] theorem State.modifyPort_pending (s : State) (n : HostId) (f : PortGroup → PortGroup) : (s.modifyPort n f).pending = s.pending := rfl

@[simp] theorem State.answer_phase (s : State) (n : HostId) (a : Answer) : (s.answer n a).phase = s.phase := rfl
@[simp] theorem State.answer_timebase (s : State) (n : HostId) (a : Answer) : (s.answer n a).timebase = s.timebase := rfl
@[simp] theorem State.answer_pages (s : State) (n : HostId) (a : Answer) : (s.answer n a).pages = s.pages := rfl
@[simp] theorem State.answer_transit (s : State) (n : HostId) (a : Answer) : (s.answer n a).transit = s.transit := rfl
@[simp] theorem State.answer_taken (s : State) (n : HostId) (a : Answer) : (s.answer n a).taken = s.taken := rfl
@[simp] theorem State.answer_engine (s : State) (n : HostId) (a : Answer) : (s.answer n a).engine = s.engine := rfl
@[simp] theorem State.answer_store (s : State) (n : HostId) (a : Answer) : (s.answer n a).store = s.store := rfl
@[simp] theorem State.answer_arbiter (s : State) (n : HostId) (a : Answer) : (s.answer n a).arbiter = s.arbiter := rfl
@[simp] theorem State.answer_settings (s : State) (n : HostId) (a : Answer) : (s.answer n a).settings = s.settings := rfl
@[simp] theorem State.answer_freeCount (s : State) (n : HostId) (a : Answer) : (s.answer n a).freeCount = s.freeCount := rfl
@[simp] theorem State.answer_pending (s : State) (n : HostId) (a : Answer) : (s.answer n a).pending = s.pending := rfl

@[simp] theorem State.modifyEngine_phase (s : State) (f : Engine → Engine) : (s.modifyEngine f).phase = s.phase := rfl
@[simp] theorem State.modifyEngine_timebase (s : State) (f : Engine → Engine) : (s.modifyEngine f).timebase = s.timebase := rfl
@[simp] theorem State.modifyEngine_pages (s : State) (f : Engine → Engine) : (s.modifyEngine f).pages = s.pages := rfl
@[simp] theorem State.modifyEngine_ports (s : State) (f : Engine → Engine) : (s.modifyEngine f).ports = s.ports := rfl
@[simp] theorem State.modifyEngine_transit (s : State) (f : Engine → Engine) : (s.modifyEngine f).transit = s.transit := rfl
@[simp] theorem State.modifyEngine_taken (s : State) (f : Engine → Engine) : (s.modifyEngine f).taken = s.taken := rfl
@[simp] theorem State.modifyEngine_store (s : State) (f : Engine → Engine) : (s.modifyEngine f).store = s.store := rfl
@[simp] theorem State.modifyEngine_arbiter (s : State) (f : Engine → Engine) : (s.modifyEngine f).arbiter = s.arbiter := rfl
@[simp] theorem State.modifyEngine_settings (s : State) (f : Engine → Engine) : (s.modifyEngine f).settings = s.settings := rfl
@[simp] theorem State.modifyEngine_freeCount (s : State) (f : Engine → Engine) : (s.modifyEngine f).freeCount = s.freeCount := rfl
@[simp] theorem State.modifyEngine_pending (s : State) (f : Engine → Engine) : (s.modifyEngine f).pending = s.pending := rfl

@[simp] theorem State.setQueue_phase (s : State) (q : List Job) : (s.setQueue q).phase = s.phase := rfl
@[simp] theorem State.setQueue_timebase (s : State) (q : List Job) : (s.setQueue q).timebase = s.timebase := rfl
@[simp] theorem State.setQueue_pages (s : State) (q : List Job) : (s.setQueue q).pages = s.pages := rfl
@[simp] theorem State.setQueue_ports (s : State) (q : List Job) : (s.setQueue q).ports = s.ports := rfl
@[simp] theorem State.setQueue_transit (s : State) (q : List Job) : (s.setQueue q).transit = s.transit := rfl
@[simp] theorem State.setQueue_taken (s : State) (q : List Job) : (s.setQueue q).taken = s.taken := rfl
@[simp] theorem State.setQueue_store (s : State) (q : List Job) : (s.setQueue q).store = s.store := rfl
@[simp] theorem State.setQueue_arbiter (s : State) (q : List Job) : (s.setQueue q).arbiter = s.arbiter := rfl
@[simp] theorem State.setQueue_settings (s : State) (q : List Job) : (s.setQueue q).settings = s.settings := rfl
@[simp] theorem State.setQueue_freeCount (s : State) (q : List Job) : (s.setQueue q).freeCount = s.freeCount := rfl
@[simp] theorem State.setQueue_pending (s : State) (q : List Job) : (s.setQueue q).pending = s.pending := rfl

@[simp] theorem State.setJob_phase (s : State) (j : Job) : (s.setJob j).phase = s.phase := rfl
@[simp] theorem State.setJob_timebase (s : State) (j : Job) : (s.setJob j).timebase = s.timebase := rfl
@[simp] theorem State.setJob_pages (s : State) (j : Job) : (s.setJob j).pages = s.pages := rfl
@[simp] theorem State.setJob_ports (s : State) (j : Job) : (s.setJob j).ports = s.ports := rfl
@[simp] theorem State.setJob_transit (s : State) (j : Job) : (s.setJob j).transit = s.transit := rfl
@[simp] theorem State.setJob_taken (s : State) (j : Job) : (s.setJob j).taken = s.taken := rfl
@[simp] theorem State.setJob_store (s : State) (j : Job) : (s.setJob j).store = s.store := rfl
@[simp] theorem State.setJob_arbiter (s : State) (j : Job) : (s.setJob j).arbiter = s.arbiter := rfl
@[simp] theorem State.setJob_settings (s : State) (j : Job) : (s.setJob j).settings = s.settings := rfl
@[simp] theorem State.setJob_freeCount (s : State) (j : Job) : (s.setJob j).freeCount = s.freeCount := rfl
@[simp] theorem State.setJob_pending (s : State) (j : Job) : (s.setJob j).pending = s.pending := rfl

@[simp] theorem State.sendJob_phase (s : State) (j : Job) : (s.sendJob j).phase = s.phase := rfl
@[simp] theorem State.sendJob_timebase (s : State) (j : Job) : (s.sendJob j).timebase = s.timebase := rfl
@[simp] theorem State.sendJob_pages (s : State) (j : Job) : (s.sendJob j).pages = s.pages := rfl
@[simp] theorem State.sendJob_ports (s : State) (j : Job) : (s.sendJob j).ports = s.ports := rfl
@[simp] theorem State.sendJob_transit (s : State) (j : Job) : (s.sendJob j).transit = s.transit := rfl
@[simp] theorem State.sendJob_taken (s : State) (j : Job) : (s.sendJob j).taken = s.taken := rfl
@[simp] theorem State.sendJob_store (s : State) (j : Job) : (s.sendJob j).store = s.store := rfl
@[simp] theorem State.sendJob_arbiter (s : State) (j : Job) : (s.sendJob j).arbiter = s.arbiter := rfl
@[simp] theorem State.sendJob_settings (s : State) (j : Job) : (s.sendJob j).settings = s.settings := rfl
@[simp] theorem State.sendJob_freeCount (s : State) (j : Job) : (s.sendJob j).freeCount = s.freeCount := rfl
@[simp] theorem State.sendJob_pending (s : State) (j : Job) : (s.sendJob j).pending = s.pending := rfl

@[simp] theorem State.request_phase (s : State) (op : WordOp) : (s.request op).phase = s.phase := rfl
@[simp] theorem State.request_timebase (s : State) (op : WordOp) : (s.request op).timebase = s.timebase := rfl
@[simp] theorem State.request_pages (s : State) (op : WordOp) : (s.request op).pages = s.pages := rfl
@[simp] theorem State.request_ports (s : State) (op : WordOp) : (s.request op).ports = s.ports := rfl
@[simp] theorem State.request_transit (s : State) (op : WordOp) : (s.request op).transit = s.transit := rfl
@[simp] theorem State.request_taken (s : State) (op : WordOp) : (s.request op).taken = s.taken := rfl
@[simp] theorem State.request_engine (s : State) (op : WordOp) : (s.request op).engine = s.engine := rfl
@[simp] theorem State.request_store (s : State) (op : WordOp) : (s.request op).store = s.store := rfl
@[simp] theorem State.request_settings (s : State) (op : WordOp) : (s.request op).settings = s.settings := rfl
@[simp] theorem State.request_freeCount (s : State) (op : WordOp) : (s.request op).freeCount = s.freeCount := rfl
@[simp] theorem State.request_pending (s : State) (op : WordOp) : (s.request op).pending = s.pending := rfl

@[simp] theorem State.choose_phase (s : State) : (s.choose).phase = s.phase := rfl
@[simp] theorem State.choose_timebase (s : State) : (s.choose).timebase = s.timebase := rfl
@[simp] theorem State.choose_pages (s : State) : (s.choose).pages = s.pages := rfl
@[simp] theorem State.choose_ports (s : State) : (s.choose).ports = s.ports := rfl
@[simp] theorem State.choose_transit (s : State) : (s.choose).transit = s.transit := rfl
@[simp] theorem State.choose_taken (s : State) : (s.choose).taken = s.taken := rfl
@[simp] theorem State.choose_engine (s : State) : (s.choose).engine = s.engine := rfl
@[simp] theorem State.choose_store (s : State) : (s.choose).store = s.store := rfl
@[simp] theorem State.choose_settings (s : State) : (s.choose).settings = s.settings := rfl
@[simp] theorem State.choose_freeCount (s : State) : (s.choose).freeCount = s.freeCount := rfl
@[simp] theorem State.choose_pending (s : State) : (s.choose).pending = s.pending := rfl

@[simp] theorem State.dropTransit_phase (s : State) (pl : Place) : (s.dropTransit pl).phase = s.phase := rfl
@[simp] theorem State.dropTransit_timebase (s : State) (pl : Place) : (s.dropTransit pl).timebase = s.timebase := rfl
@[simp] theorem State.dropTransit_pages (s : State) (pl : Place) : (s.dropTransit pl).pages = s.pages := rfl
@[simp] theorem State.dropTransit_ports (s : State) (pl : Place) : (s.dropTransit pl).ports = s.ports := rfl
@[simp] theorem State.dropTransit_taken (s : State) (pl : Place) : (s.dropTransit pl).taken = s.taken := rfl
@[simp] theorem State.dropTransit_engine (s : State) (pl : Place) : (s.dropTransit pl).engine = s.engine := rfl
@[simp] theorem State.dropTransit_store (s : State) (pl : Place) : (s.dropTransit pl).store = s.store := rfl
@[simp] theorem State.dropTransit_arbiter (s : State) (pl : Place) : (s.dropTransit pl).arbiter = s.arbiter := rfl
@[simp] theorem State.dropTransit_settings (s : State) (pl : Place) : (s.dropTransit pl).settings = s.settings := rfl
@[simp] theorem State.dropTransit_freeCount (s : State) (pl : Place) : (s.dropTransit pl).freeCount = s.freeCount := rfl
@[simp] theorem State.dropTransit_pending (s : State) (pl : Place) : (s.dropTransit pl).pending = s.pending := rfl

@[simp] theorem State.redirect_phase (s : State) (pl : Place) (e : Errand) : (s.redirect pl e).phase = s.phase := rfl
@[simp] theorem State.redirect_timebase (s : State) (pl : Place) (e : Errand) : (s.redirect pl e).timebase = s.timebase := rfl
@[simp] theorem State.redirect_pages (s : State) (pl : Place) (e : Errand) : (s.redirect pl e).pages = s.pages := rfl
@[simp] theorem State.redirect_ports (s : State) (pl : Place) (e : Errand) : (s.redirect pl e).ports = s.ports := rfl
@[simp] theorem State.redirect_taken (s : State) (pl : Place) (e : Errand) : (s.redirect pl e).taken = s.taken := rfl
@[simp] theorem State.redirect_engine (s : State) (pl : Place) (e : Errand) : (s.redirect pl e).engine = s.engine := rfl
@[simp] theorem State.redirect_store (s : State) (pl : Place) (e : Errand) : (s.redirect pl e).store = s.store := rfl
@[simp] theorem State.redirect_arbiter (s : State) (pl : Place) (e : Errand) : (s.redirect pl e).arbiter = s.arbiter := rfl
@[simp] theorem State.redirect_settings (s : State) (pl : Place) (e : Errand) : (s.redirect pl e).settings = s.settings := rfl
@[simp] theorem State.redirect_freeCount (s : State) (pl : Place) (e : Errand) : (s.redirect pl e).freeCount = s.freeCount := rfl
@[simp] theorem State.redirect_pending (s : State) (pl : Place) (e : Errand) : (s.redirect pl e).pending = s.pending := rfl

@[simp] theorem State.markJob_phase (s : State) (job : Place) : (s.markJob job).phase = s.phase := rfl
@[simp] theorem State.markJob_timebase (s : State) (job : Place) : (s.markJob job).timebase = s.timebase := rfl
@[simp] theorem State.markJob_ports (s : State) (job : Place) : (s.markJob job).ports = s.ports := rfl
@[simp] theorem State.markJob_transit (s : State) (job : Place) : (s.markJob job).transit = s.transit := rfl
@[simp] theorem State.markJob_taken (s : State) (job : Place) : (s.markJob job).taken = s.taken := rfl
@[simp] theorem State.markJob_store (s : State) (job : Place) : (s.markJob job).store = s.store := rfl
@[simp] theorem State.markJob_arbiter (s : State) (job : Place) : (s.markJob job).arbiter = s.arbiter := rfl
@[simp] theorem State.markJob_settings (s : State) (job : Place) : (s.markJob job).settings = s.settings := rfl
@[simp] theorem State.markJob_freeCount (s : State) (job : Place) : (s.markJob job).freeCount = s.freeCount := rfl
@[simp] theorem State.markJob_pending (s : State) (job : Place) : (s.markJob job).pending = s.pending := rfl
/-! ## What an update writes -/

@[simp] theorem State.modifyEngine_engine (s : State) (f : Engine → Engine) : (s.modifyEngine f).engine = f s.engine := rfl
@[simp] theorem State.setQueue_queue (s : State) (q : List Job) : (s.setQueue q).engine.queue = q := rfl
@[simp] theorem State.setQueue_arriving (s : State) (q : List Job) :
    (s.setQueue q).engine.arriving = s.engine.arriving := rfl
@[simp] theorem State.setQueue_scrubs (s : State) (q : List Job) : (s.setQueue q).engine.scrubs = s.engine.scrubs := rfl
@[simp] theorem State.setQueue_refusals (s : State) (q : List Job) :
    (s.setQueue q).engine.refusals = s.engine.refusals := rfl
@[simp] theorem State.setQueue_abortEvents (s : State) (q : List Job) :
    (s.setQueue q).engine.abortEvents = s.engine.abortEvents := rfl
@[simp] theorem State.request_arbiter (s : State) (op : WordOp) : (s.request op).arbiter = s.arbiter.request op := rfl
@[simp] theorem State.choose_arbiter (s : State) : s.choose.arbiter = s.arbiter.choose := rfl
@[simp] theorem State.dropTransit_transit (s : State) (pl : Place) :
    (s.dropTransit pl).transit = s.transit.filter fun t => t.place ≠ pl := rfl
@[simp] theorem State.markJob_pages (s : State) (job : Place) :
    (s.markJob job).pages = mapVec (fun e => e.markRef job) s.pages := rfl

/-! ## The entry of a page -/

theorem State.page_def (s : State) (p : PageId) : s.page p = s.pages[p.val] := rfl

@[simp] theorem State.page_setPage_self (s : State) (p : PageId) (e : Entry) : (s.setPage p e).page p = e := by
  simp [State.setPage, State.page_def]

theorem State.page_setPage_of_ne (s : State) {p q : PageId} (e : Entry) (h : q ≠ p) :
    (s.setPage p e).page q = s.page q := by
  simp [State.setPage, State.page_def, Fin.val_ne_iff.2 h.symm]

theorem State.page_setPage (s : State) (p q : PageId) (e : Entry) :
    (s.setPage p e).page q = if q = p then e else s.page q := by
  by_cases h : q = p
  · subst h; simp
  · simp [h, State.page_setPage_of_ne]

@[simp] theorem State.page_modifyPage_self (s : State) (p : PageId) (f : Entry → Entry) :
    (s.modifyPage p f).page p = f (s.page p) := s.page_setPage_self p _

theorem State.page_modifyPage_of_ne (s : State) {p q : PageId} (f : Entry → Entry) (h : q ≠ p) :
    (s.modifyPage p f).page q = s.page q := s.page_setPage_of_ne _ h

theorem State.page_modifyPage (s : State) (p q : PageId) (f : Entry → Entry) :
    (s.modifyPage p f).page q = if q = p then f (s.page p) else s.page q := s.page_setPage p q _

@[simp] theorem State.page_mapPages (s : State) (f : Entry → Entry) (p : PageId) :
    (s.mapPages f).page p = f (s.page p) := by
  simp [State.mapPages, State.page_def]

@[simp] theorem State.page_markJob (s : State) (job : Place) (p : PageId) :
    (s.markJob job).page p = (s.page p).markRef job := s.page_mapPages _ p

/-- Two states with the same table have the same entries. -/
theorem State.page_congr {s t : State} (h : s.pages = t.pages) (p : PageId) : s.page p = t.page p := by
  simp [State.page_def, h]

@[simp] theorem State.page_setPort (s : State) (n : HostId) (g : PortGroup) (p : PageId) :
    (s.setPort n g).page p = s.page p := rfl
@[simp] theorem State.page_modifyPort (s : State) (n : HostId) (f : PortGroup → PortGroup) (p : PageId) :
    (s.modifyPort n f).page p = s.page p := rfl
@[simp] theorem State.page_answer (s : State) (n : HostId) (a : Answer) (p : PageId) :
    (s.answer n a).page p = s.page p := rfl
@[simp] theorem State.page_modifyEngine (s : State) (f : Engine → Engine) (p : PageId) :
    (s.modifyEngine f).page p = s.page p := rfl
@[simp] theorem State.page_setQueue (s : State) (q : List Job) (p : PageId) : (s.setQueue q).page p = s.page p := rfl
@[simp] theorem State.page_setJob (s : State) (j : Job) (p : PageId) : (s.setJob j).page p = s.page p := rfl
@[simp] theorem State.page_sendJob (s : State) (j : Job) (p : PageId) : (s.sendJob j).page p = s.page p := rfl
@[simp] theorem State.page_request (s : State) (op : WordOp) (p : PageId) : (s.request op).page p = s.page p := rfl
@[simp] theorem State.page_choose (s : State) (p : PageId) : s.choose.page p = s.page p := rfl
@[simp] theorem State.page_dropTransit (s : State) (pl : Place) (p : PageId) :
    (s.dropTransit pl).page p = s.page p := rfl
@[simp] theorem State.page_redirect (s : State) (pl : Place) (e : Errand) (p : PageId) :
    (s.redirect pl e).page p = s.page p := rfl

/-! ## The port group of a port -/

theorem State.port_def (s : State) (n : HostId) : s.port n = s.ports[n.val] := rfl

@[simp] theorem State.port_setPort_self (s : State) (n : HostId) (g : PortGroup) : (s.setPort n g).port n = g := by
  simp [State.setPort, State.port_def]

theorem State.port_setPort_of_ne (s : State) {n m : HostId} (g : PortGroup) (h : m ≠ n) :
    (s.setPort n g).port m = s.port m := by
  simp [State.setPort, State.port_def, Fin.val_ne_iff.2 h.symm]

theorem State.port_setPort (s : State) (n m : HostId) (g : PortGroup) :
    (s.setPort n g).port m = if m = n then g else s.port m := by
  by_cases h : m = n
  · subst h; simp
  · simp [h, State.port_setPort_of_ne]

@[simp] theorem State.port_modifyPort_self (s : State) (n : HostId) (f : PortGroup → PortGroup) :
    (s.modifyPort n f).port n = f (s.port n) := s.port_setPort_self n _

theorem State.port_modifyPort_of_ne (s : State) {n m : HostId} (f : PortGroup → PortGroup) (h : m ≠ n) :
    (s.modifyPort n f).port m = s.port m := s.port_setPort_of_ne _ h

theorem State.port_modifyPort (s : State) (n m : HostId) (f : PortGroup → PortGroup) :
    (s.modifyPort n f).port m = if m = n then f (s.port n) else s.port m := s.port_setPort n m _

@[simp] theorem State.port_answer_self (s : State) (n : HostId) (a : Answer) :
    (s.answer n a).port n = { s.port n with answer := some a } := s.port_modifyPort_self n _

theorem State.port_answer_of_ne (s : State) {n m : HostId} (a : Answer) (h : m ≠ n) :
    (s.answer n a).port m = s.port m := s.port_modifyPort_of_ne _ h

/-- Two states with the same ports have the same port groups. -/
theorem State.port_congr {s t : State} (h : s.ports = t.ports) (n : HostId) : s.port n = t.port n := by
  simp [State.port_def, h]

@[simp] theorem State.port_setPage (s : State) (p : PageId) (e : Entry) (n : HostId) :
    (s.setPage p e).port n = s.port n := rfl
@[simp] theorem State.port_modifyPage (s : State) (p : PageId) (f : Entry → Entry) (n : HostId) :
    (s.modifyPage p f).port n = s.port n := rfl
@[simp] theorem State.port_mapPages (s : State) (f : Entry → Entry) (n : HostId) :
    (s.mapPages f).port n = s.port n := rfl
@[simp] theorem State.port_markJob (s : State) (job : Place) (n : HostId) : (s.markJob job).port n = s.port n := rfl
@[simp] theorem State.port_modifyEngine (s : State) (f : Engine → Engine) (n : HostId) :
    (s.modifyEngine f).port n = s.port n := rfl
@[simp] theorem State.port_setQueue (s : State) (q : List Job) (n : HostId) : (s.setQueue q).port n = s.port n := rfl
@[simp] theorem State.port_setJob (s : State) (j : Job) (n : HostId) : (s.setJob j).port n = s.port n := rfl
@[simp] theorem State.port_sendJob (s : State) (j : Job) (n : HostId) : (s.sendJob j).port n = s.port n := rfl
@[simp] theorem State.port_request (s : State) (op : WordOp) (n : HostId) : (s.request op).port n = s.port n := rfl
@[simp] theorem State.port_choose (s : State) (n : HostId) : s.choose.port n = s.port n := rfl
@[simp] theorem State.port_dropTransit (s : State) (pl : Place) (n : HostId) :
    (s.dropTransit pl).port n = s.port n := rfl
@[simp] theorem State.port_redirect (s : State) (pl : Place) (e : Errand) (n : HostId) :
    (s.redirect pl e).port n = s.port n := rfl

end Sys2Proof.Machine
end

