-- ==== Sys2Proof/Laws/Ops.lean ====
section
/-!
SUPPORT. What each shared operation over the state can do, said once: posting, notifying, marking, the hand-over of an
entry's event, and the arrival of a command at its owner.
-/

namespace Sys2Proof.Machine

open Sys2Proof

/-! ## Posting -/

/-- Posting replaces one port group, or does nothing for a place that is gone. -/
theorem State.post_eq (s : State) (pl : Place) (r : Reply) :
    s.post pl r =
      if (s.port pl.host).hasPlace pl then s.setPort pl.host ((s.port pl.host).complete pl r) else s := rfl

theorem State.post_of_hasPlace {s : State} {pl : Place} (r : Reply) (h : (s.port pl.host).hasPlace pl = true) :
    s.post pl r = s.setPort pl.host ((s.port pl.host).complete pl r) := by
  simp [State.post_eq, h]

theorem State.post_of_not_hasPlace {s : State} {pl : Place} (r : Reply) (h : (s.port pl.host).hasPlace pl = false) :
    s.post pl r = s := by
  simp [State.post_eq, h]

/-- A posting changes the port groups alone. -/
theorem State.post_frame (s : State) (pl : Place) (r : Reply) : s.post pl r = { s with ports := (s.post pl r).ports } := by
  rw [State.post_eq]; split <;> rfl

theorem State.port_post (s : State) (pl : Place) (r : Reply) (n : HostId) :
    (s.post pl r).port n =
      if n = pl.host ∧ (s.port pl.host).hasPlace pl then (s.port pl.host).complete pl r else s.port n := by
  rw [State.post_eq]
  by_cases h : (s.port pl.host).hasPlace pl = true <;> by_cases hn : n = pl.host <;> simp [h, hn, State.port_setPort]

/-- A posting reaches no port but the one of the command's host. -/
theorem State.port_post_of_ne (s : State) {pl : Place} (r : Reply) {n : HostId} (h : n ≠ pl.host) :
    (s.post pl r).port n = s.port n := by
  simp [State.port_post, h]

/-- What is posted to a port without a session is discarded (R163). -/
theorem PortGroup.hasPlace_of_not_attached {g : PortGroup} (pl : Place) (h : g.phase ≠ .attached) :
    g.hasPlace pl = false := by
  simp [PortGroup.hasPlace, PortGroup.session, h]

/-- A held place is of the present session of its port. -/
theorem State.current_of_hasPlace {s : State} {pl : Place} (h : (s.port pl.host).hasPlace pl = true) :
    s.current pl = true := by
  simp only [PortGroup.hasPlace, Bool.and_eq_true, decide_eq_true_eq] at h
  simp [State.current, h.1]

/-- A completion leaves everything of a port group but the completion queue and the uncompleted commands. -/
theorem PortGroup.complete_frame (g : PortGroup) (pl : Place) (r : Reply) :
    g.complete pl r = { g with uncompleted := (g.complete pl r).uncompleted, cq := (g.complete pl r).cq } := by
  simp only [PortGroup.complete, PortGroup.settleFence]
  split
  · split <;> rfl
  · rfl

@[simp] theorem State.post_phase (s : State) (pl : Place) (r : Reply) : (s.post pl r).phase = s.phase := by
  rw [State.post_frame]
@[simp] theorem State.post_timebase (s : State) (pl : Place) (r : Reply) : (s.post pl r).timebase = s.timebase := by
  rw [State.post_frame]
@[simp] theorem State.post_pages (s : State) (pl : Place) (r : Reply) : (s.post pl r).pages = s.pages := by
  rw [State.post_frame]
@[simp] theorem State.post_transit (s : State) (pl : Place) (r : Reply) : (s.post pl r).transit = s.transit := by
  rw [State.post_frame]
@[simp] theorem State.post_taken (s : State) (pl : Place) (r : Reply) : (s.post pl r).taken = s.taken := by
  rw [State.post_frame]
@[simp] theorem State.post_engine (s : State) (pl : Place) (r : Reply) : (s.post pl r).engine = s.engine := by
  rw [State.post_frame]
@[simp] theorem State.post_store (s : State) (pl : Place) (r : Reply) : (s.post pl r).store = s.store := by
  rw [State.post_frame]
@[simp] theorem State.post_arbiter (s : State) (pl : Place) (r : Reply) : (s.post pl r).arbiter = s.arbiter := by
  rw [State.post_frame]
@[simp] theorem State.post_settings (s : State) (pl : Place) (r : Reply) : (s.post pl r).settings = s.settings := by
  rw [State.post_frame]
@[simp] theorem State.post_freeCount (s : State) (pl : Place) (r : Reply) : (s.post pl r).freeCount = s.freeCount := by
  rw [State.post_frame]
@[simp] theorem State.post_pending (s : State) (pl : Place) (r : Reply) : (s.post pl r).pending = s.pending := by
  rw [State.post_frame]
@[simp] theorem State.page_post (s : State) (pl : Place) (r : Reply) (p : PageId) : (s.post pl r).page p = s.page p :=
  State.page_congr (s.post_pages pl r) p

@[simp] theorem State.postAll_nil (s : State) : s.postAll [] = s := rfl
@[simp] theorem State.postAll_cons (s : State) (pl : Place) (r : Reply) (l : List (Place × Reply)) :
    s.postAll ((pl, r) :: l) = (s.post pl r).postAll l := rfl

/-- Postings in order: first the ones, then the others. -/
theorem State.postAll_append (s : State) (l k : List (Place × Reply)) : s.postAll (l ++ k) = (s.postAll l).postAll k := by
  induction l generalizing s with
  | nil => rfl
  | cons x l ih => exact ih _

theorem State.postAll_frame (s : State) (l : List (Place × Reply)) :
    s.postAll l = { s with ports := (s.postAll l).ports } := by
  induction l generalizing s with
  | nil => rfl
  | cons x l ih =>
    obtain ⟨pl, r⟩ := x
    rw [State.postAll_cons, ih (s.post pl r), s.post_frame pl r]

/-! ## Notices -/

/-- A notice changes the notice queue and the notice-lost flag alone. -/
theorem PortGroup.notify_frame (g : PortGroup) (x : Notice) :
    g.notify x = { g with notices := (g.notify x).notices, noticeLost := (g.notify x).noticeLost } := by
  simp only [PortGroup.notify]; split
  · rfl
  · split <;> rfl

@[simp] theorem State.notifyAll_nil (s : State) : s.notifyAll [] = s := rfl
@[simp] theorem State.notifyAll_cons (s : State) (h : HostId) (x : Notice) (l : List (HostId × Notice)) :
    s.notifyAll ((h, x) :: l) = (s.modifyPort h fun g => g.notify x).notifyAll l := rfl

theorem State.notifyAll_append (s : State) (l k : List (HostId × Notice)) :
    s.notifyAll (l ++ k) = (s.notifyAll l).notifyAll k := by
  induction l generalizing s with
  | nil => rfl
  | cons x l ih => exact ih _

theorem State.notifyAll_frame (s : State) (l : List (HostId × Notice)) :
    s.notifyAll l = { s with ports := (s.notifyAll l).ports } := by
  induction l generalizing s with
  | nil => rfl
  | cons x l ih =>
    obtain ⟨h, x⟩ := x
    rw [State.notifyAll_cons, ih]
    rfl

/-- Notices leave everything of a port group but its notice queue and notice-lost flag. -/
theorem State.port_notifyAll_frame (s : State) (l : List (HostId × Notice)) (n : HostId) :
    (s.notifyAll l).port n =
      { s.port n with
        notices := ((s.notifyAll l).port n).notices, noticeLost := ((s.notifyAll l).port n).noticeLost } := by
  induction l generalizing s with
  | nil => rfl
  | cons x l ih =>
    obtain ⟨h, x⟩ := x
    rw [State.notifyAll_cons, ih]
    by_cases hn : n = h
    · subst hn
      rw [State.port_modifyPort_self, PortGroup.notify_frame]
    · rw [State.port_modifyPort_of_ne _ _ hn]

@[simp] theorem State.hasPlace_notifyAll (s : State) (l : List (HostId × Notice)) (n : HostId) (pl : Place) :
    ((s.notifyAll l).port n).hasPlace pl = (s.port n).hasPlace pl := by
  rw [State.port_notifyAll_frame]; rfl

@[simp] theorem State.notifyAll_pages (s : State) (l : List (HostId × Notice)) : (s.notifyAll l).pages = s.pages := by
  rw [State.notifyAll_frame]
@[simp] theorem State.notifyAll_engine (s : State) (l : List (HostId × Notice)) : (s.notifyAll l).engine = s.engine := by
  rw [State.notifyAll_frame]
@[simp] theorem State.page_notifyAll (s : State) (l : List (HostId × Notice)) (p : PageId) :
    (s.notifyAll l).page p = s.page p := State.page_congr (s.notifyAll_pages l) p

/-! ## Abort marks -/

@[simp] theorem State.markAll_nil (s : State) : s.markAll [] = s := rfl
@[simp] theorem State.markAll_cons (s : State) (j : Place) (l : List Place) :
    s.markAll (j :: l) = (s.markJob j).markAll l := rfl

/-- Marks change the job references and the engine alone. -/
theorem State.markAll_frame (s : State) (l : List Place) :
    s.markAll l = { s with pages := (s.markAll l).pages, engine := (s.markAll l).engine } := by
  induction l generalizing s with
  | nil => rfl
  | cons j l ih => rw [State.markAll_cons, ih]; rfl

@[simp] theorem State.markAll_ports (s : State) (l : List Place) : (s.markAll l).ports = s.ports := by
  rw [State.markAll_frame]
@[simp] theorem State.port_markAll (s : State) (l : List Place) (n : HostId) : (s.markAll l).port n = s.port n :=
  State.port_congr (s.markAll_ports l) n

/-- Marks reach the references of an entry and nothing else of it. -/
theorem State.page_markAll (s : State) (l : List Place) (p : PageId) :
    (s.markAll l).page p = { s.page p with refs := ((s.markAll l).page p).refs } := by
  induction l generalizing s with
  | nil => rfl
  | cons j l ih =>
    rw [State.markAll_cons, ih, State.page_markJob]
    rfl

/-! ## What an entry hands over -/

/-- An entry's event reaches its page, the port groups, and, by its abort marks, the references and the engine. -/
theorem State.applyEntry_frame (s : State) (p : PageId) (o : EntryOut) :
    s.applyEntry p o =
      { s with
        pages := (s.applyEntry p o).pages, ports := (s.applyEntry p o).ports, engine := (s.applyEntry p o).engine } := by
  simp only [State.applyEntry]
  rw [State.postAll_frame, State.notifyAll_frame, State.markAll_frame]
  rfl

/-- Without abort marks the event reaches its own entry and the port groups alone. -/
theorem State.applyEntry_of_no_aborts {s : State} {p : PageId} {o : EntryOut} (h : o.aborts = []) :
    s.applyEntry p o = ((s.setPage p o.entry).notifyAll o.notices).postAll o.posts := by
  simp [State.applyEntry, h]

theorem State.page_applyEntry_pages (s : State) (p : PageId) (o : EntryOut) :
    (s.applyEntry p o).pages = ((s.setPage p o.entry).markAll o.aborts).pages := by
  simp only [State.applyEntry]
  rw [State.postAll_frame]
  simp

/-- The entry after its event: what the event leaves, but for abort marks on its references. -/
theorem State.page_applyEntry_self (s : State) (p : PageId) (o : EntryOut) :
    (s.applyEntry p o).page p = { o.entry with refs := ((s.applyEntry p o).page p).refs } := by
  rw [State.page_congr (s.page_applyEntry_pages p o), State.page_markAll, State.page_setPage_self]

/-- Another page's entry after the event: unchanged, but for abort marks on its references. -/
theorem State.page_applyEntry_of_ne (s : State) {p q : PageId} (o : EntryOut) (h : q ≠ p) :
    (s.applyEntry p o).page q = { s.page q with refs := ((s.applyEntry p o).page q).refs } := by
  rw [State.page_congr (s.page_applyEntry_pages p o), State.page_markAll, State.page_setPage_of_ne _ _ h]

/-! ## The arrival of a command at its owner -/

/-- A command that an owner can take from a host is in transit, is of that host, and is on its way to that owner. -/
theorem State.arrival_spec {s : State} {h : HostId} {o : Owner} {t : Transit} (e : s.arrival h o = some t) :
    t ∈ s.transit ∧ t.place.host = h ∧ t.errand.owner = o := by
  simp only [State.arrival, State.nextFor] at e
  split at e
  · rename_i u hu
    split at e
    · rename_i ho
      obtain rfl := Option.some.inj e
      have := List.find?_some hu
      simp only [Bool.and_eq_true, decide_eq_true_eq] at this
      exact ⟨List.mem_of_find?_eq_some hu, this.1, ho⟩
    · cases e
  · cases e

theorem State.taking_of_current {s : State} {pl : Place} (f : State → State) (h : s.current pl = true) :
    s.taking pl f = f (s.dropTransit pl) := by
  simp [State.taking, h]

theorem State.taking_of_ended {s : State} {pl : Place} (f : State → State) (h : s.current pl = false) :
    s.taking pl f = s.dropTransit pl := by
  simp [State.taking, h]

/-! ## Faults -/

/-- A fault changes the file and the overflow flag alone. -/
theorem PortGroup.recordFault_frame (g : PortGroup) (k : FaultKind) (slot : Option SlotId) (p : Option PageId) (d : Dir) :
    g.recordFault k slot p d =
      { g with faults := (g.recordFault k slot p d).faults, overflow := (g.recordFault k slot p d).overflow } := by
  simp only [PortGroup.recordFault]
  split
  · rfl
  · split
    · rfl
    · split
      · rfl
      · split <;> rfl

end Sys2Proof.Machine
end

