-- ==== Sys2Proof/Laws/Ports.lean ====
section
/-!
SUPPORT. The port groups as a whole: replacing one twice, the register writes that an ATTACHED port acknowledges, and the
arbiter's choice.
-/

namespace Sys2Proof.Machine

open Sys2Proof

/-! ## Replacing a port group or an entry twice -/

@[simp] theorem State.setPort_setPort_self (s : State) (n : HostId) (g k : PortGroup) :
    (s.setPort n g).setPort n k = s.setPort n k := by
  simp [State.setPort]

@[simp] theorem State.setPort_port_self (s : State) (n : HostId) : s.setPort n (s.port n) = s := by
  simp [State.setPort, State.port]

@[simp] theorem State.setPage_setPage_self (s : State) (p : PageId) (e f : Entry) :
    (s.setPage p e).setPage p f = s.setPage p f := by
  simp [State.setPage]

@[simp] theorem State.setPage_page_self (s : State) (p : PageId) : s.setPage p (s.page p) = s := by
  simp [State.setPage, State.page]

/-- An entry and a port group are replaced in either order. -/
theorem State.setPort_setPage (s : State) (p : PageId) (e : Entry) (n : HostId) (g : PortGroup) :
    (s.setPort n g).setPage p e = (s.setPage p e).setPort n g := rfl

theorem State.modifyPort_eq (s : State) (n : HostId) (f : PortGroup → PortGroup) :
    s.modifyPort n f = s.setPort n (f (s.port n)) := rfl

theorem State.modifyPage_eq (s : State) (p : PageId) (f : Entry → Entry) :
    s.modifyPage p f = s.setPage p (f (s.page p)) := rfl

theorem State.answer_eq (s : State) (n : HostId) (a : Answer) :
    s.answer n a = s.setPort n { s.port n with answer := some a } := rfl

/-! ## Register writes -/

/-- A register write on an ATTACHED port: its effect and the acknowledge (R180). -/
theorem State.attachedWrite_of_attached {s : State} {n : HostId} (f : PortGroup → PortGroup) (h : s.accepts n = true)
    (a : (s.port n).phase = .attached) :
    s.attachedWrite n f = s.setPort n { f (s.port n) with answer := some ackWrite } := by
  simp [State.attachedWrite, h, a, State.answer_eq, State.modifyPort_eq]

/-- A register write on a port that is not ATTACHED: the error response and nothing else (R180). -/
theorem State.attachedWrite_of_not_attached {s : State} {n : HostId} (f : PortGroup → PortGroup)
    (h : s.accepts n = true) (a : (s.port n).phase ≠ .attached) :
    s.attachedWrite n f = s.setPort n { s.port n with answer := some .errorResponse } := by
  simp [State.attachedWrite, h, a, State.answer_eq]

/-- While no access can start on the port, the write is no event (R117, R183). -/
theorem State.attachedWrite_of_not_accepts {s : State} {n : HostId} (f : PortGroup → PortGroup)
    (h : s.accepts n = false) : s.attachedWrite n f = s := by
  simp [State.attachedWrite, h]

/-- A register write replaces one port group, or does nothing. -/
theorem State.attachedWrite_cases (s : State) (n : HostId) (f : PortGroup → PortGroup) :
    s.attachedWrite n f = s ∨ ∃ g, s.attachedWrite n f = s.setPort n g := by
  cases h : s.accepts n
  · exact .inl (State.attachedWrite_of_not_accepts f h)
  · by_cases a : (s.port n).phase = .attached
    · exact .inr ⟨_, State.attachedWrite_of_attached f h a⟩
    · exact .inr ⟨_, State.attachedWrite_of_not_attached f h a⟩

/-! ## The arbiter -/

/-- The pending request of a requester is pending, and its own. -/
theorem Arbiter.requestOf_spec {a : Arbiter} {r : Requester} {op : WordOp} (h : a.requestOf r = some op) :
    op ∈ a.requests ∧ op.requester = r := by
  refine ⟨List.mem_of_find?_eq_some h, ?_⟩
  simpa using List.find?_some h

/-- The request that is next is pending. -/
theorem Arbiter.next_mem {a : Arbiter} {op : WordOp} (h : a.next = some op) : op ∈ a.requests := by
  obtain ⟨r, -, hr⟩ := List.exists_of_findSome?_eq_some h
  exact (Arbiter.requestOf_spec hr).1

theorem Arbiter.choose_of_performing {a : Arbiter} {op : WordOp} (h : a.performing = some op) : a.choose = a := by
  simp [Arbiter.choose, h]

theorem Arbiter.choose_of_no_next {a : Arbiter} (h : a.next = none) : a.choose = a := by
  cases hp : a.performing <;> simp [Arbiter.choose, h, hp]

theorem Arbiter.choose_of_next {a : Arbiter} {op : WordOp} (hp : a.performing = none) (h : a.next = some op) :
    a.choose =
      { lastServed := op.requester, requests := a.requests.filter fun o => o.requester ≠ op.requester,
        performing := some op } := by
  simp [Arbiter.choose, hp, h]

/-- A choice changes nothing, or serves one pending request at an idle store (R111). -/
theorem Arbiter.choose_cases (a : Arbiter) :
    a.choose = a ∨ ∃ op ∈ a.requests, a.performing = none ∧ a.next = some op ∧ (a.choose).performing = some op := by
  cases hp : a.performing with
  | some op => exact .inl (Arbiter.choose_of_performing hp)
  | none =>
    cases h : a.next with
    | none => exact .inl (Arbiter.choose_of_no_next h)
    | some op => exact .inr ⟨op, Arbiter.next_mem h, rfl, rfl, by rw [Arbiter.choose_of_next hp h]⟩

end Sys2Proof.Machine
end

