-- ==== Sys2Proof/Laws/Safety.lean ====
section
/-!
SUPPORT. The invariants of Safety.lean part by part: what they say of the entry and port group of device reset, and that
replacing one entry or port group by a well-formed one keeps them.
-/

namespace Sys2Proof.Machine

open Sys2Proof

@[simp] theorem State.page_reset (p : PageId) : State.reset.page p = Entry.reset := by
  simp [State.page, State.reset]

@[simp] theorem State.port_reset (n : HostId) : State.reset.port n = PortGroup.reset := by
  simp [State.port, State.reset]

theorem Entry.reset_wf : Entry.reset.wf = true := by decide +kernel

theorem PortGroup.reset_wf : PortGroup.reset.wf = true := by
  simp [PortGroup.wf, PortGroup.bounded, PortGroup.quiet, PortGroup.reset, PortGroup.creditSum, Config.ringSize,
    Config.creditLimit, Config.noticeQueueSize, Config.faultFileSize, Config.cacheSize]

theorem PortGroup.reset_placesOk (n : HostId) (k : Nat) : PortGroup.reset.placesOk n k = true := by
  simp [PortGroup.placesOk, PortGroup.reset]

/-- The entries of a page table are well formed when one is replaced by a well-formed one. -/
theorem State.pagesOk_setPage {s : State} (h : s.pagesOk) (p : PageId) {e : Entry} (he : e.wf = true) :
    (s.setPage p e).pagesOk := by
  intro q
  rw [State.page_setPage]
  split
  · exact he
  · exact h q

/-- Port groups are well formed when one is replaced by a well-formed one. -/
theorem State.portsOk_setPort {s : State} (h : s.portsOk) (n : HostId) {g : PortGroup} (hg : g.wf = true)
    (hp : g.placesOk n s.taken = true) : (s.setPort n g).portsOk := by
  intro m
  rw [State.port_setPort]
  split
  · rename_i hm
    subst hm
    exact ⟨hg, hp⟩
  · exact h m

/-- A bounded port group of an ATTACHED port is well formed. -/
theorem PortGroup.wf_of_attached {g : PortGroup} (h : g.phase = .attached) (hb : g.bounded = true) : g.wf = true := by
  simp [PortGroup.wf, PortGroup.quiet, h, hb]

/-- A completion keeps the ring and lowers or keeps the credit sum: the place it frees is the one its record takes, and a
FENCE it lets complete likewise (R71, R76, R78). -/
theorem PortGroup.creditSum_settleFence (g : PortGroup) : g.settleFence.creditSum = g.creditSum := by
  simp only [PortGroup.settleFence]
  split
  · rename_i h
    split
    · simp [PortGroup.creditSum, h]
      omega
    · rfl
  · rfl

/-- The errands that the page engine takes after the entries are those of COPY, FILL, CHECKSUM and RESTORE (R75). -/
theorem Errand.boundForEngine_eq_false_iff (e : Errand) :
    e.boundForEngine = false ↔ ∀ (p q : PageId) (pattern : Word),
      e ≠ .copySource p q ∧ e ≠ .copyDestination p q ∧ e ≠ .fill p pattern ∧ e ≠ .checksum p ∧ e ≠ .restore p := by
  constructor
  · rintro h p q pattern
    refine ⟨?_, ?_, ?_, ?_, ?_⟩ <;> rintro rfl <;> simp [Errand.boundForEngine] at h
  · intro h
    cases e with
    | copySource p q => exact absurd rfl (h p q 0).1
    | copyDestination p q => exact absurd rfl (h p q 0).2.1
    | fill p x => exact absurd rfl (h p p x).2.2.1
    | checksum p => exact absurd rfl (h p p 0).2.2.2.1
    | restore p => exact absurd rfl (h p p 0).2.2.2.2
    | _ => rfl

/-- It is a command's turn at the engine exactly when no command of its host dispatched earlier is yet to be taken there
(R75). -/
theorem State.engineTurn_iff (s : State) (pl : Place) : s.engineTurn pl = true ↔ s.firstForEngine pl := by
  simp only [State.engineTurn, State.engineBound, State.firstForEngine, ← Errand.boundForEngine_eq_false_iff,
    List.all_eq_true, List.mem_append, List.mem_map, List.mem_filter, Bool.or_eq_true, decide_eq_true_eq]
  constructor
  · intro h
    refine ⟨fun t ht e hlt => ?_, ?_⟩
    · cases hb : t.errand.boundForEngine
      · rfl
      · have := (h _ (.inl (.inl ⟨t, ⟨ht, hb⟩, rfl⟩))).resolve_left (by simp [e])
        omega
    · rintro k (hk | hk) e
      · exact (h _ (.inl (.inr ⟨k, hk, rfl⟩))).resolve_left (by simp [e])
      · exact (h _ (.inr ⟨k, hk, rfl⟩)).resolve_left (by simp [e])
  · rintro ⟨h1, h2⟩ q ((⟨t, ⟨ht, hb⟩, rfl⟩ | ⟨k, hk, rfl⟩) | ⟨k, hk, rfl⟩)
    · by_cases e : t.place.host = pl.host
      · right
        by_contra hlt
        have := h1 t ht e (by omega)
        simp [hb] at this
      · exact .inl e
    · by_cases e : k.place.host = pl.host
      · exact .inr (h2 k (.inl hk) e)
      · exact .inl e
    · by_cases e : k.place.host = pl.host
      · exact .inr (h2 k (.inr hk) e)
      · exact .inl e

end Sys2Proof.Machine
end

