-- ==== Sys2Proof/Laws/Store.lean ====
section
/-!
SUPPORT. The array: its canonical form is kept by every operation and held at reset, a read after a write to the same
place gives what was written, and a write leaves every other place alone.
-/

namespace Sys2Proof.Machine

open Sys2Proof

/-! ## The form of the two lists -/

/-- Cells rise exactly when every earlier address is below every later one. -/
theorem risingCells_iff (l : List Host.Cell) : risingCells l = true ↔ l.Pairwise fun c d => c.1 < d.1 := by
  induction l with
  | nil => simp [risingCells]
  | cons c l ih =>
    obtain ⟨a, v⟩ := c
    cases l with
    | nil => simp [risingCells]
    | cons d l =>
      obtain ⟨b, u⟩ := d
      simp only [risingCells, Bool.and_eq_true, decide_eq_true_eq, ih, List.pairwise_cons, List.mem_cons]
      constructor
      · rintro ⟨hab, hb, hl⟩
        refine ⟨?_, hb, hl⟩
        rintro x (rfl | hx)
        · exact hab
        · exact hab.trans (hb x hx)
      · rintro ⟨ha, hb, hl⟩
        exact ⟨ha _ (.inl rfl), hb, hl⟩

/-- Addresses rise exactly when every earlier one is below every later one. -/
theorem risingAddresses_iff (l : List Nat) : risingAddresses l = true ↔ l.Pairwise fun a b => a < b := by
  induction l with
  | nil => simp [risingAddresses]
  | cons a l ih =>
    cases l with
    | nil => simp [risingAddresses]
    | cons b l =>
      simp only [risingAddresses, Bool.and_eq_true, decide_eq_true_eq, ih, List.pairwise_cons, List.mem_cons]
      constructor
      · rintro ⟨hab, hb, hl⟩
        refine ⟨?_, hb, hl⟩
        rintro x (rfl | hx)
        · exact hab
        · exact hab.trans (hb x hx)
      · rintro ⟨ha, hb, hl⟩
        exact ⟨ha _ (.inl rfl), hb, hl⟩

/-- The canonical form, clause by clause. -/
theorem Store.wf_iff (m : Store) :
    m.wf = true ↔
      (m.cells.Pairwise fun c d => c.1 < d.1) ∧ (∀ c ∈ m.cells, c.1 < Config.storeBytes ∧ c.2 ≠ blankByte) ∧
        (m.mismatch.Pairwise fun a b => a < b) ∧ ∀ a ∈ m.mismatch, a < Config.storeBytes := by
  simp only [Store.wf, Bool.and_eq_true, risingCells_iff, risingAddresses_iff, List.all_eq_true, decide_eq_true_eq,
    and_assoc]

/-! ## Cells -/

/-- A cell after a write is an old one of another address, or the one written. -/
theorem mem_writeCells {l : List Host.Cell} {a : Nat} {v : Byte} {c : Host.Cell} (h : c ∈ writeCells l a v) :
    c ∈ l ∨ (c = (a, v) ∧ v ≠ blankByte) := by
  induction l with
  | nil =>
    simp only [writeCells] at h
    split at h
    · cases h
    · simp_all
  | cons d l ih =>
    obtain ⟨k, u⟩ := d
    simp only [writeCells] at h
    split at h
    · split at h
      · exact .inl h
      · rcases List.mem_cons.1 h with h | h
        · exact .inr ⟨h, ‹_›⟩
        · exact .inl h
    · split at h
      · split at h
        · exact .inl (List.mem_cons_of_mem _ h)
        · rcases List.mem_cons.1 h with h | h
          · have e : a = k := by assumption
            exact .inr ⟨e ▸ h, ‹_›⟩
          · exact .inl (List.mem_cons_of_mem _ h)
      · rcases List.mem_cons.1 h with h | h
        · exact .inl (h ▸ List.mem_cons_self)
        · rcases ih h with h | h
          · exact .inl (List.mem_cons_of_mem _ h)
          · exact .inr h

/-- A write keeps the cells rising. -/
theorem writeCells_rising {l : List Host.Cell} (h : l.Pairwise fun c d => c.1 < d.1) (a : Nat) (v : Byte) :
    (writeCells l a v).Pairwise fun c d => c.1 < d.1 := by
  induction l with
  | nil =>
    simp only [writeCells]
    split <;> simp
  | cons d l ih =>
    obtain ⟨k, u⟩ := d
    obtain ⟨hk, hl⟩ := List.pairwise_cons.1 h
    simp only [writeCells]
    split
    · rename_i hak
      split
      · exact h
      · refine List.pairwise_cons.2 ⟨fun c hc => ?_, h⟩
        rcases List.mem_cons.1 hc with rfl | hc
        · exact hak
        · exact hak.trans (hk c hc)
    · split
      · split
        · exact hl
        · exact List.pairwise_cons.2 ⟨hk, hl⟩
      · refine List.pairwise_cons.2 ⟨fun c hc => ?_, ih hl⟩
        rcases mem_writeCells hc with hc | ⟨rfl, -⟩
        · exact hk c hc
        · show k < a
          omega

/-- No cell below the first address: the address reads blank. -/
theorem readCells_of_below {l : List Host.Cell} {a : Nat} (h : ∀ c ∈ l, a < c.1) : readCells l a = blankByte := by
  induction l with
  | nil => rfl
  | cons d l ih =>
    obtain ⟨k, u⟩ := d
    have hk : a < k := h (k, u) List.mem_cons_self
    simp only [readCells]
    rw [if_neg (by omega), ih fun c hc => h c (List.mem_cons_of_mem _ hc)]

/-- What an address reads as after a write of one address. -/
theorem readCells_writeCells {l : List Host.Cell} (h : l.Pairwise fun c d => c.1 < d.1) (a b : Nat) (v : Byte) :
    readCells (writeCells l a v) b = if b = a then v else readCells l b := by
  induction l with
  | nil =>
    by_cases hv : v = blankByte <;> by_cases hb : b = a
    · simp [writeCells, readCells, hv]
    · simp [writeCells, readCells, hv]
    · simp [writeCells, readCells, hv, hb]
    · simp [writeCells, readCells, hv, hb, Ne.symm hb]
  | cons d l ih =>
    obtain ⟨k, u⟩ := d
    obtain ⟨hk, hl⟩ := List.pairwise_cons.1 h
    simp only [writeCells]
    split
    · rename_i hak
      have blank : readCells ((k, u) :: l) a = blankByte :=
        readCells_of_below fun c hc => by
          rcases List.mem_cons.1 hc with rfl | hc
          · exact hak
          · exact hak.trans (hk c hc)
      split
      · rename_i hv
        by_cases hb : b = a
        · rw [hb, blank, if_pos rfl, hv]
        · rw [if_neg hb]
      · by_cases hb : b = a
        · simp [readCells, hb]
        · rw [if_neg hb]
          simp only [readCells]
          rw [if_neg (Ne.symm hb)]
    · split
      · rename_i hak
        subst hak
        split
        · rename_i hv
          by_cases hb : b = a
          · rw [hb, if_pos rfl, hv, readCells_of_below hk]
          · simp only [readCells]
            rw [if_neg hb, if_neg (Ne.symm hb)]
        · by_cases hb : b = a
          · simp [readCells, hb]
          · simp only [readCells]
            rw [if_neg (Ne.symm hb), if_neg hb, if_neg (Ne.symm hb)]
      · rename_i h1 h2
        simp only [readCells]
        by_cases hb : k = b
        · rw [if_pos hb, if_neg (by omega), if_pos hb]
        · rw [if_neg hb, if_neg hb, ih hl]

/-! ## Mismatched addresses -/

theorem mem_insertAddress {l : List Nat} {a b : Nat} : b ∈ insertAddress l a ↔ b = a ∨ b ∈ l := by
  induction l with
  | nil => simp [insertAddress]
  | cons k l ih =>
    simp only [insertAddress]
    split
    · simp
    · split
      · rename_i h
        subst h
        simp
      · simp only [List.mem_cons, ih]
        tauto

/-- Putting an address in keeps the addresses rising. -/
theorem insertAddress_rising {l : List Nat} (h : l.Pairwise fun x y => x < y) (a : Nat) :
    (insertAddress l a).Pairwise fun x y => x < y := by
  induction l with
  | nil => simp [insertAddress]
  | cons k l ih =>
    obtain ⟨hk, hl⟩ := List.pairwise_cons.1 h
    simp only [insertAddress]
    split
    · rename_i hak
      refine List.pairwise_cons.2 ⟨fun x hx => ?_, h⟩
      rcases List.mem_cons.1 hx with rfl | hx
      · exact hak
      · exact hak.trans (hk x hx)
    · split
      · exact h
      · refine List.pairwise_cons.2 ⟨fun x hx => ?_, ih hl⟩
        rcases mem_insertAddress.1 hx with rfl | hx
        · omega
        · exact hk x hx

/-! ## Byte operations -/

theorem Store.readByte_writeByte {m : Store} (h : m.wf = true) (a b : Nat) (v : Byte) :
    (m.writeByte a v).readByte b = if b = a then v else m.readByte b :=
  readCells_writeCells ((m.wf_iff).1 h).1 a b v

theorem Store.mismatched_writeByte (m : Store) (a b : Nat) (v : Byte) :
    (m.writeByte a v).mismatched b = (m.mismatched b && decide (b ≠ a)) := by
  by_cases hb : b = a <;> simp [Store.mismatched, Store.writeByte, hb]

/-- Writing a byte keeps the canonical form. -/
theorem Store.wf_writeByte {m : Store} (h : m.wf = true) {a : Nat} (ha : a < Config.storeBytes) (v : Byte) :
    (m.writeByte a v).wf = true := by
  obtain ⟨hc, hb, hm, hr⟩ := (m.wf_iff).1 h
  refine (Store.wf_iff _).2 ⟨writeCells_rising hc a v, fun c hc' => ?_, hm.filter _, fun b hb' => ?_⟩
  · rcases mem_writeCells hc' with hc' | ⟨rfl, hv⟩
    · exact hb c hc'
    · exact ⟨ha, hv⟩
  · exact hr b (List.mem_filter.1 hb').1

theorem Store.readByte_upset {m : Store} (h : m.wf = true) (a b : Nat) (flips : Byte) (parityFlips : Bool) :
    (m.upset a flips parityFlips).readByte b = if b = a then m.readByte a ^^^ flips else m.readByte b :=
  readCells_writeCells ((m.wf_iff).1 h).1 a b _

theorem Store.mismatched_upset (m : Store) (a b : Nat) (flips : Byte) (parityFlips : Bool) :
    (m.upset a flips parityFlips).mismatched b =
      if b = a then (m.mismatched a ^^ Byte.odd flips ^^ parityFlips) else m.mismatched b := by
  have key : ∀ x : Bool,
      (if x then insertAddress m.mismatch a else m.mismatch.filter fun k => k ≠ a).contains b =
        if b = a then x else m.mismatch.contains b := by
    intro x
    by_cases hb : b = a <;> cases x <;> simp [hb, mem_insertAddress]
  exact key _

/-- An upset keeps the canonical form. -/
theorem Store.wf_upset {m : Store} (h : m.wf = true) {a : Nat} (ha : a < Config.storeBytes) (flips : Byte)
    (parityFlips : Bool) : (m.upset a flips parityFlips).wf = true := by
  obtain ⟨hc, hb, hm, hr⟩ := (m.wf_iff).1 h
  refine (Store.wf_iff _).2 ⟨writeCells_rising hc a _, fun c hc' => ?_, ?_, fun b hb' => ?_⟩
  · rcases mem_writeCells hc' with hc' | ⟨rfl, hv⟩
    · exact hb c hc'
    · exact ⟨ha, hv⟩
  · simp only [Store.upset]
    split
    · exact insertAddress_rising hm a
    · exact hm.filter _
  · simp only [Store.upset] at hb'
    split at hb'
    · rcases mem_insertAddress.1 hb' with rfl | hb'
      · exact ha
      · exact hr b hb'
    · exact hr b (List.mem_filter.1 hb').1

/-! ## Words -/

/-- Every byte of a word lies in the store. -/
theorem byteAddress_lt (p : PageId) (w : WordIdx) (b : ByteIdx) : byteAddress p w b < Config.storeBytes := by
  simp only [byteAddress, Config.storeBytes]
  omega

/-- Page, word and byte are determined by the address. -/
theorem byteAddress_inj {p q : PageId} {w x : WordIdx} {b c : ByteIdx} :
    byteAddress p w b = byteAddress q x c ↔ p = q ∧ w = x ∧ b = c := by
  simp only [byteAddress, Fin.ext_iff]
  omega

/-- Writing one byte of a word, or leaving it, keeps the canonical form. -/
theorem Store.wf_writeLane {m : Store} (h : m.wf = true) (p : PageId) (w : WordIdx) (en : BitVec 4) (data : Word)
    (b : ByteIdx) : (m.writeLane p w en data b).wf = true := by
  simp only [Store.writeLane]
  split
  · exact Store.wf_writeByte h (byteAddress_lt p w b) _
  · exact h

/-- A write word operation keeps the canonical form. -/
theorem Store.wf_writeWord {m : Store} (h : m.wf = true) (p : PageId) (w : WordIdx) (en : BitVec 4) (data : Word) :
    (m.writeWord p w en data).wf = true :=
  Store.wf_writeLane (Store.wf_writeLane (Store.wf_writeLane (Store.wf_writeLane h p w en data 0) p w en data 1) p w en
    data 2) p w en data 3

/-- A word operation keeps the canonical form. -/
theorem Store.wf_perform {m : Store} (h : m.wf = true) (op : WordOp) : (m.perform op).wf = true := by
  simp only [Store.perform]
  split
  · exact h
  · exact Store.wf_writeWord h _ _ _ _

theorem Store.readByte_writeLane {m : Store} (h : m.wf = true) (p : PageId) (w : WordIdx) (en : BitVec 4) (data : Word)
    (b : ByteIdx) (a : Nat) :
    (m.writeLane p w en data b).readByte a =
      if a = byteAddress p w b ∧ en.getLsbD b.val = true then data.byte b else m.readByte a := by
  simp only [Store.writeLane]
  by_cases he : en.getLsbD b.val = true
  · rw [if_pos he, Store.readByte_writeByte h]
    simp only [he, and_true]
  · rw [if_neg he, if_neg fun hh => he hh.2]

theorem Store.mismatched_writeLane (m : Store) (p : PageId) (w : WordIdx) (en : BitVec 4) (data : Word) (b : ByteIdx)
    (a : Nat) :
    (m.writeLane p w en data b).mismatched a =
      (m.mismatched a && !(decide (a = byteAddress p w b) && en.getLsbD b.val)) := by
  simp only [Store.writeLane]
  cases he : en.getLsbD b.val
  · simp
  · simp [Store.mismatched_writeByte]

/-- A write leaves every byte outside its word alone. -/
theorem Store.readByte_writeWord_of_ne {m : Store} (h : m.wf = true) (p : PageId) (w : WordIdx) (en : BitVec 4)
    (data : Word) {a : Nat} (ha : ∀ b : ByteIdx, a ≠ byteAddress p w b) :
    (m.writeWord p w en data).readByte a = m.readByte a := by
  have h1 := Store.wf_writeLane h p w en data 0
  have h2 := Store.wf_writeLane h1 p w en data 1
  have h3 := Store.wf_writeLane h2 p w en data 2
  simp only [Store.writeWord]
  rw [Store.readByte_writeLane h3, Store.readByte_writeLane h2, Store.readByte_writeLane h1, Store.readByte_writeLane h]
  simp [ha]

/-- A write replaces the bytes whose enables are asserted. -/
theorem Store.readByte_writeWord {m : Store} (h : m.wf = true) (p : PageId) (w : WordIdx) (en : BitVec 4) (data : Word)
    (b : ByteIdx) :
    (m.writeWord p w en data).readByte (byteAddress p w b) =
      if en.getLsbD b.val = true then data.byte b else m.readByte (byteAddress p w b) := by
  have h1 := Store.wf_writeLane h p w en data 0
  have h2 := Store.wf_writeLane h1 p w en data 1
  have h3 := Store.wf_writeLane h2 p w en data 2
  simp only [Store.writeWord]
  rw [Store.readByte_writeLane h3, Store.readByte_writeLane h2, Store.readByte_writeLane h1, Store.readByte_writeLane h]
  simp only [byteAddress_inj, true_and]
  have hb : ∀ b : ByteIdx, b = 0 ∨ b = 1 ∨ b = 2 ∨ b = 3 := by decide
  rcases hb b with rfl | rfl | rfl | rfl <;> simp

/-! ## The sweep, RESET and the state after reset -/

/-- The part of a store that a sweep has not reached keeps the canonical form. -/
theorem Store.wf_sweptTo {m : Store} (h : m.wf = true) (k : Nat) : (m.sweptTo k).wf = true := by
  obtain ⟨hc, hb, hm, hr⟩ := (m.wf_iff).1 h
  exact (Store.wf_iff _).2
    ⟨hc.filter _, fun c hc' => hb c (List.mem_filter.1 hc').1, hm.filter _, fun a ha => hr a (List.mem_filter.1 ha).1⟩

theorem Store.wf_zero : Store.zero.wf = true := rfl

/-- The assertion of RESET leaves the array in its canonical form. -/
theorem State.wf_storeAtReset {s : State} (h : s.store.wf = true) : s.storeAtReset.wf = true := by
  simp only [State.storeAtReset]
  split
  · exact Store.wf_sweptTo h _
  · split
    · exact Store.wf_writeWord h _ _ _ _
    · exact h
  · exact h

/-- The array has its canonical form at reset. -/
theorem State.reset_store_wf : State.reset.store.wf = true := rfl

end Sys2Proof.Machine
end

