-- ==== Sys2Proof/Tests/Slice0.lean ====
section
/-!
SUPPORT. The writer's own tests: the smoke test of WellFormed, small tests whose expected values come from the spec, and
for each statement of Certificates/Slice0/Obligations.lean the witnesses that meet its hypotheses, clause by clause.
-/

namespace Sys2Proof.Tests

-- One theorem after the other: many kernel evaluations at once ask for more threads than the memory limit allows.
set_option Elab.async false

open Sys2Proof Sys2Proof.Machine

/-! ## Small states -/

/-- A READY device in which ten commands have been taken. -/
def base : State := { State.reset with phase := .ready, taken := 10 }

/-- The same device with RESET asserted. -/
def inReset : State := { base with phase := .inReset }

/-- An ATTACHED port in its first session. -/
def on : PortGroup := { PortGroup.reset with phase := .attached, sessionCount := 1 }

/-- A DETACHING port whose engine teardown has been taken, with one entry left. -/
def off : PortGroup :=
  { PortGroup.reset with phase := .detaching, sessionCount := 1, teardownEngine := true, teardownEntries := [255] }

/-- The place of the last command taken, of a host, with a kind code. -/
def pl (h : HostId) (kind : BitVec 8) : Place := { host := h, session := 1, seq := 9, tag := 3, kind := kind }

/-- An older place of a host. -/
def older (h : HostId) (seq : Nat) (kind : BitVec 8) : Place :=
  { host := h, session := 1, seq := seq, tag := 4, kind := kind }

/-- The errand of a command of an ATTACHED port in transit. -/
def sent (s : State) (pl : Place) (e : Errand) : State :=
  { s.setPort pl.host { on with uncompleted := [⟨pl, none⟩] } with transit := [⟨pl, e⟩] }

/-- An entry by its state, generation, holdings and waiters. -/
def entry (st : PageState) (gen : BitVec 16) (hs : Vector (Option Holding) 4) (ws : List Waiter) : Entry :=
  { Entry.reset with state := st, gen := gen, holdings := hs, waiters := ws }

/-- A waiter of a host without a deadline. -/
def wait (h : HostId) (seq : Nat) (m : Mode) (upgrade : Bool) : Waiter :=
  { place := older h seq 1, mode := m, deadline := none, due := false, upgrade := upgrade }

/-- Host 1 holds X in the last generation before the wrap. -/
def heldX : Entry := entry .exclusive 0xFFFF #v[none, some ⟨.X, 0xFFFF⟩, none, none] []

/-- Hosts 0 and 3 hold S. -/
def heldS : Entry := entry .shared 5 #v[some ⟨.S, 4⟩, none, none, some ⟨.S, 5⟩] []

/-- Host 1 holds S alone. -/
def heldS1 : Entry := entry .shared 5 #v[none, some ⟨.S, 5⟩, none, none] []

/-- Host 1 holds X; host 2 waits for `m`; the recall of host 1 runs, due or not. -/
def recalled (m : Mode) (due : Bool) (ws : List Waiter) : Entry :=
  { entry .exclusive 7 #v[none, some ⟨.X, 7⟩, none, none] (wait 2 2 m false :: ws) with
    recalling :=
      some { wanted := m, requester := 2, targets := #v[false, true, false, false], deadline := 2000, due := due } }

/-- A stray read of host 0 in flight. -/
def withStray (e : Entry) : Entry := { e with inFlight := #v[some .read, none, none, none] }

/-- A page in TRANSFER: host 2 is chosen for X. -/
def transfer (ws : List Waiter) (chosen : List HostId) (left : Bool) : Entry :=
  { entry .transfer 7 (Vector.replicate 4 none) ws with grant := some { mode := .X, chosen := chosen, left := left } }

/-- A descriptor of a kind with three argument words. -/
def desc (kind a b c : Word) : Descriptor := #v[kind ||| 0x00030000, a, b, c]

/-- An ATTACHED port with a ring. -/
def ringed (manager : Bool) (ds : List Descriptor) : State := base.setPort 2 { on with manager := manager, ring := ds }

/-- A queued FILL of host 1 on page 255. -/
def fillJob : Job := Job.fresh (older 1 2 8) (.fill 0xA5A5A5A5) 255

/-- The job running at a progress. -/
def runningAt (j : Job) (progress : Nat) : Job := { j with running := true, progress := progress }

/-- A running job whose word is being performed. -/
def performingJob (j : Job) (js : List Job) : State :=
  { base with
    engine := { Engine.reset with queue := j :: js }
    arbiter := { Arbiter.reset with performing := some j.request } }

/-- An access in flight of port 1 on page 255. -/
def access (d : Dir) (abandoned : Bool) : InFlight :=
  { page := 255, word := 255, slot := 127, dir := d, enables := 0x8, data := some 0x12345678, abandoned := abandoned }

/-- Port 1 has the access in flight, being performed or awaiting the arbiter. -/
def accessing (g : PortGroup) (r : InFlight) (performing : Bool) : State :=
  { (base.setPage 255 { heldX with inFlight := #v[none, some r.dir, none, none] }).setPort 1
      { g with inFlight := some r } with
    arbiter :=
      if performing then { Arbiter.reset with performing := some (r.request 1) }
      else { Arbiter.reset with requests := [r.request 1] } }

theorem base_pagesOk : base.pagesOk := by
  intro p
  have h : base.page p = Entry.reset := State.page_reset p
  rw [h]
  exact Entry.reset_wf

theorem base_portsOk : base.portsOk := by
  intro n
  have h : base.port n = PortGroup.reset := State.port_reset n
  rw [h]
  exact ⟨PortGroup.reset_wf, PortGroup.reset_placesOk n _⟩

/-! ## WellFormed: each check refuses a term that is no command -/

theorem test_wellFormed_window : (Instr.windowAccess 0 0x1FFFC .read 0 0).wellFormed = false := by decide +kernel
theorem test_wellFormed_outOfRange : (Instr.outOfRangeAccess 0 0x20000 .read).wellFormed = false := by decide +kernel
theorem test_wellFormed_outOfRange_register : (Instr.outOfRangeAccess 0 0x00050 .write).wellFormed = false := by
  decide +kernel
theorem test_wellFormed_registerWrite : (Instr.registerWrite 0 0x00024 0xF 0).wellFormed = false := by decide +kernel
theorem test_wellFormed_accepts :
    (Instr.windowAccess 0 0x20000 .read 0 0).wellFormed = true ∧ (Instr.outOfRangeAccess 0 0x1FFFC .read).wellFormed ∧
      (Instr.outOfRangeAccess 0 0x000E0 .read).wellFormed ∧ (Instr.registerWrite 0 0x00020 0xF 0).wellFormed ∧
      (Instr.attach 0).wellFormed := by
  decide +kernel

/-- No row of the table has bits: a word spells no command. -/
theorem test_decodeTableWord : decodeTableWord 32 0x12345678 = none := rfl

/-! ## Values that the spec gives -/

/-- R125: the nine characters "123456789". -/
theorem test_crc_of_nine_characters :
    ([0x31, 0x32, 0x33, 0x34, 0x35, 0x36, 0x37, 0x38, 0x39] : List Byte).foldl crcByte crcStart = 0x29B1 := by
  decide +kernel

/-- "Example: A Stale Mapping": 0x21828 is slot 6, word 10. -/
theorem test_window_address : decodeAddress 0x21828 = .window 6 10 ∧ decodeAddress 0x3FFFF = .window 127 255 := by
  decide +kernel

/-- R180, "Register Area Map": some offsets, the holes between them, and the space between the areas (R88). -/
theorem test_register_addresses :
    decodeAddress 0x00024 = .register .attach ∧ decodeAddress 0x00028 = .register .detach ∧
      decodeAddress 0x0004F = .register (.staging 3) ∧ decodeAddress 0x00050 = .register .submit ∧
      decodeAddress 0x000DC = .register (.recallSummary 7) ∧ decodeAddress 0x005FC = .register (.mapEntry 127) ∧
      decodeAddress 0x00008 = .undefinedOffset ∧ decodeAddress 0x000E0 = .undefinedOffset ∧
      decodeAddress 0x00FFC = .undefinedOffset ∧ decodeAddress 0x01000 = .neither ∧ decodeAddress 0x1FFFC = .neither := by
  decide +kernel

/-- "Command Descriptor": an ACQUIRE with tag 0x00A1 of page 255 for X, wait limit 500. -/
theorem test_acquire_descriptor :
    checkCommand false #v[0x00A10001, 0x000000FF, 0x00000002, 0x000001F4] =
      .ok (.errand (.acquire 255 .X 500)) := by
  rfl

/-- R73, R74: the privilege of RETIRE is tested before its page, its page is tested on a manager. -/
theorem test_privilege_before_arguments :
    checkCommand false #v[0x0000000B, 0x00000100, 0, 0] = .error .privilege ∧
      checkCommand true #v[0x0000000B, 0x00000100, 0, 0] = .error .badCommand := ⟨rfl, rfl⟩

/-- R3, R4: the generation 65535 is followed by 0, and the completion carries it. -/
theorem test_acquire_free_page_wraps :
    (({ Entry.reset with gen := 0xFFFF }).acquire { page := 9, now := 0, limit := 2000 } false false (pl 2 1) .X 0).entry =
      entry .exclusive 0 #v[none, none, some ⟨.X, 0⟩, none] [] := by
  decide +kernel

/-- R46, R49: the holder's RELEASE grants the waiter without a WITHDRAWN. -/
theorem test_release_grants_waiter :
    ((recalled .X false []).release { page := 9, now := 0, limit := 2000 } (pl 1 2) 7).posts =
        [(older 2 2 1, { status := .ok, page := some 9, gen := some 8, result := none }),
          (pl 1 2, Reply.ofPage .ok 9)] ∧
      ((recalled .X false []).release { page := 9, now := 0, limit := 2000 } (pl 1 2) 7).notices = [] := by
  decide +kernel

/-- R52, R61: the deadline revokes the holder; a stray read holds the grant back. -/
theorem test_recall_deadline_enters_transfer :
    (({ recalled .S true [] with inFlight := #v[none, some .write, none, none] }).recallDeadline
      { page := 9, now := 2000, limit := 2000 }).entry.state = .transfer := by
  decide +kernel

/-- R109, R58: a parity report retires the page. -/
theorem test_parity_report_retires :
    (heldS.parityReport { page := 9, now := 0, limit := 2000 }).entry = { heldS with
      state := .retired, holdings := Vector.replicate 4 none } ∧
      (heldS.parityReport { page := 9, now := 0, limit := 2000 }).notices =
        [(0, .holdingRevoked 9 4 .parity), (3, .holdingRevoked 9 5 .parity)] := by
  decide +kernel

/-- R105, R106, R108: byte enable 3 writes the byte at the highest address of its word, and no other. -/
theorem test_write_word_lane :
    (Store.zero.writeWord 255 255 0x8 0x12345678).cells = [(262143, 0x12)] ∧
      (Store.zero.writeWord 0 0 0xF 0x12345678).readWord 0 0 = 0x12345678 := by
  decide +kernel

/-- R106: a flipped parity bit is a mismatch, a second flip of a data bit of the same byte hides it. -/
theorem test_upsets_hide :
    (Store.zero.upset 5 0 true).mismatched 5 = true ∧ ((Store.zero.upset 5 0 true).upset 5 0x10 false).mismatched 5 = false := by
  decide +kernel

/-- R139: 255 is the last repeat count. -/
theorem test_fault_fold_saturates :
    ({ on with faults := [⟨.range, none, none, .read, 254⟩] } : PortGroup).recordFault .range none none .read =
        { on with faults := [⟨.range, none, none, .read, 255⟩] } ∧
      ({ on with faults := [⟨.range, none, none, .read, 255⟩] } : PortGroup).recordFault .range none none .read =
        { on with faults := [⟨.range, none, none, .read, 255⟩] } := by
  decide +kernel

/-- "Notice Head Words": a RECALL of page 31 in generation 2 for X by host 3 with 2000 us. -/
theorem test_notice_words :
    let g : PortGroup := { on with notices := [.recallIssued 31 2 .X 3 2000], noticeLost := true }
    g.noticeHead 0 = 0xC0010001 ∧ g.noticeHead 1 = 0x0002001F ∧ g.noticeHead 2 = 0x00000302 ∧
      g.noticeHead 3 = 0x000007D0 := by
  decide +kernel

/-- R180: the identification words, the device status and the port control status of an ATTACHED idle port. -/
theorem test_status_words :
    (base.setPort 2 on).readWord 2 .identification0 = 0x00004256 ∧ (base.setPort 2 on).readWord 2 .identification1 = 2 ∧
      (base.setPort 2 on).readWord 2 .deviceStatus = 1 ∧ (base.setPort 2 on).readWord 2 .portControl = 0x00100011 := by
  decide +kernel

/-- R111: after HP3 comes the page engine, then HP0. -/
theorem test_arbiter_order :
    ({ lastServed := .port 3, requests := [engineRead 1 2, (access .read false).request 0], performing := none } :
        Arbiter).choose.lastServed = .engine := by
  decide +kernel

/-! ## Witnesses: the block as a whole, reset, the array -/

theorem witness_StepTakesTheFrontCommand : base.pending = [] := rfl

theorem witness_TimebaseSettingsAndManagerFlagsKept :
    (∃ t, exec (.attach 0) base = .next t) ∧ Instr.attach 0 ≠ .timebaseAdvance ∧ Instr.attach 0 ≠ .deviceResetAssert ∧
      (∀ straps, Instr.attach 0 ≠ .deviceResetNegate straps) ∧ (∀ h, Instr.attach 0 ≠ .setQuota h) ∧
      ∀ h, Instr.attach 0 ≠ .setRecallLimit h := by
  refine ⟨⟨_, rfl⟩, ?_⟩
  simp

theorem witness_ArrayChangesOnlyByItsEvents :
    (∃ t, exec .wordOperationEnd (accessing on (access .read false) true) = .next t) ∧
      Instr.wordOperationEnd ≠ .initializationSweepEnd ∧ Instr.wordOperationEnd ≠ .deviceResetAssert ∧
      (∀ p w b f g, Instr.wordOperationEnd ≠ .arrayUpset p w b f g) ∧
      ∀ op ∈ (accessing on (access .read false) true).arbiter.performing, op.dir = .read := by
  refine ⟨⟨_, rfl⟩, by simp, by simp, by simp, by decide +kernel⟩

theorem witness_ResetSetsResetValues :
    base.phase ≠ .inReset ∧ base.phase = .ready ∧ inReset.phase = .inReset ∧ State.reset.phase = .sweeping := by
  decide +kernel

theorem witness_TimebaseAdvanceDeliversDeadlines :
    ({ base with timebase := 0xFFFFFFFF } : State).phase ≠ .inReset ∧ inReset.phase = .inReset := by
  decide +kernel

theorem witness_UpsetChangesOneByte : ({ base with store := ⟨[(0, 1), (262143, 1)], [262143]⟩ } : State).storeOk := by
  unfold State.storeOk; decide +kernel

/-! ## Witnesses: port sessions -/

theorem witness_AttachOpensASession :
    (base.accepts 3 = true ∧ (base.port 3).phase = .detached ∧ base.phase = .ready ∧ (base.port 3).prst = false) ∧
      base.accepts 3 = true ∧ State.reset.accepts 3 = true ∧ State.reset.phase ≠ .ready := by
  decide +kernel

theorem witness_DetachStartsDetaching :
    (base.setPort 3 on).accepts 3 = true ∧ ((base.setPort 3 on).port 3).phase = .attached ∧ base.accepts 3 = true ∧
      (base.port 3).phase ≠ .attached := by
  decide +kernel

theorem witness_PortResetAbandonsTheAccess :
    (((base.setPort 1 on).port 1).prst = false ∧ ((base.setPort 1 on).port 1).phase = .attached ∧
      ((base.setPort 1 on).port 1).inFlight = none) ∧
    (((accessing on (access .write false) true).port 1).prst = false ∧
      ((accessing on (access .write false) true).port 1).phase = .attached ∧
      ((accessing on (access .write false) true).port 1).inFlight = some (access .write false) ∧
      (accessing on (access .write false) true).stage 1 = some .performing) ∧
    (((accessing on (access .read false) false).port 1).prst = false ∧
      ((accessing on (access .read false) false).port 1).phase = .attached ∧
      ((accessing on (access .read false) false).port 1).inFlight = some (access .read false) ∧
      (accessing on (access .read false) false).stage 1 = some .awaiting) ∧
    (base.port 1).prst = false ∧ (base.port 1).phase ≠ .attached := by
  decide +kernel

/-- A DETACHING port whose engine teardown has not been taken, with one job of its own and one of another host queued. -/
def tearing (running : Bool) : State :=
  (({ base with
      engine :=
        { Engine.reset with
          queue := [{ fillJob with running := running }, Job.fresh (older 2 3 8) (.fill 0) 0] } }).setPage 255
    { heldX with refs := [{ place := older 1 2 8, need := some .X, running := running, marked := false }] }).setPort 1
      { off with teardownEngine := false }

theorem witness_EngineTakesTheTeardown :
    (((tearing false).port 1).phase = .detaching ∧ ((tearing false).port 1).teardownEngine = false ∧
      ∀ j ∈ (tearing false).engine.queue, j.running = true → j.place.host = 1 → j.isScrub = true) ∧
    ((tearing true).port 1).phase = .detaching ∧ ((tearing true).port 1).teardownEngine = false ∧
      (tearing true).jobsOk := by
  unfold State.jobsOk; decide +kernel

theorem witness_EntryTakesTheTeardown :
    ((base.setPage 255 heldX).setPort 1 off).pagesOk ∧ (off.phase = .detaching ∧ off.teardownEngine = true ∧
      (255 : PageId) ∈ off.teardownEntries) ∧ heldX.holds 1 = true ∧
      (heldX.holds 2 = false ∧ heldX.hasWaiter 2 = false) :=
  ⟨State.pagesOk_setPage base_pagesOk 255 (by decide +kernel), by decide +kernel⟩

theorem witness_DetachingEndsWhenAllIsDone :
    let s := base.setPort 1 { off with teardownEntries := [] }
    let u := base.setPort 1 off
    ((s.port 1).phase = .detaching ∧ (s.port 1).teardownEngine = true ∧ (s.port 1).teardownEntries = [] ∧
      (s.port 1).inFlight = none ∧
      ∀ j ∈ s.engine.queue, j.running = true → j.place.host = 1 → j.isScrub = true) ∧
    (u.port 1).phase = .detaching ∧ (u.port 1).teardownEntries ≠ [] := by
  decide +kernel

/-! ## Witnesses: register writes and the command unit -/

theorem witness_StorageWordsTakeEnabledBytes :
    (base.setPort 2 on).accepts 2 = true ∧ ((base.setPort 2 on).port 2).phase = .attached ∧ base.accepts 2 = true ∧
      (base.port 2).phase ≠ .attached := by
  decide +kernel

theorem witness_SubmitAppendsTheStagedDescriptor :
    let s := ringed false (List.replicate 15 (desc 5 0 0 0))
    let u := ringed false (List.replicate 16 (desc 5 0 0 0))
    (s.accepts 2 = true ∧ (s.port 2).phase = .attached ∧ (s.port 2).ring.length < 16) ∧
      (u.accepts 2 = true ∧ 16 ≤ (u.port 2).ring.length) ∧ base.accepts 2 = true ∧ (base.port 2).phase ≠ .attached := by
  decide +kernel

theorem ringed_portsOk (d : Descriptor) : (ringed false [d]).portsOk :=
  State.portsOk_setPort base_portsOk 2
    (PortGroup.wf_of_attached rfl (by simp [PortGroup.bounded, PortGroup.creditSum, on, PortGroup.reset, Config.ringSize,
      Config.creditLimit, Config.noticeQueueSize, Config.faultFileSize, Config.cacheSize]))
    (by simp [PortGroup.placesOk, on, PortGroup.reset])

/-- The kinds 0x0F, 0x0E and 0x01, the first with no kind, the second of a manager, the third with page 256. -/
theorem witness_TakeRefusesBadCommands :
    (∀ d : Descriptor, (ringed false [d]).portsOk) ∧
    (∀ d : Descriptor, ((ringed false [d]).port 2).ring = d :: []) ∧
    (((ringed false [desc 0x0F 0 0 0]).port 2).ringState = .running ∧ 0x0E < (desc 0x0F 0 0 0).kindCode.toNat) ∧
    (((ringed false [desc 0x0E 1 0 0]).port 2).ringState = .running ∧ (desc 0x0E 1 0 0).kindCode.toNat = 0x0E ∧
      ((ringed false [desc 0x0E 1 0 0]).port 2).manager = false) ∧
    ((ringed false [desc 0x01 256 1 0]).port 2).ringState = .running ∧ (desc 0x01 256 1 0).kindCode.toNat < 0x0B ∧
      (desc 0x01 256 1 0).badArguments := by
  refine ⟨ringed_portsOk, fun _ => by simp [ringed], by decide +kernel, by decide +kernel, by decide +kernel,
    by decide +kernel, ?_⟩
  exact .inl (by decide +kernel)

theorem witness_TakeDispatchesToTheOwner :
    (((ringed false [desc 0x01 255 2 500]).port 2).ringState = .running ∧
      ((ringed false [desc 0x01 255 2 500]).port 2).ring = desc 0x01 255 2 500 :: [] ∧
      (desc 0x01 255 2 500).asks (.acquire 255 .X 500) ∧ (Errand.acquire 255 .X 500).isManager = false) ∧
    (((ringed false [desc 0x06 127 1 0]).port 2).ringState = .running ∧
      ((ringed false [desc 0x06 127 1 0]).port 2).ring = desc 0x06 127 1 0 :: [] ∧
      (desc 0x06 127 1 0).asks (.flush 127 1) ∧ (Errand.flush 127 1).isManager = false) ∧
    ((ringed true [desc 0x0D 3 256 0]).port 2).ringState = .running ∧
      ((ringed true [desc 0x0D 3 256 0]).port 2).ring = desc 0x0D 3 256 0 :: [] ∧
      (desc 0x0D 3 256 0).asks (.setQuota 3 256) ∧ ((ringed true [desc 0x0D 3 256 0]).port 2).manager = true := by
  simp only [Descriptor.asks]; decide +kernel

/-- A CANCEL of tag 4 at the head of a ring, with one uncompleted command. -/
def cancelling (t : Taken) : State :=
  base.setPort 2 { on with ring := [desc 0x04 4 0 0], uncompleted := [t] }

theorem cancelling_portsOk (t : Taken) (h : t.place.host = 2) (k : t.place.session = 1) (q : t.place.seq < 10) :
    (cancelling t).portsOk :=
  State.portsOk_setPort base_portsOk 2
    (PortGroup.wf_of_attached rfl (by simp [PortGroup.bounded, PortGroup.creditSum, on, PortGroup.reset, Config.ringSize,
      Config.creditLimit, Config.noticeQueueSize, Config.faultFileSize, Config.cacheSize]))
    (by simp [PortGroup.placesOk, on, PortGroup.reset, h, k, base]; exact decide_eq_true q)

theorem witness_CancelSelectsTheOldestAcquire :
    ((cancelling ⟨older 2 2 2, none⟩).portsOk ∧ ((cancelling ⟨older 2 2 2, none⟩).port 2).ringState = .running ∧
      ((cancelling ⟨older 2 2 2, none⟩).port 2).ring = desc 0x04 4 0 0 :: [] ∧ (desc 0x04 4 0 0).kindCode = 0x04 ∧
      ∀ t ∈ ((cancelling ⟨older 2 2 2, none⟩).port 2).uncompleted, t.place.tag = (desc 0x04 4 0 0).half 1 →
        t.page = none) ∧
    (cancelling ⟨older 2 2 1, some 255⟩).portsOk ∧ ((cancelling ⟨older 2 2 1, some 255⟩).port 2).ringState = .running ∧
      ((cancelling ⟨older 2 2 1, some 255⟩).port 2).ring = desc 0x04 4 0 0 :: [] ∧
      ((cancelling ⟨older 2 2 1, some 255⟩).port 2).uncompleted = [] ++ ⟨older 2 2 1, some 255⟩ :: [] ∧
      (older 2 2 1).tag = (desc 0x04 4 0 0).half 1 := by
  refine ⟨⟨cancelling_portsOk _ rfl rfl (by decide), by decide +kernel⟩, cancelling_portsOk _ rfl rfl (by decide), ?_⟩
  decide +kernel

theorem witness_FenceCompletesOrWaits :
    let s := ringed false [desc 0x05 0 0 0]
    let u := base.setPort 2 { on with ring := [desc 0x05 0 0 0], uncompleted := [⟨older 2 2 1, some 0⟩] }
    ((s.port 2).ringState = .running ∧ (s.port 2).ring = desc 0x05 0 0 0 :: [] ∧ (desc 0x05 0 0 0).kindCode = 0x05 ∧
      (s.port 2).uncompleted = []) ∧
    (u.port 2).ringState = .running ∧ (u.port 2).ring = desc 0x05 0 0 0 :: [] ∧ (u.port 2).uncompleted ≠ [] := by
  decide +kernel

theorem witness_RecordsReachTheirQueues :
    let s := base.setPort 2 { on with uncompleted := [⟨pl 2 1, none⟩, ⟨older 2 8 5, none⟩] }
    let u := base.setPort 2 { on with uncompleted := [⟨pl 2 1, none⟩] }
    (base.port 2).session ≠ some (pl 2 1).session ∧
    ((s.port 2).hasPlace (pl 2 1) = true ∧ (older 2 8 5).kind = 0x05 ∧
      ((s.port 2).uncompleted.filter fun t => t.place ≠ pl 2 1) = [⟨older 2 8 5, none⟩]) ∧
    ((u.port 2).hasPlace (pl 2 1) = true ∧ ((u.port 2).uncompleted.filter fun t => t.place ≠ pl 2 1) = []) ∧
    PortGroup.reset.phase ≠ .attached ∧
    (({ on with notices := List.replicate 7 (.recallWithdrawn 0 1) } : PortGroup).phase = .attached ∧
      (List.replicate 7 (Notice.recallWithdrawn 0 1)).length < 8) ∧
    8 ≤ (List.replicate 8 (Notice.recallWithdrawn 0 1)).length := by
  decide +kernel

theorem witness_PopAndClearAnswer :
    (base.setPort 2 on).accepts 2 = true ∧ ((base.setPort 2 on).port 2).phase = .attached ∧ base.accepts 2 = true ∧
      (base.port 2).phase ≠ .attached := by
  decide +kernel

theorem witness_FaultPopRemovesTheHead :
    let s := base.setPort 2 { on with faults := [⟨.range, none, none, .read, 1⟩, ⟨.unmapped, some 3, none, .write, 255⟩] }
    (s.accepts 2 = true ∧ (s.port 2).phase = .attached ∧
      (s.port 2).faults = ⟨.range, none, none, .read, 1⟩ :: [⟨.unmapped, some 3, none, .write, 255⟩]) ∧
    (base.setPort 2 on).accepts 2 = true ∧ ((base.setPort 2 on).port 2).phase = .attached ∧
      ((base.setPort 2 on).port 2).faults = [] := by
  decide +kernel

/-- Files of three and of four records, the newest of the kind, slot and direction of the next fault or of another. -/
theorem witness_OverflowClearResumesRecording :
    let r : FaultRecord := ⟨.range, none, none, .read, 1⟩
    let s := base.setPort 2 { on with faults := [r, r, r], overflow := true }
    let u := base.setPort 2 { on with faults := [r, r, r, r], overflow := true }
    (s.accepts 2 = true ∧ (s.port 2).phase = .attached ∧ (s.port 2).faults.length < 4 ∧
      (s.port 2).faults.getLast? = some r ∧ r.kind ≠ .unmapped ∧ (s.port 2).faults = [r, r] ++ [r]) ∧
    u.accepts 2 = true ∧ (u.port 2).phase = .attached ∧ 4 ≤ (u.port 2).faults.length ∧
      (u.port 2).faults.getLast? = some r := by
  decide +kernel

theorem witness_RegisterWriteChangesNothing :
    ((base.setPort 2 on).accepts 2 = true ∧ decodeAddress 0x000DC = .register (.recallSummary 7) ∧
      (RegWord.recallSummary 7).isPassive = true ∧ ((base.setPort 2 on).port 2).phase = .attached) ∧
    (base.accepts 2 = true ∧ decodeAddress 0x00004 = .register .identification1 ∧
      RegWord.identification1.isPassive = true) ∧
    (base.port 2).phase ≠ .attached ∧ RegWord.recallSummary 7 ≠ .identification0 ∧
      RegWord.recallSummary 7 ≠ .identification1 := by
  decide +kernel

theorem witness_InterruptFollowsFlagsAndEnables :
    (base.phase ≠ .inReset ∧ ∃ t, exec .deviceResetAssert base = .next t) ∧
    (inReset.phase = .inReset ∧ ∃ t, exec (.deviceResetNegate 0xF) inReset = .next t) ∧
    (base.portsOk ∧ (base.port 2).phase ≠ .attached) ∧
    base.accepts 2 = true ∧ (base.port 2).phase = .detached ∧ base.phase = .ready ∧ (base.port 2).prst = false ∧
      ∃ t, exec (.attach 2) base = .next t :=
  ⟨⟨by decide +kernel, _, rfl⟩, ⟨by decide +kernel, _, rfl⟩, ⟨base_portsOk, by decide +kernel⟩, by decide +kernel,
    by decide +kernel, by decide +kernel, by decide +kernel, _, rfl⟩

/-! ## Witnesses: ownership commands -/

/-- An ACQUIRE of page 255 by host 1 that its entry takes next. -/
def asking (e : Entry) (m : Mode) (limit : BitVec 16) : State :=
  sent (base.setPage 255 e) (pl 1 1) (.acquire 255 m limit)

theorem asking_delivers (e : Entry) (m : Mode) (limit : BitVec 16) :
    (asking e m limit).delivers 1 (.entry 255) (pl 1 1) (.acquire 255 m limit) := by
  constructor
  · rfl
  · simp [asking, sent, State.port, State.setPort, PortGroup.hasPlace, PortGroup.session, on, pl]

theorem asking_page (e : Entry) (m : Mode) (limit : BitVec 16) : (asking e m limit).page 255 = e := by
  simp [asking, sent, State.page, State.setPort, State.setPage]

theorem asking_pagesOk (e : Entry) (h : e.wf = true) (m : Mode) (limit : BitVec 16) : (asking e m limit).pagesOk :=
  State.pagesOk_setPage base_pagesOk 255 h

theorem witness_AcquireAnsweredFromTheHolding :
    ((asking heldS1 .S 0).delivers 1 (.entry 255) (pl 1 1) (.acquire 255 .S 0) ∧
      (asking heldS1 .S 0).page 255 = heldS1 ∧ heldS1.holding 1 = some ⟨.S, 5⟩ ∧ heldS1.state = .shared) ∧
    (asking heldX .S 0).delivers 1 (.entry 255) (pl 1 1) (.acquire 255 .S 0) ∧ (asking heldX .S 0).page 255 = heldX ∧
      heldX.holding 1 = some ⟨.X, 0xFFFF⟩ ∧ heldX.state = .exclusive :=
  ⟨⟨asking_delivers _ _ _, asking_page _ _ _, by decide +kernel⟩, asking_delivers _ _ _, asking_page _ _ _,
    by decide +kernel⟩

/-- The asking device with a quota of its host or with every waiter record in use. -/
def tight (s : State) (quota : Nat) (full : Bool) : State :=
  { (if full then s.setPage 0 { Entry.reset with waiters := List.replicate 32 (wait 2 2 .X false) } else s) with
    settings := { Settings.reset with quota := #v[64, quota, 64, 64] } }

theorem tight_delivers {s : State} {h : HostId} {o : Owner} {p : Place} {x : Errand} (d : s.delivers h o p x) (q : Nat)
    (full : Bool) : (tight s q full).delivers h o p x := by
  cases full <;> exact d

/-- The six refusals, each on a page and with a limit that leads to it. -/
theorem witness_AcquireRefusals :
    (∀ e m limit, (asking e m limit).delivers 1 (.entry 255) (pl 1 1) (.acquire 255 m limit)) ∧
    (entry .scrub 1 (Vector.replicate 4 none) []).state = .scrub ∧
    (let e := entry .shared 5 #v[some ⟨.S, 5⟩, none, none, none] [wait 1 2 .X false];
      e.mode 1 ≠ some .X ∧ e.mode 1 ≠ some .S ∧ e.state ≠ .retired ∧ e.hasWaiter 1 = true) ∧
    ((tight (asking Entry.reset .X 0) 0 false).delivers 1 (.entry 255) (pl 1 1) (.acquire 255 .X 0) ∧
      Entry.reset.hasWaiter 1 = false ∧ Entry.reset.grantable 1 .X = true ∧ Entry.reset.hasStray = false ∧
      (tight (asking Entry.reset .X 0) 0 false).quota 1 ≤ (tight (asking Entry.reset .X 0) 0 false).quotaCount 1) ∧
    (heldS.mode 1 = none ∧ heldS.hasWaiter 1 = false ∧ heldS.grantable 1 .X = false) ∧
    ((tight (asking heldS .X 1) 0 false).delivers 1 (.entry 255) (pl 1 1) (.acquire 255 .X 1) ∧
      (tight (asking heldS .X 1) 0 false).quota 1 ≤ (tight (asking heldS .X 1) 0 false).quotaCount 1) ∧
    (tight (asking heldS .X 1) 1 true).delivers 1 (.entry 255) (pl 1 1) (.acquire 255 .X 1) ∧
      (tight (asking heldS .X 1) 1 true).quotaCount 1 < (tight (asking heldS .X 1) 1 true).quota 1 ∧
      32 ≤ (tight (asking heldS .X 1) 1 true).waitersInUse := by
  refine ⟨asking_delivers, by decide +kernel, by decide +kernel, ⟨tight_delivers (asking_delivers _ _ _) _ _, by decide +kernel⟩,
    by decide +kernel, ⟨tight_delivers (asking_delivers _ _ _) _ _, by decide +kernel⟩, tight_delivers (asking_delivers _ _ _) _ _, by decide +kernel⟩

theorem witness_AcquireGrantedAtOnce :
    (∀ e m limit, (asking e m limit).delivers 1 (.entry 255) (pl 1 1) (.acquire 255 m limit) ∧
      (asking e m limit).page 255 = e) ∧
    (let s := tight (asking Entry.reset .X 0) 1 false;
      s.delivers 1 (.entry 255) (pl 1 1) (.acquire 255 .X 0) ∧ (s.page 255).waiters = [] ∧ (s.page 255).hasStray = false ∧
        (s.page 255).state = .free ∧ (s.page 255).holds 1 = false ∧ s.quotaCount 1 < s.quota 1) ∧
    (let s := tight (asking heldS .S 0) 1 false;
      s.delivers 1 (.entry 255) (pl 1 1) (.acquire 255 .S 0) ∧ (s.page 255).waiters = [] ∧ (s.page 255).hasStray = false ∧
        (s.page 255).state = .shared ∧ (s.page 255).holds 1 = false ∧ s.quotaCount 1 < s.quota 1) ∧
    let s := tight (asking heldS1 .X 0) 1 false
    s.delivers 1 (.entry 255) (pl 1 1) (.acquire 255 .X 0) ∧ (s.page 255).waiters = [] ∧ (s.page 255).hasStray = false ∧
      (s.page 255).state = .shared ∧ (s.page 255).mode 1 = some .S ∧ ∀ k, k ≠ 1 → (s.page 255).holds k = false := by
  refine ⟨fun e m l => ⟨asking_delivers e m l, asking_page e m l⟩, ⟨tight_delivers (asking_delivers _ _ _) _ _, by decide +kernel⟩,
    ⟨tight_delivers (asking_delivers _ _ _) _ _, by decide +kernel⟩, tight_delivers (asking_delivers _ _ _) _ _, by decide +kernel⟩

/-- A wait behind another waiter, as the head of a page in use, and for a stray operation on a FREE page. -/
theorem witness_AcquireThatMustWait :
    (let e := recalled .X false [];
      let s := asking { e with holdings := #v[some ⟨.X, 7⟩, none, none, none], recalling := e.recalling.map fun r =>
        { r with targets := #v[true, false, false, false] } } .X 1;
      s.pagesOk ∧ s.delivers 1 (.entry 255) (pl 1 1) (.acquire 255 .X 1) ∧ (s.page 255).mode 1 = none ∧
        (s.page 255).hasWaiter 1 = false ∧ s.quotaCount 1 < s.quota 1 ∧ s.waitersInUse < 32 ∧
        (s.page 255).state = .exclusive ∧ (s.page 255).waiters ≠ []) ∧
    (let s := asking heldS .X 65535;
      s.pagesOk ∧ s.delivers 1 (.entry 255) (pl 1 1) (.acquire 255 .X 65535) ∧ (s.page 255).mode 1 = none ∧
        (s.page 255).hasWaiter 1 = false ∧ s.quotaCount 1 < s.quota 1 ∧ s.waitersInUse < 32 ∧
        (s.page 255).inUse = true ∧ (s.page 255).waiters = [] ∧ (s.page 255).grantable 1 .X = false) ∧
    let s := asking (withStray Entry.reset) .S 1
    s.pagesOk ∧ s.delivers 1 (.entry 255) (pl 1 1) (.acquire 255 .S 1) ∧ (s.page 255).mode 1 = none ∧
      (s.page 255).hasWaiter 1 = false ∧ s.quotaCount 1 < s.quota 1 ∧ s.waitersInUse < 32 ∧
      (s.page 255).grantable 1 .S = true ∧ (s.page 255).hasStray = true := by
  refine ⟨⟨asking_pagesOk _ (by decide +kernel) _ _, asking_delivers _ _ _, by decide +kernel⟩,
    ⟨asking_pagesOk _ (by decide +kernel) _ _, asking_delivers _ _ _, by decide +kernel⟩,
    asking_pagesOk _ (by decide +kernel) _ _, asking_delivers _ _ _, by decide +kernel⟩

/-- A command of host 1 about page 255 that its entry takes next. -/
def telling (e : Entry) (x : Errand) : State := sent (base.setPage 255 e) (pl 1 2) x

theorem telling_delivers (e : Entry) (x : Errand) (h : x.owner = .entry 255) (k : x.concerns (.entry 255) = true) :
    (telling e x).delivers 1 (.entry 255) (pl 1 2) x := by
  constructor
  · simp [telling, sent, State.arrival, State.nextFor, pl, h, k]
  · simp [telling, sent, State.port, State.setPort, PortGroup.hasPlace, PortGroup.session, on, pl]

theorem telling_page (e : Entry) (x : Errand) : (telling e x).page 255 = e := by
  simp [telling, sent, State.page, State.setPort, State.setPage]

theorem telling_pagesOk (e : Entry) (h : e.wf = true) (x : Errand) : (telling e x).pagesOk :=
  State.pagesOk_setPage base_pagesOk 255 h

/-- A running job of host 1 on the page that needs X. -/
def used (e : Entry) : Entry := { e with refs := [{ place := older 1 2 8, need := some .X, running := true, marked := false }] }

theorem witness_ReleaseAndDowngradeRefusals :
    (∀ e gen, (telling e (.release 255 gen)).delivers 1 (.entry 255) (pl 1 2) (.release 255 gen) ∧
      (telling e (.downgrade 255 gen)).delivers 1 (.entry 255) (pl 1 2) (.downgrade 255 gen) ∧
      (telling e (.release 255 gen)).page 255 = e ∧ (telling e (.downgrade 255 gen)).page 255 = e) ∧
    heldS.holds 1 = false ∧ heldS1.mode 1 ≠ some .X ∧
    (heldX.holding 1 = some ⟨.X, 0xFFFF⟩ ∧ (0xFFFF : BitVec 16) ≠ 0) ∧
    (used heldX).holding 1 = some ⟨.X, 0xFFFF⟩ ∧
      ∃ r ∈ (used heldX).refs, r.place.host = 1 ∧ r.marked = false ∧ r.need = some .X := by
  refine ⟨fun e gen => ⟨telling_delivers _ _ rfl (by simp [Errand.concerns, Errand.owner]),
    telling_delivers _ _ rfl (by simp [Errand.concerns, Errand.owner]), telling_page _ _, telling_page _ _⟩, ?_⟩
  decide +kernel

/-- A page in TRANSFER on which host 1 holds S and waits to upgrade. -/
def upgrading : Entry :=
  { entry .transfer 5 #v[none, some ⟨.S, 5⟩, none, none] [wait 1 2 .X true] with
    inFlight := #v[some .read, none, none, none], grant := some { mode := .X, chosen := [1], left := false } }

/-- Hosts 1 and 3 hold S; the head waits for X behind a recall of the hosts given. -/
def recalledShared (head : Waiter) (behind : List Waiter) (targets : Vector Bool 4) : Entry :=
  { entry .shared 5 #v[none, some ⟨.S, 4⟩, none, some ⟨.S, 5⟩] (head :: behind) with
    recalling :=
      some { wanted := .X, requester := head.place.host, targets := targets, deadline := 2000, due := false } }

/-- An empty list; TRANSFER; a target's RELEASE with another target left, and that of an upgrader who is no target; a
DOWNGRADE against an exclusive and against a shared recall. -/
theorem witness_ReleaseAndDowngradeAccepted :
    (∀ e x, e.wf = true → (telling e x).pagesOk) ∧ (∀ e x, (telling e x).page 255 = e) ∧
    (∀ e gen, (telling e (.release 255 gen)).delivers 1 (.entry 255) (pl 1 2) (.release 255 gen) ∧
      (telling e (.downgrade 255 gen)).delivers 1 (.entry 255) (pl 1 2) (.downgrade 255 gen)) ∧
    (heldX.wf = true ∧ heldX.holding 1 = some ⟨.X, 0xFFFF⟩ ∧ heldX.waiters = [] ∧
      ∀ r ∈ heldX.refs, r.place.host = 1 → r.marked = true) ∧
    (heldS1.wf = true ∧ heldS1.holding 1 = some ⟨.S, 5⟩ ∧ heldS1.waiters = []) ∧
    (upgrading.wf = true ∧ upgrading.state = .transfer ∧ upgrading.holding 1 = some ⟨.S, 5⟩ ∧
      ∀ r ∈ upgrading.refs, r.place.host = 1 → r.marked = true) ∧
    (let e := recalledShared (wait 2 2 .X false) [wait 0 3 .S false] #v[false, true, false, true];
      e.wf = true ∧ e.holding 1 = some ⟨.S, 4⟩ ∧ (∀ r ∈ e.refs, r.place.host = 1 → r.marked = true) ∧
        ∃ k : HostId, k ≠ 1 ∧ (#v[false, true, false, true] : Vector Bool 4)[k] = true) ∧
    (let e := recalledShared (wait 1 2 .X true) [] #v[false, false, false, true];
      e.wf = true ∧ e.holding 1 = some ⟨.S, 4⟩ ∧
        ∃ k : HostId, k ≠ 1 ∧ (#v[false, false, false, true] : Vector Bool 4)[k] = true) ∧
    (let e := recalled .X false [];
      e.wf = true ∧ e.holding 1 = some ⟨.X, 7⟩ ∧ ∃ r ∈ e.recalling, r.wanted = .X) ∧
    let e := recalled .S false [wait 3 3 .X false]
    e.wf = true ∧ e.holding 1 = some ⟨.X, 7⟩ ∧ ∃ r ∈ e.recalling, r.wanted = .S := by
  refine ⟨fun e x h => telling_pagesOk e h x, telling_page, fun e gen =>
    ⟨telling_delivers _ _ rfl (by simp [Errand.concerns, Errand.owner]),
    telling_delivers _ _ rfl (by simp [Errand.concerns, Errand.owner])⟩, ?_⟩
  decide +kernel

/-- An exclusive head with a waiter behind; a run of shared waiters that an exclusive one ends; the last target of a
SHARED page, whose head is an upgrade; a stray write left. -/
theorem witness_LastReleaseGrantsTheHead :
    (∀ e x, e.wf = true → (telling e x).pagesOk) ∧ (∀ e x, (telling e x).page 255 = e) ∧
    (∀ e gen, (telling e (.release 255 gen)).delivers 1 (.entry 255) (pl 1 2) (.release 255 gen)) ∧
    (∀ k : HostId, k ≠ 1 → (#v[false, true, false, false] : Vector Bool 4)[k] = false) ∧
    (let e := recalled .X false [wait 3 3 .S false];
      e.wf = true ∧ e.holding 1 = some ⟨.X, 7⟩ ∧ (∀ r ∈ e.refs, r.place.host = 1 → r.marked = true) ∧
        e.recalling.map Recall.targets = some #v[false, true, false, false]) ∧
    (let e := recalled .S false [wait 3 3 .S false, wait 0 4 .X false];
      e.wf = true ∧ e.holding 1 = some ⟨.X, 7⟩ ∧ e.recalling.map Recall.targets = some #v[false, true, false, false]) ∧
    (let e := recalledShared (wait 3 2 .X true) [] #v[false, true, false, false];
      e.wf = true ∧ e.holding 1 = some ⟨.S, 4⟩ ∧ e.recalling.map Recall.targets = some #v[false, true, false, false]) ∧
    let e : Entry := { recalled .X false [] with inFlight := #v[none, some .write, none, none] }
    e.wf = true ∧ e.holding 1 = some ⟨.X, 7⟩ ∧ e.recalling.map Recall.targets = some #v[false, true, false, false] ∧
      ({ e with holdings := Vector.replicate 4 none } : Entry).hasStray = true := by
  refine ⟨fun e x h => telling_pagesOk e h x, telling_page, fun e gen =>
    telling_delivers _ _ rfl (by simp [Errand.concerns, Errand.owner]), ?_⟩
  decide +kernel

/-- The entry with every expiry delivered. -/
def allDue (e : Entry) : Entry := { e with waiters := e.waiters.map fun w => { w with due := true } }

theorem witness_WaiterDeparts :
    (∀ e x, e.wf = true → (telling e x).pagesOk) ∧ (∀ e x, (telling e x).page 255 = e) ∧
    (∀ e target, (telling e (.cancelRequest 255 target)).delivers 1 (.entry 255) (pl 1 2) (.cancelRequest 255 target)) ∧
    (∀ w ∈ heldX.waiters, w.place ≠ older 2 2 1) ∧
    (let e := allDue (recalled .X false [wait 3 3 .S false]);
      e.wf = true ∧ e.inUse = true ∧
        e.waiters = [{ wait 2 2 .X false with due := true }] ++ { wait 3 3 .S false with due := true } :: []) ∧
    (let e := allDue (recalled .S false []);
      e.wf = true ∧ e.inUse = true ∧ e.waiters = [] ++ { wait 2 2 .S false with due := true } :: [] ∧
        e.recalling =
          some { wanted := .S, requester := 2, targets := #v[false, true, false, false], deadline := 2000, due := false }) ∧
    (let e := allDue (recalledShared (wait 2 2 .X false) [wait 0 3 .S false] #v[false, true, false, true]);
      e.wf = true ∧ e.inUse = true ∧
        e.waiters = [] ++ { wait 2 2 .X false with due := true } :: [{ wait 0 3 .S false with due := true }] ∧
        e.recalling =
          some { wanted := .X, requester := 2, targets := #v[false, true, false, true], deadline := 2000, due := false }) ∧
    (let e := allDue (recalledShared (wait 2 2 .X false) [wait 0 3 .X false] #v[false, true, false, true]);
      e.wf = true ∧ e.inUse = true ∧
        e.waiters = [] ++ { wait 2 2 .X false with due := true } :: [{ wait 0 3 .X false with due := true }]) ∧
    let e := allDue (transfer [wait 2 2 .X false, wait 3 3 .S false] [2] false)
    e.wf = true ∧ e.state = .transfer ∧ e.grant = some { mode := .X, chosen := [2], left := false } ∧
      e.waiters = [] ++ { wait 2 2 .X false with due := true } :: [{ wait 3 3 .S false with due := true }] := by
  refine ⟨fun e x h => telling_pagesOk e h x, telling_page, fun e target =>
    telling_delivers _ _ rfl (by simp [Errand.concerns, Errand.owner]), ?_⟩
  decide +kernel

/-- A stray operation left, and none left with a waiter behind the head. -/
theorem witness_RecallDeadlineRevokes :
    (let s := base.setPage 255 (used (recalled .X true []));
      s.pagesOk ∧ (s.page 255).recalling =
          some { wanted := .X, requester := 2, targets := #v[false, true, false, false], deadline := 2000, due := true } ∧
        ({ s.page 255 with holdings := Vector.replicate 4 none } : Entry).hasStray = true) ∧
    let s := base.setPage 255 (recalled .X true [wait 3 3 .S false])
    s.pagesOk ∧ (s.page 255).recalling =
        some { wanted := .X, requester := 2, targets := #v[false, true, false, false], deadline := 2000, due := true } ∧
      (∀ k : HostId, (Vector.replicate 4 (none : Option Holding))[k] =
        if (#v[false, true, false, false] : Vector Bool 4)[k] then none else (s.page 255).holding k) ∧
      ({ s.page 255 with holdings := Vector.replicate 4 none } : Entry).hasStray = false := by
  refine ⟨⟨State.pagesOk_setPage base_pagesOk _ (by decide +kernel), by decide +kernel⟩,
    State.pagesOk_setPage base_pagesOk _ (by decide +kernel), by decide +kernel⟩

theorem witness_DrainEndMakesTheHeldBackGrant :
    (∀ e, e.wf = true → (base.setPage 255 e).pagesOk) ∧ (∀ e, (base.setPage 255 e).page 255 = e) ∧
    (let e := withStray (transfer [wait 2 2 .X false] [2] false);
      e.wf = true ∧ e.state = .transfer ∧ e.grant = some { mode := .X, chosen := [2], left := false } ∧
        e.hasStray = true) ∧
    (let e := transfer [wait 2 2 .X false] [2] false;
      e.wf = true ∧ e.state = .transfer ∧ e.grant = some { mode := .X, chosen := [2], left := false } ∧
        e.hasStray = false ∧ (e.waiters.map fun w => w.place.host) = [2]) ∧
    (let e := transfer [wait 2 2 .X false, wait 3 3 .S false] [2] false;
      e.wf = true ∧ e.hasStray = false ∧ e.waiters = [wait 2 2 .X false] ++ [wait 3 3 .S false] ∧
        ([wait 2 2 .X false].map fun w => w.place.host) = [2]) ∧
    (let e := transfer [wait 3 3 .S false] [] true;
      e.wf = true ∧ e.grant = some { mode := .X, chosen := [], left := true } ∧ e.hasStray = false ∧ e.waiters ≠ []) ∧
    let e := transfer [] [] true
    e.wf = true ∧ e.state = .transfer ∧ e.grant = some { mode := .X, chosen := [], left := true } ∧
      e.hasStray = false ∧ e.waiters = [] := by
  refine ⟨fun e h => State.pagesOk_setPage base_pagesOk _ h, fun e => by simp, ?_⟩
  decide +kernel

theorem witness_QueryAnswersTheEntry :
    (telling (recalled .S false []) (.query 255)).delivers 1 (.entry 255) (pl 1 2) (.query 255) :=
  telling_delivers _ _ rfl (by simp [Errand.concerns, Errand.owner])

/-! ## Witnesses: manager functions -/

theorem witness_RetireTakesOnlyFreePages :
    (∀ e, (telling e (.retire 255)).delivers 1 (.entry 255) (pl 1 2) (.retire 255) ∧
      (telling e (.retire 255)).page 255 = e) ∧
    Entry.reset.state = .free ∧ ({ Entry.reset with state := .retired } : Entry).state = .retired ∧
      heldX.state ≠ .free ∧ heldX.state ≠ .retired := by
  refine ⟨fun e => ⟨telling_delivers _ _ rfl (by simp [Errand.concerns, Errand.owner]), telling_page _ _⟩, ?_⟩
  decide +kernel

/-- With nothing in transit a host's first command for the engine is the one of the least number. -/
theorem first_of_no_transit {s : State} {p : Place} (h : s.transit = [])
    (k : ((s.engine.arriving ++ s.engine.scrubs).all fun j => j.place.host ≠ p.host || p.seq ≤ j.place.seq) = true) :
    s.firstForEngine p := by
  refine ⟨by simp [h], fun j hj e => ?_⟩
  have := List.all_eq_true.1 k j hj
  simpa [e] using this

/-- A scrub on its way to an engine queue of a length, before or behind another scrub of its host. -/
def scrubbing (n : Nat) (other : Nat) : State :=
  { base with
    engine :=
      { Engine.reset with
        queue := (List.range n).map fun k => Job.fresh (older 2 k 8) (.fill 0) 0
        scrubs := [Job.fresh (older 1 other 12) .scrub 0, Job.fresh (older 1 5 12) .scrub 255] } }

theorem witness_RestoreRunsAScrub :
    (∀ e, (telling e (.restore 255)).delivers 1 (.entry 255) (pl 1 2) (.restore 255) ∧
      (telling e (.restore 255)).page 255 = e) ∧
    (({ Entry.reset with state := .retired } : Entry).state = .retired ∧ Entry.reset.state ≠ .retired) ∧
    (∀ n, (scrubbing n 9).engine.scrubs =
      [Job.fresh (older 1 9 12) .scrub 0] ++ Job.fresh (older 1 5 12) .scrub 255 :: []) ∧
    (∀ k ∈ [Job.fresh (older 1 9 12) .scrub 0], k.target ≠ 255) ∧
    ((scrubbing 7 9).firstForEngine (older 1 5 12) ∧ (scrubbing 7 9).engine.queue.length < 8) ∧
    ((scrubbing 8 9).firstForEngine (older 1 5 12) ∧ 8 ≤ (scrubbing 8 9).engine.queue.length) ∧
    (∀ j ∈ (scrubbing 0 4).engine.scrubs, j.target = 255 → ¬(scrubbing 0 4).firstForEngine j.place) ∧
    let s : State :=
      { base.setPage 255 { Entry.reset with state := .scrub } with
        engine := { Engine.reset with refusals := [Job.fresh (pl 1 12) .scrub 255] } }
    (s.engine.refusals.find? fun k => k.target = 255) = some (Job.fresh (pl 1 12) .scrub 255) ∧
      (s.page 255).state = .scrub := by
  refine ⟨fun e => ⟨telling_delivers _ _ rfl (by simp [Errand.concerns, Errand.owner]), telling_page _ _⟩,
    by decide +kernel, fun _ => rfl, by simp [Job.fresh],
    ⟨first_of_no_transit rfl (by decide +kernel), by decide +kernel⟩,
    ⟨first_of_no_transit rfl (by decide +kernel), by decide +kernel⟩, ?_, by decide +kernel⟩
  intro j hj ht h
  simp only [scrubbing, List.mem_cons, List.not_mem_nil, or_false] at hj
  obtain rfl | rfl := hj
  · exact absurd ht (by decide)
  · exact absurd (h.2 (Job.fresh (older 1 4 12) .scrub 0) (by simp [scrubbing, Engine.reset]) rfl) (by decide)

/-- A setting command of host 0; host 1 counts one holding. -/
def setting (x : Errand) : State := sent (base.setPage 255 heldX) (pl 0 13) x

theorem witness_ManagerSettingsTakeTheirCommands :
    ((setting (.setQuota 1 1)).delivers 0 .settings (pl 0 13) (.setQuota 1 1) ∧
      (setting (.setQuota 1 1)).quotaCount 1 ≤ 1) ∧
    ((setting (.setQuota 1 0)).delivers 0 .settings (pl 0 13) (.setQuota 1 0) ∧
      0 < (setting (.setQuota 1 0)).quotaCount 1) ∧
    (setting (.setRecallLimit 0xFFFF)).delivers 0 .settings (pl 0 13) (.setRecallLimit 0xFFFF) := by
  unfold State.delivers; decide +kernel

theorem witness_EndedSessionsCommandsAreDiscarded :
    let s : State := { base with transit := [⟨pl 1 7, .copyDestination 0 255⟩] }
    let u : State := { base with transit := [⟨pl 1 6, .flush 127 1⟩] }
    (s.arrival 1 (Errand.copyDestination 0 255).owner = some ⟨pl 1 7, .copyDestination 0 255⟩ ∧
      (s.port 1).session ≠ some (pl 1 7).session) ∧
    u.arrival 1 (Errand.flush 127 1).owner = some ⟨pl 1 6, .flush 127 1⟩ ∧ (u.port 1).session ≠ some (pl 1 6).session ∧
      ∀ a b, Errand.flush 127 1 ≠ .copyDestination a b := by
  refine ⟨by decide +kernel, by decide +kernel, by decide +kernel, fun _ _ => by simp⟩

/-! ## Witnesses: the window access path and the page store -/

/-- An ATTACHED port with eight cached slots, 0 to 7 for pages 0 to 7, the most recently used first. -/
def cached : PortGroup := { on with cache := (List.range 8).map fun k => (Fin.ofNat 128 k, Fin.ofNat 256 k) }

/-- A port with a slot bound to page 255. -/
def bind (g : PortGroup) (slot : SlotId) : PortGroup := { g with map := g.map.set slot.val (some 255) slot.isLt }

theorem bind_map (g : PortGroup) (slot : SlotId) : (bind g slot).map[slot] = some 255 := by simp [bind]

/-- A cache without an entry of a slot. -/
theorem notCached {g : PortGroup} {slot : SlotId} (h : (g.cache.any fun c => c.1 = slot) = false) :
    ∀ c ∈ g.cache, c.1 ≠ slot := by simpa using h

theorem on_map (slot : SlotId) : on.map[slot] = none := by simp [on, PortGroup.reset]

theorem witness_WindowAccessTranslates :
    (base.accepts 1 = true ∧ decodeAddress 0x3FFFC = .window 127 255 ∧ (base.port 1).phase ≠ .attached) ∧
    (∀ g : PortGroup, (base.setPort 1 g).port 1 = g) ∧
    ((base.setPort 1 cached).accepts 1 = true ∧ decodeAddress 0x21C00 = .window 7 0 ∧ cached.phase = .attached ∧
      cached.cache = ((List.range 7).map fun k => (Fin.ofNat 128 k, Fin.ofNat 256 k)) ++ (7, 7) :: []) ∧
    ((base.setPort 1 (bind cached 127)).accepts 1 = true ∧ (bind cached 127).phase = .attached ∧
      (∀ c ∈ (bind cached 127).cache, c.1 ≠ 127) ∧ (bind cached 127).map[(127 : SlotId)] = some 255) ∧
    (base.setPort 1 on).accepts 1 = true ∧ on.phase = .attached ∧ (∀ c ∈ on.cache, c.1 ≠ 127) ∧
      on.map[(127 : SlotId)] = none :=
  ⟨by decide +kernel, fun g => by simp, by decide +kernel,
    ⟨by decide +kernel, by decide +kernel, notCached (by decide +kernel), bind_map cached 127⟩, by decide +kernel,
    by decide +kernel, notCached (by decide +kernel), on_map 127⟩

theorem witness_WindowAccessTranslates_portsOk : (base.setPort 1 cached).portsOk :=
  State.portsOk_setPort base_portsOk 1 (by decide +kernel) (by decide +kernel)

/-- A translated access of port 1 to page 255. -/
def checking (e : Entry) (d : Dir) : State :=
  (base.setPage 255 e).setPort 1
    { on with access := some { slot := 127, word := 255, page := 255, dir := d, enables := 0xF, data := some 1 } }

theorem witness_AccessCheckDecides :
    (∀ e d, ((checking e d).port 1).access =
        some { slot := 127, word := 255, page := 255, dir := d, enables := 0xF, data := some 1 } ∧
      (checking e d).page 255 = e) ∧
    (entry .scrub 1 (Vector.replicate 4 none) []).state = .scrub ∧
    (heldS.state = .shared ∧ heldS.mode 1 = none) ∧ (heldS1.state = .shared ∧ heldS1.mode 1 = some .S) ∧
    heldX.state = .exclusive ∧ heldX.mode 1 = some .X := by
  refine ⟨fun e d => by simp [checking, State.page, State.port, State.setPage, State.setPort], ?_⟩
  decide +kernel

theorem witness_OutOfRangeAccessFaults :
    (decodeAddress 0x1FFFC = .neither ∧ decodeAddress 0x000E0 = .undefinedOffset ∧ base.accepts 1 = true ∧
      (base.port 1).phase ≠ .attached) ∧
    (base.setPort 1 on).accepts 1 = true ∧
    (let g : PortGroup := { on with overflow := true }; g.phase = .attached ∧ g.overflow = true) ∧
    (let g : PortGroup := { on with faults := [] ++ [⟨.range, none, none, .write, 255⟩] };
      g.phase = .attached ∧ g.overflow = false ∧ g.faults = [] ++ [⟨.range, none, none, .write, 255⟩]) ∧
    (let g : PortGroup := { on with faults := List.replicate 3 ⟨.range, none, none, .write, 1⟩ };
      g.overflow = false ∧ g.faults.length < 4 ∧ ∀ r ∈ g.faults.getLast?, r.dir ≠ .read) ∧
    let g : PortGroup := { on with faults := List.replicate 4 ⟨.unmapped, some 0, none, .read, 1⟩ }
    g.overflow = false ∧ 4 ≤ g.faults.length ∧ ∀ r ∈ g.faults.getLast?, r.kind ≠ .range := by
  decide +kernel

/-- Counts of 8 and of 9, the last of them ending at slot 127, and a slot bound but not cached. -/
theorem witness_FlushInvalidatesItsScope :
    (((ringed false [desc 0x06 127 1 0]).port 2).ringState = .running ∧
      ((ringed false [desc 0x06 127 1 0]).port 2).ring = desc 0x06 127 1 0 :: [] ∧
      (desc 0x06 127 1 0).asks (.flush 127 1)) ∧
    (∀ count, (sent base (pl 1 6) (.flush 119 count)).delivers 1 .path (pl 1 6) (.flush 119 count)) ∧
    ((119 ≤ 127 ∧ 1 ≤ 8 ∧ 119 + 8 ≤ 128) ∧ 1 ≤ 9 ∧ 119 + 9 ≤ 128) ∧
    (∀ c ∈ ([] : List (SlotId × PageId)), c.1 ≠ 127) ∧
      (bind on 127).map[(127 : SlotId)] = some 255 := by
  refine ⟨by simp only [Descriptor.asks]; decide +kernel, fun count => ⟨rfl, ?_⟩, by decide +kernel, by simp,
    bind_map on 127⟩
  simp [sent, State.port, State.setPort, PortGroup.hasPlace, PortGroup.session, on, pl]

theorem witness_ArbiterServesInCyclicOrder :
    (∃ op, op ∈ ({ Arbiter.reset with performing := some (engineRead 0 0) } : Arbiter).performing) ∧
    ({ Arbiter.reset with requests := [engineRead 0 0, (access .read false).request 3] } : Arbiter).performing = none ∧
    ({ Arbiter.reset with requests := [engineRead 0 0, (access .read false).request 3] } : Arbiter).requests ≠ [] ∧
    Arbiter.reset.performing = none ∧ Arbiter.reset.requests = [] :=
  ⟨⟨_, rfl⟩, by decide +kernel⟩

theorem witness_HostWriteEnds :
    let s := accessing on (access .write false) true
    s.storeOk ∧ s.arbiter.performing = some ((access .write false).request 1) ∧
      (s.port 1).inFlight = some (access .write false) ∧ (access .write false).dir = .write ∧
      (access .write false).data = some 0x12345678 :=
  ⟨rfl, by decide +kernel⟩

/-- A sound word; a mismatch on a page in use; and a mismatch of an abandoned access on a RETIRED page. -/
theorem witness_HostReadEnds :
    (let s := accessing on (access .read false) true;
      s.arbiter.performing = some ((access .read false).request 1) ∧
        (s.port 1).inFlight = some (access .read false) ∧ (access .read false).dir = .read ∧
        ∀ b : ByteIdx, s.store.mismatched (byteAddress 255 255 b) = false) ∧
    (let s := { accessing on (access .read false) true with store := ⟨[], [262143]⟩ };
      s.arbiter.performing = some ((access .read false).request 1) ∧
        (s.port 1).inFlight = some (access .read false) ∧ (s.page 255).state = .exclusive ∧
        ∃ b : ByteIdx, s.store.mismatched (byteAddress 255 255 b) = true) ∧
    let s :=
      { (accessing off (access .read true) true).setPage 255 { Entry.reset with
          state := .retired, inFlight := #v[none, some .read, none, none] } with store := ⟨[], [262143]⟩ }
    s.arbiter.performing = some ((access .read true).request 1) ∧ (s.port 1).inFlight = some (access .read true) ∧
      (s.page 255).state = .retired ∧ ∃ b : ByteIdx, s.store.mismatched (byteAddress 255 255 b) = true := by
  decide +kernel

/-! ## Witnesses: the page engine -/

theorem witness_HoldingChecksOfJobs :
    (∀ e x, x.owner = .entry 255 → x.concerns (.entry 255) = true →
      (telling e x).delivers 1 (.entry 255) (pl 1 2) x ∧ (telling e x).page 255 = e) ∧
    ((Errand.fill 255 1).owner = .entry 255 ∧ (Errand.checksum 255).owner = .entry 255 ∧
      (Errand.copySource 255 0).owner = .entry 255 ∧ (Errand.copyDestination 0 255).owner = .entry 255 ∧
      (Errand.fill 255 1).concerns (.entry 255) = true ∧ (Errand.checksum 255).concerns (.entry 255) = true ∧
      (Errand.copySource 255 0).concerns (.entry 255) = true ∧
      (Errand.copyDestination 0 255).concerns (.entry 255) = true) ∧
    (heldX.mode 1 = some .X ∧ heldS1.mode 1 = some .S ∧ heldS.mode 1 = none ∧ ∀ r ∈ heldS.refs, r.place ≠ pl 1 2) ∧
    (0 : PageId) ≠ 255 := by
  refine ⟨fun e x h k => ⟨telling_delivers e x h k, telling_page e x⟩, by decide +kernel⟩

/-- A job of host 1 on its way to an engine queue of a length, behind one of its host dispatched later, its reference on
page 255 marked or not. -/
def arriving (j : Job) (g : PortGroup) (n : Nat) (marked : Bool) : State :=
  { (base.setPage 255
      { heldX with refs := [{ place := j.place, need := some .X, running := false, marked := marked }] }).setPort 1 g with
    engine :=
      { Engine.reset with
        queue := (List.range n).map fun k => Job.fresh (older 2 k 8) (.fill 0) 0
        arriving := [Job.fresh (older 1 8 8) (.fill 0) 0, j] } }

/-- R75: of two checked jobs of one host the engine can take the one dispatched first, though it was checked last. -/
theorem test_engine_takes_dispatch_order : (arriving fillJob on 0 false).engineArrival 1 = some fillJob := by
  decide +kernel

/-- The FILL and a COPY of host 1; an ended session; a job that must wait for an older one in transit. -/
theorem witness_JobsAreQueuedAndStarted :
    (∀ j g n marked, (arriving j g n marked).engine.arriving = [Job.fresh (older 1 8 8) (.fill 0) 0] ++ j :: []) ∧
    (∀ n marked, (arriving fillJob on n marked).firstForEngine (older 1 2 8) ∧
      (arriving (Job.fresh (older 1 3 7) (.copy 0) 255) on n marked).firstForEngine (older 1 3 7) ∧
      (arriving fillJob off n marked).firstForEngine (older 1 2 8)) ∧
    (∀ k ∈ [Job.fresh (older 1 8 8) (.fill 0) 0], k.place.host = 1 → fillJob.place.seq < k.place.seq) ∧
    fillJob.work ≠ .scrub ∧
    (((arriving fillJob on 7 false).port 1).session = some fillJob.place.session ∧
      (∀ p ∈ fillJob.pages, ∀ r ∈ ((arriving fillJob on 7 false).page p).refs, r.place = fillJob.place →
        r.marked = false) ∧
      (arriving fillJob on 7 false).engine.queue.length < 8 ∧ 8 ≤ (arriving fillJob on 8 false).engine.queue.length) ∧
    (∃ p ∈ fillJob.pages, ∃ r ∈ ((arriving fillJob on 8 true).page p).refs, r.place = fillJob.place ∧ r.marked = true) ∧
    ((arriving fillJob off 0 false).port 1).session ≠ some fillJob.place.session ∧
    (∀ j ∈ ({ arriving fillJob on 0 false with transit := [⟨older 1 1 9, .checksum 7⟩] } : State).engine.arriving,
      j.place.host = 1 →
        ¬({ arriving fillJob on 0 false with transit := [⟨older 1 1 9, .checksum 7⟩] } : State).firstForEngine j.place) ∧
    (∀ k ∈ [fillJob], k.running = false) ∧ fillJob.marked = false ∧
      ({ fillJob with marked := true } : Job).marked = true := by
  refine ⟨fun _ _ _ _ => rfl, fun n marked => ⟨first_of_no_transit rfl ?_, first_of_no_transit rfl ?_,
    first_of_no_transit rfl ?_⟩, by decide +kernel, by decide +kernel, by decide +kernel, by decide +kernel,
    by decide +kernel, ?_, by decide +kernel⟩
  · rfl
  · rfl
  · rfl
  · intro j hj _ h
    have hlt : 1 < j.place.seq := by
      simp only [arriving, List.mem_cons, List.not_mem_nil, or_false] at hj
      obtain rfl | rfl := hj <;> decide
    refine (h.1 ⟨older 1 1 9, .checksum 7⟩ (by simp) ?_ hlt 7 0 0).2.2.2.1 rfl
    simp only [arriving, List.mem_cons, List.not_mem_nil, or_false] at hj
    obtain rfl | rfl := hj <;> rfl

/-- The abort event of a job in an engine queue. -/
def aborting (j : Job) (op : Option WordOp) (job : Place) : State :=
  { base with
    engine := { Engine.reset with queue := [j], abortEvents := [older 3 1 7, job] }
    arbiter := { Arbiter.reset with performing := op } }

theorem witness_AbortEventStopsTheJob :
    (∀ j op job, (aborting j op job).engine.abortEvents[1]? = some job) ∧
    (∀ j ∈ (aborting fillJob none (older 1 8 8)).engine.queue, j.place ≠ older 1 8 8) ∧
    ((aborting fillJob none (older 1 2 8)).jobsOk ∧ fillJob.place = older 1 2 8 ∧ fillJob.running = false ∧
      fillJob.isScrub = false) ∧
    ((aborting (runningAt fillJob 3) none (older 1 2 8)).jobsOk ∧ (runningAt fillJob 3).running = true ∧
      ∀ op ∈ (aborting (runningAt fillJob 3) none (older 1 2 8)).arbiter.performing, op.requester ≠ .engine) ∧
    (aborting (runningAt fillJob 3) (some (runningAt fillJob 3).request) (older 1 2 8)).jobsOk ∧
      ∃ op ∈ (aborting (runningAt fillJob 3) (some (runningAt fillJob 3).request) (older 1 2 8)).arbiter.performing,
        op.requester = .engine := by
  refine ⟨fun _ _ _ => rfl, by decide +kernel, ?_⟩
  unfold State.jobsOk
  decide +kernel

/-- A COPY and a CHECKSUM of host 1. -/
def copyJob : Job := Job.fresh (older 1 3 7) (.copy 0) 255
def checkJob : Job := Job.fresh (older 1 4 9) (.checksum 0xFFFF) 255

/-- The scrub of a RESTORE of host 1. -/
def scrubJob : Job := Job.fresh (older 1 5 12) .scrub 255

theorem witness_EngineWordEnds :
    (∀ j progress js, (performingJob (runningAt j progress) js).engine.queue = runningAt j progress :: js ∧
      (runningAt j progress).running = true ∧
      (performingJob (runningAt j progress) js).arbiter.performing = some (runningAt j progress).request) ∧
    ((performingJob (runningAt fillJob 254) []).jobsOk ∧ (runningAt fillJob 254).request.dir = .write ∧
      (runningAt fillJob 254).stopping = false ∧ (runningAt fillJob 254).progress < 255) ∧
    ((performingJob (runningAt copyJob 255) []).jobsOk ∧ (runningAt copyJob 255).work = .copy 0 ∧
      (runningAt copyJob 255).held = none ∧ (runningAt copyJob 255).stopping = false ∧
      base.store.wordMismatched 0 (runningAt copyJob 255).nextWord = false) ∧
    ((performingJob (runningAt checkJob 254) []).jobsOk ∧ (runningAt checkJob 254).work = .checksum 0xFFFF ∧
      (runningAt checkJob 254).progress < 255 ∧ base.store.wordMismatched 255 (runningAt checkJob 254).nextWord = false) ∧
    ((performingJob (runningAt fillJob 255) []).jobsOk ∧ (runningAt fillJob 255).request.dir = .write ∧
      (runningAt fillJob 255).progress = 255) ∧
    ((performingJob (runningAt scrubJob 255) [copyJob, checkJob]).jobsOk ∧ copyJob.marked = false ∧
      (runningAt scrubJob 255).request.dir = .write ∧ (runningAt scrubJob 255).work = .scrub) ∧
    ((performingJob (runningAt checkJob 255) [fillJob]).jobsOk ∧ fillJob.marked = false ∧
      (runningAt checkJob 255).request.dir = .read ∧
      base.store.wordMismatched 255 (runningAt checkJob 255).nextWord = false) ∧
    (performingJob { runningAt copyJob 0 with stopping := true } [fillJob]).jobsOk ∧
      ({ runningAt copyJob 0 with stopping := true } : Job).request.dir = .read ∧
      base.store.wordMismatched 0 ({ runningAt copyJob 0 with stopping := true } : Job).nextWord = false := by
  refine ⟨fun _ _ _ => ⟨rfl, rfl, rfl⟩, ?_⟩
  unfold State.jobsOk
  decide +kernel

/-- A CHECKSUM on a page in use, and a COPY whose source was RETIRED while it ran. -/
theorem witness_EngineReadMeetsAMismatch :
    (let s := { (performingJob (runningAt checkJob 255) []).setPage 255 heldX with store := ⟨[], [262143]⟩ };
      s.jobsOk ∧ s.engine.queue = [runningAt checkJob 255] ∧
        s.arbiter.performing = some (runningAt checkJob 255).request ∧ (runningAt checkJob 255).request.dir = .read ∧
        (runningAt checkJob 255).request.page = 255 ∧ (s.page 255).state = .exclusive ∧
        s.store.wordMismatched 255 (runningAt checkJob 255).nextWord = true) ∧
    let s :=
      { (performingJob (runningAt copyJob 0) []).setPage 0 { Entry.reset with state := .retired } with
        store := ⟨[], [2]⟩ }
    s.jobsOk ∧ s.engine.queue = [runningAt copyJob 0] ∧ s.arbiter.performing = some (runningAt copyJob 0).request ∧
      (runningAt copyJob 0).request.dir = .read ∧ (runningAt copyJob 0).request.page = 0 ∧
      (s.page 0).state = .retired ∧ s.store.wordMismatched 0 (runningAt copyJob 0).nextWord = true := by
  unfold State.jobsOk
  decide +kernel

/-! ## Witnesses: what every step keeps -/

/-- The state with one waiting command. -/
def doing (s : State) (c : Instr) : State := { s with pending := [c] }

theorem witness_PagesStayWellFormed :
    (doing (asking heldS .X 65535) (.acquire 1 255)).pagesOk ∧
      ∃ t, step (doing (asking heldS .X 65535) (.acquire 1 255)) = .next t :=
  ⟨asking_pagesOk heldS (by decide +kernel) .X 65535, _, rfl⟩

theorem witness_PortsStayWithinBounds :
    (doing (ringed false [desc 0x05 0 0 0]) (.fence 2)).portsOk ∧
      ∃ t, step (doing (ringed false [desc 0x05 0 0 0]) (.fence 2)) = .next t :=
  ⟨ringed_portsOk _, _, rfl⟩

theorem witness_QuotaAndPoolNeverExceeded :
    (doing (tight (asking heldS .X 1) 1 false) (.acquire 1 255)).resourcesOk ∧
      ∃ t, step (doing (tight (asking heldS .X 1) 1 false) (.acquire 1 255)) = .next t := by
  refine ⟨?_, _, rfl⟩
  unfold State.resourcesOk
  decide +kernel

theorem witness_ArrayStaysCanonical :
    (doing (accessing on (access .write false) true) .wordOperationEnd).storeOk ∧
      ∃ t, step (doing (accessing on (access .write false) true) .wordOperationEnd) = .next t :=
  ⟨rfl, _, rfl⟩

theorem witness_EngineQueueStaysInOrder :
    (doing (arriving fillJob on 7 false) (.jobQueueing 1)).jobsOk ∧
      ∃ t, step (doing (arriving fillJob on 7 false) (.jobQueueing 1)) = .next t := by
  refine ⟨?_, _, rfl⟩
  unfold State.jobsOk
  decide +kernel

/-- Port 1 performing a write to page 255. -/
def writing : State := accessing on (access .write false) true

theorem writing_port (n : HostId) :
    writing.port n = if n = 1 then { on with inFlight := some (access .write false) } else PortGroup.reset := by
  have h : (base.setPage 255 { heldX with inFlight := #v[none, some .write, none, none] }).port n = PortGroup.reset :=
    State.port_reset n
  rw [← h]
  exact State.port_setPort _ 1 n _

theorem writing_page (p : PageId) :
    writing.page p = if p = 255 then { heldX with inFlight := #v[none, some .write, none, none] } else Entry.reset := by
  have h : base.page p = Entry.reset := State.page_reset p
  rw [← h]
  exact State.page_setPage base 255 p _

theorem writing_portsOk : writing.portsOk := by
  intro n
  rw [writing_port]
  split
  · exact ⟨PortGroup.wf_of_attached rfl (by decide +kernel), by simp [PortGroup.placesOk, on, PortGroup.reset]⟩
  · exact ⟨PortGroup.reset_wf, PortGroup.reset_placesOk n _⟩

theorem writing_requestsOk : writing.requestsOk := by
  refine ⟨fun r => ?_, fun n p => ?_, fun n => ?_⟩
  · cases r with
    | port h => revert h; decide +kernel
    | engine => decide +kernel
  · rw [writing_port, writing_page]
    by_cases hp : p = 255
    · subst hp
      revert n
      decide +kernel
    · have hp' : ¬(255 : PageId) = p := fun h => hp h.symm
      rw [if_neg hp]
      by_cases hn : n = 1
      · subst hn
        simp [access, Entry.reset, hp']
      · simp [hn, PortGroup.reset, Entry.reset]
  · rw [writing_port]
    revert n
    decide +kernel

theorem witness_StoreRequestsMatchTheirOwners :
    (doing writing .wordOperationEnd).portsOk ∧ (doing writing .wordOperationEnd).jobsOk ∧
      (doing writing .wordOperationEnd).requestsOk ∧ ∃ t, step (doing writing .wordOperationEnd) = .next t :=
  ⟨writing_portsOk, by unfold State.jobsOk; decide +kernel, writing_requestsOk, _, rfl⟩

theorem witness_NoGrantWhileStray :
    (base.setPage 255 (withStray (transfer [wait 2 2 .X false] [2] false))).page 255 =
        withStray (transfer [wait 2 2 .X false] [2] false) ∧
      (withStray (transfer [wait 2 2 .X false] [2] false)).hasStray = true ∧
      (∃ t, exec (.drainEnd 255) (base.setPage 255 (withStray (transfer [wait 2 2 .X false] [2] false))) = .next t) ∧
      Instr.drainEnd 255 ≠ .deviceResetAssert ∧ ∀ straps, Instr.drainEnd 255 ≠ .deviceResetNegate straps := by
  refine ⟨by simp, by decide +kernel, ⟨_, rfl⟩, by simp, by simp⟩

end Sys2Proof.Tests
end

