-- ==== Sys2Proof/Proofs/Hosts.lean ====
section
/-!
SUPPORT. The page ownership table, part one: what the Boolean readings of an entry say of its holdings, and the parts of
a well-formed entry in the form in which the proofs use them.
-/

namespace Sys2Proof.Machine

open Sys2Proof

/-! ## Hosts -/

@[simp] theorem mem_hostIds (h : HostId) : h ∈ hostIds := by revert h; decide

@[simp] theorem hostVector_getElem (k : HostId) : (#v[(0 : HostId), 1, 2, 3])[k.val] = k := by revert k; decide

theorem all_hostIds (p : HostId → Bool) : hostIds.all p = true ↔ ∀ h, p h = true := by simp [List.all_eq_true]

theorem any_hostIds (p : HostId → Bool) : hostIds.any p = true ↔ ∃ h, p h = true := by simp [List.any_eq_true]

/-! ## What an entry reads of its holdings -/

theorem Entry.holds_eq (e : Entry) (h : HostId) : e.holds h = (e.holding h).isSome := rfl

theorem Entry.holdsX_iff (e : Entry) (h : HostId) : e.holdsX h = true ↔ e.mode h = some .X := by
  simp [Entry.holdsX]

theorem Entry.holdsS_iff (e : Entry) (h : HostId) : e.holdsS h = true ↔ e.mode h = some .S := by
  simp [Entry.holdsS]

theorem Entry.holds_iff (e : Entry) (h : HostId) : e.holds h = true ↔ e.mode h ≠ none := by
  simp [Entry.holds, Entry.mode, Option.isSome_iff_ne_none]

theorem Entry.not_holds_iff (e : Entry) (h : HostId) : e.holds h = false ↔ e.mode h = none := by
  simp [Entry.holds, Entry.mode]

theorem Entry.holds_iff_mode (e : Entry) (h : HostId) :
    e.holds h = true ↔ e.holdsX h = true ∨ e.holdsS h = true := by
  rw [Entry.holds_iff, Entry.holdsX_iff, Entry.holdsS_iff]
  rcases e.mode h with _ | m
  · simp
  · cases m <;> simp

theorem Entry.holds_of_holdsX {e : Entry} {h : HostId} (x : e.holdsX h = true) : e.holds h = true :=
  (e.holds_iff_mode h).2 (.inl x)

theorem Entry.holds_of_holdsS {e : Entry} {h : HostId} (x : e.holdsS h = true) : e.holds h = true :=
  (e.holds_iff_mode h).2 (.inr x)

theorem Entry.not_holdsX_of_holdsS {e : Entry} {h : HostId} (x : e.holdsS h = true) : e.holdsX h = false := by
  rw [Entry.holdsS_iff] at x
  simp [Entry.holdsX, x]

theorem Entry.unheld_iff (e : Entry) : e.unheld = true ↔ ∀ h, e.holds h = false := by
  simp [Entry.unheld]

theorem Entry.unheld_eq_false_iff (e : Entry) : e.unheld = false ↔ ∃ h, e.holds h = true := by
  simp [Entry.unheld]

theorem Entry.exclusivelyHeld_iff (e : Entry) : e.exclusivelyHeld = true ↔ ∃ h, e.holdsX h = true := by
  simp [Entry.exclusivelyHeld]

theorem Entry.exclusivelyHeld_eq_false_iff (e : Entry) : e.exclusivelyHeld = false ↔ ∀ h, e.holdsX h = false := by
  simp [Entry.exclusivelyHeld]

theorem Entry.onlyHolder_iff (e : Entry) (h : HostId) : e.onlyHolder h = true ↔ ∀ k, e.holds k = true ↔ k = h := by
  simp only [Entry.onlyHolder, all_hostIds, decide_eq_true_eq, eq_iff_iff]

theorem Entry.inUse_iff (e : Entry) : e.inUse = true ↔ e.state = .exclusive ∨ e.state = .shared := by
  simp [Entry.inUse]

theorem Entry.hasWaiter_iff (e : Entry) (h : HostId) : e.hasWaiter h = true ↔ h ∈ e.waitingHosts := by
  simp [Entry.hasWaiter, Entry.waitingHosts]

/-- A reading of the holdings is the same for two entries with the same holdings. -/
theorem Entry.holding_congr {e f : Entry} (h : f.holdings = e.holdings) : f.holding = e.holding := by
  funext k; simp [Entry.holding, h]

/-! ## The state that the holdings give -/

theorem Entry.stateOfHoldings_of_exclusive {e : Entry} (h : e.exclusivelyHeld = true) : e.stateOfHoldings = .exclusive := by
  simp [Entry.stateOfHoldings, h]

theorem Entry.stateOfHoldings_of_unheld {e : Entry} (h : e.unheld = true) : e.stateOfHoldings = .free := by
  have : e.exclusivelyHeld = false := by
    rw [Entry.exclusivelyHeld_eq_false_iff]
    intro k
    have := (e.unheld_iff).1 h k
    by_contra hx
    simp [Entry.holds_of_holdsX (Bool.not_eq_false _ ▸ hx)] at this
  simp [Entry.stateOfHoldings, h, this]

theorem Entry.stateOfHoldings_of_shared {e : Entry} (h : e.exclusivelyHeld = false) (u : e.unheld = false) :
    e.stateOfHoldings = .shared := by
  simp [Entry.stateOfHoldings, h, u]

end Sys2Proof.Machine
end

