-- ==== Sys2Proof/Proofs/WellFormedEntry.lean ====
section
/-!
SUPPORT. The page ownership table, part two: the well-formedness of an entry taken apart. What holds in every page state
is `Entry.Sound`; a recall that runs is right for the head by `Entry.RecallsForHead`; the rest goes by the state (R14).
-/

namespace Sys2Proof.Machine

open Sys2Proof

/-- What a well-formed entry keeps in every state: a host that holds X holds alone (R2), a host has one waiter (R6), a
waiter upgrades exactly if its host holds, and then holds S and wants X (R5), and no access in flight goes against an X
holding or beside a write (R12, R97). -/
structure Entry.Sound (e : Entry) : Prop where
  sole : ∀ h k, e.holdsX h = true → e.holds k = true → k = h
  nodup : e.waitingHosts.Nodup
  upgrades : ∀ w ∈ e.waiters, w.upgrade = true → w.mode = .X ∧ e.holdsS w.place.host = true
  enters : ∀ w ∈ e.waiters, w.upgrade = false → e.holds w.place.host = false
  besideX : ∀ h k : HostId, e.holdsX h = true → k ≠ h → e.inFlight[k] = none
  besideWrite : ∀ h k : HostId, e.inFlight[h] = some .write → k ≠ h → e.holds k = false

/-- The recall that runs, if any, is one for the head waiter, and its targets are the holders that block it (R42, R43). -/
def Entry.RecallsForHead (e : Entry) : Prop :=
  ∀ r ∈ e.recalling, ∃ w ws, e.waiters = w :: ws ∧ r.wanted = w.mode ∧ r.requester = w.place.host ∧
    r.targets = e.recallTargets w ∧ ∃ h : HostId, r.targets[h] = true

/-- Soundness reads the holdings, the waiters and the in-flight set alone. -/
theorem Entry.Sound.congr {e f : Entry} (s : e.Sound) (h : f.holdings = e.holdings) (w : f.waiters = e.waiters)
    (i : f.inFlight = e.inFlight) : f.Sound := by
  cases e; cases f
  cases h; cases w; cases i
  exact ⟨s.sole, s.nodup, s.upgrades, s.enters, s.besideX, s.besideWrite⟩

/-! ## The parts of a well-formed entry -/

theorem Entry.waitersOk_iff (e : Entry) :
    e.waitersOk = true ↔ e.waitingHosts.Nodup ∧
      (∀ w ∈ e.waiters, w.upgrade = true → w.mode = .X ∧ e.holdsS w.place.host = true) ∧
        ∀ w ∈ e.waiters, w.upgrade = false → e.holds w.place.host = false := by
  simp only [Entry.waitersOk, Bool.and_eq_true, decide_eq_true_eq, List.all_eq_true, and_congr_right_iff,
    ← forall_and]
  refine fun _ => forall_congr' fun w => ?_
  cases w.upgrade <;> simp

theorem Entry.accessOk_iff (e : Entry) :
    e.accessOk = true ↔ (∀ h k : HostId, e.holdsX h = true → k ≠ h → e.inFlight[k] = none) ∧
      ∀ h k : HostId, e.inFlight[h] = some .write → k ≠ h → e.holds k = false := by
  simp only [Entry.accessOk, all_hostIds, Bool.and_eq_true, Bool.or_eq_true, Bool.not_eq_true', decide_eq_true_eq,
    ← forall_and]
  refine forall_congr' fun h => ⟨fun ⟨a, b⟩ k => ⟨fun x n => ?_, fun x n => ?_⟩, fun a => ⟨?_, ?_⟩⟩
  · exact ((a.resolve_left (by simp [x])) k).resolve_left n
  · exact ((b.resolve_left (by simpa using x)) k).resolve_left n
  · by_cases x : e.holdsX h = true
    · exact .inr fun k => or_iff_not_imp_left.2 ((a k).1 x)
    · exact .inl (by simpa using x)
  · by_cases x : e.inFlight[h] = some .write
    · exact .inr fun k => or_iff_not_imp_left.2 ((a k).2 x)
    · exact .inl x

/-- The X holding of a sound entry in state EXCLUSIVE (R14). -/
theorem Entry.exclusiveShape_iff (e : Entry) :
    (hostIds.any fun h => e.onlyHolder h && e.holdsX h) = true ↔
      e.exclusivelyHeld = true ∧ ∀ h k, e.holdsX h = true → e.holds k = true → k = h := by
  simp only [any_hostIds, Bool.and_eq_true, Entry.onlyHolder_iff, Entry.exclusivelyHeld_iff]
  constructor
  · rintro ⟨h, only, x⟩
    refine ⟨⟨h, x⟩, fun j k xj hk => ?_⟩
    rw [(only k).1 hk, (only j).1 (Entry.holds_of_holdsX xj)]
  · rintro ⟨⟨h, x⟩, sole⟩
    exact ⟨h, fun k => ⟨sole h k x, fun hk => hk ▸ Entry.holds_of_holdsX x⟩, x⟩

theorem Entry.holdsX_eq_false_of_unheld {e : Entry} (u : e.unheld = true) (h : HostId) : e.holdsX h = false := by
  by_contra x
  have := (e.unheld_iff).1 u h
  simp [Entry.holds_of_holdsX (by simpa using x)] at this

theorem Entry.exclusivelyHeld_of_unheld {e : Entry} (u : e.unheld = true) : e.exclusivelyHeld = false :=
  (e.exclusivelyHeld_eq_false_iff).2 (Entry.holdsX_eq_false_of_unheld u)

/-- An X holder is alone in every shape a page state allows (R14). -/
theorem Entry.sole_of_shapeOk {e : Entry} (s : e.shapeOk = true) :
    ∀ h k, e.holdsX h = true → e.holds k = true → k = h := by
  have none_holdsX : e.exclusivelyHeld = false → ∀ h k, e.holdsX h = true → e.holds k = true → k = h := by
    intro x h k xh
    simp [(e.exclusivelyHeld_eq_false_iff).1 x h] at xh
  rcases hst : e.state with _ | _ | _ | _ | _ | _ <;>
    simp only [Entry.shapeOk, hst, Bool.and_eq_true, Bool.not_eq_true'] at s
  case exclusive => exact ((e.exclusiveShape_iff).1 s.1).2
  case shared => exact none_holdsX s.1.2
  case transfer => exact none_holdsX s.1.1
  all_goals exact none_holdsX (Entry.exclusivelyHeld_of_unheld s.1.1.1)

theorem Entry.wf_iff_parts (e : Entry) :
    e.wf = true ↔ e.shapeOk = true ∧ e.waitersOk = true ∧ e.recallOk = true ∧ e.grantOk = true ∧ e.accessOk = true := by
  simp only [Entry.wf, Bool.and_eq_true, and_assoc]

/-- A well-formed entry is sound. -/
theorem Entry.sound_of_wf {e : Entry} (h : e.wf = true) : e.Sound := by
  obtain ⟨shape, waiters, -, -, access⟩ := (e.wf_iff_parts).1 h
  obtain ⟨nodup, up, enter⟩ := (e.waitersOk_iff).1 waiters
  obtain ⟨besideX, besideWrite⟩ := (e.accessOk_iff).1 access
  exact ⟨Entry.sole_of_shapeOk shape, nodup, up, enter, besideX, besideWrite⟩

theorem Entry.Sound.waitersOk {e : Entry} (s : e.Sound) : e.waitersOk = true :=
  (e.waitersOk_iff).2 ⟨s.nodup, s.upgrades, s.enters⟩

theorem Entry.Sound.accessOk {e : Entry} (s : e.Sound) : e.accessOk = true :=
  (e.accessOk_iff).2 ⟨s.besideX, s.besideWrite⟩

/-! ## Well-formed entries by their state (R14) -/

/-- FREE, RETIRED and SCRUB: nobody holds, nobody waits, and neither recall nor grant is there. -/
theorem Entry.wf_iff_of_idle {e : Entry} (st : e.state = .free ∨ e.state = .retired ∨ e.state = .scrub) :
    e.wf = true ↔ e.Sound ∧ e.unheld = true ∧ e.waiters = [] ∧ e.recalling = none ∧ e.grant = none := by
  have shape : e.shapeOk = true ↔ e.unheld = true ∧ e.waiters = [] ∧ e.recalling = none ∧ e.grant = none := by
    rcases st with st | st | st <;> simp [Entry.shapeOk, st, and_assoc]
  constructor
  · intro h
    exact ⟨Entry.sound_of_wf h, shape.1 ((e.wf_iff_parts).1 h).1⟩
  · rintro ⟨s, u, hw, hr, hg⟩
    refine (e.wf_iff_parts).2 ⟨shape.2 ⟨u, hw, hr, hg⟩, s.waitersOk, ?_, ?_, s.accessOk⟩
    · simp [Entry.recallOk, hw, hr]
    · simp [Entry.grantOk, hg]

/-- EXCLUSIVE and SHARED: the state is that of the holdings, and a recall runs exactly for a head waiter. -/
theorem Entry.wf_iff_of_inUse {e : Entry} (use : e.inUse = true) :
    e.wf = true ↔ e.Sound ∧ e.state = e.stateOfHoldings ∧ e.grant = none ∧ e.RecallsForHead ∧
      (e.waiters ≠ [] → e.recalling ≠ none) := by
  have shape : e.Sound → (e.shapeOk = true ↔ e.state = e.stateOfHoldings ∧ e.grant = none) := by
    intro s
    rcases (e.inUse_iff).1 use with st | st
    · simp only [Entry.shapeOk, st, Bool.and_eq_true, Entry.exclusiveShape_iff, Option.isNone_iff_eq_none]
      have sole : ∀ h k, e.holdsX h = true → e.holds k = true → k = h := s.sole
      cases x : e.exclusivelyHeld <;> cases u : e.unheld <;> simp [Entry.stateOfHoldings, x, u] <;> exact fun _ => sole
    · simp only [Entry.shapeOk, st]
      cases x : e.exclusivelyHeld <;> cases u : e.unheld <;> simp [Entry.stateOfHoldings, x, u]
  have running : e.recallOk = true ↔ e.RecallsForHead ∧ (e.waiters ≠ [] → e.recalling ≠ none) := by
    simp only [Entry.recallOk, Entry.RecallsForHead, use, if_true]
    cases hw : e.waiters with
    | nil => cases hr : e.recalling <;> simp
    | cons w ws =>
      cases hr : e.recalling with
      | none => simp
      | some r => simp [and_assoc]
  constructor
  · intro h
    obtain ⟨hshape, -, hrecall, -, -⟩ := (e.wf_iff_parts).1 h
    have s := Entry.sound_of_wf h
    obtain ⟨hst, hg⟩ := (shape s).1 hshape
    exact ⟨s, hst, hg, running.1 hrecall⟩
  · rintro ⟨s, hst, hg, hr⟩
    exact (e.wf_iff_parts).2
      ⟨(shape s).2 ⟨hst, hg⟩, s.waitersOk, running.2 hr, by simp [Entry.grantOk, hg], s.accessOk⟩

/-- The pending grant of a page in TRANSFER: its choice heads the list, in its mode, and a whole choice of X is one host
beside which no other holds (R9, R63). -/
structure PendingGrant.Heads (g : PendingGrant) (e : Entry) : Prop where
  run : ∃ behind, e.waitingHosts = g.chosen ++ behind
  modes : ∀ w ∈ e.waiters, w.place.host ∈ g.chosen → w.mode = g.mode
  whole : g.left = false → g.chosen ≠ [] ∧
    (g.mode = .X → g.chosen.length = 1 ∧ ∀ h, h ∉ g.chosen → e.holds h = false)

theorem Entry.grantOk_iff {e : Entry} {g : PendingGrant} (hg : e.grant = some g) : e.grantOk = true ↔ g.Heads e := by
  have run : e.waitingHosts.take g.chosen.length = g.chosen ↔ ∃ behind, e.waitingHosts = g.chosen ++ behind := by
    constructor
    · intro h
      refine ⟨e.waitingHosts.drop g.chosen.length, ?_⟩
      conv_lhs => rw [← List.take_append_drop g.chosen.length e.waitingHosts, h]
    · rintro ⟨behind, h⟩
      simp [h]
  have modes : (e.waiters.all fun w => !g.chosen.contains w.place.host || w.mode = g.mode) = true ↔
      ∀ w ∈ e.waiters, w.place.host ∈ g.chosen → w.mode = g.mode := by
    simp [← imp_iff_not_or]
  have whole : (g.left || (!g.chosen.isEmpty && (g.mode = .S ||
        (g.chosen.length = 1 && hostIds.all fun h => g.chosen.contains h || !e.holds h)))) = true ↔
      (g.left = false → g.chosen ≠ [] ∧
        (g.mode = .X → g.chosen.length = 1 ∧ ∀ h, h ∉ g.chosen → e.holds h = false)) := by
    cases g.left <;> cases g.mode <;> simp [or_iff_not_imp_left]
  simp only [Entry.grantOk, hg, Bool.and_eq_true, modes, whole, decide_eq_true_eq, run, and_assoc]
  exact ⟨fun ⟨a, b, c⟩ => ⟨a, b, c⟩, fun ⟨a, b, c⟩ => ⟨a, b, c⟩⟩

/-- TRANSFER: nobody holds X, no recall runs, and a pending grant is there. -/
theorem Entry.wf_iff_of_transfer {e : Entry} (st : e.state = .transfer) :
    e.wf = true ↔ e.Sound ∧ e.exclusivelyHeld = false ∧ e.recalling = none ∧ ∃ g, e.grant = some g ∧ g.Heads e := by
  have use : e.inUse = false := by simp [Entry.inUse, st]
  constructor
  · intro h
    obtain ⟨shape, -, -, grant, -⟩ := (e.wf_iff_parts).1 h
    simp only [Entry.shapeOk, st, Bool.and_eq_true, Bool.not_eq_true', Option.isNone_iff_eq_none,
      Option.isSome_iff_exists] at shape
    obtain ⟨⟨x, hr⟩, g, hg⟩ := shape
    exact ⟨Entry.sound_of_wf h, x, hr, g, hg, (Entry.grantOk_iff hg).1 grant⟩
  · rintro ⟨s, x, hr, g, hg, heads⟩
    refine (e.wf_iff_parts).2 ⟨by simp [Entry.shapeOk, st, x, hr, hg], s.waitersOk, ?_, (Entry.grantOk_iff hg).2 heads,
      s.accessOk⟩
    cases hw : e.waiters <;> simp [Entry.recallOk, hw, use, hr]

/-- A page state is one of use, TRANSFER, or one of the three idle ones (R14). -/
theorem Entry.state_cases (e : Entry) :
    e.inUse = true ∨ e.state = .transfer ∨ e.state = .free ∨ e.state = .retired ∨ e.state = .scrub := by
  rw [Entry.inUse_iff]
  cases e.state <;> simp

end Sys2Proof.Machine
end

