-- ==== Sys2Proof/Proofs/RecallRunGrant.lean ====
section
/-!
SUPPORT. The page ownership table, part three: recall, run and grant. When a head waiter can be served, whom its recall
targets, which waiters a grant chooses, and what the grant event leaves of an entry.
-/

namespace Sys2Proof.Machine

open Sys2Proof

/-! ## The head waiter and its recall (R29, R42, R43) -/

/-- The model's decision is the table of R29. -/
theorem Entry.canServe_iff (e : Entry) (w : Waiter) : e.canServe w = true ↔ e.serves w := by
  have only : (e.onlyHolder w.place.host && e.holdsS w.place.host) = true ↔
      e.mode w.place.host = some .S ∧ ∀ k, k ≠ w.place.host → e.holds k = false := by
    rw [Bool.and_eq_true, Entry.onlyHolder_iff, Entry.holdsS_iff]
    constructor
    · rintro ⟨only, s⟩
      refine ⟨s, fun k hk => ?_⟩
      by_contra x
      exact hk ((only k).1 (by simpa using x))
    · rintro ⟨s, others⟩
      refine ⟨fun k => ⟨fun hk => ?_, fun hk => ?_⟩, s⟩
      · by_contra x
        simp [others k x] at hk
      · exact hk ▸ Entry.holds_of_holdsS ((e.holdsS_iff _).2 s)
  have noX : (!e.exclusivelyHeld) = true ↔ ∀ k, e.mode k ≠ some .X := by
    simp [Entry.exclusivelyHeld, Entry.holdsX]
  cases hm : w.mode <;> cases hu : w.upgrade <;>
    simp [Entry.canServe, Entry.serves, hm, hu, only, noX, Entry.unheld_iff]

theorem Entry.recallTargets_getElem (e : Entry) (w : Waiter) (k : HostId) :
    (e.recallTargets w)[k] =
      match w.mode, w.upgrade with
      | .X, true => e.holds k && k ≠ w.place.host
      | .X, false => e.holds k
      | .S, _ => e.holdsX k := by
  rw [Fin.getElem_fin, Entry.recallTargets, mapVec_getElem, hostVector_getElem] <;> rfl

/-- Two vectors over the hosts agree if they agree at every host. -/
theorem hostVector_ext {α : Type} {u v : Vector α 4} (h : ∀ k : HostId, u[k] = v[k]) : u = v :=
  Vector.ext fun i hi => h ⟨i, hi⟩

/-- A waiter of a sound entry has to wait exactly if some holder blocks it. -/
theorem Entry.Sound.blocked_iff {e : Entry} (s : e.Sound) {w : Waiter} (hw : w ∈ e.waiters) :
    e.canServe w = false ↔ ∃ k : HostId, (e.recallTargets w)[k] = true := by
  simp only [Entry.recallTargets_getElem]
  cases hm : w.mode with
  | S => simp [Entry.canServe, hm, Entry.exclusivelyHeld_iff]
  | X =>
    cases hu : w.upgrade with
    | false => simp [Entry.canServe, hm, hu, Entry.unheld_eq_false_iff]
    | true =>
      obtain ⟨-, holdsS⟩ := s.upgrades w hw hu
      simp only [Entry.canServe, hm, hu, holdsS, Bool.and_true, Bool.and_eq_true, decide_eq_true_eq,
        ← Bool.not_eq_true, Entry.onlyHolder_iff, not_forall]
      refine exists_congr fun k => ?_
      by_cases hk : k = w.place.host
      · simp [hk, Entry.holds_of_holdsS holdsS]
      · simp [hk]

/-- A recall for a waiter that has to wait targets every holder but the waiter's own host. -/
theorem Entry.Sound.recallTargets_of_blocked {e : Entry} (s : e.Sound) {w : Waiter} (hw : w ∈ e.waiters)
    (blocked : e.canServe w = false) (k : HostId) :
    (e.recallTargets w)[k] = (e.holds k && decide (k ≠ w.place.host)) := by
  rw [Entry.recallTargets_getElem]
  cases hu : w.upgrade with
  | true => simp [(s.upgrades w hw hu).1]
  | false =>
    have own : e.holds w.place.host = false := s.enters w hw hu
    cases hm : w.mode with
    | X =>
      by_cases hk : k = w.place.host
      · simp [hk, own]
      · simp [hk]
    | S =>
      simp only [Entry.canServe, hm, Bool.not_eq_false', Entry.exclusivelyHeld_iff] at blocked
      obtain ⟨x, hx⟩ := blocked
      by_cases hk : k = x
      · have : x ≠ w.place.host := by
          rintro rfl
          simp [Entry.holds_of_holdsX hx] at own
        simp [hk, hx, Entry.holds_of_holdsX hx, this]
      · have none : e.holds k = false := by
          by_contra hold
          exact hk (s.sole x k hx (by simpa using hold))
        have noX : e.holdsX k = false := by
          by_contra hold
          simp [Entry.holds_of_holdsX (by simpa using hold)] at none
        simp [none, noX]

/-- The record of a recall for a waiter that has to wait (R42). -/
theorem Entry.Sound.recallFor_eq {e : Entry} (s : e.Sound) {w : Waiter} (hw : w ∈ e.waiters)
    (blocked : e.canServe w = false) (now : Word) (limit : BitVec 16) :
    ({ wanted := w.mode, requester := w.place.host, targets := e.recallTargets w,
       deadline := now + limit.setWidth 32, due := false } : Recall) = e.recallFor w now limit := by
  have targets : e.recallTargets w = mapVec (fun k => e.holds k && k ≠ w.place.host) #v[(0 : HostId), 1, 2, 3] :=
    hostVector_ext fun k => by
      rw [s.recallTargets_of_blocked hw blocked, Fin.getElem_fin, mapVec_getElem, hostVector_getElem]
  simp only [Entry.recallFor, targets]

/-- The notices of a recall for a waiter that has to wait (R44). -/
theorem Entry.Sound.recallNotices_eq {e : Entry} (s : e.Sound) {w : Waiter} (hw : w ∈ e.waiters)
    (blocked : e.canServe w = false) (env : Env) :
    ((hostIds.filter fun k => (e.recallTargets w)[k]).map fun k => e.recallNotice env w k) =
      e.recallNotices env.page w env.limit := by
  simp only [Entry.recallNotices, s.recallTargets_of_blocked hw blocked]
  refine List.map_congr_left fun k _ => ?_
  simp only [Entry.recallNotice]
  cases e.holding k <;> rfl

/-- Some holder is a target: the page is held. -/
theorem Entry.Sound.held_of_blocked {e : Entry} (s : e.Sound) {w : Waiter} (hw : w ∈ e.waiters)
    (blocked : e.canServe w = false) : e.unheld = false := by
  obtain ⟨k, hk⟩ := (s.blocked_iff hw).1 blocked
  rw [s.recallTargets_of_blocked hw blocked, Bool.and_eq_true] at hk
  exact (e.unheld_eq_false_iff).2 ⟨k, hk.1⟩

/-! ## The run at the head (R30) -/

/-- The waiters chosen are a run at the head of the list. -/
theorem chosenRun_split (w : Waiter) (ws : List Waiter) :
    ∃ gs rest, chosenRun (w :: ws) = w :: gs ∧ w :: ws = (w :: gs) ++ rest ∧ isRun w.mode (w :: gs) rest := by
  cases hm : w.mode with
  | X => exact ⟨[], ws, by simp [chosenRun, hm], rfl, by simp [isRun, hm]⟩
  | S =>
    refine ⟨ws.takeWhile fun v => v.mode = .S, ws.dropWhile fun v => v.mode = .S, by simp [chosenRun, hm], by simp,
      by simp, ?_, by simp, fun _ v hv => ?_⟩
    · intro v hv
      rcases List.mem_cons.1 hv with rfl | hv
      · exact hm
      · simpa using List.mem_takeWhile_imp hv
    · have := List.head?_dropWhile_not (fun v : Waiter => decide (v.mode = .S)) ws
      rw [hv] at this
      cases hv' : v.mode
      · simp [hv'] at this
      · rfl

/-- With one waiter a host, the waiters whose hosts are not granted are those behind the run. -/
theorem filter_behind {gs rest : List Waiter} (nodup : ((gs ++ rest).map fun w => w.place.host).Nodup) :
    (gs ++ rest).filter (fun w => !(gs.map fun v => v.place.host).contains w.place.host) = rest := by
  rw [List.map_append, List.nodup_append] at nodup
  obtain ⟨-, -, apart⟩ := nodup
  rw [List.filter_append, List.filter_eq_nil_iff.2, List.filter_eq_self.2, List.nil_append]
  · intro w hw
    simp only [Bool.not_eq_true', List.contains_eq_mem, decide_eq_false_iff_not]
    exact fun hm => apart _ hm _ (List.mem_map_of_mem hw) rfl
  · intro w hw
    simpa using ⟨w, hw, rfl⟩

/-- The waiters that a choice of hosts names, where the choice heads the list. -/
theorem filter_chosen {gs rest : List Waiter} (nodup : ((gs ++ rest).map fun w => w.place.host).Nodup) :
    (gs ++ rest).filter (fun w => (gs.map fun v => v.place.host).contains w.place.host) = gs := by
  rw [List.map_append, List.nodup_append] at nodup
  obtain ⟨-, -, apart⟩ := nodup
  rw [List.filter_append, List.filter_eq_self.2, List.filter_eq_nil_iff.2, List.append_nil]
  · intro w hw
    simp only [List.contains_eq_mem, decide_eq_true_eq]
    exact fun hm => apart _ hm _ (List.mem_map_of_mem hw) rfl
  · intro w hw
    simpa using ⟨w, hw, rfl⟩

/-! ## The grant event (R4) -/

theorem Entry.granted_holding (e : Entry) (m : Mode) (hs : List HostId) (k : HostId) :
    (e.granted m hs)[k] = if k ∈ hs then some { mode := m, gen := e.gen + 1 } else e.holding k := by
  rw [Fin.getElem_fin, Entry.granted, mapVec_getElem, hostVector_getElem]
  simp

/-- Giving each host of a list its holding is the map that the grant event leaves. -/
theorem Entry.giveHoldings_holdings (e : Entry) (m : Mode) (hs : List HostId) :
    (e.giveHoldings { mode := m, gen := e.gen + 1 } hs).holdings = e.granted m hs :=
  hostVector_ext fun k => by
    rw [Entry.granted_holding]
    exact e.giveHoldings_holding _ hs k

/-- The grant event, with the holdings it gives as one map. -/
theorem EntryOut.grant_def (env : Env) (m : Mode) (places : List Place) (o : EntryOut) :
    o.grant env m places =
      { o with
        entry :=
          { o.entry with
            state := stateOfGrant m
            holdings := o.entry.granted m (places.map Place.host)
            gen := o.entry.gen + 1
            waiters := o.entry.waiters.filter fun w => !(places.map Place.host).contains w.place.host
            grant := none }
        posts :=
          o.posts ++
            places.map fun pl =>
              (pl, { status := .ok, page := some env.page, gen := some (o.entry.gen + 1), result := none }) } := by
  simp only [EntryOut.grant]
  rw [Entry.giveHoldings_frame, Entry.giveHoldings_holdings]

theorem Entry.grantedTo_state (e : Entry) (m : Mode) (gs rest : List Waiter) :
    (e.grantedTo m gs rest).state = stateOfGrant m := by cases m <;> rfl

/-- The grant event for a run at the head of the list. -/
theorem EntryOut.grant_eq (env : Env) (m : Mode) (gs rest : List Waiter) (o : EntryOut)
    (nodup : o.entry.waitingHosts.Nodup) (split : o.entry.waiters = gs ++ rest) (noRecall : o.entry.recalling = none) :
    o.grant env m (gs.map Waiter.place) =
      { o with
        entry := o.entry.grantedTo m gs rest
        posts := o.posts ++ grantReplies env.page (o.entry.gen + 1) gs } := by
  have hosts : (gs.map Waiter.place).map Place.host = gs.map fun w => w.place.host := by simp
  have behind : o.entry.waiters.filter (fun w => !(gs.map fun v => v.place.host).contains w.place.host) = rest := by
    rw [Entry.waitingHosts, split] at nodup
    rw [split, filter_behind nodup]
  simp only [EntryOut.grant_def, hosts, behind, ← o.entry.grantedTo_state m gs rest, noRecall]
  simp only [Entry.grantedTo, grantReplies, List.map_map, Function.comp_def]

end Sys2Proof.Machine
end

