-- ==== Sys2Proof/Proofs/Serving.lean ====
section
/-!
SUPPORT. The page ownership table, part four: the grant event keeps a sound entry sound, the serving of the list is the
one the statements write out (`Entry.servedAs`), and every serving leaves a well-formed entry.
-/

namespace Sys2Proof.Machine

open Sys2Proof

/-! ## Stray operations (R12) -/

/-- No operation of the page is stray. -/
theorem Entry.hasStray_eq_false_iff (e : Entry) :
    e.hasStray = false ↔ (∀ h, e.strayPair h = false) ∧ ∀ r ∈ e.refs, e.strayRef r = false := by
  simp [Entry.hasStray]

/-- Without a stray operation an access in flight is of a host that holds the page, a write of one that holds X. -/
theorem Entry.holds_of_not_stray {e : Entry} {h : HostId} {d : Dir} (ns : e.strayPair h = false)
    (i : e.inFlight[h] = some d) : e.holds h = true ∧ (d = .write → e.holdsX h = true) := by
  simp only [Entry.strayPair, i] at ns
  cases d
  · exact ⟨by simpa using ns, by simp⟩
  · have x : e.holdsX h = true := by simpa using ns
    exact ⟨Entry.holds_of_holdsX x, fun _ => x⟩

/-- Without a stray operation and an X holding no write is in flight, and every read is a holder's. -/
theorem Entry.inFlight_of_not_stray {e : Entry} (noX : e.exclusivelyHeld = false) {h : HostId}
    (ns : e.strayPair h = false) : e.inFlight[h] = none ∨ (e.inFlight[h] = some .read ∧ e.holds h = true) := by
  cases i : e.inFlight[h] with
  | none => exact .inl rfl
  | some d =>
    obtain ⟨holds, write⟩ := Entry.holds_of_not_stray ns i
    cases d with
    | read => exact .inr ⟨rfl, holds⟩
    | write =>
      have := write rfl
      rw [(e.exclusivelyHeld_eq_false_iff).1 noX h] at this
      cases this

/-! ## The grant event keeps soundness -/

/-- A grant in mode `m` may be made to the hosts: nobody holds X, and an X grant goes to one host beside which no other
holds (R2, R29). -/
structure Entry.MayGrant (e : Entry) (m : Mode) (hs : List HostId) : Prop where
  noX : e.exclusivelyHeld = false
  nonempty : hs ≠ []
  alone : m = .X → hs.length = 1 ∧ ∀ k, k ∉ hs → e.holds k = false

/-- The entry `f` is what a grant in mode `m` to the hosts makes of the sound entry `e`, which has no stray operation
(R4, R61). -/
structure Entry.GrantOf (e f : Entry) (m : Mode) (hs : List HostId) : Prop where
  before : e.Sound
  may : e.MayGrant m hs
  calm : e.hasStray = false
  holdings : f.holdings = e.granted m hs
  inFlight : f.inFlight = e.inFlight
  refs : f.refs = e.refs
  state : f.state = stateOfGrant m
  grant : f.grant = none
  recalling : f.recalling = none
  behind : ∀ w ∈ f.waiters, w ∈ e.waiters ∧ w.place.host ∉ hs
  nodup : f.waitingHosts.Nodup

namespace Entry.GrantOf

variable {e f : Entry} {m : Mode} {hs : List HostId}

theorem mode (g : e.GrantOf f m hs) (k : HostId) : f.mode k = if k ∈ hs then some m else e.mode k := by
  have : f.holding k = if k ∈ hs then some { mode := m, gen := e.gen + 1 } else e.holding k := by
    rw [← e.granted_holding m hs k, ← g.holdings]; rfl
  simp only [Entry.mode, this]
  split <;> rfl

theorem mode_of_notMem (g : e.GrantOf f m hs) {k : HostId} (hk : k ∉ hs) : f.mode k = e.mode k := by
  rw [g.mode, if_neg hk]

theorem holds_iff (g : e.GrantOf f m hs) (k : HostId) : f.holds k = true ↔ k ∈ hs ∨ e.holds k = true := by
  rw [Entry.holds_iff, Entry.holds_iff, g.mode]
  split <;> simp [*]

theorem holds_of_mem (g : e.GrantOf f m hs) {k : HostId} (hk : k ∈ hs) : f.holds k = true := (g.holds_iff k).2 (.inl hk)

/-- The X holders after the grant are the hosts of an X grant. -/
theorem holdsX_iff (g : e.GrantOf f m hs) (k : HostId) : f.holdsX k = true ↔ k ∈ hs ∧ m = .X := by
  have noX : e.mode k ≠ some .X := by
    rw [ne_eq, ← Entry.holdsX_iff, (e.exclusivelyHeld_eq_false_iff).1 g.may.noX]
    simp
  rw [Entry.holdsX_iff, g.mode]
  split <;> simp [*]

/-- After an X grant the host granted holds alone. -/
theorem alone (g : e.GrantOf f m hs) (hm : m = .X) {h k : HostId} (hh : h ∈ hs) (hk : f.holds k = true) : k = h := by
  obtain ⟨one, others⟩ := g.may.alone hm
  obtain ⟨x, hx⟩ := List.length_eq_one_iff.1 one
  have mem : k ∈ hs := ((g.holds_iff k).1 hk).elim id fun he => by
    by_contra no
    simp [others k no] at he
  simp only [hx, List.mem_singleton] at hh mem
  rw [hh, mem]

theorem sound (g : e.GrantOf f m hs) : f.Sound where
  sole h k xh hk := g.alone ((g.holdsX_iff h).1 xh).2 ((g.holdsX_iff h).1 xh).1 hk
  nodup := g.nodup
  upgrades w hw hu := by
    obtain ⟨old, no⟩ := g.behind w hw
    obtain ⟨hm, hS⟩ := g.before.upgrades w old hu
    rw [Entry.holdsS_iff] at hS ⊢
    exact ⟨hm, (g.mode_of_notMem no).trans hS⟩
  enters w hw hu := by
    obtain ⟨old, no⟩ := g.behind w hw
    have hn := g.before.enters w old hu
    rw [Entry.not_holds_iff] at hn ⊢
    exact (g.mode_of_notMem no).trans hn
  besideX h k xh hk := by
    obtain ⟨hh, hm⟩ := (g.holdsX_iff h).1 xh
    rw [g.inFlight]
    refine (Entry.inFlight_of_not_stray g.may.noX (((e.hasStray_eq_false_iff).1 g.calm).1 k)).resolve_right fun r => ?_
    exact hk (g.alone hm hh ((g.holds_iff k).2 (.inr r.2)))
  besideWrite h k write _ := by
    rw [g.inFlight] at write
    have := Entry.inFlight_of_not_stray g.may.noX (((e.hasStray_eq_false_iff).1 g.calm).1 h)
    simp [write] at this

theorem held (g : e.GrantOf f m hs) : f.unheld = false := by
  obtain ⟨x, xs, hx⟩ := List.exists_cons_of_ne_nil g.may.nonempty
  exact (f.unheld_eq_false_iff).2 ⟨x, g.holds_of_mem (by simp [hx])⟩

theorem state_eq (g : e.GrantOf f m hs) : f.state = f.stateOfHoldings := by
  rw [g.state]
  cases m with
  | X =>
    obtain ⟨x, xs, hx⟩ := List.exists_cons_of_ne_nil g.may.nonempty
    refine (Entry.stateOfHoldings_of_exclusive ((f.exclusivelyHeld_iff).2 ⟨x, ?_⟩)).symm
    exact (g.holdsX_iff x).2 ⟨by simp [hx], rfl⟩
  | S =>
    refine (Entry.stateOfHoldings_of_shared ((f.exclusivelyHeld_eq_false_iff).2 fun k => ?_) g.held).symm
    simp [← Bool.not_eq_true, g.holdsX_iff]

theorem inUse (g : e.GrantOf f m hs) : f.inUse = true := by
  rw [Entry.inUse_iff, g.state]
  cases m <;> simp [stateOfGrant]

/-- A grant makes no operation stray. -/
theorem stays_calm (g : e.GrantOf f m hs) : f.hasStray = false := by
  obtain ⟨pairs, refs⟩ := (e.hasStray_eq_false_iff).1 g.calm
  have keeps : ∀ k, e.holds k = true → f.holds k = true := fun k hk => (g.holds_iff k).2 (.inr hk)
  have noX : ∀ k, e.holdsX k = false := (e.exclusivelyHeld_eq_false_iff).1 g.may.noX
  refine (f.hasStray_eq_false_iff).2 ⟨fun k => ?_, fun r hr => ?_⟩
  · simp only [Entry.strayPair, g.inFlight]
    rcases Entry.inFlight_of_not_stray g.may.noX (pairs k) with i | ⟨i, hk⟩
    · simp [i]
    · simp [i, keeps k hk]
  · have := refs r (g.refs ▸ hr)
    simp only [Entry.strayRef, Bool.and_eq_false_iff] at this ⊢
    refine this.imp_right fun need => ?_
    cases hn : r.need with
    | none => rfl
    | some n =>
      cases n with
      | S => simpa using keeps _ (by simpa [hn] using need)
      | X => simp [hn, noX] at need

/-- The waiter left at the head behind a run must wait (R66). -/
theorem blocked {gs vs : List Waiter} {v : Waiter} (g : e.GrantOf f m (gs.map fun w => w.place.host))
    (run : isRun m gs (v :: vs)) (hv : v ∈ f.waiters) : f.canServe v = false := by
  obtain ⟨ne, -, -, nextX⟩ := run
  obtain ⟨w, ws, rfl⟩ := List.exists_cons_of_ne_nil ne
  have hw : f.holds w.place.host = true := g.holds_of_mem (by simp)
  by_contra serves
  obtain ⟨serveS, serveX, serveUp⟩ := (f.canServe_iff v).1 (by simpa using serves)
  cases hm : v.mode with
  | S =>
    have mX : m = .X := by
      cases m with
      | X => rfl
      | S => exact absurd (nextX rfl v (by simp)) (by simp [hm])
    exact serveS hm w.place.host ((f.holdsX_iff _).1 ((g.holdsX_iff _).2 ⟨by simp, mX⟩))
  | X =>
    cases hu : v.upgrade with
    | false => simp [serveX hm hu] at hw
    | true =>
      have apart : w.place.host ≠ v.place.host := fun h => (g.behind v hv).2 (by simp [← h])
      simp [(serveUp hm hu).2 _ apart] at hw

end Entry.GrantOf

/-- A head that can be served, with the run it heads, may be granted. -/
theorem Entry.mayGrant_of_serves {e : Entry} {w : Waiter} {gs rest : List Waiter} (serves : e.serves w)
    (run : isRun w.mode (w :: gs) rest) : e.MayGrant w.mode ((w :: gs).map fun v => v.place.host) := by
  obtain ⟨serveS, serveX, serveUp⟩ := serves
  have noX : ∀ k, e.mode k ≠ some .X := by
    cases hm : w.mode with
    | S => exact serveS hm
    | X =>
      intro k hk
      have holds := Entry.holds_of_holdsX ((e.holdsX_iff k).2 hk)
      cases hu : w.upgrade with
      | false => simp [serveX hm hu] at holds
      | true =>
        obtain ⟨own, others⟩ := serveUp hm hu
        by_cases h : k = w.place.host
        · simp [h, own] at hk
        · simp [others k h] at holds
  refine ⟨(e.exclusivelyHeld_eq_false_iff).2 fun k => ?_, by simp, fun hm => ⟨by simpa using run.2.2.1 hm, fun k hk => ?_⟩⟩
  · simpa [← Bool.not_eq_true, Entry.holdsX_iff] using noX k
  · have hk : k ≠ w.place.host := fun h => hk (by simp [h])
    cases hu : w.upgrade with
    | false => exact serveX hm hu k
    | true => exact (serveUp hm hu).2 k hk

/-- The grant event for a run at the head of a sound entry's list. -/
theorem Entry.grantedTo_grantOf {e : Entry} (s : e.Sound) (calm : e.hasStray = false) {m : Mode} {gs rest : List Waiter}
    (split : e.waiters = gs ++ rest) (may : e.MayGrant m (gs.map fun w => w.place.host)) :
    e.GrantOf (e.grantedTo m gs rest) m (gs.map fun w => w.place.host) := by
  have nodup := s.nodup
  rw [Entry.waitingHosts, split, List.map_append, List.nodup_append] at nodup
  obtain ⟨-, restNodup, apart⟩ := nodup
  exact
    { before := s, may := may, calm := calm, holdings := rfl, inFlight := rfl, refs := rfl,
      state := e.grantedTo_state m gs rest, grant := rfl, recalling := rfl
      behind := fun w hw => ⟨split ▸ List.mem_append_right _ hw, fun hh => apart _ hh _ (List.mem_map_of_mem hw) rfl⟩
      nodup := restNodup }

/-! ## The serving of the list -/

/-- A recall starts for a head that must wait (R42). -/
theorem EntryOut.recallIfBlocked_of_blocked (env : Env) {o : EntryOut} {w : Waiter} {ws : List Waiter}
    (s : o.entry.Sound) (hw : o.entry.waiters = w :: ws) (use : o.entry.inUse = true)
    (hr : o.entry.recalling = none) (blocked : o.entry.canServe w = false) :
    o.recallIfBlocked env =
      { o with
        entry := { o.entry with recalling := some (o.entry.recallFor w env.now env.limit) }
        notices := o.notices ++ o.entry.recallNotices env.page w env.limit } := by
  have mem : w ∈ o.entry.waiters := by simp [hw]
  simp only [EntryOut.recallIfBlocked, hw, use, hr, blocked, EntryOut.startRecall, s.recallFor_eq mem blocked,
    s.recallNotices_eq mem blocked, Option.isNone_none, Bool.not_false, Bool.and_self, if_true]

theorem EntryOut.recallIfBlocked_of_nil (env : Env) {o : EntryOut} (hw : o.entry.waiters = []) :
    o.recallIfBlocked env = o := by
  simp only [EntryOut.recallIfBlocked, hw]

theorem EntryOut.recallIfBlocked_of_recalling (env : Env) {o : EntryOut} (hr : o.entry.recalling ≠ none) :
    o.recallIfBlocked env = o := by
  have : o.entry.recalling.isNone = false := by simpa [Option.isSome_iff_ne_none] using hr
  simp only [EntryOut.recallIfBlocked, this, Bool.and_false, Bool.false_and, Bool.false_eq_true, if_false]
  split <;> rfl

/-- A page that somebody holds is EXCLUSIVE or SHARED by its holdings (R28). -/
theorem Entry.stateOfHoldings_of_held {e : Entry} (u : e.unheld = false) :
    e.stateOfHoldings = if ∃ k, e.mode k = some .X then .exclusive else .shared := by
  by_cases x : ∃ k, e.mode k = some .X
  · rw [if_pos x, Entry.stateOfHoldings_of_exclusive]
    simpa [Entry.exclusivelyHeld_iff, Entry.holdsX_iff] using x
  · rw [if_neg x, Entry.stateOfHoldings_of_shared _ u]
    exact (e.exclusivelyHeld_eq_false_iff).2 fun k => by simpa [Entry.holdsX] using not_exists.1 x k

theorem Entry.inUse_of_held {e f : Entry} (u : e.unheld = false) (st : f.state = e.stateOfHoldings) : f.inUse = true := by
  rw [Entry.inUse_iff, st, Entry.stateOfHoldings_of_held u]
  split <;> simp

/-- An empty list leaves the state that the holdings give (R28). -/
theorem EntryOut.serve_of_nil (env : Env) {o : EntryOut} (hw : o.entry.waiters = []) :
    o.serve env = { o with entry := { o.entry with state := o.entry.stateOfHoldings } } := by
  simp only [EntryOut.serve, hw]

theorem EntryOut.serve_of_blocked (env : Env) {o : EntryOut} {w : Waiter} {ws : List Waiter}
    (hw : o.entry.waiters = w :: ws) (blocked : o.entry.canServe w = false) :
    o.serve env =
      ({ o with entry := { o.entry with state := o.entry.stateOfHoldings } } : EntryOut).recallIfBlocked env := by
  simp only [EntryOut.serve, hw, blocked, Bool.false_eq_true, if_false]

/-- A head that can be served: the run it heads is chosen for a held-back grant, or granted (R30, R49, R61). -/
theorem EntryOut.serve_of_serves (env : Env) {o : EntryOut} {w : Waiter} {gs rest : List Waiter} (s : o.entry.Sound)
    (hw : o.entry.waiters = (w :: gs) ++ rest) (run : chosenRun o.entry.waiters = w :: gs)
    (serves : o.entry.canServe w = true) :
    o.serve env =
      if o.entry.hasStray then
        { o with
          entry :=
            { o.entry with
              state := .transfer
              recalling := none
              grant := some { mode := w.mode, chosen := (w :: gs).map fun v => v.place.host, left := false } } }
      else
        ({ o with
          entry := o.entry.grantedTo w.mode (w :: gs) rest
          posts := o.posts ++ grantReplies env.page (o.entry.gen + 1) (w :: gs) } : EntryOut).recallIfBlocked env := by
  have serve : o.serve env = o.decideGrant env w := by
    simp only [EntryOut.serve]
    split
    · simp_all
    · rename_i heq
      obtain ⟨rfl, -⟩ := List.cons.inj (heq.symm.trans hw)
      exact if_pos serves
  have granted := EntryOut.grant_eq env w.mode (w :: gs) rest { o with entry := { o.entry with recalling := none } }
    s.nodup hw rfl
  rw [serve]
  simp only [EntryOut.decideGrant, run, EntryOut.holdBack, List.map_map, Function.comp_def]
  rw [granted]
  rfl

/-- The serving of a list without a recall is the one that R28 to R30, R42, R61 and R66 describe. -/
theorem EntryOut.serve_servedAs (env : Env) {o : EntryOut} (s : o.entry.Sound) (hr : o.entry.recalling = none)
    (hw : o.entry.waiters ≠ []) :
    ∃ t ns posts, o.entry.servedAs env.page env.now env.limit t ns posts ∧
      o.serve env =
        { entry := t, notices := o.notices ++ ns, posts := o.posts ++ posts, aborts := o.aborts } := by
  obtain ⟨w, ws, hw⟩ := List.exists_cons_of_ne_nil hw
  have mem : w ∈ o.entry.waiters := by simp [hw]
  cases serves : o.entry.canServe w with
  | false =>
    have held := s.held_of_blocked mem serves
    refine ⟨_, _, [], .inl ⟨w, ws, hw, ?_, rfl, rfl, rfl⟩, ?_⟩
    · simp [← Entry.canServe_iff, serves]
    · rw [EntryOut.serve_of_blocked env hw serves, ← Entry.stateOfHoldings_of_held held, List.append_nil]
      exact EntryOut.recallIfBlocked_of_blocked env (o := { o with entry := { o.entry with state := _ } })
        (s.congr rfl rfl rfl) hw (Entry.inUse_of_held held rfl) hr serves
  | true =>
    obtain ⟨gs, rest, run, split, isrun⟩ := chosenRun_split w ws
    have head := (o.entry.canServe_iff w).1 serves
    have may := Entry.mayGrant_of_serves head isrun
    have split : o.entry.waiters = (w :: gs) ++ rest := hw.trans split
    have serve := EntryOut.serve_of_serves env s split (hw ▸ run) serves
    cases stray : o.entry.hasStray with
    | true =>
      refine ⟨_, _, _, .inr ⟨w, w.mode, w :: gs, rest, split, isrun, rfl, head, .inl ⟨stray, rfl, rfl, rfl⟩⟩, ?_⟩
      rw [serve, if_pos stray, hr, List.append_nil, List.append_nil]
    | false =>
      have g := Entry.grantedTo_grantOf s stray split may
      rw [serve, if_neg (by simp [stray])]
      cases rest with
      | nil =>
        refine ⟨_, [], _, .inr ⟨w, w.mode, w :: gs, [], split, isrun, rfl, head,
          .inr ⟨stray, _, rfl, rfl, fun _ => ⟨rfl, rfl⟩, by simp⟩⟩, ?_⟩
        rw [EntryOut.recallIfBlocked_of_nil env rfl, List.append_nil]
      | cons v vs =>
        have blocked := g.blocked isrun (v := v) (vs := vs) (by simp [Entry.grantedTo])
        refine ⟨_, _, _, .inr ⟨w, w.mode, w :: gs, v :: vs, split, isrun, rfl, head,
          .inr ⟨stray, _, rfl, rfl, by simp, fun x xs h => ?_⟩⟩,
          EntryOut.recallIfBlocked_of_blocked env g.sound rfl g.inUse rfl blocked⟩
        obtain ⟨rfl, rfl⟩ := List.cons.inj h
        exact ⟨rfl, rfl⟩

/-! ## Every serving leaves a well-formed entry -/

/-- An entry in use with the recall of a head that must wait is well formed (R42). -/
theorem Entry.Sound.wf_of_recall {e f : Entry} {w : Waiter} {ws : List Waiter} (s : e.Sound) (hw : e.waiters = w :: ws)
    (st : e.state = e.stateOfHoldings) (hg : e.grant = none) (blocked : e.canServe w = false) (now : Word)
    (limit : BitVec 16) (hf : f = { e with recalling := some (e.recallFor w now limit) }) : f.wf = true := by
  have mem : w ∈ e.waiters := by simp [hw]
  subst hf
  have use : ({ e with recalling := some (e.recallFor w now limit) } : Entry).inUse = true :=
    Entry.inUse_of_held (s.held_of_blocked mem blocked) st
  refine (Entry.wf_iff_of_inUse use).2 ⟨s.congr rfl rfl rfl, st, hg, ?_, by simp⟩
  rintro r ⟨⟩
  refine ⟨w, ws, hw, rfl, rfl, ?_, ?_⟩
  · exact (congrArg Recall.targets (s.recallFor_eq mem blocked now limit)).symm
  · rw [← s.recallFor_eq mem blocked now limit]
    exact (s.blocked_iff mem).1 blocked

/-- A run at the head that can be served is a choice that heads the list (R63). -/
theorem Entry.heads_of_mayGrant {e : Entry} {m : Mode} {gs rest : List Waiter} (s : e.Sound)
    (split : e.waiters = gs ++ rest) (modes : ∀ w ∈ gs, w.mode = m)
    (may : e.MayGrant m (gs.map fun w => w.place.host)) :
    ({ mode := m, chosen := gs.map fun w => w.place.host, left := false } : PendingGrant).Heads e where
  run := ⟨rest.map fun w => w.place.host, by simp [Entry.waitingHosts, split]⟩
  modes w hw hh := by
    have nodup := s.nodup
    rw [Entry.waitingHosts, split] at nodup
    have : w ∈ e.waiters.filter fun w => (gs.map fun v => v.place.host).contains w.place.host :=
      List.mem_filter.2 ⟨hw, by simpa using hh⟩
    rw [split, filter_chosen nodup] at this
    exact modes w this
  whole _ := ⟨may.nonempty, may.alone⟩

theorem Entry.wf_of_servedAs {e t : Entry} (s : e.Sound) (hr : e.recalling = none) (hg : e.grant = none) {p : PageId}
    {now : Word} {limit : BitVec 16} {ns : List (HostId × Notice)} {posts : List (Place × Reply)}
    (h : e.servedAs p now limit t ns posts) : t.wf = true := by
  obtain ⟨w, ws, hw, waits, -, -, rfl⟩ | ⟨w, m, gs, rest, split, run, head, serves, h⟩ := h
  · have blocked : e.canServe w = false := by simpa [← Entry.canServe_iff] using waits
    have held := s.held_of_blocked (by simp [hw]) blocked
    refine Entry.Sound.wf_of_recall (e := { e with state := e.stateOfHoldings }) (s.congr rfl rfl rfl) hw rfl hg blocked
      now limit ?_
    rw [Entry.stateOfHoldings_of_held held]
    rfl
  · obtain ⟨gs, rfl⟩ : ∃ gs', gs = w :: gs' := by
      cases gs with
      | nil => simp at head
      | cons x xs => exact ⟨xs, by simpa using head⟩
    obtain rfl : w.mode = m := run.2.1 w (by simp)
    have may := Entry.mayGrant_of_serves serves run
    obtain ⟨-, -, -, rfl⟩ | ⟨calm, g, rfl, -, last, next⟩ := h
    · exact (Entry.wf_iff_of_transfer rfl).2
        ⟨s.congr rfl rfl rfl, may.noX, hr, _, rfl, Entry.heads_of_mayGrant (s.congr rfl rfl rfl) split run.2.1
          ⟨may.noX, may.nonempty, may.alone⟩⟩
    · have g := Entry.grantedTo_grantOf s calm split may
      cases rest with
      | nil =>
        rw [(last rfl).2]
        exact (Entry.wf_iff_of_inUse g.inUse).2 ⟨g.sound, g.state_eq, rfl, by simp [Entry.RecallsForHead, g.recalling],
          fun h => absurd rfl h⟩
      | cons v vs =>
        rw [(next v vs rfl).2]
        exact g.sound.wf_of_recall rfl g.state_eq rfl (g.blocked run (by simp [Entry.grantedTo])) now limit rfl

/-- Whatever an event has done to a sound entry, the serving of its list leaves it well formed (R28). -/
theorem EntryOut.wf_serve (env : Env) {o : EntryOut} (s : o.entry.Sound) (hg : o.entry.grant = none)
    (hr : o.entry.RecallsForHead) : (o.serve env).entry.wf = true := by
  cases hrec : o.entry.recalling with
  | some r =>
    obtain ⟨w, ws, hw, -, -, targets, some⟩ := hr r hrec
    have blocked := (s.blocked_iff (w := w) (by simp [hw])).2 (targets ▸ some)
    have held := s.held_of_blocked (w := w) (by simp [hw]) blocked
    rw [EntryOut.serve_of_blocked env hw blocked, EntryOut.recallIfBlocked_of_recalling env (by simp [hrec])]
    exact (Entry.wf_iff_of_inUse (Entry.inUse_of_held held rfl)).2
      ⟨s.congr rfl rfl rfl, rfl, hg, hr, fun _ => by simp [hrec]⟩
  | none =>
    by_cases hw : o.entry.waiters = []
    · rw [EntryOut.serve_of_nil env hw]
      cases u : o.entry.unheld with
      | true =>
        exact (Entry.wf_iff_of_idle (.inl (Entry.stateOfHoldings_of_unheld u))).2
          ⟨s.congr rfl rfl rfl, u, hw, hrec, hg⟩
      | false =>
        exact (Entry.wf_iff_of_inUse (Entry.inUse_of_held u rfl)).2
          ⟨s.congr rfl rfl rfl, rfl, hg, hr, fun h => absurd hw h⟩
    · obtain ⟨t, ns, posts, served, eq⟩ := EntryOut.serve_servedAs env s hrec hw
      rw [eq]
      exact Entry.wf_of_servedAs s hrec hg served

end Sys2Proof.Machine
end

