-- ==== Sys2Proof/Proofs/ReadyEntry.lean ====
section
/-!
SUPPORT. The page ownership table, part five: every event of a page entry leaves a well-formed entry well formed. An
event first changes holdings, waiters or the recall, which keeps the entry ready (`Entry.Ready`), and then serves the list.
-/

namespace Sys2Proof.Machine

open Sys2Proof

/-! ## Small changes -/

@[simp] theorem Entry.dropHolding_state (e : Entry) (h : HostId) : (e.dropHolding h).state = e.state := rfl
@[simp] theorem Entry.dropHolding_gen (e : Entry) (h : HostId) : (e.dropHolding h).gen = e.gen := rfl
@[simp] theorem Entry.dropHolding_grant (e : Entry) (h : HostId) : (e.dropHolding h).grant = e.grant := rfl
@[simp] theorem Entry.dropHolding_inFlight (e : Entry) (h : HostId) : (e.dropHolding h).inFlight = e.inFlight := rfl
@[simp] theorem Entry.dropHolding_refs (e : Entry) (h : HostId) : (e.dropHolding h).refs = e.refs := rfl
@[simp] theorem Entry.dropHolding_recalling (e : Entry) (h : HostId) : (e.dropHolding h).recalling = e.recalling := rfl
@[simp] theorem Entry.dropHolding_waiters (e : Entry) (h : HostId) :
    (e.dropHolding h).waiters = e.waiters.map fun w => w.clearedFor h := rfl

@[simp] theorem Entry.answerRecall_state (e : Entry) (h : HostId) : (e.answerRecall h).state = e.state := by
  rw [Entry.answerRecall_frame]
@[simp] theorem Entry.answerRecall_gen (e : Entry) (h : HostId) : (e.answerRecall h).gen = e.gen := by
  rw [Entry.answerRecall_frame]
@[simp] theorem Entry.answerRecall_holdings (e : Entry) (h : HostId) : (e.answerRecall h).holdings = e.holdings := by
  rw [Entry.answerRecall_frame]
@[simp] theorem Entry.answerRecall_waiters (e : Entry) (h : HostId) : (e.answerRecall h).waiters = e.waiters := by
  rw [Entry.answerRecall_frame]
@[simp] theorem Entry.answerRecall_grant (e : Entry) (h : HostId) : (e.answerRecall h).grant = e.grant := by
  rw [Entry.answerRecall_frame]
@[simp] theorem Entry.answerRecall_inFlight (e : Entry) (h : HostId) : (e.answerRecall h).inFlight = e.inFlight := by
  rw [Entry.answerRecall_frame]
@[simp] theorem Entry.answerRecall_refs (e : Entry) (h : HostId) : (e.answerRecall h).refs = e.refs := by
  rw [Entry.answerRecall_frame]

@[simp] theorem Waiter.clearedFor_place (w : Waiter) (h : HostId) : (w.clearedFor h).place = w.place := by
  simp only [Waiter.clearedFor]; split <;> rfl
@[simp] theorem Waiter.clearedFor_mode (w : Waiter) (h : HostId) : (w.clearedFor h).mode = w.mode := by
  simp only [Waiter.clearedFor]; split <;> rfl

theorem Waiter.clearedFor_upgrade (w : Waiter) (h : HostId) :
    (w.clearedFor h).upgrade = (w.upgrade && decide (w.place.host ≠ h)) := by
  simp only [Waiter.clearedFor]; split <;> simp [*]

@[simp] theorem Entry.waitingHosts_dropHolding (e : Entry) (h : HostId) :
    (e.dropHolding h).waitingHosts = e.waitingHosts := by
  simp [Entry.waitingHosts]

theorem Entry.dropHolding_mode (e : Entry) (h k : HostId) : (e.dropHolding h).mode k = if k = h then none else e.mode k := by
  simp only [Entry.mode, Entry.dropHolding_holding]
  split <;> rfl

theorem Entry.dropHolding_holds (e : Entry) (h k : HostId) :
    (e.dropHolding h).holds k = (e.holds k && decide (k ≠ h)) := by
  simp only [Entry.holds, Entry.dropHolding_holding]
  split <;> simp [*]

theorem Entry.dropHolding_holdsX (e : Entry) (h k : HostId) :
    (e.dropHolding h).holdsX k = (e.holdsX k && decide (k ≠ h)) := by
  simp only [Entry.holdsX, Entry.dropHolding_mode]
  split <;> simp [*]

/-- What an entry reads of its holdings is the same after a change elsewhere. -/
theorem Entry.mode_congr {e f : Entry} (h : f.holdings = e.holdings) : f.mode = e.mode := by
  funext k; simp only [Entry.mode, Entry.holding_congr h]
theorem Entry.holds_congr {e f : Entry} (h : f.holdings = e.holdings) : f.holds = e.holds := by
  funext k; simp only [Entry.holds, Entry.holding_congr h]
theorem Entry.holdsX_congr {e f : Entry} (h : f.holdings = e.holdings) : f.holdsX = e.holdsX := by
  funext k; simp only [Entry.holdsX, Entry.mode_congr h]
theorem Entry.recallTargets_congr {e f : Entry} (h : f.holdings = e.holdings) : f.recallTargets = e.recallTargets := by
  funext w
  simp only [Entry.recallTargets, Entry.holds_congr h, Entry.holdsX_congr h]
theorem Entry.exclusivelyHeld_congr {e f : Entry} (h : f.holdings = e.holdings) : f.exclusivelyHeld = e.exclusivelyHeld := by
  simp only [Entry.exclusivelyHeld, Entry.holdsX_congr h]

/-! ## Soundness through the small changes -/

/-- An entry with fewer holdings and accesses, and with waiters in order, is sound. -/
theorem Entry.Sound.of_less {e f : Entry} (s : e.Sound) (holds : ∀ k, f.holds k = true → e.holds k = true)
    (holdsX : ∀ k, f.holdsX k = true → e.holdsX k = true)
    (i : ∀ k : HostId, f.inFlight[k] = none ∨ f.inFlight[k] = e.inFlight[k]) (w : f.waitersOk = true) : f.Sound := by
  obtain ⟨nodup, up, enter⟩ := (f.waitersOk_iff).1 w
  refine ⟨fun h k xh hk => s.sole h k (holdsX h xh) (holds k hk), nodup, up, enter, fun h k xh hk => ?_,
    fun h k write hk => ?_⟩
  · exact (i k).elim id fun same => same.trans (s.besideX h k (holdsX h xh) hk)
  · have := s.besideWrite h k ((i h).elim (fun none => by simp [none] at write) fun same => same ▸ write) hk
    by_contra no
    simp [holds k (by simpa using no)] at this

theorem Entry.Sound.dropHolding {e : Entry} (s : e.Sound) (h : HostId) : (e.dropHolding h).Sound := by
  refine s.of_less (fun k => ?_) (fun k => ?_) (fun _ => .inr rfl) ((Entry.waitersOk_iff _).2 ⟨?_, ?_, ?_⟩)
  · simp only [Entry.dropHolding_holds, Bool.and_eq_true]; exact And.left
  · simp only [Entry.dropHolding_holdsX, Bool.and_eq_true]; exact And.left
  · rw [Entry.waitingHosts_dropHolding]; exact s.nodup
  all_goals
    intro w hw
    obtain ⟨v, hv, rfl⟩ := List.mem_map.1 (Entry.dropHolding_waiters e h ▸ hw)
    simp only [Waiter.clearedFor_upgrade, Waiter.clearedFor_mode, Waiter.clearedFor_place, Entry.holdsS,
      Entry.dropHolding_mode, Entry.dropHolding_holds]
  · rw [Bool.and_eq_true, decide_eq_true_eq]
    rintro ⟨hu, hne⟩
    rw [if_neg hne]
    exact s.upgrades v hv hu
  · by_cases hh : v.place.host = h
    · simp [hh]
    · simpa [hh] using s.enters v hv

/-- Some of the waiters leave. -/
theorem Entry.Sound.filterWaiters {e : Entry} (s : e.Sound) (p : Waiter → Bool) :
    ({ e with waiters := e.waiters.filter p } : Entry).Sound where
  sole := s.sole
  nodup := s.nodup.sublist (List.filter_sublist.map _)
  upgrades w hw := s.upgrades w (List.mem_filter.1 hw).1
  enters w hw := s.enters w (List.mem_filter.1 hw).1
  besideX := s.besideX
  besideWrite := s.besideWrite

/-! ## Ready entries -/

/-- The entry is ready for the end of an event on a page that was in use, where its list is then served, or in TRANSFER,
where it is not (R28, R62). -/
structure Entry.Ready (use : Bool) (e : Entry) : Prop where
  sound : e.Sound
  inUse : use = true → e.grant = none ∧ e.RecallsForHead
  transfer : use = false → e.state = .transfer ∧ e.exclusivelyHeld = false ∧ e.recalling = none ∧
    ∃ g, e.grant = some g ∧ g.Heads e

/-- A well-formed page that somebody holds or waits for is in use or in TRANSFER. -/
theorem Entry.ready_of_wf {e : Entry} (wf : e.wf = true) {h : HostId} (active : e.holds h = true ∨ h ∈ e.waitingHosts) :
    e.Ready e.inUse := by
  rcases e.state_cases with use | st | idle
  · obtain ⟨s, -, hg, hr, -⟩ := (Entry.wf_iff_of_inUse use).1 wf
    exact ⟨s, fun _ => ⟨hg, hr⟩, by simp [use]⟩
  · obtain ⟨s, hx, hr, hg⟩ := (Entry.wf_iff_of_transfer st).1 wf
    exact ⟨s, by simp [Entry.inUse, st], fun _ => ⟨st, hx, hr, hg⟩⟩
  · obtain ⟨-, u, hw, -, -⟩ := (Entry.wf_iff_of_idle idle).1 wf
    rw [Entry.unheld_iff] at u
    simp [u, Entry.waitingHosts, hw] at active

/-- The event ends well: the list is served, or the page stays in TRANSFER. -/
theorem EntryOut.wf_serveIf (env : Env) {o : EntryOut} {use : Bool} (r : o.entry.Ready use) :
    (o.serveIf env use).entry.wf = true := by
  cases use with
  | true => exact EntryOut.wf_serve env r.sound (r.inUse rfl).1 (r.inUse rfl).2
  | false =>
    obtain ⟨st, hx, hr, hg⟩ := r.transfer rfl
    exact (Entry.wf_iff_of_transfer st).2 ⟨r.sound, hx, hr, hg⟩

/-- A host's holding goes, and with it the host from the targets of the recall (R32, R46). -/
theorem Entry.RecallsForHead.dropHolding {e : Entry} (r : e.RecallsForHead) (h : HostId) :
    ((e.dropHolding h).answerRecall h).RecallsForHead := by
  intro r' hr'
  simp only [Entry.answerRecall, Entry.dropHolding_recalling] at hr'
  cases hr : e.recalling with
  | none => simp [hr] at hr'
  | some r₀ =>
    obtain ⟨w, ws, hw, wanted, requester, targets, -⟩ := r r₀ hr
    simp only [hr, Option.mem_def] at hr'
    split at hr'
    · rename_i left
      obtain rfl := Option.some.inj hr'
      refine ⟨w.clearedFor h, ws.map fun v => v.clearedFor h, by simp [hw], by simp [wanted], by simp [requester],
        hostVector_ext fun k => ?_, by simpa using left⟩
      rw [Entry.recallTargets_congr (Entry.answerRecall_holdings _ h), Entry.recallTargets_getElem]
      have set : (r₀.targets.set h.val false h.isLt)[k] = ((e.recallTargets w)[k] && decide (k ≠ h)) := by
        rw [targets, Fin.getElem_fin, Vector.getElem_set]
        by_cases hk : k = h
        · simp [hk]
        · simp [hk, Fin.val_ne_iff.2 (Ne.symm hk)]
      rw [set, Entry.recallTargets_getElem]
      simp only [Waiter.clearedFor_mode, Waiter.clearedFor_upgrade, Waiter.clearedFor_place, Entry.dropHolding_holds,
        Entry.dropHolding_holdsX]
      cases w.mode <;> cases w.upgrade <;> by_cases hh : w.place.host = h <;> simp [hh, Bool.and_right_comm]
    · cases hr'

theorem PendingGrant.Heads.of_less {e f : Entry} {g : PendingGrant} (hd : g.Heads e) (hw : f.waitingHosts = e.waitingHosts)
    (modes : ∀ w ∈ f.waiters, ∃ v ∈ e.waiters, v.place = w.place ∧ v.mode = w.mode)
    (holds : ∀ k, e.holds k = false → f.holds k = false) : g.Heads f where
  run := hw ▸ hd.run
  modes w mem chosen := by
    obtain ⟨v, hv, place, mode⟩ := modes w mem
    exact mode ▸ hd.modes v hv (place ▸ chosen)
  whole left :=
    ⟨(hd.whole left).1, fun hm => ⟨((hd.whole left).2 hm).1, fun k hk => holds k (((hd.whole left).2 hm).2 k hk)⟩⟩

theorem Entry.Ready.dropHolding {use : Bool} {e : Entry} (r : e.Ready use) (h : HostId) :
    ((e.dropHolding h).answerRecall h).Ready use where
  sound := (r.sound.dropHolding h).congr (by simp) (by simp) (by simp)
  inUse hu := ⟨by simp [(r.inUse hu).1], (r.inUse hu).2.dropHolding h⟩
  transfer hu := by
    obtain ⟨st, hx, hr, g, hg, heads⟩ := r.transfer hu
    refine ⟨by simp [st], ?_, by simp [Entry.answerRecall, hr], g, by simp [hg], ?_⟩
    · rw [Entry.exclusivelyHeld_congr (Entry.answerRecall_holdings _ h), Entry.exclusivelyHeld_eq_false_iff]
      intro k
      simp [Entry.dropHolding_holdsX, (e.exclusivelyHeld_eq_false_iff).1 hx k]
    · refine heads.of_less ?_ (fun w hw => ?_) fun k hk => ?_
      · simp [Entry.waitingHosts]
      · simp only [Entry.answerRecall_waiters, Entry.dropHolding_waiters, List.mem_map] at hw
        obtain ⟨v, hv, rfl⟩ := hw
        exact ⟨v, hv, by simp, by simp⟩
      · rw [Entry.holds_congr (Entry.answerRecall_holdings _ h), Entry.dropHolding_holds, hk, Bool.false_and]

/-- A pending grant when the waiter of a host leaves: a chosen waiter leaves the choice (R38). -/
def PendingGrant.without (g : PendingGrant) (h : HostId) : PendingGrant :=
  if g.chosen.contains h then { g with chosen := g.chosen.filter fun k => k ≠ h, left := true } else g

/-- What the departure of a waiter leaves of the entry (R38, R50). -/
theorem EntryOut.removeWaiter_entry (env : Env) (h : HostId) (o : EntryOut) :
    (o.removeWaiter env h).entry =
      { o.entry with
        waiters := o.entry.waiters.filter fun w => w.place.host ≠ h
        grant := o.entry.grant.map fun g => g.without h
        recalling :=
          if (o.entry.waiters.head?.map fun w => w.place.host) = some h then none else o.entry.recalling } := by
  simp only [EntryOut.removeWaiter, PendingGrant.without]
  split
  · cases hr : o.entry.recalling <;> simp [EntryOut.withdraw]
  · rfl

theorem PendingGrant.Heads.without {e f : Entry} {g : PendingGrant} (hd : g.Heads e) (h : HostId)
    (hw : f.waiters = e.waiters.filter fun w => w.place.host ≠ h) (holds : f.holds = e.holds) :
    (g.without h).Heads f := by
  obtain ⟨behind, run⟩ := hd.run
  have hosts : f.waitingHosts = e.waitingHosts.filter fun k => k ≠ h := by
    simp only [Entry.waitingHosts, hw, List.filter_map]; rfl
  have mem : ∀ w ∈ f.waiters, w ∈ e.waiters := fun w m => (List.mem_filter.1 (hw ▸ m)).1
  by_cases c : h ∈ g.chosen
  · refine ⟨⟨behind.filter fun k => k ≠ h, ?_⟩, fun w m => ?_, ?_⟩
    · simp [PendingGrant.without, c, hosts, run]
    · simp only [PendingGrant.without, List.contains_eq_mem, c, decide_true, if_true, List.mem_filter, and_imp]
      exact fun hc _ => hd.modes w (mem w m) hc
    · simp [PendingGrant.without, c]
  · have same : g.without h = g := by simp [PendingGrant.without, c]
    rw [same]
    refine ⟨⟨behind.filter fun k => k ≠ h, ?_⟩, fun w m => hd.modes w (mem w m), holds ▸ hd.whole⟩
    rw [hosts, run, List.filter_append, List.filter_eq_self.2]
    intro k hk
    simp only [decide_eq_true_eq]
    rintro rfl
    exact c hk

theorem Entry.Ready.removeWaiter {use : Bool} {o : EntryOut} (r : o.entry.Ready use) (env : Env) (h : HostId) :
    (o.removeWaiter env h).entry.Ready use := by
  rw [EntryOut.removeWaiter_entry]
  refine ⟨(r.sound.filterWaiters _).congr rfl rfl rfl, fun hu => ⟨by simp [(r.inUse hu).1], ?_⟩, fun hu => ?_⟩
  · intro r' hr'
    simp only [Option.mem_def] at hr'
    split at hr'
    · cases hr'
    · rename_i notHead
      obtain ⟨w, ws, hw, wanted, requester, targets, left⟩ := (r.inUse hu).2 r' hr'
      have stays : w.place.host ≠ h := by simpa [hw] using notHead
      exact ⟨w, ws.filter fun v => v.place.host ≠ h, by simp [hw, stays], wanted, requester, targets, left⟩
  · obtain ⟨st, hx, hr, g, hg, heads⟩ := r.transfer hu
    exact ⟨st, hx, by simp [hr], g.without h, by simp [hg], heads.without h rfl rfl⟩

/-! ## The events -/

theorem Entry.wf_surrender {e : Entry} (wf : e.wf = true) (env : Env) {h : HostId} (holds : e.holds h = true) :
    (e.surrender env h).entry.wf = true :=
  EntryOut.wf_serveIf env ((Entry.ready_of_wf wf (.inl holds)).dropHolding h)

theorem Entry.wf_release {e : Entry} (wf : e.wf = true) (env : Env) (pl : Place) (gen : BitVec 16) :
    (e.release env pl gen).entry.wf = true := by
  simp only [Entry.release]
  split
  · exact wf
  · rename_i v hv
    split_ifs
    · exact wf
    · exact wf
    · exact Entry.wf_surrender wf env (by simp [Entry.holds, hv])

theorem Entry.wf_depart {e : Entry} (wf : e.wf = true) (env : Env) {w : Waiter} (hw : w ∈ e.waiters) (st : Status) :
    (e.depart env w st).entry.wf = true :=
  EntryOut.wf_serveIf env
    (Entry.Ready.removeWaiter (o := EntryOut.start e) (Entry.ready_of_wf wf (.inr (List.mem_map_of_mem hw))) env
      w.place.host)

theorem Entry.wf_cancelRequest {e : Entry} (wf : e.wf = true) (env : Env) (pl target : Place) :
    (e.cancelRequest env pl target).entry.wf = true := by
  simp only [Entry.cancelRequest]
  split
  · exact wf
  · exact Entry.wf_depart wf env (List.mem_of_find?_eq_some ‹_›) .cancelled

theorem Entry.wf_waitTimeout {e : Entry} (wf : e.wf = true) (env : Env) (h : HostId) :
    (e.waitTimeout env h).entry.wf = true := by
  simp only [Entry.waitTimeout]
  split
  · exact wf
  · exact Entry.wf_depart wf env (List.mem_of_find?_eq_some ‹_›) _

theorem Entry.wf_teardown {e : Entry} (wf : e.wf = true) (env : Env) (h : HostId) :
    (e.teardown env h).entry.wf = true := by
  simp only [Entry.teardown]
  split
  · rename_i active
    rw [Bool.or_eq_true, Entry.hasWaiter_iff] at active
    exact EntryOut.wf_serveIf env ((Entry.ready_of_wf wf active).removeWaiter (o := EntryOut.start e) env h |>.dropHolding h)
  · exact wf

end Sys2Proof.Machine
end

