-- ==== Sys2Proof/Proofs/EntryEvents.lean ====
section
/-!
SUPPORT. The page ownership table, part six: DOWNGRADE, the recall deadline, the drain end, ACQUIRE and the events of
retirement, of the access path and of the timebase leave a well-formed entry well formed.
-/

namespace Sys2Proof.Machine

open Sys2Proof

/-! ## DOWNGRADE (R33, R47) -/

theorem Entry.setHolding_holding (e : Entry) (h k : HostId) (v : Option Holding) :
    (e.setHolding h v).holding k = if k = h then v else e.holding k := by
  by_cases hk : k = h
  · subst hk; simp
  · simp [hk, Entry.setHolding_of_ne e v hk]

/-- The entry in which the host `h`, which held X, holds S (R33). -/
theorem Entry.setHolding_mode (e : Entry) (h k : HostId) (v : Holding) :
    (e.setHolding h (some v)).mode k = if k = h then some v.mode else e.mode k := by
  simp only [Entry.mode, Entry.setHolding_holding]
  split <;> rfl

theorem Entry.Sound.downgrade {e : Entry} (s : e.Sound) {h : HostId} (x : e.holdsX h = true) (v : Holding)
    (hv : v.mode = .S) : (e.setHolding h (some v)).Sound := by
  have mode := fun k => e.setHolding_mode h k v
  have holds : ∀ k, (e.setHolding h (some v)).holds k = e.holds k := by
    intro k
    rw [Bool.eq_iff_iff, Entry.holds_iff, Entry.holds_iff, mode]
    split
    · rename_i hk
      simp [hk, (e.holdsX_iff h).1 x]
    · rfl
  refine s.of_less (fun k => by rw [holds]; exact id) (fun k => ?_) (fun _ => .inr rfl)
    ((Entry.waitersOk_iff _).2 ⟨s.nodup, fun w hw hu => ?_, fun w hw hu => ?_⟩)
  · rw [Entry.holdsX_iff, Entry.holdsX_iff, mode]
    split <;> simp [hv]
  · obtain ⟨hm, hS⟩ := s.upgrades w hw hu
    have apart : w.place.host ≠ h := fun hh => by
      rw [hh] at hS
      simp [Entry.not_holdsX_of_holdsS hS] at x
    refine ⟨hm, ?_⟩
    rw [Entry.holdsS_iff] at hS ⊢
    rw [mode, if_neg apart, hS]
  · rw [holds]; exact s.enters w hw hu

/-- A downgrade keeps the recall right for the head: one for S is answered, and one for X has the same targets. -/
theorem Entry.RecallsForHead.downgrade {e : Entry} (r : e.RecallsForHead) (s : e.Sound) {h : HostId}
    (x : e.holdsX h = true) (v : Holding) :
    ((e.setHolding h (some v)).answerByDowngrade h).RecallsForHead := by
  have holds : (e.setHolding h (some v)).holds = e.holds := by
    funext k
    simp only [Entry.holds, Entry.setHolding_holding]
    split
    · rename_i hk
      have := Entry.holds_of_holdsX x
      simp [hk, ← Entry.holds_eq, this]
    · rfl
  intro r' hr'
  cases hr : e.recalling with
  | none =>
    have : (e.setHolding h (some v)).recalling = none := hr
    simp [Entry.answerByDowngrade, this] at hr'
  | some r₀ =>
    have hr₀ : (e.setHolding h (some v)).recalling = some r₀ := hr
    obtain ⟨w, ws, hw, wanted, requester, targets, left⟩ := r r₀ hr
    simp only [Entry.answerByDowngrade, hr₀, Option.mem_def] at hr'
    cases hm : w.mode with
    | S =>
      rw [wanted, hm] at hr'
      simp only [if_true, Entry.answerRecall, hr₀] at hr'
      have gone : (hostIds.any fun k => (r₀.targets.set h.val false h.isLt)[k]) = false := by
        simp only [← Bool.not_eq_true, any_hostIds, not_exists]
        intro k
        rw [targets, Fin.getElem_fin, Vector.getElem_set]
        split
        · simp
        · rename_i hk
          rw [← Fin.getElem_fin, Entry.recallTargets_getElem, hm]
          intro xk
          exact hk (congrArg Fin.val (s.sole h k x (Entry.holds_of_holdsX xk))).symm
      rw [gone] at hr'
      simp at hr'
    | X =>
      have keep : r₀.wanted ≠ .S := by simp [wanted, hm]
      simp only [if_neg keep, hr₀, Option.some.injEq] at hr'
      subst hr'
      have same : (e.setHolding h (some v)).answerByDowngrade h = e.setHolding h (some v) := by
        simp [Entry.answerByDowngrade, hr₀, keep]
      rw [same]
      refine ⟨w, ws, hw, wanted, requester, ?_, left⟩
      rw [targets]
      refine hostVector_ext fun k => ?_
      rw [Entry.recallTargets_getElem, Entry.recallTargets_getElem, hm, holds]
      cases w.upgrade <;> rfl

theorem Entry.answerByDowngrade_frame (e : Entry) (h : HostId) :
    e.answerByDowngrade h = { e with recalling := (e.answerByDowngrade h).recalling } := by
  simp only [Entry.answerByDowngrade]
  split
  · split
    · exact e.answerRecall_frame h
    · rfl
  · rfl

/-- Only a page in use can be held in X. -/
theorem Entry.inUse_of_holdsX {e : Entry} (wf : e.wf = true) {h : HostId} (x : e.holdsX h = true) : e.inUse = true := by
  rcases e.state_cases with use | st | idle
  · exact use
  · have := ((Entry.wf_iff_of_transfer st).1 wf).2.1
    simp [(e.exclusivelyHeld_eq_false_iff).1 this h] at x
  · have := ((Entry.wf_iff_of_idle idle).1 wf).2.1
    simp [Entry.holdsX_eq_false_of_unheld this] at x

theorem Entry.wf_downgrade {e : Entry} (wf : e.wf = true) (env : Env) (pl : Place) (gen : BitVec 16) :
    (e.downgrade env pl gen).entry.wf = true := by
  simp only [Entry.downgrade]
  split
  · exact wf
  · rename_i v hv
    by_cases hS : v.mode = .S
    · rw [if_pos hS]; exact wf
    · have x : e.holdsX pl.host = true := by
        cases hm : v.mode
        · exact absurd hm hS
        · simp [Entry.holdsX, Entry.mode, hv, hm]
      have use := Entry.inUse_of_holdsX wf x
      have r := Entry.ready_of_wf wf (.inl (Entry.holds_of_holdsX x))
      have recalls := (r.inUse use).2.downgrade r.sound x { v with mode := .S }
      rw [if_neg hS]
      split_ifs
      · exact wf
      · exact wf
      refine EntryOut.wf_serveIf env (use := e.inUse) ⟨?_, fun _ => ⟨?_, recalls⟩, by simp [use]⟩
      · refine (r.sound.downgrade x { v with mode := .S } rfl).congr ?_ ?_ ?_ <;>
          simp only [EntryOut.start] <;> rw [Entry.answerByDowngrade_frame]
      · simp only [EntryOut.start]
        rw [Entry.answerByDowngrade_frame]
        exact (r.inUse use).1

/-! ## The recall deadline (R52) -/

theorem EntryOut.sound_revokeAll (env : Env) (hs : List HostId) (o : EntryOut) (s : o.entry.Sound) :
    (EntryOut.revokeAll env hs o).entry.Sound := by
  induction hs generalizing o with
  | nil => exact s
  | cons h hs ih => exact ih (o.revoke env h) (s.dropHolding h)

theorem EntryOut.grant_revokeAll (env : Env) (hs : List HostId) (o : EntryOut) :
    (EntryOut.revokeAll env hs o).entry.grant = o.entry.grant := by
  induction hs generalizing o with
  | nil => rfl
  | cons h hs ih => exact ih (o.revoke env h)

/-- Only a page in use has a recall. -/
theorem Entry.inUse_of_recalling {e : Entry} (wf : e.wf = true) {r : Recall} (hr : e.recalling = some r) :
    e.inUse = true := by
  rcases e.state_cases with use | st | idle
  · exact use
  · simp [((Entry.wf_iff_of_transfer st).1 wf).2.2.1] at hr
  · simp [((Entry.wf_iff_of_idle idle).1 wf).2.2.2.1] at hr

theorem Entry.wf_recallDeadline {e : Entry} (wf : e.wf = true) (env : Env) : (e.recallDeadline env).entry.wf = true := by
  simp only [Entry.recallDeadline]
  split
  · exact wf
  · rename_i r hr
    split
    · have use := Entry.inUse_of_recalling wf hr
      obtain ⟨s, -, hg, -, -⟩ := (Entry.wf_iff_of_inUse use).1 wf
      refine EntryOut.wf_serveIf env (use := e.inUse) ⟨?_, fun _ => ⟨?_, by simp [Entry.RecallsForHead]⟩, by simp [use]⟩
      · exact (EntryOut.sound_revokeAll env _ (EntryOut.start e) s).congr rfl rfl rfl
      · exact (EntryOut.grant_revokeAll env _ (EntryOut.start e)).trans hg
    · exact wf

/-! ## The drain end (R63, R64) -/

/-- The waiters that a whole choice names head the list. -/
theorem PendingGrant.Heads.split {e : Entry} {g : PendingGrant} (hd : g.Heads e) :
    ∃ gs rest, e.waiters = gs ++ rest ∧ (gs.map fun w => w.place.host) = g.chosen := by
  obtain ⟨behind, run⟩ := hd.run
  obtain ⟨gs, rest, split, hgs, -⟩ := List.map_eq_append_iff.1 run
  exact ⟨gs, rest, split, hgs⟩

/-- A page in TRANSFER whose choice is whole may make its held-back grant. -/
theorem PendingGrant.Heads.mayGrant {e : Entry} {g : PendingGrant} (hd : g.Heads e) (noX : e.exclusivelyHeld = false)
    (left : g.left = false) : e.MayGrant g.mode g.chosen :=
  ⟨noX, (hd.whole left).1, (hd.whole left).2⟩

/-- The held-back grant of a whole choice is one grant event for the waiters chosen, and the list is served once more. -/
theorem Entry.drainEnd_of_whole {e : Entry} (s : e.Sound) (hr : e.recalling = none) (env : Env) {g : PendingGrant}
    (hg : e.grant = some g) (st : e.state = .transfer) (calm : e.hasStray = false) (left : g.left = false)
    {gs rest : List Waiter} (split : e.waiters = gs ++ rest) (hgs : (gs.map fun w => w.place.host) = g.chosen) :
    e.drainEnd env =
      ({ EntryOut.start (e.grantedTo g.mode gs rest) with
          posts := grantReplies env.page (e.gen + 1) gs } : EntryOut).serve env := by
  have nodup := s.nodup
  rw [Entry.waitingHosts, split] at nodup
  have chosen : e.waiters.filter (fun w => g.chosen.contains w.place.host) = gs := by
    rw [split, ← hgs, filter_chosen nodup]
  have granted := EntryOut.grant_eq env g.mode gs rest (EntryOut.start e) s.nodup split hr
  simp only [Entry.drainEnd, hg, st, calm, left, chosen, granted]
  rfl

theorem Entry.wf_drainEnd {e : Entry} (wf : e.wf = true) (env : Env) : (e.drainEnd env).entry.wf = true := by
  cases hg : e.grant with
  | none =>
    have eq : e.drainEnd env = EntryOut.start e := by simp only [Entry.drainEnd, hg]
    rw [eq]
    exact wf
  | some g =>
    by_cases ends : e.state = .transfer ∧ e.hasStray = false
    · obtain ⟨st, calm⟩ := ends
      obtain ⟨s, hx, hr, g', hg', heads⟩ := (Entry.wf_iff_of_transfer st).1 wf
      obtain rfl : g = g' := Option.some.inj (hg.symm.trans hg')
      cases left : g.left with
      | true =>
        have eq : e.drainEnd env = (EntryOut.start { e with grant := none }).serve env := by
          simp [Entry.drainEnd, hg, st, calm, left]
        rw [eq]
        exact EntryOut.wf_serve env (s.congr rfl rfl rfl) rfl (by simp [EntryOut.start, Entry.RecallsForHead, hr])
      | false =>
        obtain ⟨gs, rest, split, hgs⟩ := heads.split
        have granted := Entry.grantedTo_grantOf s calm split (hgs ▸ heads.mayGrant hx left)
        rw [Entry.drainEnd_of_whole s hr env hg st calm left split hgs]
        exact EntryOut.wf_serve env granted.sound rfl (by simp [EntryOut.start, Entry.RecallsForHead, Entry.grantedTo])
    · have eq : e.drainEnd env = EntryOut.start e := by
        simp only [Entry.drainEnd, hg]
        rw [if_neg (by simpa using ends)]
      rw [eq]
      exact wf

/-! ## ACQUIRE (R22 to R26) -/

/-- The waiter record of an ACQUIRE that must wait is the one the statements name (R5, R20). -/
theorem newWaiter_eq (e : Entry) (env : Env) (pl : Place) (m : Mode) (limit : BitVec 16) :
    newWaiter e env pl m limit = waiterOf e pl m limit env.now := by
  simp [newWaiter, waiterOf, Entry.holdsS, Bool.decide_and]

/-- No recall runs on a page in use without a waiter (R42). -/
theorem Entry.recalling_of_no_waiter {e : Entry} (wf : e.wf = true) (use : e.inUse = true) (hw : e.waiters = []) :
    e.recalling = none := by
  obtain ⟨-, -, -, recalls, -⟩ := (Entry.wf_iff_of_inUse use).1 wf
  by_contra some
  obtain ⟨r, hr⟩ := Option.ne_none_iff_exists'.1 some
  obtain ⟨w, ws, hw', -⟩ := recalls r hr
  simp [hw] at hw'

/-- A page on which a request is grantable has no waiter and may be granted to the host (R24). -/
theorem Entry.mayGrant_of_grantable {e : Entry} (wf : e.wf = true) {h : HostId} {m : Mode}
    (g : e.grantable h m = true) :
    e.waiters = [] ∧ e.recalling = none ∧ e.MayGrant m [h] := by
  simp only [Entry.grantable, Bool.and_eq_true, Bool.or_eq_true, decide_eq_true_eq, List.isEmpty_iff] at g
  obtain ⟨hw, st | ⟨st, mode⟩⟩ := g
  · obtain ⟨-, u, -, hr, -⟩ := (Entry.wf_iff_of_idle (.inl st)).1 wf
    exact ⟨hw, hr, Entry.exclusivelyHeld_of_unheld u, by simp, fun _ => ⟨rfl, fun k _ => (e.unheld_iff).1 u k⟩⟩
  · have use : e.inUse = true := (e.inUse_iff).2 (.inr st)
    have hr := Entry.recalling_of_no_waiter wf use hw
    have shape := ((e.wf_iff_parts).1 wf).1
    simp only [Entry.shapeOk, st, Bool.and_eq_true, Bool.not_eq_true'] at shape
    refine ⟨hw, hr, shape.1.2, by simp, fun hm => ⟨rfl, fun k hk => ?_⟩⟩
    have only := (e.onlyHolder_iff h).1 (mode.resolve_left (by simp [hm])) k
    by_contra no
    exact hk (by simpa using only.1 (by simpa using no))

/-- The waiter that joins at the tail leaves the entry sound (R5, R6). -/
theorem Entry.Sound.append {e : Entry} (s : e.Sound) {pl : Place} {m : Mode}
    (answers : e.answersFromHolding pl.host m = false) (fresh : e.hasWaiter pl.host = false) (limit : BitVec 16) (now : Word) :
    ({ e with waiters := e.waiters ++ [waiterOf e pl m limit now] } : Entry).Sound := by
  have place : (waiterOf e pl m limit now).place = pl := rfl
  have mem : ∀ w ∈ e.waiters ++ [waiterOf e pl m limit now], w ∈ e.waiters ∨ w = waiterOf e pl m limit now := by simp
  simp only [Entry.answersFromHolding, Bool.or_eq_false_iff, Bool.and_eq_false_iff, decide_eq_false_iff_not] at answers
  refine ⟨s.sole, ?_, fun w hw hu => ?_, fun w hw hu => ?_, s.besideX, s.besideWrite⟩
  · rw [← Bool.not_eq_true, Entry.hasWaiter_iff] at fresh
    simp only [Entry.waitingHosts, List.map_append, List.map_cons, List.map_nil, place]
    refine List.nodup_append.2 ⟨s.nodup, by simp, fun a ha b hb => ?_⟩
    rintro rfl
    exact fresh (List.mem_singleton.1 hb ▸ ha)
  · rcases mem w hw with old | rfl
    · exact s.upgrades w old hu
    · simp only [waiterOf, decide_eq_true_eq] at hu
      exact ⟨hu.2, (e.holdsS_iff _).2 hu.1⟩
  · rcases mem w hw with old | rfl
    · exact s.enters w old hu
    · simp only [waiterOf, decide_eq_false_iff_not, not_and] at hu
      show e.holds pl.host = false
      by_contra no
      have holds : e.holds pl.host = true := by simpa using no
      rcases (e.holds_iff_mode _).1 holds with x | x
      · simp [answers.1] at x
      · have hm := hu ((e.holdsS_iff _).1 x)
        cases m with
        | X => exact hm rfl
        | S => simp [holds] at answers

/-- A waiter that joins behind another, or on a page in TRANSFER, changes nothing else and starts no recall. -/
theorem Entry.wf_append {e : Entry} (wf : e.wf = true) {pl : Place} {m : Mode}
    (answers : e.answersFromHolding pl.host m = false) (fresh : e.hasWaiter pl.host = false) (limit : BitVec 16)
    (now : Word) (behind : e.waiters ≠ [] ∨ e.state = .transfer) :
    ({ e with waiters := e.waiters ++ [waiterOf e pl m limit now] } : Entry).wf = true := by
  have sound := (Entry.sound_of_wf wf).append answers fresh limit now
  have transfer : e.state = .transfer →
      ({ e with waiters := e.waiters ++ [waiterOf e pl m limit now] } : Entry).wf = true := by
    intro st
    obtain ⟨s, hx, hr, g, hg, heads⟩ := (Entry.wf_iff_of_transfer st).1 wf
    obtain ⟨rest, run⟩ := heads.run
    have st' : ({ e with waiters := e.waiters ++ [waiterOf e pl m limit now] } : Entry).state = .transfer := st
    refine (Entry.wf_iff_of_transfer st').2 ⟨sound, hx, hr, g, hg, ⟨⟨rest ++ [pl.host], ?_⟩, fun w hw => ?_, heads.whole⟩⟩
    · simp only [Entry.waitingHosts, List.map_append, List.map_cons, List.map_nil] at run ⊢
      rw [run, List.append_assoc]
      rfl
    · rcases List.mem_append.1 hw with old | new
      · exact heads.modes w old
      · obtain rfl := List.mem_singleton.1 new
        intro chosen
        rw [← Bool.not_eq_true, Entry.hasWaiter_iff, run] at fresh
        exact absurd (List.mem_append_left _ chosen) fresh
  rcases e.state_cases with use | st | idle
  · have use' : ({ e with waiters := e.waiters ++ [waiterOf e pl m limit now] } : Entry).inUse = true := use
    obtain ⟨-, st, hg, recalls, runs⟩ := (Entry.wf_iff_of_inUse use).1 wf
    have ne : e.waiters ≠ [] := behind.resolve_right fun st => by simp [Entry.inUse, st] at use
    refine (Entry.wf_iff_of_inUse use').2 ⟨sound, st, hg, fun r hr => ?_, fun _ => runs ne⟩
    obtain ⟨w, ws, hw, wanted, requester, targets, left⟩ := recalls r hr
    exact ⟨w, ws ++ [waiterOf e pl m limit now], by simp [hw], wanted, requester, targets, left⟩
  · exact transfer st
  · exact transfer (behind.resolve_left fun ne => ne ((Entry.wf_iff_of_idle idle).1 wf).2.2.1)

/-- A request that is not grantable on a page in use without a waiter is blocked by a holder (R24, R29). -/
theorem Entry.blocked_of_not_grantable {e : Entry} (wf : e.wf = true) (use : e.inUse = true) (hw : e.waiters = [])
    {pl : Place} {m : Mode} (answers : e.answersFromHolding pl.host m = false) (g : e.grantable pl.host m = false)
    (limit : BitVec 16) (now : Word) : e.canServe (waiterOf e pl m limit now) = false := by
  obtain ⟨s, st, -⟩ := (Entry.wf_iff_of_inUse use).1 wf
  have held : e.unheld = false := by
    cases u : e.unheld
    · rfl
    · rw [Entry.stateOfHoldings_of_unheld u] at st
      simp [Entry.inUse, st] at use
  simp only [Entry.grantable, hw, List.isEmpty_nil, Bool.true_and, Bool.or_eq_false_iff, Bool.and_eq_false_iff,
    decide_eq_false_iff_not] at g
  simp only [Entry.answersFromHolding, Bool.or_eq_false_iff] at answers
  have shared : (∀ k, e.mode k ≠ some .X) → e.state = .shared := fun noX =>
    st.trans (Entry.stateOfHoldings_of_shared
      ((e.exclusivelyHeld_eq_false_iff).2 fun k => by simpa [Entry.holdsX] using noX k) held)
  rw [← Bool.not_eq_true, Entry.canServe_iff]
  rintro ⟨serveS, serveX, serveUp⟩
  cases m with
  | S => exact (g.2.resolve_right (by simp)) (shared (serveS rfl))
  | X =>
    cases hu : (waiterOf e pl .X limit now).upgrade with
    | false =>
      obtain ⟨k, hk⟩ := (e.unheld_eq_false_iff).1 held
      simp [serveX rfl hu k] at hk
    | true =>
      obtain ⟨own, others⟩ := serveUp rfl hu
      have own : e.mode pl.host = some .S := own
      have others : ∀ k, k ≠ pl.host → e.holds k = false := others
      have only : e.onlyHolder pl.host = true := by
        refine (e.onlyHolder_iff _).2 fun k => ⟨fun hk => ?_, fun hk => ?_⟩
        · by_contra no
          simp [others k no] at hk
        · exact hk ▸ Entry.holds_of_holdsS ((e.holdsS_iff _).2 own)
      refine g.2.elim (fun notShared => notShared (shared fun k => ?_)) fun notOnly => by simp [only] at notOnly
      by_cases hk : k = pl.host
      · simp [hk, own]
      · simp [(e.not_holds_iff k).1 (others k hk)]

/-- The wait decision leaves a well-formed entry (R26). -/
theorem Entry.wf_waitDecision {e : Entry} (wf : e.wf = true) (env : Env) (overQuota poolFull : Bool) {pl : Place} {m : Mode}
    (answers : e.answersFromHolding pl.host m = false) (fresh : e.hasWaiter pl.host = false)
    (idle : ¬(e.state = .retired ∨ e.state = .scrub)) (limit : BitVec 16) :
    (e.waitDecision env overQuota poolFull pl m limit).entry.wf = true := by
  have sound := (Entry.sound_of_wf wf).append answers fresh limit env.now
  simp only [Entry.waitDecision, newWaiter_eq]
  split_ifs with _ _ _ g alone
  · exact wf
  · exact wf
  · exact wf
  · obtain ⟨hw, hr, may⟩ := Entry.mayGrant_of_grantable wf g
    refine (Entry.wf_iff_of_transfer rfl).2 ⟨sound.congr rfl rfl rfl, may.noX, rfl, _, rfl, ?_⟩
    exact Entry.heads_of_mayGrant (gs := [waiterOf e pl m limit env.now]) (rest := []) (sound.congr rfl rfl rfl)
      (by simp [EntryOut.holdBack, EntryOut.start, hw]) (by simp [waiterOf]) ⟨may.noX, may.nonempty, may.alone⟩
  · have hw : e.waiters = [] := by simpa using alone
    rcases e.state_cases with use | st | free | st
    · obtain ⟨-, st, hg, -, -⟩ := (Entry.wf_iff_of_inUse use).1 wf
      have hr := Entry.recalling_of_no_waiter wf use hw
      have blocked := Entry.blocked_of_not_grantable wf use hw answers (by simpa using g) limit env.now
      rw [EntryOut.recallIfBlocked_of_blocked env (o := EntryOut.start _) sound (by simp [EntryOut.start, hw]; rfl) use hr
        blocked]
      exact sound.wf_of_recall (by simp [hw]; rfl) st hg blocked env.now env.limit rfl
    · have notUse : e.inUse = false := by simp [Entry.inUse, st]
      have same : (EntryOut.start { e with waiters := e.waiters ++ [waiterOf e pl m limit env.now] }).recallIfBlocked env =
          EntryOut.start { e with waiters := e.waiters ++ [waiterOf e pl m limit env.now] } := by
        have notUse' : ({ e with waiters := e.waiters ++ [waiterOf e pl m limit env.now] } : Entry).inUse = false := notUse
        simp only [EntryOut.recallIfBlocked, EntryOut.start, notUse', Bool.false_and, Bool.false_eq_true, if_false]
        split <;> rfl
      rw [same]
      exact Entry.wf_append wf answers fresh limit env.now (.inr st)
    · simp [Entry.grantable, hw, free] at g
    · exact absurd st idle
  · exact Entry.wf_append wf answers fresh limit env.now (.inl (by simpa using alone))

/-- The grant at once of a request on a page without a waiter and without a stray operation (R24). -/
theorem Entry.wf_grant {e : Entry} (wf : e.wf = true) (env : Env) {pl : Place} {m : Mode}
    (g : e.grantable pl.host m = true) (calm : e.hasStray = false) :
    ((EntryOut.start e).grant env m [pl]).entry.wf = true := by
  obtain ⟨hw, hr, may⟩ := Entry.mayGrant_of_grantable wf g
  have granted : e.GrantOf ((EntryOut.start e).grant env m [pl]).entry m [pl.host] := by
    rw [EntryOut.grant_def]
    exact
      { before := Entry.sound_of_wf wf, may := may, calm := calm, holdings := rfl, inFlight := rfl, refs := rfl,
        state := rfl, grant := rfl, recalling := hr, behind := by simp [EntryOut.start, hw]
        nodup := by simp [EntryOut.start, Entry.waitingHosts, hw] }
  have noWaiter : ((EntryOut.start e).grant env m [pl]).entry.waiters = [] := by
    rw [EntryOut.grant_def]
    simp [EntryOut.start, hw]
  exact (Entry.wf_iff_of_inUse granted.inUse).2
    ⟨granted.sound, granted.state_eq, granted.grant, by simp [Entry.RecallsForHead, granted.recalling],
      fun ne => absurd noWaiter ne⟩

theorem Entry.wf_acquire {e : Entry} (wf : e.wf = true) (env : Env) (overQuota poolFull : Bool) (pl : Place) (m : Mode)
    (limit : BitVec 16) : (e.acquire env overQuota poolFull pl m limit).entry.wf = true := by
  simp only [Entry.acquire]
  split_ifs with idle answers fresh g
  · exact wf
  · exact wf
  · exact wf
  · exact wf
  · rw [Bool.and_eq_true, Bool.not_eq_true'] at g
    exact Entry.wf_grant wf env g.1 g.2
  · exact Entry.wf_waitDecision wf env overQuota poolFull (by simpa using answers) (by simpa using fresh) idle limit

/-! ## Retirement, the access path, the engine and the timebase -/

/-- An entry that nobody holds and nobody waits for is sound, whatever is in flight. -/
theorem Entry.sound_of_unheld {e : Entry} (u : e.unheld = true) (hw : e.waiters = []) : e.Sound where
  sole h _ xh := by simp [Entry.holdsX_eq_false_of_unheld u h] at xh
  nodup := by simp [Entry.waitingHosts, hw]
  upgrades := by simp [hw]
  enters := by simp [hw]
  besideX h _ xh := by simp [Entry.holdsX_eq_false_of_unheld u h] at xh
  besideWrite _ k _ _ := (e.unheld_iff).1 u k

theorem Entry.wf_parityReport {e : Entry} (wf : e.wf = true) (env : Env) : (e.parityReport env).entry.wf = true := by
  simp only [Entry.parityReport]
  split
  · exact wf
  · refine (Entry.wf_iff_of_idle (.inr (.inl rfl))).2 ⟨?_, ?_, rfl, rfl, rfl⟩
    · exact Entry.sound_of_unheld (by simp [Entry.unheld_iff, Entry.holds, Entry.holding]) rfl
    · simp [Entry.unheld_iff, Entry.holds, Entry.holding]

/-- A well-formed idle page may go from one idle state to another. -/
theorem Entry.wf_of_idle {e f : Entry} (wf : e.wf = true) (he : e.state = .free ∨ e.state = .retired ∨ e.state = .scrub)
    (hf : f.state = .free ∨ f.state = .retired ∨ f.state = .scrub)
    (same : ∀ st, { f with state := st, refs := e.refs } = { e with state := st }) : f.wf = true := by
  obtain ⟨s, u, hw, hr, hg⟩ := (Entry.wf_iff_of_idle he).1 wf
  cases f
  obtain ⟨-, rfl, rfl, rfl, rfl, rfl, rfl, -⟩ := Entry.mk.inj (same .free)
  exact (Entry.wf_iff_of_idle hf).2 ⟨s.congr rfl rfl rfl, u, hw, hr, hg⟩

theorem Entry.wf_retire {e : Entry} (wf : e.wf = true) (env : Env) (pl : Place) : (e.retire env pl).entry.wf = true := by
  simp only [Entry.retire]
  split
  · exact Entry.wf_of_idle wf (.inl ‹_›) (.inr (.inl rfl)) fun _ => rfl
  all_goals exact wf

theorem Entry.wf_scrubRefused {e : Entry} (wf : e.wf = true) (env : Env) (pl : Place) :
    (e.scrubRefused env pl).entry.wf = true := by
  by_cases st : e.state = .scrub
  · exact Entry.wf_of_idle wf (.inr (.inr st)) (.inr (.inl (by simp [Entry.scrubRefused, Entry.reply, EntryOut.start, st])))
      fun _ => rfl
  · have same : ({ e with state := if e.state = .scrub then .retired else e.state } : Entry) = e := by simp [st]
    simp only [Entry.scrubRefused, same]
    exact wf

/-- The references are no part of what is well formed. -/

theorem Entry.wf_endScrub {e : Entry} (wf : e.wf = true) (job : Place) : (e.endScrub job).wf = true := by
  by_cases st : e.state = .scrub
  · exact Entry.wf_of_idle wf (.inr (.inr st)) (.inl (by simp [Entry.endScrub, st])) fun _ => rfl
  · have same : e.endScrub job = e.removeRef job := by simp [Entry.endScrub, Entry.removeRef, st]
    rw [same]
    exact wf

/-- RESTORE puts a RETIRED page in SCRUB (R175). -/
theorem Entry.wf_restore {e : Entry} (wf : e.wf = true) (st : e.state = .retired) :
    ({ e with state := .scrub } : Entry).wf = true :=
  Entry.wf_of_idle wf (.inr (.inl st)) (.inr (.inr rfl)) fun _ => rfl

/-- The delivery of an expiry marks waiters and the recall and changes nothing that well-formedness reads (R19). -/
theorem Entry.wf_expire {e : Entry} (wf : e.wf = true) (now : Word) : (e.expire now).wf = true := by
  have field : ∀ w : Waiter, ∃ d, (if w.deadline = some now then { w with due := true } else w) = { w with due := d } :=
    fun w => by split <;> exact ⟨_, rfl⟩
  have hosts : (e.expire now).waitingHosts = e.waitingHosts := by
    simp only [Entry.expire, Entry.waitingHosts, List.map_map]
    refine List.map_congr_left fun w _ => ?_
    simp only [Function.comp_apply]
    split <;> rfl
  have mem : ∀ w ∈ (e.expire now).waiters, ∃ v ∈ e.waiters, ∃ d, w = { v with due := d } := by
    intro w hw
    obtain ⟨v, hv, rfl⟩ := List.mem_map.1 hw
    obtain ⟨d, hd⟩ := field v
    exact ⟨v, hv, d, hd⟩
  have sound : e.Sound → (e.expire now).Sound := fun s =>
    s.of_less (fun _ => id) (fun _ => id) (fun _ => .inr rfl) ((Entry.waitersOk_iff _).2 ⟨hosts ▸ s.nodup,
      fun w hw => by obtain ⟨v, hv, d, rfl⟩ := mem w hw; exact s.upgrades v hv,
      fun w hw => by obtain ⟨v, hv, d, rfl⟩ := mem w hw; exact s.enters v hv⟩)
  rcases e.state_cases with use | st | idle
  · obtain ⟨s, st, hg, recalls, runs⟩ := (Entry.wf_iff_of_inUse use).1 wf
    refine (Entry.wf_iff_of_inUse (e := e.expire now) use).2 ⟨sound s, st, hg, fun r hr => ?_, fun ne => ?_⟩
    · obtain ⟨r₀, hr₀, rfl⟩ := Option.map_eq_some_iff.1 hr
      obtain ⟨w, ws, hw, wanted, requester, targets, left⟩ := recalls r₀ hr₀
      obtain ⟨d, hd⟩ := field w
      have head : (e.expire now).waiters = { w with due := d } ::
          ws.map fun w => if w.deadline = some now then { w with due := true } else w := by
        simp only [Entry.expire, hw, List.map_cons, hd]
      refine ⟨_, _, head, ?_⟩
      split
      all_goals exact ⟨wanted, requester, targets, left⟩
    · have : e.recalling ≠ none := runs fun none => ne (by simp [Entry.expire, none])
      simpa [Entry.expire] using this
  · obtain ⟨s, hx, hr, g, hg, heads⟩ := (Entry.wf_iff_of_transfer st).1 wf
    refine (Entry.wf_iff_of_transfer (e := e.expire now) st).2 ⟨sound s, hx, by simp [Entry.expire, hr], g, hg,
      heads.of_less hosts (fun w hw => ?_) fun _ => id⟩
    obtain ⟨v, hv, d, rfl⟩ := mem w hw
    exact ⟨v, hv, rfl, rfl⟩
  · obtain ⟨s, u, hw, hr, hg⟩ := (Entry.wf_iff_of_idle idle).1 wf
    exact (Entry.wf_iff_of_idle (e := e.expire now) idle).2
      ⟨sound s, u, by simp [Entry.expire, hw], by simp [Entry.expire, hr], hg⟩

/-- Well-formedness reads the in-flight set only in the guarantee on accesses (R12, R97). -/
theorem Entry.wf_of_inFlight {e f : Entry} (wf : e.wf = true) (same : { f with inFlight := e.inFlight } = e)
    (access : f.accessOk = true) : f.wf = true := by
  obtain ⟨shape, waiters, recalls, grant, -⟩ := (e.wf_iff_parts).1 wf
  cases f; cases e
  cases same
  exact (Entry.wf_iff_parts _).2 ⟨shape, waiters, recalls, grant, access⟩

theorem Entry.setPair_inFlight (e : Entry) (h k : HostId) (d : Option Dir) :
    (e.setPair h d).inFlight[k] = if k = h then d else e.inFlight[k] := by
  simp only [Entry.setPair, Fin.getElem_fin, Vector.getElem_set]
  by_cases hk : k = h
  · simp [hk]
  · simp [hk, Fin.val_ne_iff.2 (Ne.symm hk)]

/-- The end of an access removes its pair. -/
theorem Entry.wf_clearPair {e : Entry} (wf : e.wf = true) (h : HostId) : (e.setPair h none).wf = true := by
  have s := Entry.sound_of_wf wf
  refine Entry.wf_of_inFlight wf rfl (Entry.Sound.accessOk (s.of_less (fun _ => id) (fun _ => id) (fun k => ?_) s.waitersOk))
  rw [Entry.setPair_inFlight]
  split <;> simp

/-- What a check that passes says of the host's holding (R97). -/
theorem Entry.checkAccess_eq_none {e : Entry} {h : HostId} {d : Dir} (c : e.checkAccess h d = none) :
    e.holds h = true ∧ (d = .write → e.holdsX h = true) := by
  simp only [Entry.checkAccess] at c
  split_ifs at c with idle holds write
  have holds : e.holds h = true := by simpa using holds
  refine ⟨holds, fun hd => ((e.holds_iff_mode h).1 holds).resolve_right fun x => write ⟨hd, x⟩⟩

/-- An access whose check has passed joins those in flight (R97). -/
theorem Entry.wf_setPair {e : Entry} (wf : e.wf = true) {h : HostId} {d : Dir} (c : e.checkAccess h d = none) :
    (e.setPair h (some d)).wf = true := by
  have s := Entry.sound_of_wf wf
  obtain ⟨holds, write⟩ := Entry.checkAccess_eq_none c
  refine Entry.wf_of_inFlight wf rfl ((Entry.accessOk_iff _).2 ⟨fun j k xj hk => ?_, fun j k hw hk => ?_⟩)
  · rw [Entry.setPair_inFlight, if_neg, s.besideX j k xj hk]
    rintro rfl
    exact hk (s.sole j k xj holds)
  · rw [Entry.setPair_inFlight] at hw
    split at hw
    · rename_i hj
      have x := write (Option.some.inj hw)
      show e.holds k = false
      by_contra no
      exact hk (hj ▸ s.sole h k x (by simpa using no))
    · exact s.besideWrite j k hw hk

end Sys2Proof.Machine
end

