-- ==== Sys2Proof/Proofs/CountsAndGenerations.lean ====
section
/-!
SUPPORT. The page ownership table, part seven: what an event of an entry does to the generation and to the counts. The
generation of a page with a stray operation stays (R4, R61), and only an ACQUIRE within the quota and the pool makes a
host's holdings plus waiters grow (R7, R15, R25).
-/

namespace Sys2Proof.Machine

open Sys2Proof

/-! ## Stray operations and the generation -/

/-- An operation that was stray is stray on the entry with fewer holdings. -/
theorem Entry.hasStray_of_less {e f : Entry} (holds : ∀ k, f.holds k = true → e.holds k = true)
    (holdsX : ∀ k, f.holdsX k = true → e.holdsX k = true) (i : f.inFlight = e.inFlight) (r : f.refs = e.refs)
    (stray : e.hasStray = true) : f.hasStray = true := by
  have not_holds : ∀ k, e.holds k = false → f.holds k = false := fun k hk => by
    by_contra no; simp [holds k (by simpa using no)] at hk
  have not_holdsX : ∀ k, e.holdsX k = false → f.holdsX k = false := fun k hk => by
    by_contra no; simp [holdsX k (by simpa using no)] at hk
  simp only [Entry.hasStray, Bool.or_eq_true, List.any_eq_true, r] at stray ⊢
  refine stray.imp (Exists.imp fun h hs => ?_) (Exists.imp fun x hs => ⟨hs.1, ?_⟩)
  · simp only [Entry.strayPair, i] at hs ⊢
    cases hi : e.inFlight[h] with
    | none => simp [hi] at hs
    | some d => cases d <;> simp_all
  · obtain ⟨-, hs⟩ := hs
    simp only [Entry.strayRef, Bool.and_eq_true] at hs ⊢
    refine ⟨hs.1, ?_⟩
    cases hn : x.need with
    | none => simp [hn] at hs
    | some m => cases m <;> simp_all

theorem Entry.hasStray_congr {e f : Entry} (h : f.holdings = e.holdings) (i : f.inFlight = e.inFlight)
    (r : f.refs = e.refs) : f.hasStray = e.hasStray := by
  cases e; cases f; cases h; cases i; cases r; rfl

theorem EntryOut.recallIfBlocked_gen (env : Env) (o : EntryOut) : (o.recallIfBlocked env).entry.gen = o.entry.gen := by
  simp only [EntryOut.recallIfBlocked]
  split
  · rfl
  · split <;> rfl

/-- The serving of a list on a page with a stray operation makes no grant event (R61). -/
theorem EntryOut.serve_gen (env : Env) {o : EntryOut} (stray : o.entry.hasStray = true) :
    (o.serve env).entry.gen = o.entry.gen := by
  simp only [EntryOut.serve, EntryOut.decideGrant, stray, if_true]
  split
  · rfl
  · split
    · rfl
    · exact EntryOut.recallIfBlocked_gen env _

theorem EntryOut.serveIf_gen (env : Env) (use : Bool) {o : EntryOut} (stray : o.entry.hasStray = true) :
    (o.serveIf env use).entry.gen = o.entry.gen := by
  simp only [EntryOut.serveIf]
  split
  · exact EntryOut.serve_gen env stray
  · rfl

theorem Entry.dropHolding_hasStray {e : Entry} (h : HostId) (stray : e.hasStray = true) :
    (e.dropHolding h).hasStray = true := by
  refine Entry.hasStray_of_less (e := e) (fun k => ?_) (fun k => ?_) rfl rfl stray
  · simp only [Entry.dropHolding_holds, Bool.and_eq_true]; exact And.left
  · simp only [Entry.dropHolding_holdsX, Bool.and_eq_true]; exact And.left

theorem Entry.surrender_gen {e : Entry} (env : Env) (h : HostId) (stray : e.hasStray = true) :
    (e.surrender env h).entry.gen = e.gen := by
  refine (EntryOut.serveIf_gen env e.inUse (o := EntryOut.start _) ?_).trans (by simp [EntryOut.start])
  simp only [EntryOut.start]
  rw [Entry.hasStray_congr (Entry.answerRecall_holdings _ h) (Entry.answerRecall_inFlight _ h) (Entry.answerRecall_refs _ h)]
  exact Entry.dropHolding_hasStray h stray

theorem Entry.release_gen {e : Entry} (env : Env) (pl : Place) (gen : BitVec 16) (stray : e.hasStray = true) :
    (e.release env pl gen).entry.gen = e.gen := by
  simp only [Entry.release]
  split
  · rfl
  · split_ifs
    · rfl
    · rfl
    · exact Entry.surrender_gen env pl.host stray

theorem Entry.downgrade_gen {e : Entry} (env : Env) (pl : Place) (gen : BitVec 16) (stray : e.hasStray = true) :
    (e.downgrade env pl gen).entry.gen = e.gen := by
  simp only [Entry.downgrade]
  split
  · rfl
  · rename_i v hv
    rw [Entry.answerByDowngrade_frame]
    by_cases hS : v.mode = .S
    · rw [if_pos hS]; rfl
    rw [if_neg hS]
    split_ifs
    · rfl
    · rfl
    all_goals
      refine (EntryOut.serveIf_gen env _ (o := EntryOut.start _) ?_).trans rfl
      have mode := fun k => e.setHolding_mode pl.host k { v with mode := .S }
      refine Entry.hasStray_of_less (e := e) (fun k => ?_) (fun k => ?_) rfl rfl stray
      · have holds : e.holds pl.host = true := by simp [Entry.holds, hv]
        show (e.setHolding pl.host (some { v with mode := .S })).holds k = true → _
        rw [Entry.holds_iff, mode, Entry.holds_iff]
        split
        · rename_i hk
          exact fun _ => (e.holds_iff k).1 (hk ▸ holds)
        · exact id
      · show (e.setHolding pl.host (some { v with mode := .S })).holdsX k = true → _
        rw [Entry.holdsX_iff, mode, Entry.holdsX_iff]
        split <;> simp

theorem EntryOut.removeWaiter_hasStray (env : Env) (h : HostId) (o : EntryOut) :
    (o.removeWaiter env h).entry.hasStray = o.entry.hasStray := by
  rw [EntryOut.removeWaiter_entry]
  exact Entry.hasStray_congr rfl rfl rfl

theorem Entry.depart_gen {e : Entry} (env : Env) (w : Waiter) (st : Status) (stray : e.hasStray = true) :
    (e.depart env w st).entry.gen = e.gen := by
  refine (EntryOut.serveIf_gen env e.inUse (o := (EntryOut.start e).removeWaiter env w.place.host) ?_).trans ?_
  · rw [EntryOut.removeWaiter_hasStray]; exact stray
  · rw [EntryOut.removeWaiter_entry]; rfl

theorem Entry.cancelRequest_gen {e : Entry} (env : Env) (pl target : Place) (stray : e.hasStray = true) :
    (e.cancelRequest env pl target).entry.gen = e.gen := by
  simp only [Entry.cancelRequest]
  split
  · rfl
  · exact Entry.depart_gen env _ .cancelled stray

theorem Entry.waitTimeout_gen {e : Entry} (env : Env) (h : HostId) (stray : e.hasStray = true) :
    (e.waitTimeout env h).entry.gen = e.gen := by
  simp only [Entry.waitTimeout]
  split
  · rfl
  · exact Entry.depart_gen env _ .timedOut stray

theorem EntryOut.revokeAll_hasStray (env : Env) (hs : List HostId) {o : EntryOut} (stray : o.entry.hasStray = true) :
    (EntryOut.revokeAll env hs o).entry.hasStray = true ∧ (EntryOut.revokeAll env hs o).entry.gen = o.entry.gen := by
  induction hs generalizing o with
  | nil => exact ⟨stray, rfl⟩
  | cons h hs ih => exact ih (o := o.revoke env h) (Entry.dropHolding_hasStray h stray)

theorem Entry.recallDeadline_gen {e : Entry} (env : Env) (stray : e.hasStray = true) :
    (e.recallDeadline env).entry.gen = e.gen := by
  simp only [Entry.recallDeadline]
  split
  · rfl
  · rename_i r _
    split
    · obtain ⟨h1, h2⟩ := EntryOut.revokeAll_hasStray env (hostIds.filter fun h => r.targets[h]) (o := EntryOut.start e) stray
      exact Eq.trans (EntryOut.serveIf_gen env e.inUse ((Entry.hasStray_congr rfl rfl rfl).trans h1)) h2
    · rfl

theorem Entry.drainEnd_gen {e : Entry} (env : Env) (stray : e.hasStray = true) : (e.drainEnd env).entry.gen = e.gen := by
  simp only [Entry.drainEnd, stray, Bool.not_true, Bool.and_false, Bool.false_eq_true, if_false]
  split <;> rfl

theorem Entry.teardown_gen {e : Entry} (env : Env) (h : HostId) (stray : e.hasStray = true) :
    (e.teardown env h).entry.gen = e.gen := by
  simp only [Entry.teardown]
  split
  · refine (EntryOut.serveIf_gen env e.inUse ?_).trans ?_
    · simp only []
      rw [Entry.hasStray_congr (Entry.answerRecall_holdings _ h) (Entry.answerRecall_inFlight _ h)
        (Entry.answerRecall_refs _ h)]
      exact Entry.dropHolding_hasStray h ((EntryOut.removeWaiter_hasStray env h _).trans stray)
    · simp [EntryOut.removeWaiter_entry, EntryOut.start]
  · rfl

theorem Entry.acquire_gen {e : Entry} (env : Env) (overQuota poolFull : Bool) (pl : Place) (m : Mode) (limit : BitVec 16)
    (stray : e.hasStray = true) : (e.acquire env overQuota poolFull pl m limit).entry.gen = e.gen := by
  simp only [Entry.acquire, stray, Bool.not_true, Bool.and_false, Bool.false_eq_true, if_false, Entry.waitDecision]
  split_ifs
  · rfl
  · rfl
  · rfl
  · rfl
  · rfl
  · rfl
  · rfl
  · exact EntryOut.recallIfBlocked_gen env _
  · rfl

/-! ## Counts -/

/-- No host's holdings plus waiters on the page grow, and neither does the list (R7, R15). -/
structure Entry.Shrinks (e f : Entry) : Prop where
  count : ∀ h, f.count h ≤ e.count h
  waiters : f.waiters.length ≤ e.waiters.length

theorem Entry.Shrinks.refl (e : Entry) : e.Shrinks e := ⟨fun _ => le_rfl, le_rfl⟩

theorem Entry.Shrinks.trans {e f g : Entry} (a : e.Shrinks f) (b : f.Shrinks g) : e.Shrinks g :=
  ⟨fun h => (b.count h).trans (a.count h), b.waiters.trans a.waiters⟩

/-- A count reads who holds and whose the waiters are. -/
theorem Entry.count_eq (e : Entry) (h : HostId) :
    e.count h = (if e.holds h then 1 else 0) + e.waitingHosts.count h := by
  simp only [Entry.count, Entry.waitingHosts, List.count, List.countP_map]
  congr 2

theorem Entry.Shrinks.of_less {e f : Entry} (holds : ∀ k, f.holds k = true → e.holds k = true)
    (hosts : f.waitingHosts.Sublist e.waitingHosts) : e.Shrinks f := by
  refine ⟨fun h => ?_, by simpa [Entry.waitingHosts] using hosts.length_le⟩
  rw [Entry.count_eq, Entry.count_eq]
  have holding : (if f.holds h = true then 1 else 0) ≤ if e.holds h = true then 1 else 0 := by
    split_ifs <;> simp_all
  exact Nat.add_le_add holding (hosts.count_le h)

theorem Entry.Shrinks.of_eq {e f : Entry} (h : f.holdings = e.holdings) (w : f.waiters = e.waiters) : e.Shrinks f :=
  .of_less (fun k => by rw [Entry.holds_congr h]; exact id) (by simp only [Entry.waitingHosts, w]; exact List.Sublist.refl _)

theorem Entry.Shrinks.of_same {e f g : Entry} (s : f.Shrinks g) (h : f.holdings = e.holdings) (w : f.waiters = e.waiters) :
    e.Shrinks g := (Entry.Shrinks.of_eq h w).trans s

theorem EntryOut.recallIfBlocked_waiters (env : Env) (o : EntryOut) :
    (o.recallIfBlocked env).entry.waiters = o.entry.waiters := by
  simp only [EntryOut.recallIfBlocked]
  split
  · rfl
  · split <;> rfl

theorem EntryOut.shrinks_recallIfBlocked (env : Env) (o : EntryOut) : o.entry.Shrinks (o.recallIfBlocked env).entry := by
  simp only [EntryOut.recallIfBlocked]
  split
  · exact .refl _
  · split
    · exact .of_eq rfl rfl
    · exact .refl _

theorem EntryOut.grant_waiters (env : Env) (m : Mode) (places : List Place) (o : EntryOut) :
    (o.grant env m places).entry.waiters =
      o.entry.waiters.filter fun w => !(places.map Place.host).contains w.place.host := by rw [EntryOut.grant_def]

/-- A grant leaves a host that it grants its holding alone (R4, R27). -/
theorem EntryOut.count_grant_of_mem (env : Env) (m : Mode) {places : List Place} (o : EntryOut) {h : HostId}
    (mem : h ∈ places.map Place.host) : (o.grant env m places).entry.count h ≤ 1 := by
  have gone : (o.entry.waiters.filter fun w => !(places.map Place.host).contains w.place.host).countP
      (fun w => decide (w.place.host = h)) = 0 := by
    refine List.countP_eq_zero.2 fun w hw => ?_
    have := (List.mem_filter.1 hw).2
    simp only [decide_eq_true_eq]
    rintro rfl
    simp [mem] at this
  simp only [Entry.count, EntryOut.grant_waiters, gone]
  split <;> omega

theorem EntryOut.count_grant_of_notMem (env : Env) (m : Mode) {places : List Place} (o : EntryOut) {h : HostId}
    (mem : h ∉ places.map Place.host) : (o.grant env m places).entry.count h ≤ o.entry.count h := by
  have holds : (o.grant env m places).entry.holds h = o.entry.holds h := by
    rw [EntryOut.grant_def]
    exact congrArg Option.isSome ((o.entry.granted_holding m (places.map Place.host) h).trans (if_neg mem))
  simp only [Entry.count, EntryOut.grant_waiters, holds]
  exact Nat.add_le_add_left List.filter_sublist.countP_le _

/-- A grant event for waiters of the list turns a waiter of each host into its holding (R4). -/
theorem EntryOut.shrinks_grant (env : Env) (m : Mode) (places : List Place) (o : EntryOut)
    (waiting : ∀ pl ∈ places, pl.host ∈ o.entry.waitingHosts) : o.entry.Shrinks (o.grant env m places).entry := by
  refine ⟨fun h => ?_, EntryOut.grant_waiters env m places o ▸ List.length_filter_le _ _⟩
  by_cases mem : h ∈ places.map Place.host
  · refine (EntryOut.count_grant_of_mem env m o mem).trans ?_
    obtain ⟨pl, hpl, rfl⟩ := List.mem_map.1 mem
    rw [Entry.count_eq]
    have := List.count_pos_iff.2 (waiting pl hpl)
    omega
  · exact EntryOut.count_grant_of_notMem env m o mem

/-- The serving of the list moves waiters to holdings (R28 to R30). -/
theorem EntryOut.shrinks_serve (env : Env) (o : EntryOut) : o.entry.Shrinks (o.serve env).entry := by
  simp only [EntryOut.serve]
  split
  · exact .of_eq rfl rfl
  · rename_i w ws hw
    split
    · simp only [EntryOut.decideGrant]
      split
      · exact .of_eq rfl rfl
      · refine Entry.Shrinks.trans ?_ (EntryOut.shrinks_recallIfBlocked env _)
        refine (EntryOut.shrinks_grant env _ _ _ ?_).of_same rfl rfl
        obtain ⟨gs, rest, run, split, -⟩ := chosenRun_split w ws
        intro pl hpl
        simp only [hw, run, List.mem_map] at hpl
        obtain ⟨v, hv, rfl⟩ := hpl
        exact List.mem_map.2 ⟨v, by simp only [hw, split]; exact List.mem_append_left _ hv, rfl⟩
    · exact (EntryOut.shrinks_recallIfBlocked env _).of_same rfl rfl

theorem EntryOut.shrinks_serveIf (env : Env) (use : Bool) (o : EntryOut) : o.entry.Shrinks (o.serveIf env use).entry := by
  simp only [EntryOut.serveIf]
  split
  · exact EntryOut.shrinks_serve env o
  · exact .refl _

theorem Entry.shrinks_dropHolding (e : Entry) (h : HostId) : e.Shrinks (e.dropHolding h) :=
  .of_less (fun k => by simp only [Entry.dropHolding_holds, Bool.and_eq_true]; exact And.left) (by simp)

theorem Entry.shrinks_answerRecall (e : Entry) (h : HostId) : e.Shrinks (e.answerRecall h) := .of_eq (by simp) (by simp)

theorem Entry.shrinks_surrender (e : Entry) (env : Env) (h : HostId) : e.Shrinks (e.surrender env h).entry :=
  ((e.shrinks_dropHolding h).trans (Entry.shrinks_answerRecall _ h)).trans
    (EntryOut.shrinks_serveIf env e.inUse (EntryOut.start _))

theorem Entry.shrinks_release (e : Entry) (env : Env) (pl : Place) (gen : BitVec 16) :
    e.Shrinks (e.release env pl gen).entry := by
  simp only [Entry.release]
  split
  · exact .refl _
  · split_ifs
    · exact .refl _
    · exact .refl _
    · exact e.shrinks_surrender env pl.host

theorem Entry.shrinks_downgrade (e : Entry) (env : Env) (pl : Place) (gen : BitVec 16) :
    e.Shrinks (e.downgrade env pl gen).entry := by
  simp only [Entry.downgrade]
  split
  · exact .refl _
  · rename_i v hv
    rw [Entry.answerByDowngrade_frame]
    by_cases hS : v.mode = .S
    · rw [if_pos hS]; exact .refl _
    rw [if_neg hS]
    split_ifs
    · exact .refl _
    · exact .refl _
    all_goals
      refine .trans ?_ (EntryOut.shrinks_serveIf env _ (EntryOut.start _))
      refine .of_less (fun k => ?_) (List.Sublist.refl _)
      show (e.setHolding pl.host (some { v with mode := .S })).holds k = true → _
      rw [Entry.holds_iff, Entry.setHolding_mode, Entry.holds_iff]
      split
      · rename_i hk
        exact fun _ => by simp [hk, Entry.mode, hv]
      · exact id

theorem EntryOut.shrinks_removeWaiter (env : Env) (h : HostId) (o : EntryOut) :
    o.entry.Shrinks (o.removeWaiter env h).entry := by
  rw [EntryOut.removeWaiter_entry]
  exact .of_less (fun _ => id) (List.filter_sublist.map _)

theorem Entry.shrinks_depart (e : Entry) (env : Env) (w : Waiter) (st : Status) : e.Shrinks (e.depart env w st).entry :=
  (EntryOut.shrinks_removeWaiter env w.place.host (EntryOut.start e)).trans (EntryOut.shrinks_serveIf env e.inUse _)

theorem Entry.shrinks_cancelRequest (e : Entry) (env : Env) (pl target : Place) :
    e.Shrinks (e.cancelRequest env pl target).entry := by
  simp only [Entry.cancelRequest]
  split
  · exact .refl _
  · exact e.shrinks_depart env _ .cancelled

theorem Entry.shrinks_waitTimeout (e : Entry) (env : Env) (h : HostId) : e.Shrinks (e.waitTimeout env h).entry := by
  simp only [Entry.waitTimeout]
  split
  · exact .refl _
  · exact e.shrinks_depart env _ .timedOut

theorem EntryOut.shrinks_revokeAll (env : Env) (hs : List HostId) (o : EntryOut) :
    o.entry.Shrinks (EntryOut.revokeAll env hs o).entry := by
  induction hs generalizing o with
  | nil => exact .refl _
  | cons h hs ih => exact (Entry.shrinks_dropHolding _ h).trans (ih (o.revoke env h))

theorem Entry.shrinks_recallDeadline (e : Entry) (env : Env) : e.Shrinks (e.recallDeadline env).entry := by
  simp only [Entry.recallDeadline]
  split
  · exact .refl _
  · split
    · exact (EntryOut.shrinks_revokeAll env _ (EntryOut.start e)).trans
        ((EntryOut.shrinks_serveIf env e.inUse _).of_same rfl rfl)
    · exact .refl _

theorem Entry.shrinks_drainEnd (e : Entry) (env : Env) : e.Shrinks (e.drainEnd env).entry := by
  simp only [Entry.drainEnd]
  split
  · exact .refl _
  · split_ifs
    · exact (EntryOut.shrinks_serve env _).of_same rfl rfl
    · refine .trans (EntryOut.shrinks_grant env _ _ (EntryOut.start e) fun pl hpl => ?_) (EntryOut.shrinks_serve env _)
      obtain ⟨w, hw, rfl⟩ := List.mem_map.1 hpl
      exact List.mem_map_of_mem (List.mem_filter.1 hw).1
    · exact .refl _

theorem Entry.shrinks_teardown (e : Entry) (env : Env) (h : HostId) : e.Shrinks (e.teardown env h).entry := by
  simp only [Entry.teardown]
  split
  · exact (((EntryOut.shrinks_removeWaiter env h (EntryOut.start e)).trans (Entry.shrinks_dropHolding _ h)).trans
      (Entry.shrinks_answerRecall _ h)).trans
        (EntryOut.shrinks_serveIf env e.inUse { (EntryOut.start e).removeWaiter env h with entry := _ })
  · exact .refl _

theorem Entry.shrinks_parityReport (e : Entry) (env : Env) : e.Shrinks (e.parityReport env).entry := by
  simp only [Entry.parityReport]
  split
  · exact .refl _
  · exact .of_less (fun k => by simp [Entry.holds, Entry.holding]) (by simp [Entry.waitingHosts])

/-- What an ACQUIRE may add: to its host's count within the quota, and to the list within the pool (R7, R25). -/
structure Entry.GrowsFor (e f : Entry) (h : HostId) (overQuota poolFull : Bool) : Prop where
  withinQuota : overQuota = false
  count : ∀ k, f.count k ≤ e.count k + if k = h then 1 else 0
  waiters : f.waiters.length ≤ e.waiters.length ∨ (f.waiters.length = e.waiters.length + 1 ∧ poolFull = false)

theorem Entry.acquire_counts (e : Entry) (env : Env) (overQuota poolFull : Bool) (pl : Place) (m : Mode)
    (limit : BitVec 16) :
    e.Shrinks (e.acquire env overQuota poolFull pl m limit).entry ∨
      e.GrowsFor (e.acquire env overQuota poolFull pl m limit).entry pl.host overQuota poolFull := by
  have joins : ∀ f : Entry, overQuota = false → poolFull = false →
      ({ e with waiters := e.waiters ++ [newWaiter e env pl m limit] } : Entry).Shrinks f →
        f.waiters.length = e.waiters.length + 1 → e.GrowsFor f pl.host overQuota poolFull := by
    intro f hq hp shrinks len
    refine ⟨hq, fun k => (shrinks.count k).trans ?_, .inr ⟨len, hp⟩⟩
    have : (newWaiter e env pl m limit).place.host = pl.host := rfl
    simp only [Entry.count_eq, Entry.waitingHosts, List.map_append, List.map_cons, List.map_nil, List.count_append,
      List.count_singleton, this, beq_iff_eq, eq_comm (a := pl.host), ← Nat.add_assoc]
    exact le_rfl
  simp only [Entry.acquire]
  split_ifs with _ _ _ g full
  · exact .inl (.refl _)
  · exact .inl (.refl _)
  · exact .inl (.refl _)
  · exact .inl (.refl _)
  · have others : ∀ k, k ≠ pl.host → ((EntryOut.start e).grant env m [pl]).entry.count k ≤ e.count k := fun k hk =>
      EntryOut.count_grant_of_notMem env m (EntryOut.start e) (by simpa using hk)
    have own : ((EntryOut.start e).grant env m [pl]).entry.count pl.host ≤ 1 :=
      EntryOut.count_grant_of_mem env m (EntryOut.start e) (by simp)
    have fewer : ((EntryOut.start e).grant env m [pl]).entry.waiters.length ≤ e.waiters.length :=
      EntryOut.grant_waiters env m [pl] (EntryOut.start e) ▸ List.length_filter_le _ _
    cases holds : e.holds pl.host with
    | true =>
      refine .inl ⟨fun k => ?_, fewer⟩
      by_cases hk : k = pl.host
      · refine hk ▸ own.trans ?_
        simp [Entry.count, holds]
      · exact others k hk
    | false =>
      refine .inr ⟨by simpa [holds] using full, fun k => ?_, .inl fewer⟩
      by_cases hk : k = pl.host
      · rw [if_pos hk, hk]; omega
      · rw [if_neg hk]; exact others k hk
  · simp only [Entry.waitDecision]
    split_ifs with _ hq hp _ alone
    · exact .inl (.refl _)
    · exact .inl (.refl _)
    · exact .inl (.refl _)
    · exact .inr (joins _ (by simpa using hq) (by simpa using hp) (.of_eq rfl rfl)
        (by simp [EntryOut.holdBack, EntryOut.start]))
    · exact .inr (joins _ (by simpa using hq) (by simpa using hp)
        (EntryOut.shrinks_recallIfBlocked env (EntryOut.start _))
        (by rw [EntryOut.recallIfBlocked_waiters]; simp [EntryOut.start]))
    · exact .inr (joins _ (by simpa using hq) (by simpa using hp) (.refl _) (by simp [EntryOut.start]))

end Sys2Proof.Machine
end

