-- ==== Sys2Proof/Proofs/QuietChanges.lean ====
section
/-!
SUPPORT. What one command does to the page table. Every change of an entry is quiet (`Entry.Quiet`), but for the eight
events that serve the waiting list (`State.EntryEvent`), and a command takes at most one of those, at one page.
-/

namespace Sys2Proof.Machine

open Sys2Proof

/-! ## Quiet changes and events of an entry -/

/-- A change of an entry that makes no grant, adds no holding and no waiter, and keeps the entry well formed. -/
structure Entry.Quiet (e f : Entry) : Prop where
  gen : f.gen = e.gen
  wf : e.wf = true → f.wf = true
  shrinks : e.Shrinks f

namespace Entry.Quiet

theorem refl (e : Entry) : e.Quiet e := ⟨rfl, id, .refl e⟩

theorem trans {e f g : Entry} (a : e.Quiet f) (b : f.Quiet g) : e.Quiet g :=
  ⟨b.gen.trans a.gen, b.wf ∘ a.wf, a.shrinks.trans b.shrinks⟩

theorem refs (e : Entry) (l : List JobRef) : e.Quiet { e with refs := l } := ⟨rfl, id, .of_eq rfl rfl⟩

theorem removeRef (e : Entry) (job : Place) : e.Quiet (e.removeRef job) := refs e _
theorem addRef (e : Entry) (r : JobRef) : e.Quiet (e.addRef r) := refs e _
theorem runRef (e : Entry) (job : Place) : e.Quiet (e.runRef job) := refs e _
theorem markRef (e : Entry) (job : Place) : e.Quiet (e.markRef job) := refs e _

theorem endScrub (e : Entry) (job : Place) : e.Quiet (e.endScrub job) :=
  ⟨rfl, fun wf => Entry.wf_endScrub wf job, .of_eq rfl rfl⟩

theorem expire (e : Entry) (now : Word) : e.Quiet (e.expire now) := by
  refine ⟨rfl, fun wf => Entry.wf_expire wf now, .of_less (fun _ => id) ?_⟩
  have hosts : (e.expire now).waitingHosts = e.waitingHosts := by
    simp only [Entry.expire, Entry.waitingHosts, List.map_map]
    refine List.map_congr_left fun w _ => ?_
    simp only [Function.comp_apply]
    split <;> rfl
  rw [hosts]

theorem clearPair (e : Entry) (h : HostId) : e.Quiet (e.setPair h none) :=
  ⟨rfl, fun wf => Entry.wf_clearPair wf h, .of_eq rfl rfl⟩

theorem setPair {e : Entry} {h : HostId} {d : Dir} (c : e.checkAccess h d = none) : e.Quiet (e.setPair h (some d)) :=
  ⟨rfl, fun wf => Entry.wf_setPair wf c, .of_eq rfl rfl⟩

theorem parityReport (e : Entry) (env : Env) : e.Quiet (e.parityReport env).entry := by
  refine ⟨?_, fun wf => Entry.wf_parityReport wf env, e.shrinks_parityReport env⟩
  simp only [Entry.parityReport]
  split <;> rfl

theorem retire (e : Entry) (env : Env) (pl : Place) : e.Quiet (e.retire env pl).entry := by
  have frame : ∃ st, (e.retire env pl).entry = { e with state := st } := by
    simp only [Entry.retire]
    split <;> exact ⟨_, rfl⟩
  obtain ⟨st, hst⟩ := frame
  exact ⟨by rw [hst], fun wf => Entry.wf_retire wf env pl, hst ▸ .of_eq rfl rfl⟩

theorem scrubRefused (e : Entry) (env : Env) (pl : Place) : e.Quiet (e.scrubRefused env pl).entry :=
  ⟨rfl, fun wf => Entry.wf_scrubRefused wf env pl, .of_eq rfl rfl⟩

theorem restore {e : Entry} (st : e.state = .retired) : e.Quiet { e with state := .scrub } :=
  ⟨rfl, fun wf => Entry.wf_restore wf st, .of_eq rfl rfl⟩

end Entry.Quiet

/-- The entries that an event which serves the waiting list can make of page `p` in state `s` (R28). -/
inductive State.EntryEvent (s : State) (p : PageId) : Entry → Prop
  | acquire (pl : Place) (m : Mode) (limit : BitVec 16) :
    s.EntryEvent p ((s.page p).acquire (s.env p) (s.overQuota pl.host) s.poolFull pl m limit).entry
  | release (pl : Place) (gen : BitVec 16) : s.EntryEvent p ((s.page p).release (s.env p) pl gen).entry
  | downgrade (pl : Place) (gen : BitVec 16) : s.EntryEvent p ((s.page p).downgrade (s.env p) pl gen).entry
  | cancelRequest (pl target : Place) : s.EntryEvent p ((s.page p).cancelRequest (s.env p) pl target).entry
  | waitTimeout (h : HostId) : s.EntryEvent p ((s.page p).waitTimeout (s.env p) h).entry
  | recallDeadline : s.EntryEvent p ((s.page p).recallDeadline (s.env p)).entry
  | drainEnd : s.EntryEvent p ((s.page p).drainEnd (s.env p)).entry
  | teardown (h : HostId) : s.EntryEvent p ((s.page p).teardown (s.env p) h).entry

namespace State.EntryEvent

variable {s : State} {p : PageId} {f : Entry}

theorem wf (ev : s.EntryEvent p f) (wf : (s.page p).wf = true) : f.wf = true := by
  cases ev with
  | acquire pl m limit => exact Entry.wf_acquire wf _ _ _ pl m limit
  | release pl gen => exact Entry.wf_release wf _ pl gen
  | downgrade pl gen => exact Entry.wf_downgrade wf _ pl gen
  | cancelRequest pl target => exact Entry.wf_cancelRequest wf _ pl target
  | waitTimeout h => exact Entry.wf_waitTimeout wf _ h
  | recallDeadline => exact Entry.wf_recallDeadline wf _
  | drainEnd => exact Entry.wf_drainEnd wf _
  | teardown h => exact Entry.wf_teardown wf _ h

theorem gen (ev : s.EntryEvent p f) (stray : (s.page p).hasStray = true) : f.gen = (s.page p).gen := by
  cases ev with
  | acquire pl m limit => exact Entry.acquire_gen _ _ _ pl m limit stray
  | release pl gen => exact Entry.release_gen _ pl gen stray
  | downgrade pl gen => exact Entry.downgrade_gen _ pl gen stray
  | cancelRequest pl target => exact Entry.cancelRequest_gen _ pl target stray
  | waitTimeout h => exact Entry.waitTimeout_gen _ h stray
  | recallDeadline => exact Entry.recallDeadline_gen _ stray
  | drainEnd => exact Entry.drainEnd_gen _ stray
  | teardown h => exact Entry.teardown_gen _ h stray

/-- Only an ACQUIRE within its host's quota makes counts grow (R25). -/
theorem counts (ev : s.EntryEvent p f) :
    (s.page p).Shrinks f ∨ ∃ h, (s.page p).GrowsFor f h (s.overQuota h) s.poolFull := by
  cases ev with
  | acquire pl m limit => exact (Entry.acquire_counts _ _ _ _ pl m limit).imp_right fun g => ⟨pl.host, g⟩
  | release pl gen => exact .inl (Entry.shrinks_release _ _ pl gen)
  | downgrade pl gen => exact .inl (Entry.shrinks_downgrade _ _ pl gen)
  | cancelRequest pl target => exact .inl (Entry.shrinks_cancelRequest _ _ pl target)
  | waitTimeout h => exact .inl (Entry.shrinks_waitTimeout _ _ h)
  | recallDeadline => exact .inl (Entry.shrinks_recallDeadline _ _)
  | drainEnd => exact .inl (Entry.shrinks_drainEnd _ _)
  | teardown h => exact .inl (Entry.shrinks_teardown _ _ h)

end State.EntryEvent

/-! ## The references of a job -/

theorem State.removeRefs_copy (s : State) {j : Job} {source : PageId} (h : j.work = .copy source) :
    s.removeRefs j =
      (s.modifyPage source fun e => e.removeRef j.place).modifyPage j.target fun e => e.removeRef j.place := by
  rw [State.removeRefs, h]

theorem State.removeRefs_scrub (s : State) {j : Job} (h : j.work = .scrub) :
    s.removeRefs j = s.modifyPage j.target fun e => e.endScrub j.place := by
  rw [State.removeRefs, h]

theorem State.removeRefs_of_one_page (s : State) {j : Job} (copy : ∀ source, j.work ≠ .copy source)
    (scrub : j.work ≠ .scrub) : s.removeRefs j = s.modifyPage j.target fun e => e.removeRef j.place := by
  rw [State.removeRefs]
  cases h : j.work with
  | copy source => exact absurd h (copy source)
  | scrub => exact absurd h scrub
  | fill pattern => rfl
  | checksum register => rfl

/-- The three ways in which a job's references go (R11, R176). -/
theorem State.removeRefs_cases (s : State) (j : Job) :
    (∃ source, j.work = .copy source ∧ s.removeRefs j =
      (s.modifyPage source fun e => e.removeRef j.place).modifyPage j.target fun e => e.removeRef j.place) ∨
    (j.work = .scrub ∧ s.removeRefs j = s.modifyPage j.target fun e => e.endScrub j.place) ∨
    ((∀ source, j.work ≠ .copy source) ∧ j.work ≠ .scrub ∧
      s.removeRefs j = s.modifyPage j.target fun e => e.removeRef j.place) := by
  cases h : j.work with
  | copy source => exact .inl ⟨source, rfl, s.removeRefs_copy h⟩
  | scrub => exact .inr (.inl ⟨rfl, s.removeRefs_scrub h⟩)
  | fill pattern => exact .inr (.inr ⟨by simp, by simp, s.removeRefs_of_one_page (by simp [h]) (by simp [h])⟩)
  | checksum register => exact .inr (.inr ⟨by simp, by simp, s.removeRefs_of_one_page (by simp [h]) (by simp [h])⟩)

@[simp] theorem State.removeRefs_engine (s : State) (j : Job) : (s.removeRefs j).engine = s.engine := by
  rcases s.removeRefs_cases j with ⟨source, -, h⟩ | ⟨-, h⟩ | ⟨-, -, h⟩ <;> rw [h] <;> rfl

@[simp] theorem State.removeRefs_arbiter (s : State) (j : Job) : (s.removeRefs j).arbiter = s.arbiter := by
  rcases s.removeRefs_cases j with ⟨source, -, h⟩ | ⟨-, h⟩ | ⟨-, -, h⟩ <;> rw [h] <;> rfl

/-- The running flag is set in the page table alone (R123). -/
theorem State.runRefs_frame (s : State) (j : Job) : s.runRefs j = { s with pages := (s.runRefs j).pages } := by
  simp only [State.runRefs]
  induction j.pages generalizing s with
  | nil => rfl
  | cons p ps ih => simp only [List.foldl_cons]; rw [ih]; rfl

/-- A job that leaves the queue leaves the others in it. -/
theorem State.dropQueued_queue (s : State) (j : Job) :
    (s.dropQueued j).engine.queue = s.engine.queue.filter fun k => k.place ≠ j.place := by
  show (s.removeRefs j).engine.queue.filter _ = _
  rw [State.removeRefs_engine]

/-! ## Changes of the state -/

/-- The state `t` keeps the queue and the settings of `s`, and every entry of it is a quiet change of that of `s`. -/
structure State.Calm (s t : State) : Prop where
  pending : t.pending = s.pending
  settings : t.settings = s.settings
  pages : ∀ q, (s.page q).Quiet (t.page q)

namespace State.Calm

theorem refl (s : State) : s.Calm s := ⟨rfl, rfl, fun _ => .refl _⟩

theorem trans {s t u : State} (a : s.Calm t) (b : t.Calm u) : s.Calm u :=
  ⟨b.pending.trans a.pending, b.settings.trans a.settings, fun q => (a.pages q).trans (b.pages q)⟩

/-- A change outside the page table. -/
theorem of_pages {s t : State} (pages : t.pages = s.pages) (pending : t.pending = s.pending)
    (settings : t.settings = s.settings) : s.Calm t :=
  ⟨pending, settings, fun q => by rw [State.page_congr pages q]; exact .refl _⟩

theorem modifyPage (s : State) (p : PageId) {f : Entry → Entry} (quiet : (s.page p).Quiet (f (s.page p))) :
    s.Calm (s.modifyPage p f) := by
  refine ⟨rfl, rfl, fun q => ?_⟩
  rw [State.page_modifyPage]
  split
  · rename_i hq; exact hq ▸ quiet
  · exact .refl _

theorem mapPages (s : State) {f : Entry → Entry} (quiet : ∀ e : Entry, e.Quiet (f e)) : s.Calm (s.mapPages f) :=
  ⟨rfl, rfl, fun q => by rw [State.page_mapPages]; exact quiet _⟩

theorem setPort (s : State) (n : HostId) (g : PortGroup) : s.Calm (s.setPort n g) := of_pages rfl rfl rfl

theorem modifyPort (s : State) (n : HostId) (f : PortGroup → PortGroup) : s.Calm (s.modifyPort n f) := of_pages rfl rfl rfl

theorem answer (s : State) (n : HostId) (a : Answer) : s.Calm (s.answer n a) := of_pages rfl rfl rfl

theorem modifyEngine (s : State) (f : Engine → Engine) : s.Calm (s.modifyEngine f) := of_pages rfl rfl rfl

theorem setQueue (s : State) (q : List Job) : s.Calm (s.setQueue q) := of_pages rfl rfl rfl

theorem setJob (s : State) (j : Job) : s.Calm (s.setJob j) := of_pages rfl rfl rfl

theorem request (s : State) (op : WordOp) : s.Calm (s.request op) := of_pages rfl rfl rfl

theorem choose (s : State) : s.Calm s.choose := of_pages rfl rfl rfl

theorem dropTransit (s : State) (pl : Place) : s.Calm (s.dropTransit pl) := of_pages rfl rfl rfl

theorem redirect (s : State) (pl : Place) (e : Errand) : s.Calm (s.redirect pl e) := of_pages rfl rfl rfl

theorem post (s : State) (pl : Place) (r : Reply) : s.Calm (s.post pl r) := of_pages (by simp) (by simp) (by simp)

theorem postAll (s : State) (l : List (Place × Reply)) : s.Calm (s.postAll l) := by
  rw [State.postAll_frame]; exact of_pages rfl rfl rfl

theorem notifyAll (s : State) (l : List (HostId × Notice)) : s.Calm (s.notifyAll l) := by
  rw [State.notifyAll_frame]; exact of_pages rfl rfl rfl

theorem markAll (s : State) (l : List Place) : s.Calm (s.markAll l) := by
  refine ⟨by rw [State.markAll_frame], by rw [State.markAll_frame], fun q => ?_⟩
  rw [State.page_markAll]
  exact .refs _ _

/-- An entry's event that is quiet. -/
theorem applyEntry (s : State) (p : PageId) {o : EntryOut} (quiet : (s.page p).Quiet o.entry) :
    s.Calm (s.applyEntry p o) := by
  refine .trans (.trans (.trans ?_ (markAll _ o.aborts)) (notifyAll _ o.notices)) (postAll _ o.posts)
  exact modifyPage s p (f := fun _ => o.entry) quiet

/-! ### The shared operations -/

theorem completeJob (s : State) (j : Job) (st : Status) : s.Calm (s.completeJob j st) := post s _ _

theorem removeRefs (s : State) (j : Job) : s.Calm (s.removeRefs j) := by
  have refs : ∀ (u : State) (p : PageId), u.Calm (u.modifyPage p fun e => e.removeRef j.place) := fun u p =>
    modifyPage u p (.removeRef _ _)
  rcases s.removeRefs_cases j with ⟨source, -, h⟩ | ⟨-, h⟩ | ⟨-, -, h⟩ <;> rw [h]
  · exact (refs _ _).trans (refs _ _)
  · exact modifyPage s _ (.endScrub _ _)
  · exact refs _ _

theorem runRefs (s : State) (j : Job) : s.Calm (s.runRefs j) := by
  simp only [State.runRefs]
  induction j.pages generalizing s with
  | nil => exact .refl s
  | cons p ps ih => exact (modifyPage s p (.runRef _ _)).trans (ih _)

theorem startFrom (s : State) (l : List Job) : s.Calm (s.startFrom l) := by
  induction l generalizing s with
  | nil => exact setQueue s []
  | cons j js ih =>
    simp only [State.startFrom]
    split
    · exact ((removeRefs s j).trans (completeJob _ j .aborted)).trans (ih _)
    · exact ((setQueue s _).trans (runRefs _ j)).trans (request _ _)

theorem startNext (s : State) : s.Calm s.startNext := by
  simp only [State.startNext]
  split
  · exact .refl s
  · exact startFrom s _

theorem dropQueued (s : State) (j : Job) : s.Calm (s.dropQueued j) := (removeRefs s j).trans (setQueue _ _)

theorem endJob (s : State) (j : Job) (st : Status) : s.Calm (s.endJob j st) :=
  ((dropQueued s j).trans (completeJob _ j st)).trans (startNext _)

theorem advanceJob (s : State) (j : Job) : s.Calm (s.advanceJob j) := (setJob s j).trans (request _ _)

theorem engineWriteEnd (s : State) (j : Job) : s.Calm (s.engineWriteEnd j) := by
  simp only [State.engineWriteEnd]
  split_ifs
  · exact endJob s _ _
  · exact endJob s _ _
  · exact advanceJob s _

theorem engineReadEnd (s : State) (j : Job) (data : Word) : s.Calm (s.engineReadEnd j data) := by
  simp only [State.engineReadEnd]
  split
  · exact endJob s _ _
  · split
    · exact advanceJob s _
    · split
      · exact endJob s _ _
      · exact advanceJob s _
    all_goals exact .refl s

theorem engineParity (s : State) (j : Job) (p : PageId) : s.Calm (s.engineParity j p) :=
  (applyEntry s p ((Entry.Quiet.removeRef _ _).trans (.parityReport _ _))).trans (endJob _ j _)

theorem withdrawAndStop (s : State) (j : Job) : s.Calm (s.withdrawAndStop j) :=
  .trans (t := { s with arbiter := s.arbiter.withdraw .engine }) (of_pages rfl rfl rfl) (endJob _ j _)

theorem stopRunning (s : State) (j : Job) : s.Calm (s.stopRunning j) := by
  simp only [State.stopRunning]
  split
  · exact setJob s _
  · exact withdrawAndStop s j

theorem lastCheck (s : State) (p : PageId) (need : Mode) (j : Job) : s.Calm (s.lastCheck p need j) := by
  simp only [State.lastCheck]
  split
  · exact (modifyPage s p (.addRef _ _)).trans (modifyEngine _ _)
  · exact (removeRefs s j).trans (completeJob _ j _)

theorem queueJob (s : State) (j : Job) : s.Calm (s.queueJob j) := by
  simp only [State.queueJob]
  split_ifs
  · exact removeRefs s j
  · exact (removeRefs s j).trans (completeJob _ j _)
  · exact (removeRefs s j).trans (completeJob _ j _)
  · exact setQueue s _

theorem takeAbort (s : State) (job : Place) : s.Calm (s.takeAbort job) := by
  simp only [State.takeAbort]
  split
  · exact .refl s
  · split
    · exact stopRunning s _
    · exact (dropQueued s _).trans (completeJob _ _ _)

/-- An owner's taking of a command is calm if its meaning is (R81, R163). -/
theorem taking (s : State) (pl : Place) {f : State → State} (calm : ∀ u : State, u.Calm (f u)) : s.Calm (s.taking pl f) := by
  simp only [State.taking]
  split
  · exact (dropTransit s pl).trans (calm _)
  · exact dropTransit s pl

theorem restore (s : State) (p : PageId) (pl : Place) : s.Calm (s.restore p pl) := by
  simp only [State.restore]
  split
  · exact (modifyPage s p (.restore ‹_›)).trans (modifyEngine _ _)
  · exact post s pl _

theorem admitScrub (s : State) (j : Job) : s.Calm (s.admitScrub j) := by
  simp only [State.admitScrub]
  split
  · exact (setQueue s _).trans (modifyPage _ _ (.addRef _ _))
  · exact modifyEngine s _

theorem attachedWrite (s : State) (n : HostId) (f : PortGroup → PortGroup) : s.Calm (s.attachedWrite n f) := by
  rcases State.attachedWrite_cases s n f with h | ⟨g, h⟩ <;> rw [h]
  · exact .refl s
  · exact setPort s n g

theorem submit (s : State) (n : HostId) : s.Calm (s.submit n) := by
  simp only [State.submit]
  split_ifs
  · exact of_pages rfl rfl rfl
  · exact answer s n _
  · exact .refl s

theorem attach (s : State) (n : HostId) : s.Calm (s.attach n) := by
  simp only [State.attach]
  split_ifs
  · exact of_pages rfl rfl rfl
  · exact answer s n _
  · exact .refl s

theorem dispatch (s : State) (pl : Place) (c : Except Status Command) : s.Calm (s.dispatch pl c) := by
  simp only [State.dispatch]
  split
  · exact post s pl _
  · exact of_pages rfl rfl rfl
  · split
    · exact post s pl _
    · exact of_pages rfl rfl rfl
  · exact modifyPort s _ _

theorem takeHead (s : State) (n : HostId) (wanted : Descriptor → Bool) : s.Calm (s.takeHead n wanted) := by
  simp only [State.takeHead]
  split
  · split
    · exact .refl s
    · split
      · exact .trans (t := ({ s with taken := s.taken + 1 } : State).modifyPort n _) (of_pages rfl rfl rfl) (dispatch _ _ _)
      · exact .refl s
  · exact .refl s

theorem abandon (s : State) (n : HostId) : s.Calm (s.abandon n) := by
  simp only [State.abandon]
  split
  · exact .refl s
  · rename_i r _
    split
    · exact modifyPort s n _
    · refine .trans ?_ (modifyPort _ n _)
      exact .trans (t := { s with arbiter := s.arbiter.withdraw (.port n) }) (of_pages rfl rfl rfl)
        (modifyPage _ _ (.clearPair _ _))

theorem prstAssert (s : State) (n : HostId) : s.Calm (s.prstAssert n) := by
  simp only [State.prstAssert]
  split_ifs
  · exact .refl s
  · exact ((modifyPort s n _).trans (abandon _ n)).trans (modifyPort _ n _)
  · exact modifyPort s n _

theorem dropQueuedOf (s : State) (n : HostId) : s.Calm (s.dropQueuedOf n) := by
  simp only [State.dropQueuedOf]
  generalize (s.engine.queue.filter fun j => j.place.host = n && !j.running && !j.isScrub) = l
  induction l generalizing s with
  | nil => exact .refl s
  | cons j js ih => exact (dropQueued s j).trans (ih _)

theorem stopRunningOf (s : State) (n : HostId) : s.Calm (s.stopRunningOf n) := by
  simp only [State.stopRunningOf]
  split
  · exact .refl s
  · split
    · exact ((mapPages s fun _ => .markRef _ _).trans (setJob _ _)).trans (stopRunning _ _)
    · exact .refl s

theorem teardownAtEngine (s : State) (n : HostId) : s.Calm (s.teardownAtEngine n) := by
  simp only [State.teardownAtEngine]
  split
  · exact ((dropQueuedOf s n).trans (stopRunningOf _ n)).trans (modifyPort _ n _)
  · exact .refl s

theorem passCheck (s : State) (n : HostId) {a : WindowAccess} (c : (s.page a.page).checkAccess n a.dir = none) :
    s.Calm (s.passCheck n a) :=
  ((modifyPage s a.page (.setPair c)).trans (modifyPort _ n _)).trans (request _ _)

theorem accessEnd (s : State) (n : HostId) (r : InFlight) : s.Calm (s.accessEnd n r) :=
  (modifyPage s r.page (.clearPair _ _)).trans (modifyPort _ n _)

theorem accessParity (s : State) (n : HostId) (r : InFlight) : s.Calm (s.accessParity n r) :=
  (applyEntry s r.page ((Entry.Quiet.clearPair _ _).trans (.parityReport _ _))).trans (modifyPort _ n _)

theorem portOperationEnd (s : State) (n : HostId) (failed : Bool) : s.Calm (s.portOperationEnd n failed) := by
  simp only [State.portOperationEnd]
  split
  · exact .refl s
  · split
    · exact accessParity s n _
    · exact accessEnd s n _

theorem engineOperationEnd (s : State) (op : WordOp) (failed : Bool) : s.Calm (s.engineOperationEnd op failed) := by
  simp only [State.engineOperationEnd]
  split
  · exact .refl s
  · split
    · exact engineParity s _ _
    · split
      · exact engineWriteEnd s _
      · exact engineReadEnd s _ _

theorem operationEnd (s : State) (op : WordOp) : s.Calm (s.operationEnd op) := by
  have start : s.Calm { s with store := s.store.perform op, arbiter := { s.arbiter with performing := none } } :=
    of_pages rfl rfl rfl
  simp only [State.operationEnd]
  split
  · exact start.trans (portOperationEnd _ _ _)
  · exact start.trans (engineOperationEnd _ _ _)

theorem tick (s : State) : s.Calm s.tick := by
  simp only [State.tick]
  split
  · exact .refl s
  · exact .trans (t := { s with timebase := s.timebase + 1 }) (of_pages rfl rfl rfl) (mapPages _ fun _ => .expire _ _)

theorem sweepEnd (s : State) : s.Calm s.sweepEnd := by
  simp only [State.sweepEnd]
  split
  · exact of_pages rfl rfl rfl
  · exact .refl s

end State.Calm

end Sys2Proof.Machine
end

