-- ==== Sys2Proof/Proofs/EveryRow.lean ====
section
/-!
SUPPORT. Every command of the table completes: what it makes of the page table, the queue and the settings, said once for
all 51 rows (`exec_next`).
-/

namespace Sys2Proof.Machine

open Sys2Proof

/-- The state `t` keeps the queue and the settings of `s`, and its page table is that of `s` after quiet changes or after
one event that serves the list of one page. -/
structure State.Moves (s t : State) : Prop where
  pending : t.pending = s.pending
  settings : t.settings = s.settings
  pages : (∀ q, (s.page q).Quiet (t.page q)) ∨
    ∃ p f, s.EntryEvent p f ∧ f.Quiet (t.page p) ∧ ∀ q, q ≠ p → (s.page q).Quiet (t.page q)

theorem State.Calm.moves {s t : State} (c : s.Calm t) : s.Moves t := ⟨c.pending, c.settings, .inl c.pages⟩

/-- A calm change after a move, and a change outside table, queue and settings before it, leave it a move. -/
theorem State.Moves.trans_calm {s t u : State} (m : s.Moves t) (c : t.Calm u) : s.Moves u where
  pending := c.pending.trans m.pending
  settings := c.settings.trans m.settings
  pages := by
    refine m.pages.imp (fun quiet q => (quiet q).trans (c.pages q)) ?_
    rintro ⟨p, f, ev, quiet, others⟩
    exact ⟨p, f, ev, quiet.trans (c.pages p), fun q hq => (others q hq).trans (c.pages q)⟩

/-- An event that serves the list of a page, taken whole (R1). -/
theorem State.moves_applyEntry (s : State) (p : PageId) {o : EntryOut} (ev : s.EntryEvent p o.entry) :
    s.Moves (s.applyEntry p o) where
  pending := by rw [State.applyEntry_frame]
  settings := by rw [State.applyEntry_frame]
  pages := by
    refine .inr ⟨p, _, ev, ?_, fun q hq => ?_⟩
    · rw [State.page_applyEntry_self]; exact .refs _ _
    · rw [State.page_applyEntry_of_ne s o hq]; exact .refs _ _

/-- The entry of a page sees nothing of the commands in transit. -/
theorem State.EntryEvent.of_dropTransit {s : State} {pl : Place} {p : PageId} {f : Entry}
    (ev : (s.dropTransit pl).EntryEvent p f) : s.EntryEvent p f := by
  cases ev with
  | acquire pl m limit => exact .acquire pl m limit
  | release pl gen => exact .release pl gen
  | downgrade pl gen => exact .downgrade pl gen
  | cancelRequest pl target => exact .cancelRequest pl target
  | waitTimeout h => exact .waitTimeout h
  | recallDeadline => exact .recallDeadline
  | drainEnd => exact .drainEnd
  | teardown h => exact .teardown h

theorem State.Moves.of_dropTransit {s t : State} {pl : Place} (m : (s.dropTransit pl).Moves t) : s.Moves t where
  pending := m.pending
  settings := m.settings
  pages := m.pages.imp_right fun ⟨p, f, ev, rest⟩ => ⟨p, f, ev.of_dropTransit, rest⟩

/-- A command that an entry takes: none has arrived, its session has ended, or its meaning there is taken whole. -/
theorem State.entryTakes_cases (s : State) (h : HostId) (p : PageId) (f : Transit → Option (State → EntryOut)) :
    s.entryTakes h p f = s ∨ ∃ t, t.place.host = h ∧ (s.entryTakes h p f = s.dropTransit t.place ∨
      ∃ g, f t = some g ∧ s.entryTakes h p f = (s.dropTransit t.place).applyEntry p (g (s.dropTransit t.place))) := by
  simp only [State.entryTakes]
  cases ha : s.arrival h (.entry p) with
  | none => exact .inl rfl
  | some t =>
    simp only []
    cases hf : f t with
    | none => exact .inl rfl
    | some g =>
      refine .inr ⟨t, (State.arrival_spec ha).2.1, ?_⟩
      simp only [State.taking]
      split
      · exact .inr ⟨g, hf, rfl⟩
      · exact .inl rfl

/-- A row by which an entry takes a command makes one event of the entry, or a quiet change. -/
theorem State.moves_entryTakes (s : State) (h : HostId) (p : PageId) (f : Transit → Option (State → EntryOut))
    (means : ∀ (t : Transit) (g : State → EntryOut) (u : State), t.place.host = h → f t = some g →
      u.EntryEvent p (g u).entry ∨ (u.page p).Quiet (g u).entry) : s.Moves (s.entryTakes h p f) := by
  rcases s.entryTakes_cases h p f with e | ⟨t, ht, e | ⟨g, hg, e⟩⟩ <;> rw [e]
  · exact (State.Calm.refl s).moves
  · exact (State.Calm.dropTransit s _).moves
  · refine State.Moves.of_dropTransit (pl := t.place) ?_
    rcases means t g (s.dropTransit t.place) ht hg with ev | quiet
    · exact State.moves_applyEntry _ p ev
    · exact (State.Calm.applyEntry _ p quiet).moves

/-- The page table and the queue of `s`, with settings under which no count that was within its quota exceeds it. -/
structure State.Sets (s t : State) : Prop where
  pending : t.pending = s.pending
  pages : t.pages = s.pages
  quota : ∀ h, s.quotaCount h ≤ s.quota h → s.quotaCount h ≤ t.quota h

/-- What a row makes of the state: a move, one of the two device events of RESET, or a new setting. -/
inductive State.Does (s : State) : Instr → State → Prop
  | moves {c : Instr} {t : State} : s.Moves t → s.Does c t
  | asserts : s.Does .deviceResetAssert s.resetAssert
  | negates (straps : BitVec 4) : s.Does (.deviceResetNegate straps) (s.resetNegate straps)
  | sets {c : Instr} {t : State} : s.Sets t → s.Does c t

theorem State.post_sets {s t : State} (pl : Place) (r : Reply) (m : s.Sets t) : s.Sets (t.post pl r) :=
  ⟨by simp [m.pending], by simp [m.pages], fun h hq => by simpa [State.quota] using m.quota h hq⟩

theorem State.Sets.refl (s : State) : s.Sets s := ⟨rfl, rfl, fun _ => id⟩

theorem State.taking_sets {s : State} (pl : Place) {f : State → State}
    (sets : s.Sets (f (s.dropTransit pl))) : s.Sets (s.taking pl f) := by
  simp only [State.taking]
  split
  · exact sets
  · exact ⟨rfl, rfl, fun _ => id⟩

/-- SET_QUOTA never sets a quota below what its host holds and waits for (R177). -/
theorem State.setQuota_sets (s : State) (pl : Place) (h : HostId) (limit : Nat) :
    s.Sets ((s.dropTransit pl).setQuota pl h limit) := by
  simp only [State.setQuota]
  split
  · exact State.post_sets pl _ ⟨rfl, rfl, fun _ => id⟩
  · rename_i within
    refine State.post_sets pl _ ⟨rfl, rfl, fun k hk => ?_⟩
    have within : s.quotaCount h ≤ limit := Nat.le_of_not_lt within
    simp only [State.quota, Fin.getElem_fin, Vector.getElem_set]
    split
    · rename_i e
      obtain rfl : h = k := Fin.ext e
      exact within
    · exact hk

theorem execSetQuota_sets (h : HostId) (s : State) : ∃ t, execSetQuota h s = .next t ∧ s.Sets t := by
  refine ⟨_, rfl, ?_⟩
  split
  · exact State.taking_sets _ (State.setQuota_sets s _ _ _)
  · exact .refl s

theorem execSetRecallLimit_sets (h : HostId) (s : State) : ∃ t, execSetRecallLimit h s = .next t ∧ s.Sets t := by
  refine ⟨_, rfl, ?_⟩
  split
  · exact State.taking_sets _ (State.post_sets _ _ ⟨rfl, rfl, fun _ => id⟩)
  · exact .refl s

/-- Every command of the table completes (R1, R16). -/
theorem exec_next (c : Instr) (s : State) (ok : c.wellFormed = true) : ∃ t, exec c s = .next t ∧ s.Does c t := by
  have moves : ∀ {c : Instr} {t : State}, exec c s = .next t → s.Moves t → ∃ t, exec c s = .next t ∧ s.Does c t :=
    fun e m => ⟨_, e, .moves m⟩
  cases c with
  | deviceResetAssert => exact ⟨_, rfl, .asserts⟩
  | deviceResetNegate straps => exact ⟨_, rfl, .negates straps⟩
  | initializationSweepEnd => exact moves rfl (State.Calm.sweepEnd s).moves
  | prstAssert n => exact moves rfl (State.Calm.prstAssert s n).moves
  | prstNegate n => exact moves rfl (State.Calm.modifyPort s n _).moves
  | attach n => exact moves rfl (State.Calm.attach s n).moves
  | detach n => exact moves rfl (State.Calm.attachedWrite s n _).moves
  | teardownAtEngine n => exact moves rfl (State.Calm.teardownAtEngine s n).moves
  | teardownAtEntry n p =>
    refine moves rfl ?_
    simp only [State.teardownAtEntry]
    split
    · exact (State.moves_applyEntry s p (.teardown n)).trans_calm (.modifyPort _ n _)
    · exact (State.Calm.refl s).moves
  | portDetached n =>
    refine moves rfl ?_
    split
    · exact (State.Calm.modifyPort s n _).moves
    · exact (State.Calm.refl s).moves
  | stagingWrite n k en data => exact moves rfl (State.Calm.attachedWrite s n _).moves
  | submit n => exact moves rfl (State.Calm.submit s n).moves
  | takeCommand n => exact moves rfl (State.Calm.takeHead s n _).moves
  | completionPop n => exact moves rfl (State.Calm.attachedWrite s n _).moves
  | acquire h p =>
    refine moves rfl (s.moves_entryTakes h p _ fun t g u ht hg => ?_)
    split at hg <;> cases hg
    exact .inl (ht ▸ .acquire t.place _ _)
  | release h p =>
    refine moves rfl (s.moves_entryTakes h p _ fun t g u ht hg => ?_)
    split at hg <;> cases hg
    exact .inl (.release t.place _)
  | downgrade h p =>
    refine moves rfl (s.moves_entryTakes h p _ fun t g u ht hg => ?_)
    split at hg <;> cases hg
    exact .inl (.downgrade t.place _)
  | cancel n => exact moves rfl (State.Calm.takeHead s n _).moves
  | cancelRequest h p =>
    refine moves rfl (s.moves_entryTakes h p _ fun t g u ht hg => ?_)
    split at hg <;> cases hg
    exact .inl (.cancelRequest t.place _)
  | fence n => exact moves rfl (State.Calm.takeHead s n _).moves
  | flush h =>
    refine moves rfl ?_
    split
    · exact (State.Calm.taking s _ fun u => (State.Calm.modifyPort u h _).trans (.post _ _ _)).moves
    · exact (State.Calm.refl s).moves
  | copy h p =>
    refine moves rfl ?_
    split
    · split_ifs
      · refine State.Calm.moves (.trans ?_ (.redirect _ _ _))
        exact .modifyPage s _ (.addRef _ _)
      · exact ((State.Calm.dropTransit s _).trans (.completeJob _ _ _)).moves
      · exact (State.Calm.dropTransit s _).moves
    · exact (State.Calm.refl s).moves
  | copyDestinationCheck h p =>
    refine moves rfl ?_
    split
    · split_ifs
      · exact ((State.Calm.dropTransit s _).trans (.lastCheck _ _ _ _)).moves
      · exact ((State.Calm.dropTransit s _).trans (.removeRefs _ _)).moves
    · exact (State.Calm.refl s).moves
  | fill h p =>
    refine moves rfl ?_
    split
    · exact (State.Calm.taking s _ fun u => .lastCheck u _ _ _).moves
    · exact (State.Calm.refl s).moves
  | checksum h p =>
    refine moves rfl ?_
    split
    · exact (State.Calm.taking s _ fun u => .lastCheck u _ _ _).moves
    · exact (State.Calm.refl s).moves
  | jobQueueing h =>
    refine moves rfl ?_
    split
    · exact (State.Calm.refl s).moves
    · exact ((State.Calm.modifyEngine s _).trans (.queueJob _ _)).moves
  | query h p =>
    refine moves rfl (s.moves_entryTakes h p _ fun t g u ht hg => ?_)
    split at hg <;> cases hg
    exact .inr (.refl _)
  | retire h p =>
    refine moves rfl (s.moves_entryTakes h p _ fun t g u ht hg => ?_)
    split at hg <;> cases hg
    exact .inr (.retire _ _ _)
  | restore h p =>
    refine moves rfl ?_
    split
    · exact (State.Calm.taking s _ fun u => .restore u _ _).moves
    · exact (State.Calm.refl s).moves
  | scrubAdmission p =>
    refine moves rfl ?_
    split
    · exact (State.Calm.refl s).moves
    · exact ((State.Calm.modifyEngine s _).trans (.admitScrub _ _)).moves
  | scrubRefusal p =>
    refine moves rfl ?_
    split
    · exact (State.Calm.refl s).moves
    · exact ((State.Calm.modifyEngine s _).trans (.applyEntry _ p (.scrubRefused _ _ _))).moves
  | setQuota h =>
    obtain ⟨t, e, m⟩ := execSetQuota_sets h s
    exact ⟨t, e, .sets m⟩
  | setRecallLimit h =>
    obtain ⟨t, e, m⟩ := execSetRecallLimit_sets h s
    exact ⟨t, e, .sets m⟩
  | waitTimeout h p => exact moves rfl (State.moves_applyEntry s p (.waitTimeout h))
  | recallDeadline p => exact moves rfl (State.moves_applyEntry s p .recallDeadline)
  | drainEnd p => exact moves rfl (State.moves_applyEntry s p .drainEnd)
  | windowAccess n a d en data =>
    cases ha : decodeAddress a with
    | window slot w =>
      refine moves (by simp only [exec, execWindowAccess, ha]; rfl) ?_
      split_ifs
      · exact (State.Calm.modifyPort s n _).moves
      · exact (State.Calm.answer s n _).moves
      · exact (State.Calm.refl s).moves
    | _ => simp [Instr.wellFormed, isWindowAddress, ha] at ok
  | accessCheck n =>
    refine moves rfl ?_
    split
    · exact (State.Calm.refl s).moves
    · split
      · exact (State.Calm.passCheck s n ‹_›).moves
      · exact (State.Calm.modifyPort s n _).moves
  | outOfRangeAccess n a d =>
    have calm : s.Calm
        (if s.accepts n then (s.modifyPort n fun g => g.recordFault .range none none d).answer n .errorResponse else s) := by
      split
      · exact (State.Calm.modifyPort s n _).trans (.answer _ n _)
      · exact .refl s
    cases ha : decodeAddress a with
    | neither => exact moves (by simp only [exec, execOutOfRangeAccess, ha]) calm.moves
    | undefinedOffset => exact moves (by simp only [exec, execOutOfRangeAccess, ha]) calm.moves
    | _ => simp [Instr.wellFormed, isOutOfRangeAddress, ha] at ok
  | wordOperationEnd =>
    refine moves rfl ?_
    split
    · exact (State.Calm.refl s).moves
    · exact ((State.Calm.operationEnd s _).trans (.choose _)).moves
  | jobStart => exact moves rfl (State.Calm.startNext s).moves
  | engineAbortEvent which =>
    refine moves rfl ?_
    split
    · exact (State.Calm.refl s).moves
    · exact ((State.Calm.modifyEngine s _).trans (.takeAbort _ _)).moves
  | noticePop n => exact moves rfl (State.Calm.attachedWrite s n _).moves
  | noticeLostClear n => exact moves rfl (State.Calm.attachedWrite s n _).moves
  | faultPop n => exact moves rfl (State.Calm.attachedWrite s n _).moves
  | overflowClear n => exact moves rfl (State.Calm.attachedWrite s n _).moves
  | eventEnablesWrite n en data => exact moves rfl (State.Calm.attachedWrite s n _).moves
  | windowMapEntryWrite n slot en data => exact moves rfl (State.Calm.attachedWrite s n _).moves
  | registerWrite n a en data =>
    cases ha : decodeAddress a with
    | register w =>
      have passive : w.isPassive = true := by simpa [Instr.wellFormed, isPassiveRegisterAddress, ha] using ok
      refine moves (by simp only [exec, execRegisterWrite, ha, passive, if_true]; rfl) ?_
      split
      · exact (State.Calm.answer s n _).moves
      · exact (State.Calm.refl s).moves
    | _ => simp [Instr.wellFormed, isPassiveRegisterAddress, ha] at ok
  | timebaseAdvance => exact moves rfl (State.Calm.tick s).moves
  | arrayUpset p w b flips parityFlips => exact moves rfl (State.Calm.moves (.of_pages rfl rfl rfl))

/-- A term that is no command of the table is refused (R88, R180, R181). -/
theorem exec_refuses (c : Instr) (s : State) (ill : c.wellFormed = false) : exec c s = .refused .wrongAddress := by
  cases c with
  | windowAccess n a d en data =>
    simp only [exec, execWindowAccess]
    cases ha : decodeAddress a with
    | window slot w => simp [Instr.wellFormed, isWindowAddress, ha] at ill
    | _ => rfl
  | outOfRangeAccess n a d =>
    simp only [exec, execOutOfRangeAccess]
    cases ha : decodeAddress a with
    | neither => simp [Instr.wellFormed, isOutOfRangeAddress, ha] at ill
    | undefinedOffset => simp [Instr.wellFormed, isOutOfRangeAddress, ha] at ill
    | _ => rfl
  | registerWrite n a en data =>
    simp only [exec, execRegisterWrite]
    cases ha : decodeAddress a with
    | register w =>
      have active : w.isPassive = false := by simpa [Instr.wellFormed, isPassiveRegisterAddress, ha] using ill
      simp [active]
    | _ => rfl
  | _ => simp [Instr.wellFormed] at ill

/-- A command that answers a next state is one of the table and does what its row says. -/
theorem does_of_exec {c : Instr} {s t : State} (h : exec c s = .next t) : s.Does c t := by
  cases ok : c.wellFormed with
  | false => simp [exec_refuses c s ok] at h
  | true =>
    obtain ⟨u, e, does⟩ := exec_next c s ok
    obtain rfl : u = t := by simpa [e] using h
    exact does

end Sys2Proof.Machine
end

