-- ==== Sys2Proof/Proofs/PageTable.lean ====
section
/-!
SUPPORT. The page table along a step: the invariants of the entries, the counts against quotas and pool, and the
generation of a page with a stray operation.
-/

namespace Sys2Proof.Machine

open Sys2Proof

/-- A step idles, or executes a command in a state that differs in its queue alone. -/
theorem step_cases {s t : State} (h : step s = .next t) :
    t = s ∨ ∃ c rest, exec c { s with pending := rest } = .next t := by
  simp only [step] at h
  split at h
  · exact .inl (Host.Outcome.next.inj h).symm
  · exact .inr ⟨_, _, h⟩

/-- At the assertion and the negation of RESET every entry is emptied, or the state stays (R18). -/
theorem State.resetAssert_page (s : State) : s.resetAssert = s ∨ ∀ p, s.resetAssert.page p = Entry.reset := by
  simp only [State.resetAssert]
  split
  · exact .inl rfl
  · exact .inr fun p => by simp [State.page]

theorem State.resetNegate_page (s : State) (straps : BitVec 4) :
    s.resetNegate straps = s ∨ ∀ p, (s.resetNegate straps).page p = Entry.reset := by
  simp only [State.resetNegate]
  split
  · exact .inr fun p => by simp [State.page]
  · exact .inl rfl

/-! ## The entries -/

/-- Every command keeps every entry well formed. -/
theorem State.Does.pagesOk {s t : State} {c : Instr} (does : s.Does c t) (ok : s.pagesOk) : t.pagesOk := by
  cases does with
  | moves m =>
    rcases m.pages with quiet | ⟨p, f, ev, quiet, others⟩
    · exact fun q => (quiet q).wf (ok q)
    · intro q
      by_cases hq : q = p
      · exact hq ▸ quiet.wf (ev.wf (ok p))
      · exact (others q hq).wf (ok q)
  | asserts =>
    rcases s.resetAssert_page with same | reset
    · rw [same]; exact ok
    · exact fun q => reset q ▸ Entry.reset_wf
  | negates straps =>
    rcases s.resetNegate_page straps with same | reset
    · rw [same]; exact ok
    · exact fun q => reset q ▸ Entry.reset_wf
  | sets m => exact fun q => State.page_congr m.pages q ▸ ok q

/-- A page with a stray operation keeps its generation at every command but those of RESET (R61). -/
theorem State.Does.gen {s t : State} {c : Instr} (does : s.Does c t) (assert : c ≠ .deviceResetAssert)
    (negate : ∀ straps, c ≠ .deviceResetNegate straps) {p : PageId} (stray : (s.page p).hasStray = true) :
    (t.page p).gen = (s.page p).gen := by
  cases does with
  | moves m =>
    rcases m.pages with quiet | ⟨q, f, ev, quiet, others⟩
    · exact (quiet p).gen
    · by_cases hq : p = q
      · subst hq; exact quiet.gen.trans (ev.gen stray)
      · exact (others p hq).gen
  | asserts => exact absurd rfl assert
  | negates straps => exact absurd rfl (negate straps)
  | sets m => rw [State.page_congr m.pages p]

/-! ## Counts over the table -/

/-- A sum over the table is a sum over the pages. -/
theorem State.sum_pages (s : State) (f : Entry → Nat) : (s.pages.toList.map f).sum = ∑ p : PageId, f (s.page p) := by
  have : s.pages.toList.map f = List.ofFn fun p : PageId => f (s.page p) := by
    refine List.ext_getElem (by rw [List.length_map, Vector.length_toList, List.length_ofFn]) fun i h1 h2 => ?_
    rw [List.getElem_map, List.getElem_ofFn, Vector.getElem_toList]
    rfl
  rw [this, List.sum_ofFn]

theorem State.quotaCount_eq (s : State) (h : HostId) : s.quotaCount h = ∑ p : PageId, (s.page p).count h := s.sum_pages _

theorem State.waitersInUse_eq (s : State) : s.waitersInUse = ∑ p : PageId, (s.page p).waiters.length := s.sum_pages _

/-- A sum grows by at most what one page adds. -/
theorem sum_le_of_one_page {f g : PageId → Nat} {p : PageId} {d : Nat} (others : ∀ q, q ≠ p → g q ≤ f q)
    (one : g p ≤ f p + d) : ∑ q, g q ≤ (∑ q, f q) + d := by
  have : ∑ q, g q ≤ ∑ q, (f q + if q = p then d else 0) := by
    refine Finset.sum_le_sum fun q _ => ?_
    by_cases hq : q = p
    · rw [if_pos hq, hq]; exact one
    · rw [if_neg hq]; exact others q hq
  rwa [Finset.sum_add_distrib, Finset.sum_ite_eq' Finset.univ p, if_pos (Finset.mem_univ p)] at this

/-- A table of entries that shrink stays within quotas and pool. -/
theorem State.resourcesOk_of_shrinks {s t : State} (ok : s.resourcesOk) (settings : t.settings = s.settings)
    (shrinks : ∀ q, (s.page q).Shrinks (t.page q)) : t.resourcesOk := by
  obtain ⟨quota, pool⟩ := ok
  have same : ∀ h, t.quota h = s.quota h := fun h => by simp only [State.quota, settings]
  refine ⟨fun h => ?_, ?_⟩
  · rw [same, State.quotaCount_eq]
    refine (Finset.sum_le_sum fun q _ => (shrinks q).count h).trans ?_
    rw [← State.quotaCount_eq]
    exact quota h
  · rw [State.waitersInUse_eq]
    refine (Finset.sum_le_sum fun q _ => (shrinks q).waiters).trans ?_
    rw [← State.waitersInUse_eq]
    exact pool

/-- A table of which one entry grows within quota and pool stays within both (R25). -/
theorem State.resourcesOk_of_grows {s t : State} (ok : s.resourcesOk) (settings : t.settings = s.settings) {p : PageId}
    {h : HostId} (grows : (s.page p).GrowsFor (t.page p) h (s.overQuota h) s.poolFull)
    (others : ∀ q, q ≠ p → (s.page q).Shrinks (t.page q)) : t.resourcesOk := by
  obtain ⟨quota, pool⟩ := ok
  have within : s.quotaCount h < s.quota h := by simpa [State.overQuota] using grows.withinQuota
  refine ⟨fun k => ?_, ?_⟩
  · have := sum_le_of_one_page (fun q hq => (others q hq).count k) (grows.count k)
    rw [← State.quotaCount_eq, ← State.quotaCount_eq] at this
    have same : t.quota k = s.quota k := by simp only [State.quota, settings]
    rw [same]
    refine this.trans ?_
    split
    · rename_i hk; rw [hk]; omega
    · exact quota k
  · rcases grows.waiters with fewer | ⟨one, room⟩
    · have := sum_le_of_one_page (d := 0) (fun q hq => (others q hq).waiters) fewer
      rw [← State.waitersInUse_eq, ← State.waitersInUse_eq] at this
      exact this.trans pool
    · have := sum_le_of_one_page (fun q hq => (others q hq).waiters) one.le
      rw [← State.waitersInUse_eq, ← State.waitersInUse_eq] at this
      have : s.waitersInUse < Config.waiterPoolSize := by simpa [State.poolFull] using room
      omega

/-- A table of empty entries is within every quota and the pool. -/
theorem State.resourcesOk_of_reset {t : State} (reset : ∀ p, t.page p = Entry.reset) : t.resourcesOk := by
  have count : ∀ h, Entry.reset.count h = 0 := by decide +kernel
  have waiters : Entry.reset.waiters.length = 0 := rfl
  simp [State.resourcesOk, State.quotaCount_eq, State.waitersInUse_eq, reset, count, waiters]

/-- Every command keeps the counts within quotas and pool. -/
theorem State.Does.resourcesOk {s t : State} {c : Instr} (does : s.Does c t) (ok : s.resourcesOk) : t.resourcesOk := by
  cases does with
  | moves m =>
    rcases m.pages with quiet | ⟨p, f, ev, quiet, others⟩
    · exact State.resourcesOk_of_shrinks ok m.settings fun q => (quiet q).shrinks
    · rcases ev.counts with shrinks | ⟨h, grows⟩
      · refine State.resourcesOk_of_shrinks ok m.settings fun q => ?_
        by_cases hq : q = p
        · exact hq ▸ shrinks.trans quiet.shrinks
        · exact (others q hq).shrinks
      · refine State.resourcesOk_of_grows ok m.settings (p := p) (h := h) ?_ fun q hq => (others q hq).shrinks
        exact
          { withinQuota := grows.withinQuota
            count := fun k => (quiet.shrinks.count k).trans (grows.count k)
            waiters := by
              have := quiet.shrinks.waiters
              rcases grows.waiters with fewer | ⟨one, room⟩
              · exact .inl (this.trans fewer)
              · rcases this.lt_or_eq with lt | eq
                · exact .inl (by omega)
                · exact .inr ⟨eq.trans one, room⟩ }
  | asserts =>
    rcases s.resetAssert_page with same | reset
    · rw [same]; exact ok
    · exact State.resourcesOk_of_reset reset
  | negates straps =>
    rcases s.resetNegate_page straps with same | reset
    · rw [same]; exact ok
    · exact State.resourcesOk_of_reset reset
  | sets m =>
    have count : ∀ h, t.quotaCount h = s.quotaCount h := fun h => by simp only [State.quotaCount, m.pages]
    have waiters : t.waitersInUse = s.waitersInUse := by simp only [State.waitersInUse, m.pages]
    exact ⟨fun h => count h ▸ m.quota h (ok.1 h), waiters ▸ ok.2⟩

/-- Every command but those of RESET keeps the queue; RESET keeps it too (R1, R16). -/
theorem State.Does.pending {s t : State} {c : Instr} (does : s.Does c t) : t.pending = s.pending := by
  cases does with
  | moves m => exact m.pending
  | asserts => simp only [State.resetAssert]; split <;> rfl
  | negates straps => simp only [State.resetNegate]; split <;> rfl
  | sets m => exact m.pending

end Sys2Proof.Machine
end

section
/-!
The invariants of the page table, the completion of every command, and the hold of a stray operation on a grant.
-/

namespace Sys2Proof.Proofs

open Sys2Proof Sys2Proof.Machine

/-- Settles O54: each entry is changed quietly or by one event that serves its list, and both keep it well formed. -/
theorem pagesStayWellFormed : Obligations.PagesStayWellFormed := by
  intro s t ok h
  rcases step_cases h with rfl | ⟨c, rest, e⟩
  · exact ok
  · exact (does_of_exec e).pagesOk (fun p => ok p)

/-- Settles O56: only an ACQUIRE adds to a count, and it does so within the quota and the pool; SET_QUOTA sets no quota
below the count. -/
theorem quotaAndPoolNeverExceeded : Obligations.QuotaAndPoolNeverExceeded := by
  intro s t ok h
  rcases step_cases h with rfl | ⟨c, rest, e⟩
  · exact ok
  · exact (does_of_exec e).resourcesOk (s := { s with pending := rest }) ok

/-- Settles O2: the case split over the rows of the table is `exec_next`. -/
theorem everyCommandCompletes : Obligations.EveryCommandCompletes := by
  intro c s
  refine ⟨fun ok => ?_, exec_refuses c s⟩
  obtain ⟨t, e, does⟩ := exec_next c s ok
  exact ⟨t, e, does.pending⟩

/-- Settles O60: the table of R12 read off the in-flight pairs and the references, and no event that serves the list
advances the generation while one of them is stray. -/
theorem noGrantWhileStray : Obligations.NoGrantWhileStray := by
  refine ⟨fun e => ?_, fun c s t p stray h assert negate => (does_of_exec h).gen assert negate stray⟩
  have holds : ∀ h, e.holds h = false ↔ e.holding h = none := fun h => by simp [Entry.holds]
  have holdsX : ∀ h, e.holdsX h = false ↔ e.mode h ≠ some .X := fun h => by simp [Entry.holdsX]
  have pair : ∀ h : HostId, e.strayPair h = true ↔
      (e.inFlight[h] = some .read ∧ e.holding h = none) ∨ (e.inFlight[h] = some .write ∧ e.mode h ≠ some .X) := by
    intro h
    rw [← holds, ← holdsX]
    simp only [Entry.strayPair]
    rcases e.inFlight[h] with _ | _ | _ <;> simp
  have ref : ∀ r, e.strayRef r = true ↔
      (r.running = true ∧ r.need = some .S ∧ e.holding r.place.host = none) ∨
        (r.running = true ∧ r.need = some .X ∧ e.mode r.place.host ≠ some .X) := by
    intro r
    rw [← holds, ← holdsX]
    simp only [Entry.strayRef]
    rcases r.need with _ | _ | _ <;> simp
  simp only [Entry.hasStray, Bool.or_eq_true, List.any_eq_true, pair, ref, mem_hostIds, true_and, exists_or, and_or_left,
    or_assoc]

end Sys2Proof.Proofs
end

