-- ==== Sys2Proof/Proofs/StoreRequests.lean ====
section
/-!
SUPPORT. The store's operations and their owners, part one: the operations of one requester at the arbiter, the running
job of the engine queue, and what leaves the accesses of the ports alone.
-/

namespace Sys2Proof.Machine

open Sys2Proof

/-! ## The operations of a requester at the store (R107, R110 to R112) -/

/-- The operations that a requester has at the store, performed or pending. -/
def Arbiter.opsOf (a : Arbiter) (r : Requester) : List WordOp := a.operations.filter fun op => op.requester = r

theorem Arbiter.opsOf_eq (a : Arbiter) (r : Requester) :
    a.opsOf r = (a.performing.toList.filter fun op => op.requester = r) ++ a.requests.filter fun op => op.requester = r :=
  List.filter_append ..

/-- The operation being performed is its requester's only one, if it has but one. -/
theorem Arbiter.opsOf_performing {a : Arbiter} {op : WordOp} (hp : a.performing = some op)
    (one : (a.opsOf op.requester).length ≤ 1) :
    a.opsOf op.requester = [op] ∧ (a.requests.filter fun o => o.requester = op.requester) = [] := by
  have eq := a.opsOf_eq op.requester
  simp only [hp, Option.toList_some, List.filter_cons, decide_true, if_true, List.filter_nil] at eq
  rw [eq] at one
  have none : (a.requests.filter fun o => o.requester = op.requester) = [] := by
    simp only [List.length_append, List.length_singleton] at one
    exact List.eq_nil_of_length_eq_zero (by omega)
  exact ⟨by rw [eq, none]; rfl, none⟩

/-- A choice serves a request without changing who has which operation (R111). -/
theorem Arbiter.opsOf_choose {a : Arbiter} (r : Requester) (one : (a.opsOf r).length ≤ 1) :
    a.choose.opsOf r = a.opsOf r := by
  cases hp : a.performing with
  | some op => rw [Arbiter.choose_of_performing hp]
  | none =>
    cases hn : a.next with
    | none => rw [Arbiter.choose_of_no_next hn]
    | some op =>
      have pending : a.opsOf r = a.requests.filter fun o => o.requester = r := by simp [Arbiter.opsOf_eq, hp]
      rw [Arbiter.choose_of_next hp hn, pending, Arbiter.opsOf_eq]
      by_cases hr : op.requester = r
      · have mem : op ∈ a.requests.filter fun o => o.requester = r :=
          List.mem_filter.2 ⟨Arbiter.next_mem hn, by simpa using hr⟩
        rw [pending] at one
        obtain ⟨x, hx⟩ := List.length_eq_one_iff.1 (le_antisymm one (List.length_pos_of_mem mem))
        rw [hx] at mem ⊢
        obtain rfl := List.mem_singleton.1 mem
        simp [hr, List.filter_filter]
      · simp only [Option.toList_some, List.filter_cons, hr, decide_false, Bool.false_eq_true, if_false,
          List.filter_nil, List.nil_append, List.filter_filter]
        refine List.filter_congr fun o _ => ?_
        by_cases ho : o.requester = r
        · have : r ≠ op.requester := Ne.symm hr
          simp [ho, this]
        · simp [ho]

theorem Arbiter.opsOf_request_self {a : Arbiter} {op : WordOp} (free : a.opsOf op.requester = []) :
    (a.request op).opsOf op.requester = [op] := by
  have joined : ({ a with requests := a.requests ++ [op] } : Arbiter).opsOf op.requester = [op] := by
    rw [Arbiter.opsOf_eq] at free ⊢
    rw [List.filter_append, ← List.append_assoc, free]
    simp
  rw [Arbiter.request, Arbiter.opsOf_choose _ (by rw [joined]; simp), joined]

theorem Arbiter.opsOf_request_of_ne {a : Arbiter} {op : WordOp} {r : Requester} (h : r ≠ op.requester)
    (one : (a.opsOf r).length ≤ 1) : (a.request op).opsOf r = a.opsOf r := by
  have joined : ({ a with requests := a.requests ++ [op] } : Arbiter).opsOf r = a.opsOf r := by
    rw [Arbiter.opsOf_eq, Arbiter.opsOf_eq, List.filter_append]
    simp [Ne.symm h]
  rw [Arbiter.request, Arbiter.opsOf_choose _ (by rw [joined]; exact one), joined]

/-- A withdrawal takes a requester's pending request, and no other's (R112). -/
theorem Arbiter.opsOf_withdraw (a : Arbiter) (x r : Requester) (idle : a.performs x = false) :
    (a.withdraw x).opsOf r = if r = x then [] else a.opsOf r := by
  have not_x : (a.performing.toList.filter fun op => op.requester = x) = [] := by
    simp only [Arbiter.performs, decide_eq_false_iff_not] at idle
    cases hp : a.performing with
    | none => rfl
    | some op => simpa [hp] using idle
  rw [Arbiter.opsOf_eq, Arbiter.opsOf_eq]
  simp only [Arbiter.withdraw, List.filter_filter]
  split
  · rename_i hr
    subst hr
    rw [not_x]
    simp
  · rename_i hr
    congr 1
    refine List.filter_congr fun o _ => ?_
    by_cases ho : o.requester = r <;> simp [ho, hr]

/-- The end of the operation being performed. -/
theorem Arbiter.opsOf_end {a : Arbiter} {op : WordOp} (hp : a.performing = some op) (r : Requester)
    (one : (a.opsOf r).length ≤ 1) :
    ({ a with performing := none } : Arbiter).opsOf r = if r = op.requester then [] else a.opsOf r := by
  have pending : ({ a with performing := none } : Arbiter).opsOf r = a.requests.filter fun o => o.requester = r := by
    simp [Arbiter.opsOf_eq]
  rw [pending]
  split
  · rename_i hr
    subst hr
    exact (Arbiter.opsOf_performing hp one).2
  · rename_i hr
    rw [Arbiter.opsOf_eq, hp]
    simp [Ne.symm hr]

/-! ## The running job (R119, R123) -/

/-- Only the oldest job of the queue can be running, and no two share a place. -/
structure RunsFirst (q : List Job) : Prop where
  tail : ∀ j ∈ q.tail, j.running = false
  nodup : (q.map Job.place).Nodup

/-- The first running job of a queue. -/
def runningIn (q : List Job) : Option Job := q.find? fun j => j.running

theorem Engine.running_eq (g : Engine) : g.running = runningIn g.queue := rfl

theorem RunsFirst.filter {q : List Job} (h : RunsFirst q) (p : Job → Bool) : RunsFirst (q.filter p) := by
  refine ⟨fun j hj => ?_, h.nodup.sublist (List.filter_sublist.map _)⟩
  cases q with
  | nil => simp at hj
  | cons k ks =>
    have mem : j ∈ ks.filter p := by
      rw [List.filter_cons] at hj
      split at hj
      · exact hj
      · exact List.mem_of_mem_tail hj
    exact h.tail j (List.mem_filter.1 mem).1

/-- A change of the records that keeps place and running flag. -/
theorem RunsFirst.map {q : List Job} (h : RunsFirst q) {f : Job → Job} (place : ∀ j, (f j).place = j.place)
    (running : ∀ j ∈ q, (f j).running = j.running) : RunsFirst (q.map f) := by
  refine ⟨fun j hj => ?_, ?_⟩
  · rw [← List.map_tail] at hj
    obtain ⟨k, hk, rfl⟩ := List.mem_map.1 hj
    exact (running k (List.mem_of_mem_tail hk)).trans (h.tail k hk)
  · have : (q.map f).map Job.place = q.map Job.place := by simp [place]
    rw [this]
    exact h.nodup

theorem RunsFirst.eq_of_running {q : List Job} (h : RunsFirst q) {j k : Job} (hj : j ∈ q) (hk : k ∈ q)
    (rj : j.running = true) (rk : k.running = true) : j = k := by
  cases q with
  | nil => cases hj
  | cons x xs =>
    have first : ∀ i ∈ x :: xs, i.running = true → i = x := by
      intro i hi ri
      rcases List.mem_cons.1 hi with e | hi
      · exact e
      · simp [h.tail i hi] at ri
    rw [first j hj rj, first k hk rk]

theorem RunsFirst.eq_of_place {q : List Job} (h : RunsFirst q) {j k : Job} (hj : j ∈ q) (hk : k ∈ q)
    (e : j.place = k.place) : j = k := List.inj_on_of_nodup_map h.nodup hj hk e

theorem runningIn_eq_some {q : List Job} {j : Job} (h : runningIn q = some j) : j ∈ q ∧ j.running = true :=
  ⟨List.mem_of_find?_eq_some h, by simpa using List.find?_some h⟩

theorem RunsFirst.runningIn_of_mem {q : List Job} (h : RunsFirst q) {j : Job} (hj : j ∈ q) (rj : j.running = true) :
    runningIn q = some j := by
  cases hq : runningIn q with
  | none => simpa [rj] using List.find?_eq_none.1 hq j hj
  | some k =>
    obtain ⟨hk, rk⟩ := runningIn_eq_some hq
    rw [h.eq_of_running hj hk rj rk]

theorem runningIn_map (q : List Job) {f : Job → Job} (running : ∀ j ∈ q, (f j).running = j.running) :
    runningIn (q.map f) = (runningIn q).map f := by
  induction q with
  | nil => rfl
  | cons j js ih =>
    have ih := ih fun k hk => running k (List.mem_cons_of_mem j hk)
    have hj := running j (by simp)
    simp only [runningIn, List.map_cons, List.find?_cons, hj] at ih ⊢
    split <;> simp [ih]

/-- Jobs that do not run leave the queue with the running job still the same. -/
theorem runningIn_filter (q : List Job) {p : Job → Bool} (keeps : ∀ j ∈ q, j.running = true → p j = true) :
    runningIn (q.filter p) = runningIn q := by
  induction q with
  | nil => rfl
  | cons j js ih =>
    have ih := ih fun k hk => keeps k (List.mem_cons_of_mem j hk)
    cases hr : j.running with
    | true =>
      have kept := keeps j (by simp) hr
      simp [runningIn, kept, hr]
    | false =>
      have skip : runningIn (j :: js) = runningIn js := by simp [runningIn, hr]
      rw [skip, ← ih, List.filter_cons]
      split
      · simp [runningIn, hr]
      · rfl

theorem runningIn_append (q : List Job) {j : Job} (hj : j.running = false) : runningIn (q ++ [j]) = runningIn q := by
  simp [runningIn, List.find?_append, hj]

/-- The record of the running job replaced by one of the same place. -/
theorem RunsFirst.runningIn_replace {q : List Job} (h : RunsFirst q) {j k : Job} (hj : runningIn q = some j)
    (place : k.place = j.place) (running : k.running = true) :
    runningIn (q.map fun i => if i.place = k.place then k else i) = some k := by
  obtain ⟨mem, rj⟩ := runningIn_eq_some hj
  have same : ∀ i ∈ q, (if i.place = k.place then k else i).running = i.running := by
    intro i hi
    split
    · rename_i e
      rw [h.eq_of_place hi mem (e.trans place), rj, running]
    · rfl
  rw [runningIn_map q same, hj]
  simp [place]

end Sys2Proof.Machine
end

