-- ==== Sys2Proof/Proofs/SameWork.lean ====
section
/-!
SUPPORT. The store's operations and their owners, part two: what a change of the state leaves alone of the accesses of the
ports (`State.SameAccess`) and of the work at the store (`State.SameWork`), operation by operation.
-/

namespace Sys2Proof.Machine

open Sys2Proof

/-- The ports' accesses and sessions and the pages' in-flight pairs are the same. -/
structure State.SameAccess (s t : State) : Prop where
  pairs : ∀ p, (t.page p).inFlight = (s.page p).inFlight
  inFlight : ∀ n, (t.port n).inFlight = (s.port n).inFlight
  access : ∀ n, (t.port n).access = (s.port n).access
  phase : ∀ n, (t.port n).phase = (s.port n).phase

/-- Besides, the store is asked for the same operations, and the engine asks for the same one. -/
structure State.SameWork (s t : State) : Prop extends s.SameAccess t where
  arbiter : t.arbiter = s.arbiter
  running : t.engine.running.map Job.request = s.engine.running.map Job.request

namespace State.SameAccess

theorem refl (s : State) : s.SameAccess s := ⟨fun _ => rfl, fun _ => rfl, fun _ => rfl, fun _ => rfl⟩

theorem trans {s t u : State} (a : s.SameAccess t) (b : t.SameAccess u) : s.SameAccess u :=
  ⟨fun p => (b.pairs p).trans (a.pairs p), fun n => (b.inFlight n).trans (a.inFlight n),
    fun n => (b.access n).trans (a.access n), fun n => (b.phase n).trans (a.phase n)⟩

/-- A change outside the page table and the port groups. -/
theorem of_pages_ports {s t : State} (pages : t.pages = s.pages) (ports : t.ports = s.ports) : s.SameAccess t :=
  ⟨fun p => by rw [State.page_congr pages p], fun n => by rw [State.port_congr ports n],
    fun n => by rw [State.port_congr ports n], fun n => by rw [State.port_congr ports n]⟩

theorem modifyPage (s : State) (p : PageId) {f : Entry → Entry} (same : (f (s.page p)).inFlight = (s.page p).inFlight) :
    s.SameAccess (s.modifyPage p f) := by
  refine ⟨fun q => ?_, fun _ => rfl, fun _ => rfl, fun _ => rfl⟩
  rw [State.page_modifyPage]
  split
  · rename_i hq; exact hq ▸ same
  · rfl

theorem mapPages (s : State) {f : Entry → Entry} (same : ∀ e, (f e).inFlight = e.inFlight) : s.SameAccess (s.mapPages f) :=
  ⟨fun q => by rw [State.page_mapPages]; exact same _, fun _ => rfl, fun _ => rfl, fun _ => rfl⟩

theorem modifyPort (s : State) (n : HostId) {f : PortGroup → PortGroup}
    (inFlight : (f (s.port n)).inFlight = (s.port n).inFlight) (access : (f (s.port n)).access = (s.port n).access)
    (phase : (f (s.port n)).phase = (s.port n).phase) : s.SameAccess (s.modifyPort n f) := by
  have port : ∀ m, (s.modifyPort n f).port m = if m = n then f (s.port n) else s.port m := fun m => s.port_modifyPort n m f
  refine ⟨fun _ => rfl, fun m => ?_, fun m => ?_, fun m => ?_⟩ <;> rw [port] <;> split
  any_goals rfl
  all_goals rename_i hm; subst hm; assumption

theorem post (s : State) (pl : Place) (r : Reply) : s.SameAccess (s.post pl r) := by
  rw [State.post_eq]
  split
  · exact modifyPort s pl.host (f := fun g => g.complete pl r) (by rw [PortGroup.complete_frame])
      (by rw [PortGroup.complete_frame]) (by rw [PortGroup.complete_frame])
  · exact .refl s

theorem postAll (s : State) (l : List (Place × Reply)) : s.SameAccess (s.postAll l) := by
  induction l generalizing s with
  | nil => exact .refl s
  | cons x l ih => exact (post s x.1 x.2).trans (ih _)

theorem notifyAll (s : State) (l : List (HostId × Notice)) : s.SameAccess (s.notifyAll l) := by
  induction l generalizing s with
  | nil => exact .refl s
  | cons x l ih =>
    refine .trans ?_ (ih _)
    exact modifyPort s x.1 (f := fun g => g.notify x.2) (by rw [PortGroup.notify_frame]) (by rw [PortGroup.notify_frame])
      (by rw [PortGroup.notify_frame])

theorem removeRefs (s : State) (j : Job) : s.SameAccess (s.removeRefs j) := by
  have refs : ∀ (u : State) (p : PageId), u.SameAccess (u.modifyPage p fun e => e.removeRef j.place) := fun u p =>
    modifyPage u p rfl
  rcases s.removeRefs_cases j with ⟨source, -, h⟩ | ⟨-, h⟩ | ⟨-, -, h⟩ <;> rw [h]
  · exact (refs _ _).trans (refs _ _)
  · exact modifyPage s _ rfl
  · exact refs _ _

theorem runRefs (s : State) (j : Job) : s.SameAccess (s.runRefs j) := by
  simp only [State.runRefs]
  induction j.pages generalizing s with
  | nil => exact .refl s
  | cons p ps ih => exact (modifyPage s p rfl).trans (ih _)

theorem startFrom (s : State) (l : List Job) : s.SameAccess (s.startFrom l) := by
  induction l generalizing s with
  | nil => exact of_pages_ports rfl rfl
  | cons j js ih =>
    simp only [State.startFrom]
    split
    · exact ((removeRefs s j).trans (post _ _ _)).trans (ih _)
    · refine .trans (.trans ?_ (runRefs _ j)) (of_pages_ports rfl rfl)
      exact of_pages_ports rfl rfl

theorem startNext (s : State) : s.SameAccess s.startNext := by
  simp only [State.startNext]
  split
  · exact .refl s
  · exact startFrom s _

theorem dropQueued (s : State) (j : Job) : s.SameAccess (s.dropQueued j) :=
  (removeRefs s j).trans (of_pages_ports rfl rfl)

theorem endJob (s : State) (j : Job) (st : Status) : s.SameAccess (s.endJob j st) :=
  ((dropQueued s j).trans (post _ _ _)).trans (startNext _)

theorem advanceJob (s : State) (j : Job) : s.SameAccess (s.advanceJob j) := of_pages_ports rfl rfl

end State.SameAccess

namespace State.SameWork

theorem refl (s : State) : s.SameWork s := ⟨.refl s, rfl, rfl⟩

theorem trans {s t u : State} (a : s.SameWork t) (b : t.SameWork u) : s.SameWork u :=
  ⟨a.toSameAccess.trans b.toSameAccess, b.arbiter.trans a.arbiter, b.running.trans a.running⟩

/-- A change of entries and port groups that keeps their accesses, beside the same arbiter and engine queue. -/
theorem of_access {s t : State} (a : s.SameAccess t) (arbiter : t.arbiter = s.arbiter)
    (queue : t.engine.queue = s.engine.queue) : s.SameWork t :=
  ⟨a, arbiter, by rw [Engine.running_eq, Engine.running_eq, queue]⟩

/-- A change outside the page table, the port groups, the arbiter and the engine queue. -/
theorem of_fields {s t : State} (pages : t.pages = s.pages) (ports : t.ports = s.ports) (arbiter : t.arbiter = s.arbiter)
    (queue : t.engine.queue = s.engine.queue) : s.SameWork t :=
  of_access (.of_pages_ports pages ports) arbiter queue

theorem modifyPage (s : State) (p : PageId) {f : Entry → Entry} (same : (f (s.page p)).inFlight = (s.page p).inFlight) :
    s.SameWork (s.modifyPage p f) := of_access (.modifyPage s p same) rfl rfl

theorem modifyPort (s : State) (n : HostId) {f : PortGroup → PortGroup}
    (inFlight : (f (s.port n)).inFlight = (s.port n).inFlight) (access : (f (s.port n)).access = (s.port n).access)
    (phase : (f (s.port n)).phase = (s.port n).phase) : s.SameWork (s.modifyPort n f) :=
  of_access (.modifyPort s n inFlight access phase) rfl rfl

theorem post (s : State) (pl : Place) (r : Reply) : s.SameWork (s.post pl r) := of_access (.post s pl r) (by simp) (by simp)

theorem postAll (s : State) (l : List (Place × Reply)) : s.SameWork (s.postAll l) :=
  of_access (.postAll s l) (by rw [State.postAll_frame]) (by rw [State.postAll_frame])

theorem notifyAll (s : State) (l : List (HostId × Notice)) : s.SameWork (s.notifyAll l) :=
  of_access (.notifyAll s l) (by rw [State.notifyAll_frame]) (by rw [State.notifyAll_frame])

/-- An abort mark changes no job's request (R127). -/
theorem markJob (s : State) (job : Place) : s.SameWork (s.markJob job) := by
  refine ⟨.trans (.mapPages s (f := fun e => e.markRef job) fun _ => rfl) (.of_pages_ports rfl rfl), rfl, ?_⟩
  have request : Job.request ∘ (fun j : Job => if j.place = job then { j with marked := true } else j) = Job.request := by
    funext j
    simp only [Function.comp_apply]
    split <;> rfl
  rw [Engine.running_eq, Engine.running_eq]
  show (runningIn (s.engine.queue.map _)).map Job.request = _
  rw [runningIn_map _ fun j _ => by split <;> rfl, Option.map_map, request]

theorem markAll (s : State) (l : List Place) : s.SameWork (s.markAll l) := by
  induction l generalizing s with
  | nil => exact .refl s
  | cons j l ih => exact (markJob s j).trans (ih _)

/-- What an entry's event hands over leaves accesses and work alone (R16). -/
theorem applyEntry_after (s : State) (p : PageId) (o : EntryOut) : (s.setPage p o.entry).SameWork (s.applyEntry p o) :=
  ((markAll _ o.aborts).trans (notifyAll _ o.notices)).trans (postAll _ o.posts)

/-- An entry's event leaves the in-flight pairs to the access path. -/
theorem applyEntry (s : State) (p : PageId) {o : EntryOut} (same : o.entry.inFlight = (s.page p).inFlight) :
    s.SameWork (s.applyEntry p o) :=
  .trans (modifyPage s p (f := fun _ => o.entry) same) (applyEntry_after s p o)

theorem removeRefs (s : State) (j : Job) : s.SameWork (s.removeRefs j) :=
  of_access (.removeRefs s j) (by simp) (by simp)

/-- A job that does not run leaves the queue (R127, R131). -/
theorem dropQueued (s : State) (j : Job) (idle : ∀ k ∈ s.engine.queue, k.place = j.place → k.running = false) :
    s.SameWork (s.dropQueued j) := by
  refine .trans (removeRefs s j) ⟨.of_pages_ports rfl rfl, rfl, ?_⟩
  rw [Engine.running_eq, Engine.running_eq]
  show (runningIn (s.dropQueued j).engine.queue).map Job.request = _
  rw [State.dropQueued_queue, State.removeRefs_engine, runningIn_filter]
  intro k hk rk
  rw [decide_eq_true_eq]
  intro e
  simp [idle k hk e] at rk

theorem lastCheck (s : State) (p : PageId) (need : Mode) (j : Job) : s.SameWork (s.lastCheck p need j) := by
  simp only [State.lastCheck]
  split
  · exact (modifyPage s p (f := fun e => e.addRef (queuedRef j.place (some need))) rfl).trans (of_fields rfl rfl rfl rfl)
  · exact (removeRefs s j).trans (post _ _ _)

theorem taking (s : State) (pl : Place) {f : State → State} (same : ∀ u : State, u.SameWork (f u)) :
    s.SameWork (s.taking pl f) := by
  have drop : s.SameWork (s.dropTransit pl) := of_fields rfl rfl rfl rfl
  simp only [State.taking]
  split
  · exact drop.trans (same _)
  · exact drop

theorem entryTakes (s : State) (h : HostId) (p : PageId) (f : Transit → Option (State → EntryOut))
    (means : ∀ (t : Transit) (g : State → EntryOut) (u : State), f t = some g →
      (g u).entry.inFlight = (u.page p).inFlight) : s.SameWork (s.entryTakes h p f) := by
  have drop : ∀ pl, s.SameWork (s.dropTransit pl) := fun pl => of_fields rfl rfl rfl rfl
  rcases s.entryTakes_cases h p f with e | ⟨t, -, e | ⟨g, hg, e⟩⟩ <;> rw [e]
  · exact .refl s
  · exact drop _
  · exact (drop t.place).trans (applyEntry _ p (means t g _ hg))

theorem restore (s : State) (p : PageId) (pl : Place) : s.SameWork (s.restore p pl) := by
  simp only [State.restore]
  split
  · exact (modifyPage s p (f := fun e => { e with state := .scrub }) rfl).trans (of_fields rfl rfl rfl rfl)
  · exact post s pl _

/-- A job that does not run joins the queue (R121). -/
theorem enqueue (s : State) {j : Job} (idle : j.running = false) : s.SameWork (s.setQueue (s.engine.queue ++ [j])) :=
  ⟨.of_pages_ports rfl rfl, rfl, by
    rw [Engine.running_eq, Engine.running_eq, State.setQueue_queue, runningIn_append _ idle]⟩

theorem queueJob (s : State) {j : Job} (idle : j.running = false) : s.SameWork (s.queueJob j) := by
  simp only [State.queueJob]
  split_ifs
  · exact removeRefs s j
  · exact (removeRefs s j).trans (post _ _ _)
  · exact (removeRefs s j).trans (post _ _ _)
  · exact enqueue s idle

theorem admitScrub (s : State) {j : Job} (idle : j.running = false) : s.SameWork (s.admitScrub j) := by
  simp only [State.admitScrub]
  split
  · refine .trans (enqueue s idle) ?_
    exact modifyPage _ j.target rfl
  · exact of_fields rfl rfl rfl rfl

theorem attachedWrite (s : State) (n : HostId) {f : PortGroup → PortGroup}
    (inFlight : (f (s.port n)).inFlight = (s.port n).inFlight) (access : (f (s.port n)).access = (s.port n).access)
    (phase : (f (s.port n)).phase = (s.port n).phase) : s.SameWork (s.attachedWrite n f) := by
  cases h : s.accepts n with
  | false => rw [State.attachedWrite_of_not_accepts f h]; exact .refl s
  | true =>
    by_cases a : (s.port n).phase = .attached
    · rw [State.attachedWrite_of_attached f h a]
      exact modifyPort s n (f := fun g => { f g with answer := some ackWrite }) inFlight access phase
    · rw [State.attachedWrite_of_not_attached f h a]
      exact modifyPort s n (f := fun g => { g with answer := some .errorResponse }) rfl rfl rfl

theorem answer (s : State) (n : HostId) (a : Answer) : s.SameWork (s.answer n a) := modifyPort s n rfl rfl rfl

theorem submit (s : State) (n : HostId) : s.SameWork (s.submit n) := by
  simp only [State.submit]
  split_ifs
  · refine .trans ?_ (answer _ n _)
    exact modifyPort s n rfl rfl rfl
  · exact answer s n _
  · exact .refl s

theorem dispatch (s : State) (pl : Place) (c : Except Status Command) : s.SameWork (s.dispatch pl c) := by
  simp only [State.dispatch]
  split
  · exact post s pl _
  · exact of_fields rfl rfl rfl rfl
  · split
    · exact post s pl _
    · exact of_fields rfl rfl rfl rfl
  · have settle : ∀ g : PortGroup, g.settleFence.inFlight = g.inFlight ∧ g.settleFence.access = g.access ∧
        g.settleFence.phase = g.phase := by
      intro g
      simp only [PortGroup.settleFence]
      split
      · split <;> exact ⟨rfl, rfl, rfl⟩
      · exact ⟨rfl, rfl, rfl⟩
    exact modifyPort s pl.host (settle _).1 (settle _).2.1 (settle _).2.2

theorem takeHead (s : State) (n : HostId) (wanted : Descriptor → Bool) : s.SameWork (s.takeHead n wanted) := by
  simp only [State.takeHead]
  split
  · split
    · exact .refl s
    · split
      · refine .trans (.trans (t := { s with taken := s.taken + 1 }) (of_fields rfl rfl rfl rfl) ?_) (dispatch _ _ _)
        exact modifyPort _ n rfl rfl rfl
      · exact .refl s
  · exact .refl s

end State.SameWork

end Sys2Proof.Machine
end

