-- ==== Sys2Proof/Proofs/RequestMatching.lean ====
section
/-!
SUPPORT. The store's operations and their owners, part three: the matching as three facts (the work at the store, the
pages' pairs, one access a port), and each event that moves an operation, a pair or a session.
-/

namespace Sys2Proof.Machine

open Sys2Proof

/-! ## The matching in three parts -/

/-- Every requester has at the store exactly the operation it asks for, but that `lacking` has none (R107). -/
def State.Works (s : State) (lacking : Option Requester) : Prop :=
  ∀ r : Requester, s.arbiter.opsOf r = if lacking = some r then [] else (s.operationOf r).toList

/-- The in-flight pairs of the pages are those of the ports' accesses (R10). -/
def State.PairsOk (s : State) : Prop :=
  ∀ (n : HostId) (p : PageId),
    (s.page p).inFlight[n] = (s.port n).inFlight.bind fun r => if r.page = p then some r.dir else none

/-- A port has one access outstanding, an ATTACHED port none that is abandoned, and a DETACHED port none (R99, R102,
R167). -/
def PortGroup.OneAccess (g : PortGroup) : Prop :=
  (g.access ≠ none → g.inFlight = none) ∧ (g.phase = .attached → ∀ r ∈ g.inFlight, r.abandoned = false) ∧
    (g.phase = .detached → g.inFlight = none)

theorem State.requestsOk_iff (s : State) :
    s.requestsOk ↔ s.Works none ∧ s.PairsOk ∧ ∀ n, (s.port n).OneAccess := by
  simp [State.requestsOk, State.Works, State.PairsOk, PortGroup.OneAccess, Arbiter.opsOf]

theorem State.Works.one {s : State} {x : Option Requester} (w : s.Works x) (r : Requester) :
    (s.arbiter.opsOf r).length ≤ 1 := by
  rw [w r]
  split
  · simp
  · cases s.operationOf r <;> simp

theorem PortGroup.OneAccess.congr {g k : PortGroup} (h : g.OneAccess) (inFlight : k.inFlight = g.inFlight)
    (access : k.access = g.access) (phase : k.phase = g.phase) : k.OneAccess := by
  simpa [PortGroup.OneAccess, inFlight, access, phase] using h

/-- A port that is neither ATTACHED nor DETACHED and has no access to check may have any access in flight. -/
theorem PortGroup.oneAccess_of_detaching {g : PortGroup} (phase : g.phase = .detaching) (access : g.access = none) :
    g.OneAccess := by
  simp [PortGroup.OneAccess, phase, access]

theorem PortGroup.oneAccess_of_inFlight_none {g : PortGroup} (h : g.inFlight = none) : g.OneAccess := by
  simp [PortGroup.OneAccess, h]

/-! ## What leaves the matching alone -/

theorem State.SameAccess.pairsOk {s t : State} (a : s.SameAccess t) (ok : s.PairsOk) : t.PairsOk := by
  intro n p
  rw [a.pairs p, a.inFlight n]
  exact ok n p

theorem State.SameAccess.oneAccess {s t : State} (a : s.SameAccess t) (ok : ∀ n, (s.port n).OneAccess) (n : HostId) :
    (t.port n).OneAccess := (ok n).congr (a.inFlight n) (a.access n) (a.phase n)

theorem State.SameWork.operationOf {s t : State} (a : s.SameWork t) (r : Requester) : t.operationOf r = s.operationOf r := by
  cases r with
  | port n => simp only [State.operationOf, a.inFlight n]
  | engine => exact a.running

theorem State.SameWork.works {s t : State} (a : s.SameWork t) {x : Option Requester} (w : s.Works x) : t.Works x := by
  intro r
  rw [a.arbiter, a.operationOf r]
  exact w r

theorem State.SameWork.requestsOk {s t : State} (a : s.SameWork t) (ok : s.requestsOk) : t.requestsOk := by
  obtain ⟨work, pairs, one⟩ := (s.requestsOk_iff).1 ok
  exact (t.requestsOk_iff).2 ⟨a.works work, a.pairsOk pairs, a.oneAccess one⟩

/-- While the engine has no operation at the store, only the arbiter and the ports' accesses matter. -/
theorem State.SameAccess.works_engine {s t : State} (a : s.SameAccess t) (arbiter : t.arbiter = s.arbiter)
    (w : s.Works (some .engine)) : t.Works (some .engine) := by
  intro r
  rw [arbiter, w r]
  cases r with
  | port n => simp only [State.operationOf, a.inFlight n]
  | engine => simp

/-- A requester that asks for nothing lacks nothing. -/
theorem State.Works.of_none {s : State} {x : Requester} (w : s.Works (some x)) (none : s.operationOf x = none) :
    s.Works .none := by
  intro r
  rw [w r]
  by_cases h : x = r
  · subst h; simp [none]
  · simp [h]

/-- The operation that was lacking is requested (R99, R124). -/
theorem State.Works.request {s : State} {op : WordOp} (w : s.Works (some op.requester))
    (asks : s.operationOf op.requester = some op) : (s.request op).Works none := by
  have operation : ∀ r, (s.request op).operationOf r = s.operationOf r := fun r => by cases r <;> rfl
  intro r
  rw [operation, State.request_arbiter]
  by_cases h : r = op.requester
  · subst h
    rw [Arbiter.opsOf_request_self (by simp [w op.requester]), asks]
    simp
  · rw [Arbiter.opsOf_request_of_ne h (w.one r), w r]
    simp [Ne.symm h]

theorem State.Works.choose {s : State} {x : Option Requester} (w : s.Works x) : s.choose.Works x := by
  have operation : ∀ r, s.choose.operationOf r = s.operationOf r := fun r => by cases r <;> rfl
  intro r
  rw [operation, State.choose_arbiter, Arbiter.opsOf_choose r (w.one r)]
  exact w r

/-- A requester's pending operation is withdrawn (R112). -/
theorem State.Works.withdraw {s : State} (w : s.Works none) {x : Requester} (idle : s.arbiter.performs x = false) :
    ({ s with arbiter := s.arbiter.withdraw x } : State).Works (some x) := by
  have operation : ∀ r, ({ s with arbiter := s.arbiter.withdraw x } : State).operationOf r = s.operationOf r := fun r => by
    cases r <;> rfl
  intro r
  rw [operation, Arbiter.opsOf_withdraw _ _ _ idle, w r]
  by_cases h : r = x
  · simp [h]
  · simp [h, Ne.symm h]

/-- At the end of an operation its requester has none at the store (R110). -/
theorem State.Works.endOperation {s : State} (w : s.Works none) {op : WordOp} (hp : s.arbiter.performing = some op)
    (store : Store) :
    ({ s with store := store, arbiter := { s.arbiter with performing := none } } : State).Works (some op.requester) ∧
      s.operationOf op.requester = some op := by
  constructor
  · have operation : ∀ r,
        ({ s with store := store, arbiter := { s.arbiter with performing := none } } : State).operationOf r =
          s.operationOf r := fun r => by cases r <;> rfl
    intro r
    rw [operation, Arbiter.opsOf_end hp r (w.one r), w r]
    by_cases h : r = op.requester
    · simp [h]
    · simp [h, Ne.symm h]
  · have mine := (Arbiter.opsOf_performing hp (w.one _)).1
    rw [w op.requester] at mine
    cases h : s.operationOf op.requester with
    | none => simp [h] at mine
    | some o => simpa [h] using mine

/-! ## One port -/

/-- A port group is replaced by one with the same access in flight. -/
theorem State.requestsOk_setPort {s : State} (ok : s.requestsOk) (n : HostId) {g : PortGroup}
    (inFlight : g.inFlight = (s.port n).inFlight) (one : g.OneAccess) : (s.setPort n g).requestsOk := by
  obtain ⟨work, pairs, ones⟩ := (s.requestsOk_iff).1 ok
  have same : ∀ m, ((s.setPort n g).port m).inFlight = (s.port m).inFlight := by
    intro m
    rw [State.port_setPort]
    split
    · rename_i hm; rw [hm, inFlight]
    · rfl
  refine (State.requestsOk_iff _).2 ⟨fun r => ?_, fun m p => ?_, fun m => ?_⟩
  · have operation : (s.setPort n g).operationOf r = s.operationOf r := by
      cases r with
      | port m => simp only [State.operationOf, same]
      | engine => rfl
    rw [operation]
    exact work r
  · rw [same]; exact pairs m p
  · rw [State.port_setPort]
    split
    · exact one
    · exact ones m

/-- A pair and the access it stands for come and go together (R97, R100, R102). -/
theorem State.PairsOk.change {s t : State} (ok : s.PairsOk) {n : HostId} {q : PageId} {d : Option Dir}
    (clear : ∀ p, p ≠ q → (s.page p).inFlight[n] = none)
    (pages : ∀ p, (t.page p).inFlight = if p = q then ((s.page q).setPair n d).inFlight else (s.page p).inFlight)
    (ports : ∀ m, m ≠ n → (t.port m).inFlight = (s.port m).inFlight)
    (own : ∀ p, ((t.port n).inFlight.bind fun r => if r.page = p then some r.dir else none) = if p = q then d else none) :
    t.PairsOk := by
  intro m p
  by_cases hm : m = n
  · subst hm
    rw [own, pages]
    by_cases hp : p = q
    · rw [if_pos hp, if_pos hp, Entry.setPair_inFlight, if_pos rfl]
    · rw [if_neg hp, if_neg hp, clear p hp]
  · rw [ports m hm, pages, ← ok m p]
    by_cases hp : p = q
    · rw [if_pos hp, Entry.setPair_inFlight, if_neg hm, hp]
    · rw [if_neg hp]

/-- The passing check puts an access in flight and its operation at the store (R97, R99). -/
theorem State.requestsOk_passCheck {s : State} (ok : s.requestsOk) {n : HostId} {a : WindowAccess}
    (access : (s.port n).access = some a) (phase : (s.port n).phase = .attached) : (s.passCheck n a).requestsOk := by
  obtain ⟨work, pairs, ones⟩ := (s.requestsOk_iff).1 ok
  have free : (s.port n).inFlight = none := (ones n).1 (by simp [access])
  have port : ∀ m, (s.passCheck n a).port m =
      if m = n then { s.port n with access := none, inFlight := some a.inFlight } else s.port m := fun m =>
    State.port_modifyPort (s.modifyPage a.page fun e => e.setPair n (some a.dir)) n m
      fun g => { g with access := none, inFlight := some a.inFlight }
  refine (State.requestsOk_iff _).2 ⟨?_, ?_, fun m => ?_⟩
  · refine State.Works.request (op := a.request n) (fun r => ?_) ?_
    · show s.arbiter.opsOf r = _
      rw [work r]
      cases r with
      | engine => simp only [WindowAccess.request, State.operationOf]; rfl
      | port m =>
        simp only [State.operationOf, State.port_modifyPort, State.port_modifyPage, WindowAccess.request]
        by_cases hm : m = n
        · simp [hm, free]
        · simp [hm, Ne.symm hm]
    · show Option.map _ (((s.modifyPage a.page _).modifyPort n _).port n).inFlight = _
      rw [State.port_modifyPort_self]
      rfl
  · refine pairs.change (n := n) (q := a.page) (d := some a.dir) (fun p _ => ?_) (fun p => ?_) (fun m hm => ?_) fun p => ?_
    · rw [pairs n p, free]; rfl
    · show ((s.modifyPage a.page fun e => e.setPair n (some a.dir)).page p).inFlight = _
      rw [State.page_modifyPage]
      split <;> rfl
    · rw [port, if_neg hm]
    · rw [port, if_pos rfl]
      by_cases hp : p = a.page
      · simp [hp, WindowAccess.inFlight]
      · simp [hp, Ne.symm hp, WindowAccess.inFlight]
  · rw [port]
    split
    · simp [PortGroup.OneAccess, WindowAccess.inFlight, phase]
    · exact ones m

/-- The access of a port leaves: pair, record and operation (R100, R102). -/
theorem State.requestsOk_of_cleared {s t : State} {n : HostId} {r : InFlight} (work : s.Works (some (.port n)))
    (pairs : s.PairsOk) (ones : ∀ m, m ≠ n → (s.port m).OneAccess) (inFlight : (s.port n).inFlight = some r)
    (pages : ∀ p, (t.page p).inFlight =
      if p = r.page then ((s.page r.page).setPair n none).inFlight else (s.page p).inFlight)
    (arbiter : t.arbiter = s.arbiter) (engine : t.operationOf .engine = s.operationOf .engine)
    (ports : ∀ m, m ≠ n → (t.port m).inFlight = (s.port m).inFlight ∧ (t.port m).access = (s.port m).access ∧
      (t.port m).phase = (s.port m).phase) (own : (t.port n).inFlight = none) : t.requestsOk := by
  refine (State.requestsOk_iff _).2 ⟨fun x => ?_, ?_, fun m => ?_⟩
  · rw [arbiter, work x]
    cases x with
    | engine => rw [engine]; simp
    | port m =>
      by_cases hm : m = n
      · simp [hm, State.operationOf, own]
      · simp [Ne.symm hm, State.operationOf, (ports m hm).1]
  · refine pairs.change (n := n) (q := r.page) (d := none) (fun p hp => ?_) pages (fun m hm => (ports m hm).1) fun p => ?_
    · rw [pairs n p, inFlight]
      simp [Ne.symm hp]
    · simp [own]
  · by_cases hm : m = n
    · exact hm ▸ PortGroup.oneAccess_of_inFlight_none own
    · exact (ones m hm).congr (ports m hm).1 (ports m hm).2.1 (ports m hm).2.2

theorem PortGroup.oneAccess_startDetaching (g : PortGroup) : g.startDetaching.OneAccess :=
  PortGroup.oneAccess_of_detaching rfl rfl

/-- An access that is marked abandoned asks for the same operation and has the same pair (R102). -/
theorem State.requestsOk_of_abandoned {s t : State} (ok : s.requestsOk) {n : HostId} {r : InFlight}
    (inFlight : (s.port n).inFlight = some r) (pages : t.pages = s.pages) (arbiter : t.arbiter = s.arbiter)
    (engine : t.engine = s.engine) (ports : ∀ m, m ≠ n → t.port m = s.port m)
    (own : (t.port n).inFlight = some { r with abandoned := true }) (one : (t.port n).OneAccess) : t.requestsOk := by
  obtain ⟨work, pairs, ones⟩ := (s.requestsOk_iff).1 ok
  refine (State.requestsOk_iff _).2 ⟨fun x => ?_, fun m p => ?_, fun m => ?_⟩
  · have operation : t.operationOf x = s.operationOf x := by
      cases x with
      | engine => simp only [State.operationOf, engine]
      | port m =>
        by_cases hm : m = n
        · simp [State.operationOf, hm, own, inFlight, InFlight.request]
        · simp [State.operationOf, ports m hm]
    rw [arbiter, operation]
    exact work x
  · rw [State.page_congr pages p, pairs m p]
    by_cases hm : m = n
    · simp [hm, own, inFlight]
    · rw [ports m hm]
  · by_cases hm : m = n
    · exact hm ▸ one
    · exact ports m hm ▸ ones m

/-- PRSTn on an ATTACHED port: its access is abandoned or leaves, and DETACHING starts (R102, R161). -/
theorem State.requestsOk_abandon {s : State} (ok : s.requestsOk) (n : HostId) :
    ((s.abandon n).modifyPort n PortGroup.startDetaching).requestsOk := by
  obtain ⟨work, pairs, ones⟩ := (s.requestsOk_iff).1 ok
  have inFlight : ∀ g : PortGroup, g.startDetaching.inFlight = g.inFlight := fun _ => rfl
  simp only [State.abandon]
  split
  · exact State.requestsOk_setPort ok n rfl (PortGroup.oneAccess_startDetaching _)
  · rename_i r hr
    split
    · refine State.requestsOk_of_abandoned ok hr rfl rfl rfl (fun m hm => ?_) ?_ ?_
      · rw [State.port_modifyPort_of_ne _ _ hm, State.port_modifyPort_of_ne _ _ hm]
      · rw [State.port_modifyPort_self, State.port_modifyPort_self, inFlight]
      · rw [State.port_modifyPort_self]
        exact PortGroup.oneAccess_startDetaching _
    · rename_i idle
      refine State.requestsOk_of_cleared (work.withdraw (by simpa using idle)) pairs (fun m _ => ones m) hr (fun p => ?_)
        rfl rfl (fun m hm => ?_) ?_
      · rw [State.page_modifyPort, State.page_modifyPort, State.page_modifyPage]
        split <;> rfl
      · rw [State.port_modifyPort_of_ne _ _ hm, State.port_modifyPort_of_ne _ _ hm]
        exact ⟨rfl, rfl, rfl⟩
      · rw [State.port_modifyPort_self, State.port_modifyPort_self, inFlight]

/-! ## The running job -/

/-- The engine requests the word of the job that runs (R124). -/
theorem State.Works.requestJob {s : State} (w : s.Works (some .engine)) {j : Job} (running : s.engine.running = some j) :
    (s.request j.request).Works none := by
  have engine : j.request.requester = .engine := by
    simp only [Job.request]
    split
    · rfl
    · rfl
    · rfl
    · split <;> rfl
  refine State.Works.request (op := j.request) (engine ▸ w) ?_
  rw [engine]
  simp [State.operationOf, running]

/-- The start of a job from a queue in which none runs (R123). -/
theorem State.Works.startFrom {s : State} (w : s.Works (some .engine)) (l : List Job) (idle : ∀ j ∈ l, j.running = false) :
    (s.startFrom l).Works none := by
  induction l generalizing s with
  | nil =>
    exact State.Works.of_none (x := .engine) (State.SameAccess.works_engine (s := s) (.of_pages_ports rfl rfl) rfl w) rfl
  | cons j js ih =>
    simp only [State.startFrom]
    split
    · have same : s.SameAccess ((s.removeRefs j).completeJob j .aborted) :=
        (State.SameAccess.removeRefs s j).trans (.post _ _ _)
      have arbiter : ((s.removeRefs j).completeJob j .aborted).arbiter = s.arbiter := by simp [State.completeJob]
      exact ih (same.works_engine arbiter w) fun k hk => idle k (List.mem_cons_of_mem j hk)
    · have run : ((s.setQueue ({ j with running := true } :: js)).runRefs j).arbiter = s.arbiter ∧
          ((s.setQueue ({ j with running := true } :: js)).runRefs j).engine.running = some { j with running := true } := by
        rw [State.runRefs_frame]
        exact ⟨rfl, by simp [Engine.running_eq, runningIn]⟩
      have same : s.SameAccess ((s.setQueue ({ j with running := true } :: js)).runRefs j) :=
        .trans (t := s.setQueue ({ j with running := true } :: js)) (.of_pages_ports rfl rfl) (.runRefs _ j)
      exact (same.works_engine run.1 w).requestJob (j := { j with running := true }) run.2

/-- The running job leaves, and the next oldest starts (R126, R128, R130). -/
theorem State.Works.endJob {s : State} (w : s.Works (some .engine)) (first : RunsFirst s.engine.queue) {j k : Job}
    (running : s.engine.running = some k) (place : j.place = k.place) (st : Status) : (s.endJob j st).Works none := by
  have queue : ((s.dropQueued j).completeJob j st).engine.queue = s.engine.queue.filter fun i => i.place ≠ j.place := by
    rw [State.completeJob, State.post_engine, State.dropQueued_queue]
  have arbiter : ((s.dropQueued j).completeJob j st).arbiter = s.arbiter := by
    rw [State.completeJob, State.post_arbiter]
    exact s.removeRefs_arbiter j
  have idle : ∀ i ∈ ((s.dropQueued j).completeJob j st).engine.queue, i.running = false := by
    rw [queue]
    intro i hi
    obtain ⟨mem, apart⟩ := List.mem_filter.1 hi
    by_contra ri
    obtain ⟨hk, rk⟩ := runningIn_eq_some running
    obtain rfl := first.eq_of_running mem hk (by simpa using ri) rk
    simp [place] at apart
  have none : ((s.dropQueued j).completeJob j st).engine.running = none :=
    List.find?_eq_none.2 fun i hi => by simp [idle i hi]
  have same : s.SameAccess ((s.dropQueued j).completeJob j st) := (State.SameAccess.dropQueued s j).trans (.post _ _ _)
  show ((s.dropQueued j).completeJob j st).startNext.Works _
  simp only [State.startNext, none]
  exact (same.works_engine arbiter w).startFrom _ idle

theorem State.Works.advanceJob {s : State} (w : s.Works (some .engine)) (first : RunsFirst s.engine.queue) {j k : Job}
    (running : s.engine.running = some k) (place : j.place = k.place) (runs : j.running = true) :
    (s.advanceJob j).Works none := by
  have set : (s.setJob j).engine.running = some j := first.runningIn_replace running place runs
  exact (State.SameAccess.works_engine (s := s) (t := s.setJob j) (.of_pages_ports rfl rfl) rfl w).requestJob set

/-- The matching holds again once the engine has an operation for its job or no job runs. -/
theorem State.requestsOk_of_sameAccess {s t : State} (ok : s.requestsOk) (a : s.SameAccess t) (w : t.Works none) :
    t.requestsOk := by
  obtain ⟨-, pairs, ones⟩ := (s.requestsOk_iff).1 ok
  exact (t.requestsOk_iff).2 ⟨w, a.pairsOk pairs, a.oneAccess ones⟩

/-- The start of the oldest job, if none runs (R123). -/
theorem State.requestsOk_startNext {s : State} (ok : s.requestsOk) : s.startNext.requestsOk := by
  refine State.requestsOk_of_sameAccess ok (.startNext s) ?_
  obtain ⟨work, -, -⟩ := (s.requestsOk_iff).1 ok
  simp only [State.startNext]
  cases h : s.engine.running with
  | some j => exact work
  | none =>
    have lacking : s.Works (some .engine) := fun r => by
      rw [work r]
      cases r with
      | port n => simp
      | engine => simp [State.operationOf, h]
    exact lacking.startFrom _ fun j hj => by simpa using List.find?_eq_none.1 h j hj

/-- The running job stops: at once, or at the end of the word being performed (R128). -/
theorem State.requestsOk_stopRunning {s : State} (ok : s.requestsOk) (first : RunsFirst s.engine.queue) {j k : Job}
    (running : s.engine.running = some k) (place : j.place = k.place) (runs : j.running = true)
    (request : j.request = k.request) : (s.stopRunning j).requestsOk := by
  obtain ⟨work, -, -⟩ := (s.requestsOk_iff).1 ok
  simp only [State.stopRunning]
  split
  · refine State.SameWork.requestsOk (s := s) ⟨.of_pages_ports rfl rfl, rfl, ?_⟩ ok
    have set : (s.setJob { j with stopping := true }).engine.running = some { j with stopping := true } :=
      first.runningIn_replace running place runs
    rw [set, running]
    exact congrArg some request
  · rename_i idle
    have lacking := work.withdraw (x := .engine) (by simpa using idle)
    refine State.requestsOk_of_sameAccess ok ?_ (lacking.endJob first running place .aborted)
    exact .trans (t := { s with arbiter := s.arbiter.withdraw .engine }) (.of_pages_ports rfl rfl) (.endJob _ _ _)

/-- The engine takes an abort event (R127 to R129). -/
theorem State.requestsOk_takeAbort {s : State} (ok : s.requestsOk) (first : RunsFirst s.engine.queue) (job : Place) :
    (s.takeAbort job).requestsOk := by
  simp only [State.takeAbort]
  split
  · exact ok
  · rename_i j hj
    have mem := List.mem_of_find?_eq_some hj
    split
    · rename_i runs
      exact State.requestsOk_stopRunning ok first (first.runningIn_of_mem mem runs) rfl runs rfl
    · rename_i idle
      refine State.SameWork.requestsOk (.trans (.dropQueued s j fun k hk e => ?_) (.post _ _ _)) ok
      rw [first.eq_of_place hk mem e]
      simpa using idle

/-- The queued jobs of a host leave (R131). -/
theorem State.dropQueuedOf_same (s : State) (n : HostId) (first : RunsFirst s.engine.queue) :
    s.SameWork (s.dropQueuedOf n) ∧ RunsFirst (s.dropQueuedOf n).engine.queue := by
  have all : ∀ (l : List Job) (u : State), RunsFirst u.engine.queue →
      (∀ j ∈ l, ∀ k ∈ u.engine.queue, k.place = j.place → k.running = false) →
        u.SameWork (l.foldl State.dropQueued u) ∧ RunsFirst (l.foldl State.dropQueued u).engine.queue := by
    intro l
    induction l with
    | nil => exact fun u first _ => ⟨.refl u, first⟩
    | cons j js ih =>
      intro u first idle
      obtain ⟨same, first'⟩ := ih (u.dropQueued j) (u.dropQueued_queue j ▸ first.filter _) fun i hi k hk =>
        idle i (List.mem_cons_of_mem j hi) k (List.mem_filter.1 (u.dropQueued_queue j ▸ hk)).1
      exact ⟨(State.SameWork.dropQueued u j (idle j (by simp))).trans same, first'⟩
  refine all _ s first fun j hj k hk e => ?_
  obtain ⟨mem, cond⟩ := List.mem_filter.1 hj
  rw [first.eq_of_place hk mem e]
  simp only [Bool.and_eq_true, Bool.not_eq_true'] at cond
  exact cond.1.2

/-- The running job of a host is marked and stops (R131). -/
theorem State.requestsOk_stopRunningOf {s : State} (ok : s.requestsOk) (first : RunsFirst s.engine.queue) (n : HostId) :
    (s.stopRunningOf n).requestsOk := by
  simp only [State.stopRunningOf]
  split
  · exact ok
  · rename_i j hj
    split
    · obtain ⟨mem, runs⟩ := runningIn_eq_some hj
      have set : (((s.mapPages fun e => e.markRef j.place).setJob { j with marked := true }).engine.running) =
          some { j with marked := true } := first.runningIn_replace hj rfl runs
      have same : s.SameWork ((s.mapPages fun e => e.markRef j.place).setJob { j with marked := true }) := by
        refine ⟨.trans (.mapPages s (f := fun e => e.markRef j.place) fun _ => rfl) (.of_pages_ports rfl rfl), rfl, ?_⟩
        rw [set, hj]
        rfl
      refine State.requestsOk_stopRunning (same.requestsOk ok) ?_ set rfl runs rfl
      refine first.map (fun k => ?_) fun k => ?_
      · split <;> simp_all
      · intro hk
        split
        · rename_i e
          exact runs.trans ((congrArg Job.running (first.eq_of_place hk mem e)).trans runs).symm
        · rfl
    · exact ok

end Sys2Proof.Machine
end

