-- ==== Sys2Proof/Proofs/OperationEnds.lean ====
section
/-!
SUPPORT. The store's operations and their owners, part four: the end of a word operation at its port and at the page
engine (R100 to R102, R110, R124 to R130).
-/

namespace Sys2Proof.Machine

open Sys2Proof

/-! ## The end of a window access -/

@[simp] theorem PortGroup.endAccess_inFlight (g : PortGroup) (r : InFlight) (a : Answer) :
    (g.endAccess r a).inFlight = none := by
  simp only [PortGroup.endAccess]
  split <;> rfl

theorem State.requestsOk_accessEnd {s : State} {n : HostId} {r : InFlight} (work : s.Works (some (.port n)))
    (pairs : s.PairsOk) (ones : ∀ m, (s.port m).OneAccess) (inFlight : (s.port n).inFlight = some r) :
    (s.accessEnd n r).requestsOk := by
  refine State.requestsOk_of_cleared work pairs (fun m _ => ones m) inFlight (fun p => ?_) rfl rfl (fun m hm => ?_) ?_
  · rw [State.accessEnd, State.page_modifyPort, State.page_modifyPage]
    split <;> rfl
  · rw [State.accessEnd, State.port_modifyPort_of_ne _ _ hm]
    exact ⟨rfl, rfl, rfl⟩
  · rw [State.accessEnd, State.port_modifyPort_self, PortGroup.endAccess_inFlight]

theorem State.requestsOk_accessParity {s : State} {n : HostId} {r : InFlight} (work : s.Works (some (.port n)))
    (pairs : s.PairsOk) (ones : ∀ m, (s.port m).OneAccess) (inFlight : (s.port n).inFlight = some r) :
    (s.accessParity n r).requestsOk := by
  have after := State.SameWork.applyEntry_after s r.page (((s.page r.page).setPair n none).parityReport (s.env r.page))
  have report := (((s.page r.page).setPair n none).parityReport_inFlight_refs (s.env r.page)).1
  refine State.requestsOk_of_cleared work pairs (fun m _ => ones m) inFlight (fun p => ?_) after.arbiter after.running
    (fun m hm => ?_) ?_
  · rw [State.accessParity, State.page_modifyPort, after.pairs, State.page_setPage]
    split
    · exact report
    · rfl
  · rw [State.accessParity, State.port_modifyPort_of_ne _ _ hm]
    exact ⟨after.inFlight m, after.access m, after.phase m⟩
  · rw [State.accessParity, State.port_modifyPort_self, PortGroup.endAccess_inFlight]

/-! ## The end of a word of the page engine -/

/-- Abort marks keep the order of the queue and which job runs (R127). -/
theorem RunsFirst.markAll {s : State} (first : RunsFirst s.engine.queue) {j : Job} (running : s.engine.running = some j)
    (l : List Place) :
    RunsFirst (s.markAll l).engine.queue ∧ ∃ k, (s.markAll l).engine.running = some k ∧ j.place = k.place := by
  induction l generalizing s j with
  | nil => exact ⟨first, j, running, rfl⟩
  | cons pl l ih =>
    have place : ∀ k : Job, (if k.place = pl then { k with marked := true } else k).place = k.place := fun k => by
      split <;> rfl
    have runs : ∀ k ∈ s.engine.queue, (if k.place = pl then { k with marked := true } else k).running = k.running :=
      fun k _ => by split <;> rfl
    have marked : (s.markJob pl).engine.running = some (if j.place = pl then { j with marked := true } else j) := by
      rw [Engine.running_eq] at running ⊢
      exact (runningIn_map s.engine.queue runs).trans (by rw [running]; rfl)
    obtain ⟨first', k, run, same⟩ := ih (s := s.markJob pl) (first.map place runs) marked
    exact ⟨first', k, run, (place j).symm.trans same⟩

/-- So does an entry's event. -/
theorem RunsFirst.applyEntry {s : State} (first : RunsFirst s.engine.queue) {j : Job} (running : s.engine.running = some j)
    (p : PageId) (o : EntryOut) :
    RunsFirst (s.applyEntry p o).engine.queue ∧ ∃ k, (s.applyEntry p o).engine.running = some k ∧ j.place = k.place := by
  have engine : (s.applyEntry p o).engine = ((s.setPage p o.entry).markAll o.aborts).engine := by
    simp only [State.applyEntry]
    rw [State.postAll_frame, State.notifyAll_frame]
  rw [engine]
  exact RunsFirst.markAll (s := s.setPage p o.entry) first running o.aborts

section Word

variable {s : State} (work : s.Works (some .engine)) (first : RunsFirst s.engine.queue) {j : Job}
  (running : s.engine.running = some j)

include work first running

theorem State.Works.engineParity (p : PageId) : (s.engineParity j p).Works none ∧ s.SameAccess (s.engineParity j p) := by
  have report := (((s.page p).removeRef j.place).parityReport_inFlight_refs (s.env p)).1
  have same := State.SameWork.applyEntry s p (o := ((s.page p).removeRef j.place).parityReport (s.env p)) report
  obtain ⟨first', k, run, place⟩ := first.applyEntry running p (((s.page p).removeRef j.place).parityReport (s.env p))
  exact ⟨(same.works work).endJob first' run place _, same.toSameAccess.trans (.endJob _ _ _)⟩

theorem State.Works.engineWriteEnd : (s.engineWriteEnd j).Works none ∧ s.SameAccess (s.engineWriteEnd j) := by
  simp only [State.engineWriteEnd]
  split_ifs
  · exact ⟨work.endJob first running (by rfl) _, .endJob s _ _⟩
  · exact ⟨work.endJob first running (by rfl) _, .endJob s _ _⟩
  · exact ⟨work.advanceJob first running (by rfl) (runningIn_eq_some running).2, .advanceJob s _⟩

/-- Only a COPY and a CHECKSUM read (R124). -/
theorem State.Works.engineReadEnd (reads : j.request.dir = .read) (data : Word) :
    (s.engineReadEnd j data).Works none ∧ s.SameAccess (s.engineReadEnd j data) := by
  have runs := (runningIn_eq_some running).2
  simp only [State.engineReadEnd]
  split
  · exact ⟨work.endJob first running rfl _, .endJob s _ _⟩
  · split
    · exact ⟨work.advanceJob first running (by rfl) runs, .advanceJob s _⟩
    · split
      · exact ⟨work.endJob first running (by rfl) _, .endJob s _ _⟩
      · exact ⟨work.advanceJob first running (by rfl) runs, .advanceJob s _⟩
    · rename_i hw; simp [Job.request, hw, engineWrite] at reads
    · rename_i hw; simp [Job.request, hw, engineWrite] at reads

theorem State.Works.engineOperationEnd {op : WordOp} (asks : j.request = op) (failed : Bool) :
    (s.engineOperationEnd op failed).Works none ∧ s.SameAccess (s.engineOperationEnd op failed) := by
  simp only [State.engineOperationEnd, running]
  split
  · exact work.engineParity first running op.page
  · split
    · exact work.engineWriteEnd first running
    · rename_i hd
      exact work.engineReadEnd first running (asks ▸ hd) _

end Word

/-! ## The end of an operation -/

theorem State.requestsOk_choose {s : State} (ok : s.requestsOk) : s.choose.requestsOk :=
  State.requestsOk_of_sameAccess ok (.of_pages_ports rfl rfl) ((s.requestsOk_iff).1 ok).1.choose

/-- The operation being performed ends, and with it the access or the word it was for (R110). -/
theorem State.requestsOk_operationEnd {s : State} (ok : s.requestsOk) (first : RunsFirst s.engine.queue) {op : WordOp}
    (hp : s.arbiter.performing = some op) : (s.operationEnd op).requestsOk := by
  obtain ⟨work, pairs, ones⟩ := (s.requestsOk_iff).1 ok
  obtain ⟨lacking, asks⟩ := work.endOperation hp (s.store.perform op)
  simp only [State.operationEnd]
  split
  · rename_i n hr
    rw [hr] at lacking asks
    obtain ⟨r, inFlight, -⟩ := Option.map_eq_some_iff.1 asks
    simp only [State.portOperationEnd]
    split
    · rename_i none
      exact absurd (none.symm.trans inFlight) (by simp)
    · split
      · exact State.requestsOk_accessParity lacking pairs ones ‹_›
      · exact State.requestsOk_accessEnd lacking pairs ones ‹_›
  · rename_i hr
    rw [hr] at lacking asks
    obtain ⟨j, running, request⟩ := Option.map_eq_some_iff.1 asks
    obtain ⟨work', same⟩ := lacking.engineOperationEnd first running request (s.store.failed op)
    refine State.requestsOk_of_sameAccess ok ?_ work'
    exact .trans (t := { s with store := s.store.perform op, arbiter := { s.arbiter with performing := none } })
      (.of_pages_ports rfl rfl) same

end Sys2Proof.Machine
end

