-- ==== Sys2Proof/Proofs/StoreSteps.lean ====
section
/-!
SUPPORT. The store's operations and their owners, part five: every row of the table keeps them matched.
-/

namespace Sys2Proof.Machine

open Sys2Proof

/-! ## Facts of the other two invariants -/

theorem State.jobsOk.runsFirst {s : State} (jobs : s.jobsOk) : RunsFirst s.engine.queue := by
  obtain ⟨-, idle, nodup, -⟩ := jobs
  exact ⟨fun j hj => idle j (by simp [hj]), (List.nodup_append.1 nodup).2.1⟩

theorem State.jobsOk.arriving_idle {s : State} (jobs : s.jobsOk) {j : Job} (hj : j ∈ s.engine.arriving) :
    j.running = false := jobs.2.1 j (by simp [hj])

theorem State.jobsOk.scrubs_idle {s : State} (jobs : s.jobsOk) {j : Job} (hj : j ∈ s.engine.scrubs) :
    j.running = false := jobs.2.1 j (by simp [hj])

/-- Only an ATTACHED port has an access to check (R162). -/
theorem State.portsOk.attached_of_access {s : State} (ports : s.portsOk) {n : HostId} {a : WindowAccess}
    (access : (s.port n).access = some a) : (s.port n).phase = .attached := by
  have quiet := (Bool.and_eq_true_iff.1 (ports n).1).2
  by_contra out
  simp [PortGroup.quiet, out, access] at quiet

/-- On an ATTACHED port that accepts an access none is in flight (R99, R102). -/
theorem PortGroup.OneAccess.free {g : PortGroup} (one : g.OneAccess) (attached : g.phase = .attached)
    (idle : g.busy = false) : g.inFlight = none := by
  cases h : g.inFlight with
  | none => rfl
  | some r =>
    have mine := one.2.1 attached r h
    simp [PortGroup.busy, h, mine] at idle

/-! ## The states of device reset -/

/-- Nothing is asked of an idle store while no port has an access and no job runs (R18, R133). -/
theorem State.requestsOk_of_idle {s : State} (arbiter : s.arbiter.operations = []) (engine : s.engine.running = none)
    (pages : ∀ p, s.page p = Entry.reset) (ports : ∀ n, (s.port n).inFlight = none) : s.requestsOk := by
  refine (s.requestsOk_iff).2 ⟨fun r => ?_, fun n p => ?_, fun n => PortGroup.oneAccess_of_inFlight_none (ports n)⟩
  · cases r <;> simp [Arbiter.opsOf, arbiter, State.operationOf, ports, engine]
  · have none : ∀ n : HostId, Entry.reset.inFlight[n] = none := by decide
    rw [pages p, ports n, none n]
    rfl

theorem State.requestsOk_resetAssert {s : State} (ok : s.requestsOk) : s.resetAssert.requestsOk := by
  simp only [State.resetAssert]
  split
  · exact ok
  · exact State.requestsOk_of_idle rfl rfl (fun p => by simp [State.page]) fun n => by
      simp [State.port, PortGroup.afterReset, PortGroup.reset]

theorem State.requestsOk_resetNegate {s : State} (ok : s.requestsOk) (straps : BitVec 4) :
    (s.resetNegate straps).requestsOk := by
  simp only [State.resetNegate]
  split
  · exact State.requestsOk_of_idle rfl rfl (fun p => by simp [State.page]) fun n => by
      simp [State.port, PortGroup.afterReset, PortGroup.reset]
  · exact ok

/-! ## Sessions -/

theorem State.requestsOk_prstAssert {s : State} (ok : s.requestsOk) (n : HostId) : (s.prstAssert n).requestsOk := by
  have pins := State.SameWork.requestsOk
    (.modifyPort s n (f := fun g => { g with prst := true, answer := none }) rfl rfl rfl) ok
  simp only [State.prstAssert]
  split_ifs
  · exact ok
  · exact State.requestsOk_abandon pins n
  · exact pins

theorem State.requestsOk_attach {s : State} (ok : s.requestsOk) (n : HostId) : (s.attach n).requestsOk := by
  obtain ⟨-, -, ones⟩ := (s.requestsOk_iff).1 ok
  simp only [State.attach]
  split_ifs with _ can
  · refine (State.SameWork.answer _ n _).requestsOk (State.requestsOk_setPort ok n rfl ?_)
    exact PortGroup.oneAccess_of_inFlight_none ((ones n).2.2 can.1)
  · exact (State.SameWork.answer s n _).requestsOk ok
  · exact ok

theorem State.requestsOk_detach {s : State} (ok : s.requestsOk) (n : HostId) :
    (s.attachedWrite n PortGroup.startDetaching).requestsOk := by
  simp only [State.attachedWrite]
  split_ifs
  · refine (State.SameWork.answer _ n _).requestsOk (State.requestsOk_setPort ok n rfl ?_)
    exact PortGroup.oneAccess_startDetaching _
  · exact (State.SameWork.answer s n _).requestsOk ok
  · exact ok

theorem State.requestsOk_teardownAtEngine {s : State} (ok : s.requestsOk) (first : RunsFirst s.engine.queue) (n : HostId) :
    (s.teardownAtEngine n).requestsOk := by
  simp only [State.teardownAtEngine]
  split
  · obtain ⟨same, first'⟩ := s.dropQueuedOf_same n first
    refine (State.SameWork.modifyPort _ n ?_ ?_ ?_).requestsOk (State.requestsOk_stopRunningOf (same.requestsOk ok) first' n)
    all_goals rfl
  · exact ok

theorem State.SameWork.teardownAtEntry (s : State) (n : HostId) (p : PageId) : s.SameWork (s.teardownAtEntry n p) := by
  simp only [State.teardownAtEntry]
  split
  · refine .trans (applyEntry s p ((s.page p).keeps_teardown (s.env p) n).inFlight) (modifyPort _ n ?_ ?_ ?_)
    all_goals rfl
  · exact .refl s

theorem State.requestsOk_portDetached {s : State} (ok : s.requestsOk) {n : HostId} (can : s.canDetach n = true) :
    (s.modifyPort n fun g => { g with phase := .detached }).requestsOk := by
  have free : (s.port n).inFlight = none := by
    simp only [State.canDetach, Bool.and_eq_true, Option.isNone_iff_eq_none] at can
    exact can.1.2
  exact State.requestsOk_setPort ok n rfl (PortGroup.oneAccess_of_inFlight_none free)

/-! ## Window accesses -/

theorem PortGroup.windowAccess_inFlight (g : PortGroup) (slot : SlotId) (w : WordIdx) (d : Dir) (en : BitVec 4)
    (data : Word) : (g.windowAccess slot w d en data).inFlight = g.inFlight := by
  simp only [PortGroup.windowAccess]
  split
  · rfl
  · rw [PortGroup.recordFault_frame]

theorem State.requestsOk_windowAccess {s : State} (ok : s.requestsOk) {n : HostId} (accepts : s.accepts n = true)
    (attached : (s.port n).phase = .attached) (slot : SlotId) (w : WordIdx) (d : Dir) (en : BitVec 4) (data : Word) :
    (s.modifyPort n fun g => g.windowAccess slot w d en data).requestsOk := by
  have idle : (s.port n).busy = false := by
    simp only [State.accepts, Bool.and_eq_true, Bool.not_eq_true'] at accepts
    exact accepts.2
  have free := (((s.requestsOk_iff).1 ok).2.2 n).free attached idle
  have same := (s.port n).windowAccess_inFlight slot w d en data
  exact State.requestsOk_setPort ok n same (PortGroup.oneAccess_of_inFlight_none (same.trans free))

theorem State.requestsOk_failCheck {s : State} (ok : s.requestsOk) {n : HostId} {a : WindowAccess}
    (access : (s.port n).access = some a) (k : FaultKind) : (s.failCheck n a k).requestsOk := by
  have free : (s.port n).inFlight = none := (((s.requestsOk_iff).1 ok).2.2 n).1 (by simp [access])
  have same : ((s.port n).recordFault k (some a.slot) (some a.page) a.dir).inFlight = (s.port n).inFlight := by
    rw [PortGroup.recordFault_frame]
  exact State.requestsOk_setPort ok n same (PortGroup.oneAccess_of_inFlight_none (same.trans free))

theorem State.SameWork.outOfRange (s : State) (n : HostId) (d : Dir) :
    s.SameWork
      (if s.accepts n then (s.modifyPort n fun g => g.recordFault .range none none d).answer n .errorResponse else s) := by
  split
  · refine .trans (.modifyPort s n ?_ ?_ ?_) (.answer _ n _) <;> rw [PortGroup.recordFault_frame]
  · exact .refl s

/-! ## Commands at their owners -/

theorem State.SameWork.tick (s : State) : s.SameWork s.tick := by
  simp only [State.tick]
  split
  · exact .refl s
  · exact of_access (.trans (t := { s with timebase := s.timebase + 1 }) (.of_pages_ports rfl rfl)
      (.mapPages _ fun _ => rfl)) rfl rfl

theorem State.SameWork.setQuota (s : State) (pl : Place) (h : HostId) (limit : Nat) :
    s.SameWork (s.setQuota pl h limit) := by
  simp only [State.setQuota]
  split
  · exact post s pl _
  · refine .trans ?_ (post _ pl _)
    exact of_fields rfl rfl rfl rfl

theorem State.SameWork.modifyEngine (s : State) {f : Engine → Engine} (queue : (f s.engine).queue = s.engine.queue) :
    s.SameWork (s.modifyEngine f) := of_fields rfl rfl rfl queue

theorem State.SameWork.redirect (s : State) (pl : Place) (e : Errand) : s.SameWork (s.redirect pl e) :=
  of_fields rfl rfl rfl rfl

theorem Entry.retire_inFlight (e : Entry) (env : Env) (pl : Place) : (e.retire env pl).entry.inFlight = e.inFlight := by
  simp only [Entry.retire]
  split <;> rfl

/-- Every command keeps the operations at the store matched to the accesses in flight and the running job. -/
theorem State.requestsOk_exec {s t : State} {c : Instr} (ports : s.portsOk) (jobs : s.jobsOk) (ok : s.requestsOk)
    (h : exec c s = .next t) : t.requestsOk := by
  have next : ∀ {u : State}, exec c s = .next u → u.requestsOk → t.requestsOk := fun e ok =>
    Host.Outcome.next.inj (e.symm.trans h) ▸ ok
  have same : ∀ {u : State}, exec c s = .next u → s.SameWork u → t.requestsOk := fun e a => next e (a.requestsOk ok)
  have drop : ∀ pl, s.SameWork (s.dropTransit pl) := fun pl => .of_fields rfl rfl rfl rfl
  have first := jobs.runsFirst
  cases c with
  | deviceResetAssert => exact next rfl (State.requestsOk_resetAssert ok)
  | deviceResetNegate straps => exact next rfl (State.requestsOk_resetNegate ok straps)
  | initializationSweepEnd =>
    refine same rfl ?_
    simp only [State.sweepEnd]
    split
    · exact .of_fields rfl rfl rfl rfl
    · exact .refl s
  | prstAssert n => exact next rfl (State.requestsOk_prstAssert ok n)
  | prstNegate n => exact same rfl (.modifyPort s n rfl rfl rfl)
  | attach n => exact next rfl (State.requestsOk_attach ok n)
  | detach n => exact next rfl (State.requestsOk_detach ok n)
  | teardownAtEngine n => exact next rfl (State.requestsOk_teardownAtEngine ok first n)
  | teardownAtEntry n p => exact same rfl (.teardownAtEntry s n p)
  | portDetached n =>
    refine next rfl ?_
    split
    · exact State.requestsOk_portDetached ok ‹_›
    · exact ok
  | stagingWrite n k en data => exact same rfl (.attachedWrite s n rfl rfl rfl)
  | submit n => exact same rfl (.submit s n)
  | takeCommand n => exact same rfl (.takeHead s n _)
  | completionPop n => exact same rfl (.attachedWrite s n rfl rfl rfl)
  | acquire h' p =>
    refine same rfl (.entryTakes s h' p _ fun t g u hg => ?_)
    split at hg <;> cases hg
    exact ((u.page p).keeps_acquire _ _ _ _ _ _).inFlight
  | release h' p =>
    refine same rfl (.entryTakes s h' p _ fun t g u hg => ?_)
    split at hg <;> cases hg
    exact ((u.page p).keeps_release _ _ _).inFlight
  | downgrade h' p =>
    refine same rfl (.entryTakes s h' p _ fun t g u hg => ?_)
    split at hg <;> cases hg
    exact ((u.page p).keeps_downgrade _ _ _).inFlight
  | cancel n => exact same rfl (.takeHead s n _)
  | cancelRequest h' p =>
    refine same rfl (.entryTakes s h' p _ fun t g u hg => ?_)
    split at hg <;> cases hg
    exact ((u.page p).keeps_cancelRequest _ _ _).inFlight
  | fence n => exact same rfl (.takeHead s n _)
  | flush h' =>
    refine same rfl ?_
    split
    · refine .taking s _ fun u => .trans ?_ (.post _ _ _)
      exact .modifyPort u h' rfl rfl rfl
    · exact .refl s
  | copy h' p =>
    refine same rfl ?_
    split
    · split_ifs
      · refine .trans ?_ (.redirect _ _ _)
        exact .modifyPage s _ rfl
      · exact (drop _).trans (.post _ _ _)
      · exact drop _
    · exact .refl s
  | copyDestinationCheck h' p =>
    refine same rfl ?_
    split
    · split_ifs
      · exact (drop _).trans (.lastCheck _ _ _ _)
      · exact (drop _).trans (.removeRefs _ _)
    · exact .refl s
  | fill h' p =>
    refine same rfl ?_
    split
    · exact .taking s _ fun u => .lastCheck u _ _ _
    · exact .refl s
  | checksum h' p =>
    refine same rfl ?_
    split
    · exact .taking s _ fun u => .lastCheck u _ _ _
    · exact .refl s
  | jobQueueing h' =>
    refine same rfl ?_
    split
    · exact .refl s
    · rename_i j hj
      refine .trans ?_ (.queueJob _ (jobs.arriving_idle (List.mem_of_find?_eq_some hj)))
      exact .modifyEngine s rfl
  | query h' p =>
    refine same rfl (.entryTakes s h' p _ fun t g u hg => ?_)
    split at hg <;> cases hg
    rfl
  | retire h' p =>
    refine same rfl (.entryTakes s h' p _ fun t g u hg => ?_)
    split at hg <;> cases hg
    exact (u.page p).retire_inFlight _ _
  | restore h' p =>
    refine same rfl ?_
    split
    · exact .taking s _ fun u => .restore u _ _
    · exact .refl s
  | scrubAdmission p =>
    refine same rfl ?_
    split
    · exact .refl s
    · rename_i j hj
      refine .trans ?_ (.admitScrub _ (jobs.scrubs_idle (List.mem_of_find?_eq_some hj)))
      exact .modifyEngine s rfl
  | scrubRefusal p =>
    refine same rfl ?_
    split
    · exact .refl s
    · refine .trans ?_ (.applyEntry _ p rfl)
      exact .modifyEngine s rfl
  | setQuota h' =>
    refine same rfl ?_
    split
    · exact .taking s _ fun u => .setQuota u _ _ _
    · exact .refl s
  | setRecallLimit h' =>
    refine same rfl ?_
    split
    · refine .taking s _ fun u => .trans ?_ (.post _ _ _)
      exact .of_fields rfl rfl rfl rfl
    · exact .refl s
  | waitTimeout h' p =>
    exact same rfl (.applyEntry s p ((s.page p).keeps_waitTimeout _ _).inFlight)
  | recallDeadline p =>
    exact same rfl (.applyEntry s p ((s.page p).recallDeadline_inFlight_refs _).1)
  | drainEnd p =>
    exact same rfl (.applyEntry s p ((s.page p).keeps_drainEnd _).inFlight)
  | windowAccess n a d en data =>
    simp only [exec, execWindowAccess] at h
    split at h
    · obtain rfl := Host.Outcome.next.inj h
      split_ifs with accepts attached
      · exact State.requestsOk_windowAccess ok accepts attached _ _ _ _ _
      · exact (State.SameWork.answer s n _).requestsOk ok
      · exact ok
    all_goals cases h
  | accessCheck n =>
    refine next rfl ?_
    split
    · exact ok
    · rename_i a access
      split
      · exact State.requestsOk_passCheck ok access (ports.attached_of_access access)
      · exact State.requestsOk_failCheck ok access _
  | outOfRangeAccess n a d =>
    simp only [exec, execOutOfRangeAccess] at h
    split at h
    · obtain rfl := Host.Outcome.next.inj h; exact (State.SameWork.outOfRange s n d).requestsOk ok
    · obtain rfl := Host.Outcome.next.inj h; exact (State.SameWork.outOfRange s n d).requestsOk ok
    all_goals cases h
  | wordOperationEnd =>
    refine next rfl ?_
    split
    · exact ok
    · exact State.requestsOk_choose (State.requestsOk_operationEnd ok first ‹_›)
  | jobStart => exact next rfl (State.requestsOk_startNext ok)
  | engineAbortEvent which =>
    refine next rfl ?_
    split
    · exact ok
    · rename_i job _
      refine State.requestsOk_takeAbort (State.SameWork.requestsOk (s := s) ?_ ok) ?_ job
      · exact .modifyEngine s rfl
      · exact first
  | noticePop n => exact same rfl (.attachedWrite s n rfl rfl rfl)
  | noticeLostClear n => exact same rfl (.attachedWrite s n rfl rfl rfl)
  | faultPop n => exact same rfl (.attachedWrite s n rfl rfl rfl)
  | overflowClear n => exact same rfl (.attachedWrite s n rfl rfl rfl)
  | eventEnablesWrite n en data => exact same rfl (.attachedWrite s n rfl rfl rfl)
  | windowMapEntryWrite n slot en data => exact same rfl (.attachedWrite s n rfl rfl rfl)
  | registerWrite n a en data =>
    simp only [exec, execRegisterWrite] at h
    split at h
    · split at h
      · obtain rfl := Host.Outcome.next.inj h
        split
        · exact (State.SameWork.answer s n _).requestsOk ok
        · exact ok
      · cases h
    all_goals cases h
  | timebaseAdvance => exact same rfl (.tick s)
  | arrayUpset p w b flips parityFlips => exact same rfl (.of_fields rfl rfl rfl rfl)

end Sys2Proof.Machine
end

section
/-! The store's operations stay matched to their owners. -/

namespace Sys2Proof.Proofs

open Sys2Proof Sys2Proof.Machine

/-- Settles O59: most commands leave the accesses, the pairs and the work at the store alone; the others move an
operation together with the access or the job that it is for. -/
theorem storeRequestsMatchTheirOwners : Obligations.StoreRequestsMatchTheirOwners := by
  intro s t ports jobs ok h
  rcases step_cases h with rfl | ⟨c, rest, e⟩
  · exact ok
  · exact State.requestsOk_exec (s := { s with pending := rest }) ports jobs
      ((State.SameWork.of_fields rfl rfl rfl rfl : s.SameWork { s with pending := rest }).requestsOk ok) e

end Sys2Proof.Proofs
end

