-- ==== Sys2Proof/Proofs/Deliveries.lean ====
section
/-!
SUPPORT. A command that its owner takes next: what the owner's row makes of the state, by owner and errand.
-/

namespace Sys2Proof.Machine

open Sys2Proof

section Delivered

variable {s : State} {h : HostId} {o : Owner} {pl : Place} {e : Errand}

theorem State.delivers.host (d : s.delivers h o pl e) : pl.host = h := (State.arrival_spec d.1).2.1

theorem State.delivers.hasPlace (d : s.delivers h o pl e) : (s.port pl.host).hasPlace pl = true := d.host ▸ d.2

theorem State.delivers.current (d : s.delivers h o pl e) : s.current pl = true := State.current_of_hasPlace d.hasPlace

/-- The owner takes the command (R21, R163). -/
theorem State.delivers.taking (d : s.delivers h o pl e) (f : State → State) : s.taking pl f = f (s.dropTransit pl) :=
  State.taking_of_current f d.current

/-- Its completion reaches the queue of its host (R78). -/
theorem State.delivers.post (d : s.delivers h o pl e) (r : Reply) {t : State} (port : t.port h = s.port h) :
    t.post pl r = t.setPort h ((s.port h).complete pl r) := by
  obtain rfl := d.host
  rw [State.post_of_hasPlace r (port ▸ d.hasPlace), port]

end Delivered

section AtEntry

variable {s : State} {h : HostId} {p : PageId} {pl : Place}

theorem State.delivers.entryTakes {e : Errand} (d : s.delivers h (.entry p) pl e) {f : Transit → Option (State → EntryOut)}
    {g : State → EntryOut} (means : f ⟨pl, e⟩ = some g) :
    s.entryTakes h p f = (s.dropTransit pl).applyEntry p (g (s.dropTransit pl)) := by
  simp only [State.entryTakes, d.1, means]
  exact d.taking _

theorem State.delivers.exec_acquire {m : Mode} {limit : BitVec 16} (d : s.delivers h (.entry p) pl (.acquire p m limit)) :
    exec (.acquire h p) s =
      .next
        ((s.dropTransit pl).applyEntry p
          ((s.page p).acquire (s.env p) (s.overQuota h) s.poolFull pl m limit)) :=
  congrArg Host.Outcome.next
    (d.entryTakes (g := fun u => (u.page p).acquire (u.env p) (u.overQuota h) u.poolFull pl m limit) rfl)

theorem State.delivers.exec_release {gen : BitVec 16} (d : s.delivers h (.entry p) pl (.release p gen)) :
    exec (.release h p) s = .next ((s.dropTransit pl).applyEntry p ((s.page p).release (s.env p) pl gen)) :=
  congrArg Host.Outcome.next (d.entryTakes (g := fun u => (u.page p).release (u.env p) pl gen) rfl)

theorem State.delivers.exec_query (d : s.delivers h (.entry p) pl (.query p)) :
    exec (.query h p) s = .next ((s.dropTransit pl).applyEntry p ((s.page p).query (s.env p) pl)) :=
  congrArg Host.Outcome.next (d.entryTakes (g := fun u => (u.page p).query (u.env p) pl) rfl)

/-- An event of the entry that hands over notices and completions, no mark. -/
theorem State.applyEntry_mk (t : State) (p : PageId) (e : Entry) (ns : List (HostId × Notice))
    (posts : List (Place × Reply)) :
    t.applyEntry p { entry := e, notices := ns, posts := posts, aborts := [] } =
      ((t.setPage p e).notifyAll ns).postAll posts := State.applyEntry_of_no_aborts rfl

/-- One reply and nothing else (R16). -/
theorem State.delivers.reply {e : Errand} (d : s.delivers h (.entry p) pl e) (r : Reply) :
    (s.dropTransit pl).applyEntry p ((s.page p).reply pl r) =
      (s.dropTransit pl).setPort h ((s.port h).complete pl r) := by
  have same : (s.dropTransit pl).setPage p (s.page p) = s.dropTransit pl := (s.dropTransit pl).setPage_page_self p
  show ((s.dropTransit pl).applyEntry p { entry := s.page p, notices := [], posts := [(pl, r)], aborts := [] }) = _
  rw [State.applyEntry_mk, same]
  exact d.post r rfl

end AtEntry

end Sys2Proof.Machine
end

