-- ==== Sys2Proof/Proofs/AcquireAndQuery.lean ====
section
/-!
SUPPORT. What an ACQUIRE does in each case of R22 to R26, an equation a case.
-/

namespace Sys2Proof.Machine

open Sys2Proof

theorem Entry.answersFromHolding_eq_false_iff (e : Entry) (h : HostId) (m : Mode) :
    e.answersFromHolding h m = false ↔ e.mode h ≠ some .X ∧ e.mode h ≠ some m := by
  simp only [Entry.answersFromHolding, Bool.or_eq_false_iff, Bool.and_eq_false_iff, decide_eq_false_iff_not,
    Entry.not_holds_iff, Entry.holdsX]
  refine and_congr_right fun noX => ?_
  cases m with
  | X => simp [noX]
  | S =>
    rcases hm : e.mode h with _ | _ | _
    · simp
    · simp
    · exact absurd hm noX

theorem Entry.acquire_of_gone {e : Entry} (gone : e.state = .retired ∨ e.state = .scrub) (env : Env) (q f : Bool)
    (pl : Place) (m : Mode) (limit : BitVec 16) :
    e.acquire env q f pl m limit = e.reply pl (Reply.ofPage .retired env.page) := by
  simp only [Entry.acquire, if_pos gone]

section NotHeld

variable {e : Entry} {pl : Place} {m : Mode} (live : ¬(e.state = .retired ∨ e.state = .scrub))
  (answers : e.answersFromHolding pl.host m = false)

include live answers

theorem Entry.acquire_of_waiter (second : e.hasWaiter pl.host = true) (env : Env) (q f : Bool) (limit : BitVec 16) :
    e.acquire env q f pl m limit = e.reply pl (Reply.ofPage .duplicate env.page) := by
  simp [Entry.acquire, live, answers, second]

variable (fresh : e.hasWaiter pl.host = false)

include fresh

theorem Entry.acquire_of_grantable (grantable : e.grantable pl.host m = true) (calm : e.hasStray = false) (env : Env)
    (q f : Bool) (limit : BitVec 16) :
    e.acquire env q f pl m limit =
      if !e.holds pl.host && q then e.reply pl (Reply.ofPage .quota env.page) else (EntryOut.start e).grant env m [pl] := by
  simp [Entry.acquire, live, answers, fresh, grantable, calm]

theorem Entry.acquire_of_waits (waits : e.grantable pl.host m = false ∨ e.hasStray = true) (env : Env) (q f : Bool)
    (limit : BitVec 16) : e.acquire env q f pl m limit = e.waitDecision env q f pl m limit := by
  rcases waits with no | stray
  · simp [Entry.acquire, live, answers, fresh, no]
  · simp [Entry.acquire, live, answers, fresh, stray]

end NotHeld

/-! ## The wait decision (R26) -/

/-- A recall for a head that must wait targets every holder but the head's own host (R43). -/
theorem Entry.recallFor_targets (e : Entry) (w : Waiter) (now : Word) (limit : BitVec 16) (k : HostId) :
    (e.recallFor w now limit).targets[k] = (e.holds k && decide (k ≠ w.place.host)) := by
  rw [Fin.getElem_fin, Entry.recallFor, mapVec_getElem, hostVector_getElem]

theorem Entry.waitDecision_of_denied (e : Entry) (env : Env) (q f : Bool) (pl : Place) (m : Mode) :
    e.waitDecision env q f pl m 0 = e.reply pl (Reply.ofPage .denied env.page) := by
  simp [Entry.waitDecision]

theorem Entry.waitDecision_of_overQuota (e : Entry) (env : Env) (f : Bool) (pl : Place) (m : Mode) {limit : BitVec 16}
    (waits : limit ≠ 0) : e.waitDecision env true f pl m limit = e.reply pl (Reply.ofPage .quota env.page) := by
  simp only [Entry.waitDecision, if_neg waits, if_true]

theorem Entry.waitDecision_of_poolFull (e : Entry) (env : Env) (pl : Place) (m : Mode) {limit : BitVec 16}
    (waits : limit ≠ 0) : e.waitDecision env false true pl m limit = e.reply pl (Reply.ofPage .noWaiter env.page) := by
  simp only [Entry.waitDecision, if_neg waits, Bool.false_eq_true, if_false, if_true]

section Admitted

variable {e : Entry} {env : Env} {pl : Place} {m : Mode} {limit : BitVec 16} (waits : limit ≠ 0)

include waits

/-- Admitted to wait, the ACQUIRE joins the tail; what follows depends on whether it is grantable and alone. -/
theorem Entry.waitDecision_of_admitted :
    e.waitDecision env false false pl m limit =
      let o := EntryOut.start { e with waiters := e.waiters ++ [waiterOf e pl m limit env.now] }
      if e.grantable pl.host m then o.holdBack m [pl.host]
      else if e.waiters.isEmpty then o.recallIfBlocked env
      else o := by
  simp only [Entry.waitDecision, newWaiter_eq, if_neg waits, Bool.false_eq_true, if_false]

/-- Behind a waiter or in TRANSFER it joins the tail and nothing else happens. -/
theorem Entry.waitDecision_behind (behind : e.waiters ≠ [] ∨ e.state = .transfer) :
    e.waitDecision env false false pl m limit =
      EntryOut.start { e with waiters := e.waiters ++ [waiterOf e pl m limit env.now] } := by
  have no : e.grantable pl.host m = false := by
    rcases behind with ne | st
    · simp [Entry.grantable, ne]
    · simp [Entry.grantable, st]
  rw [Entry.waitDecision_of_admitted waits]
  simp only [no, Bool.false_eq_true, if_false, List.isEmpty_iff]
  split
  · rename_i hw
    have st := behind.resolve_left (absurd hw)
    simp [EntryOut.recallIfBlocked, EntryOut.start, hw, Entry.inUse, st]
  · rfl

/-- Grantable but for a stray operation, it is the chosen waiter of a held-back grant (R61). -/
theorem Entry.waitDecision_of_grantable (grantable : e.grantable pl.host m = true) :
    e.waitDecision env false false pl m limit =
      EntryOut.start
        { e with
          state := .transfer
          waiters := [waiterOf e pl m limit env.now]
          recalling := none
          grant := some { mode := m, chosen := [pl.host], left := false } } := by
  have alone : e.waiters = [] := by
    simp only [Entry.grantable, Bool.and_eq_true, List.isEmpty_iff] at grantable
    exact grantable.1
  rw [Entry.waitDecision_of_admitted waits]
  simp only [grantable, if_true, alone, List.nil_append]
  rfl

/-- Alone on a page in use, it starts a recall of every holder but its own host (R42 to R44). -/
theorem Entry.waitDecision_alone (wf : e.wf = true) (answers : e.answersFromHolding pl.host m = false)
    (fresh : e.hasWaiter pl.host = false) (use : e.inUse = true) (alone : e.waiters = [])
    (blocked : e.grantable pl.host m = false) :
    e.waitDecision env false false pl m limit =
      { entry :=
          { e with
            waiters := [waiterOf e pl m limit env.now]
            recalling := some (e.recallFor (waiterOf e pl m limit env.now) env.now env.limit) }
        notices := e.recallNotices env.page (waiterOf e pl m limit env.now) env.limit
        posts := []
        aborts := [] } := by
  have sound := (Entry.sound_of_wf wf).append answers fresh limit env.now
  have hr := Entry.recalling_of_no_waiter wf use alone
  have hb := Entry.blocked_of_not_grantable wf use alone answers blocked limit env.now
  rw [Entry.waitDecision_of_admitted waits]
  simp only [blocked, Bool.false_eq_true, if_false, alone, List.isEmpty_nil, if_true]
  simp only [alone] at sound
  rw [EntryOut.recallIfBlocked_of_blocked env (o := EntryOut.start _) sound rfl use hr hb]
  rfl

end Admitted

end Sys2Proof.Machine
end

section
/-! ACQUIRE, QUERY and the manager settings. -/

namespace Sys2Proof.Proofs

open Sys2Proof Sys2Proof.Machine

/-- Settles O27: one equation of the ACQUIRE for each of the five refusals. -/
theorem acquireRefusals : Obligations.AcquireRefusals := by
  intro s h p pl m limit d st why
  obtain rfl := d.host
  rw [d.exec_acquire, ← d.reply (Reply.ofPage st p)]
  refine congrArg (fun o => Host.Outcome.next ((s.dropTransit pl).applyEntry p o)) ?_
  obtain ⟨gone, rfl⟩ | ⟨retired, scrub, noX, noM, why⟩ := why
  · exact Entry.acquire_of_gone gone ..
  have live : ¬((s.page p).state = .retired ∨ (s.page p).state = .scrub) := by simp [retired, scrub]
  have answers := ((s.page p).answersFromHolding_eq_false_iff pl.host m).2 ⟨noX, noM⟩
  obtain ⟨second, rfl⟩ | ⟨fresh, ⟨grantable, calm, unheld, full, rfl⟩ | ⟨waits, why⟩⟩ := why
  · exact Entry.acquire_of_waiter live answers second ..
  · have filled : s.overQuota pl.host = true := by simpa [State.overQuota] using full
    rw [Entry.acquire_of_grantable live answers fresh grantable calm, unheld, filled]
    rfl
  rw [Entry.acquire_of_waits live answers fresh waits]
  obtain ⟨rfl, rfl⟩ | ⟨limited, full, rfl⟩ | ⟨limited, room, pool, rfl⟩ := why
  · exact Entry.waitDecision_of_denied ..
  · have filled : s.overQuota pl.host = true := by simpa [State.overQuota] using full
    rw [filled]
    exact Entry.waitDecision_of_overQuota _ _ _ _ _ limited
  · have within : s.overQuota pl.host = false := by simpa [State.overQuota] using room
    have full : s.poolFull = true := decide_eq_true pool
    rw [within, full]
    exact Entry.waitDecision_of_poolFull _ _ _ _ limited

/-- Settles O28: the request is grantable, and the grant event of one place is the record the statement names. -/
theorem acquireGrantedAtOnce : Obligations.AcquireGrantedAtOnce := by
  intro s h p pl m limit d alone calm how
  obtain rfl := d.host
  have fresh : (s.page p).hasWaiter pl.host = false := by simp [Entry.hasWaiter, alone]
  have facts : ¬((s.page p).state = .retired ∨ (s.page p).state = .scrub) ∧
      (s.page p).answersFromHolding pl.host m = false ∧ (s.page p).grantable pl.host m = true ∧
      (!(s.page p).holds pl.host && s.overQuota pl.host) = false := by
    have within : s.quotaCount pl.host < s.quota pl.host → s.overQuota pl.host = false := by simp [State.overQuota]
    rw [Entry.answersFromHolding_eq_false_iff]
    obtain ⟨st, unheld, room⟩ | ⟨st, rfl, unheld, room⟩ | ⟨st, rfl, held, others⟩ := how
    · simp [st, (Entry.not_holds_iff _ _).1 unheld, Entry.grantable, alone, within room]
    · simp [st, (Entry.not_holds_iff _ _).1 unheld, Entry.grantable, alone, within room]
    · have holds : (s.page p).holds pl.host = true := ((s.page p).holds_iff _).2 (by simp [held])
      have only : (s.page p).onlyHolder pl.host = true := by
        refine ((s.page p).onlyHolder_iff _).2 fun k => ⟨fun hk => ?_, fun hk => hk ▸ holds⟩
        by_contra no
        simp [others k no] at hk
      simp [st, held, Entry.grantable, alone, only, holds]
  obtain ⟨live, answers, grantable, admitted⟩ := facts
  have holdings : (s.page p).granted m [pl.host] =
      (s.page p).holdings.set pl.host.val (some { mode := m, gen := (s.page p).gen + 1 }) pl.host.isLt := by
    refine hostVector_ext fun k => ?_
    rw [Entry.granted_holding]
    have set := (s.page p).setHolding_holding pl.host k (some { mode := m, gen := (s.page p).gen + 1 })
    simp only [Entry.holding, Entry.setHolding] at set
    rw [set]
    simp [Entry.holding]
  rw [d.exec_acquire, Entry.acquire_of_grantable live answers fresh grantable calm, if_neg (by simp [admitted]),
    EntryOut.grant_def]
  simp only [EntryOut.start, List.map_cons, List.map_nil, List.nil_append, holdings]
  rw [State.applyEntry_mk, State.notifyAll_nil, State.postAll_cons, State.postAll_nil, d.post _ (by rfl)]
  cases m <;> simp [alone, stateOfGrant, State.env]

/-- Settles O29: the three cases of the wait decision. -/
theorem acquireThatMustWait : Obligations.AcquireThatMustWait := by
  intro s h p pl m limit ok d noX noM fresh limited room pool
  obtain rfl := d.host
  have within : s.overQuota pl.host = false := by simpa [State.overQuota] using room
  have spare : s.poolFull = false := decide_eq_false (Nat.not_le.2 pool)
  have answers := ((s.page p).answersFromHolding_eq_false_iff pl.host m).2 ⟨noX, noM⟩
  have waits : ¬((s.page p).state = .retired ∨ (s.page p).state = .scrub) →
      (s.page p).grantable pl.host m = false ∨ (s.page p).hasStray = true →
        exec (.acquire pl.host p) s =
          .next ((s.dropTransit pl).applyEntry p ((s.page p).waitDecision (s.env p) false false pl m limit)) := by
    intro live waits
    rw [d.exec_acquire, Entry.acquire_of_waits live answers fresh waits, within, spare]
  refine ⟨fun retired scrub behind => ?_, fun use alone blocked => ?_, fun grantable stray => ?_⟩
  · have no : (s.page p).grantable pl.host m = false := by
      rcases behind with ne | st
      · simp [Entry.grantable, ne]
      · simp [Entry.grantable, st]
    rw [waits (by simp [retired, scrub]) (.inl no), Entry.waitDecision_behind limited behind]
    rfl
  · have live : ¬((s.page p).state = .retired ∨ (s.page p).state = .scrub) := by
      rcases ((s.page p).inUse_iff).1 use with st | st <;> simp [st]
    have targets := (s.page p).recallFor_targets (waiterOf (s.page p) pl m limit s.timebase) s.timebase
      s.settings.recallLimit
    refine ⟨_, fun k => by rw [targets]; simp [waiterOf], ?_⟩
    rw [waits live (.inl blocked), Entry.waitDecision_alone limited (ok p) answers fresh use alone blocked,
      State.applyEntry_mk, State.postAll_nil]
    simp only [targets]
    rfl
  · have live : ¬((s.page p).state = .retired ∨ (s.page p).state = .scrub) := by
      have st : (s.page p).state = .free ∨ (s.page p).state = .shared := by
        simp only [Entry.grantable, Bool.and_eq_true, Bool.or_eq_true, decide_eq_true_eq] at grantable
        exact grantable.2.imp_right And.left
      rcases st with st | st <;> simp [st]
    rw [waits live (.inr stray), Entry.waitDecision_of_grantable limited grantable]
    rfl

/-- Settles O36: the reply of the entry's own fields. -/
theorem queryAnswersTheEntry : Obligations.QueryAnswersTheEntry := by
  intro s h p pl d
  refine ⟨mapVec (fun v => v.map Holding.mode) (s.page p).holdings, fun k => ?_, ?_⟩
  · rw [Fin.getElem_fin, mapVec_getElem]
    rfl
  · rw [d.exec_query, Entry.query, d.reply]
    rfl

/-- Settles O39: the settings are apart from the port group that the completion changes. -/
theorem managerSettingsTakeTheirCommands : Obligations.ManagerSettingsTakeTheirCommands := by
  intro s h named pl limit us
  refine ⟨fun d => ?_, fun d => ?_⟩
  · have row : exec (.setQuota h) s = .next ((s.dropTransit pl).setQuota pl named limit) := by
      simp only [exec, execSetQuota, d.1, d.taking]
    have count : (s.dropTransit pl).quotaCount named = s.quotaCount named := rfl
    refine ⟨fun fits => ?_, fun below => ?_⟩
    · rw [row, State.setQuota, if_neg (by omega), d.post _ (by rfl)]
      rfl
    · rw [row, State.setQuota, if_pos (by omega), d.post _ (by rfl)]
  · have row : exec (.setRecallLimit h) s =
        .next (({ s.dropTransit pl with settings := { s.settings with recallLimit := us } } : State).post pl
          (Reply.bare .ok)) := by
      simp only [exec, execSetRecallLimit, d.1, d.taking]
      rfl
    rw [row, d.post _ (by rfl)]
    rfl

end Sys2Proof.Proofs
end

