-- ==== Sys2Proof/Proofs/ListServed.lean ====
section
/-!
SUPPORT. The serving of the list after a RELEASE, at a recall deadline and at a drain end: what each event hands to the
serving, and that the head can be served once the targets of its recall are gone.
-/

namespace Sys2Proof.Machine

open Sys2Proof

/-! ## The head after its recall (R43, R49, R52) -/

/-- The recall of a well-formed entry is for the head, which must wait, and targets exactly the other holders. -/
theorem Entry.recall_of_wf {e : Entry} (wf : e.wf = true) {r : Recall} (hr : e.recalling = some r) :
    ∃ w ws, e.waiters = w :: ws ∧ ∀ k : HostId, r.targets[k] = (e.holds k && decide (k ≠ w.place.host)) := by
  obtain ⟨s, -, -, recalls, -⟩ := (Entry.wf_iff_of_inUse (Entry.inUse_of_recalling wf hr)).1 wf
  obtain ⟨w, ws, hw, -, -, targets, k, target⟩ := recalls r hr
  have mem : w ∈ e.waiters := by simp [hw]
  have blocked := (s.blocked_iff mem).2 ⟨k, targets ▸ target⟩
  exact ⟨w, ws, hw, fun k => targets ▸ s.recallTargets_of_blocked mem blocked k⟩

theorem Entry.holds_of_target {e : Entry} (wf : e.wf = true) {r : Recall} (hr : e.recalling = some r) {k : HostId}
    (target : r.targets[k] = true) : e.holds k = true := by
  obtain ⟨w, ws, -, targets⟩ := Entry.recall_of_wf wf hr
  rw [targets k, Bool.and_eq_true] at target
  exact target.1

/-- Once every target of the recall has lost its holding, the head waiter can be served. -/
theorem Entry.head_serves {e f : Entry} (wf : e.wf = true) {r : Recall} (hr : e.recalling = some r) (s : f.Sound)
    {g : Waiter → Waiter} (waiters : f.waiters = e.waiters.map g) (place : ∀ w, (g w).place = w.place)
    (gone : ∀ k, f.holds k = true → e.holds k = true ∧ r.targets[k] = false) :
    f.waiters ≠ [] ∧ ∀ w ∈ f.waiters.head?, f.serves w := by
  obtain ⟨w, ws, hw, targets⟩ := Entry.recall_of_wf wf hr
  have head : f.waiters = g w :: ws.map g := by rw [waiters, hw]; rfl
  refine ⟨by simp [head], fun v hv => ?_⟩
  obtain rfl : g w = v := by simpa [head] using hv
  rw [← Entry.canServe_iff]
  by_contra blocked
  have blocked : f.canServe (g w) = false := by simpa using blocked
  have mem : g w ∈ f.waiters := by simp [head]
  obtain ⟨k, hk⟩ := (s.blocked_iff mem).1 blocked
  rw [s.recallTargets_of_blocked mem blocked, place, Bool.and_eq_true] at hk
  obtain ⟨held, out⟩ := gone k hk.1
  rw [targets k, held, hk.2] at out
  cases out

/-! ## RELEASE by the last target (R32, R46, R49) -/

theorem Entry.release_of_held {e : Entry} {pl : Place} {v : Holding} (hv : e.holding pl.host = some v)
    (free : ∀ x ∈ e.refs, x.place.host = pl.host → x.marked = true) (env : Env) :
    e.release env pl v.gen =
      { e.surrender env pl.host with posts := (e.surrender env pl.host).posts ++ [(pl, Reply.ofPage .ok env.page)] } := by
  have unblocked : e.blocksRelease pl.host = false := by
    simp only [Entry.blocksRelease, List.any_eq_false, Bool.and_eq_true, decide_eq_true_eq, Bool.not_eq_true', not_and,
      Bool.not_eq_false]
    exact free
  simp [Entry.release, hv, unblocked]

/-- The recall goes with its last target (R49). -/
theorem Entry.answerRecall_of_last {e : Entry} {r : Recall} (hr : e.recalling = some r) {h : HostId}
    (last : ∀ k, k ≠ h → r.targets[k] = false) : e.answerRecall h = { e with recalling := none } := by
  have none : (hostIds.any fun k => (r.targets.set h.val false h.isLt)[k]) = false := by
    simp only [List.any_eq_false, mem_hostIds, true_implies, Bool.not_eq_true]
    intro k
    by_cases hk : k = h
    · simp [hk]
    · have : h.val ≠ k.val := fun x => hk (Fin.ext x.symm)
      simpa [Vector.getElem_set, this] using last k hk
  simp only [Entry.answerRecall, hr, none, Bool.false_eq_true, if_false]

/-! ## The recall deadline (R52) -/

namespace EntryOut

variable (env : Env) (hs : List HostId) (o : EntryOut)

theorem revokeAll_posts : (EntryOut.revokeAll env hs o).posts = o.posts := by
  induction hs generalizing o with
  | nil => rfl
  | cons h hs ih => exact ih (o.revoke env h)

theorem revokeAll_aborts : (EntryOut.revokeAll env hs o).aborts = o.aborts ++ hs.flatMap o.entry.jobsOf := by
  induction hs generalizing o with
  | nil => simp [EntryOut.revokeAll]
  | cons h hs ih =>
    rw [EntryOut.revokeAll, ih, List.flatMap_cons, ← List.append_assoc]
    rfl

theorem revokeAll_holding (k : HostId) :
    (EntryOut.revokeAll env hs o).entry.holding k = if k ∈ hs then none else o.entry.holding k := by
  induction hs generalizing o with
  | nil => simp [EntryOut.revokeAll]
  | cons h hs ih =>
    rw [EntryOut.revokeAll, ih]
    show (if k ∈ hs then none else (o.entry.dropHolding h).holding k) = _
    rw [Entry.dropHolding_holding]
    by_cases hk : k = h <;> simp [hk]

/-- One REVOKED notice to each host, with the generation of its holding. -/
theorem revokeAll_notices (nodup : hs.Nodup) (held : ∀ k ∈ hs, o.entry.holds k = true) :
    (EntryOut.revokeAll env hs o).notices =
      o.notices ++ hs.map fun k =>
        (k, Notice.holdingRevoked env.page ((o.entry.holding k).elim 0 Holding.gen) .recallTimeout) := by
  induction hs generalizing o with
  | nil => simp [EntryOut.revokeAll]
  | cons h hs ih =>
    obtain ⟨apart, nodup⟩ := List.nodup_cons.1 nodup
    have kept : ∀ k ∈ hs, (o.revoke env h).entry.holding k = o.entry.holding k := by
      intro k hk
      show (o.entry.dropHolding h).holding k = _
      rw [Entry.dropHolding_holding, if_neg fun (e : k = h) => apart (e ▸ hk)]
    have later : ∀ k ∈ hs, (o.revoke env h).entry.holds k = true := by
      intro k hk
      rw [Entry.holds_eq, kept k hk]
      exact held k (List.mem_cons_of_mem h hk)
    have own : (o.revoke env h).notices =
        o.notices ++ [(h, .holdingRevoked env.page ((o.entry.holding h).elim 0 Holding.gen) .recallTimeout)] := by
      obtain ⟨v, hv⟩ := Option.isSome_iff_exists.1 (held h (by simp))
      simp [EntryOut.revoke, hv]
    rw [EntryOut.revokeAll, ih _ nodup later, own, List.append_assoc]
    refine congrArg (fun l => o.notices ++ _ :: l) (List.map_congr_left fun k hk => ?_)
    rw [kept k hk]

/-- A revocation clears the upgrade flags of the hosts (R5, R27). -/
theorem revokeAll_waiters :
    (EntryOut.revokeAll env hs o).entry.waiters =
      o.entry.waiters.map fun w => if w.place.host ∈ hs then { w with upgrade := false } else w := by
  induction hs generalizing o with
  | nil => simp [EntryOut.revokeAll]
  | cons h hs ih =>
    rw [EntryOut.revokeAll, ih]
    show ((o.entry.dropHolding h).waiters.map _) = _
    rw [Entry.dropHolding_waiters, List.map_map]
    refine List.map_congr_left fun w _ => ?_
    by_cases own : w.place.host = h <;> by_cases other : w.place.host ∈ hs <;>
      simp [Waiter.clearedFor, own, other]

theorem revokeAll_frame :
    (EntryOut.revokeAll env hs o).entry =
      { o.entry with
        holdings := (EntryOut.revokeAll env hs o).entry.holdings
        waiters := (EntryOut.revokeAll env hs o).entry.waiters } := by
  induction hs generalizing o with
  | nil => rfl
  | cons h hs ih => rw [EntryOut.revokeAll, ih]; rfl

end EntryOut

/-- The entry without the holdings of some hosts, and without the flags of their upgrades. -/
def Entry.revoked (e : Entry) (targets : Vector Bool 4) (kept : Vector (Option Holding) 4) : Entry :=
  { e with
    holdings := kept
    waiters := e.waiters.map fun w => if targets[w.place.host] then { w with upgrade := false } else w }

section Deadline

variable {e : Entry} (wf : e.wf = true) {r : Recall} (hr : e.recalling = some r) {kept : Vector (Option Holding) 4}
  (hk : ∀ k : HostId, kept[k] = if r.targets[k] then none else e.holding k)

include wf hr hk

/-- The remaining targets of a recall are revoked. -/
theorem Entry.revokeAll_targets (env : Env) :
    EntryOut.revokeAll env (hostIds.filter fun k => r.targets[k]) (EntryOut.start e) =
      { entry := e.revoked r.targets kept
        notices := (hostIds.filter fun k => r.targets[k]).map fun k =>
          (k, .holdingRevoked env.page ((e.holding k).elim 0 Holding.gen) .recallTimeout)
        posts := []
        aborts := (hostIds.filter fun k => r.targets[k]).flatMap e.jobsOf } := by
  have mem : ∀ k, k ∈ (hostIds.filter fun k => r.targets[k]) ↔ r.targets[k] = true := by simp
  have notices := EntryOut.revokeAll_notices env (hostIds.filter fun k => r.targets[k]) (EntryOut.start e)
    (List.Nodup.filter _ (by decide)) fun k hk => Entry.holds_of_target wf hr ((mem k).1 hk)
  have holdings :
      (EntryOut.revokeAll env (hostIds.filter fun k => r.targets[k]) (EntryOut.start e)).entry.holdings = kept := by
    refine hostVector_ext fun k => (EntryOut.revokeAll_holding env _ _ k).trans ?_
    rw [hk k]
    simp only [mem]
    rfl
  have entry : (EntryOut.revokeAll env (hostIds.filter fun k => r.targets[k]) (EntryOut.start e)).entry =
      e.revoked r.targets kept := by
    rw [EntryOut.revokeAll_frame, EntryOut.revokeAll_waiters, holdings]
    simp only [mem]
    rfl
  have aborts := EntryOut.revokeAll_aborts env (hostIds.filter fun k => r.targets[k]) (EntryOut.start e)
  have posts := EntryOut.revokeAll_posts env (hostIds.filter fun k => r.targets[k]) (EntryOut.start e)
  generalize EntryOut.revokeAll env (hostIds.filter fun k => r.targets[k]) (EntryOut.start e) = o at *
  obtain ⟨_, _, _, _⟩ := o
  cases entry; cases notices; cases aborts; cases posts
  rfl

theorem Entry.sound_revoked : (e.revoked r.targets kept).Sound := by
  have env : Env := { page := 0, now := 0, limit := 0 }
  have s := EntryOut.sound_revokeAll env (hostIds.filter fun k => r.targets[k]) (EntryOut.start e) (Entry.sound_of_wf wf)
  rwa [Entry.revokeAll_targets wf hr hk] at s

/-- At the deadline the remaining targets are revoked, and the list is served without a recall. -/
theorem Entry.recallDeadline_of_due (due : r.due = true) (env : Env) :
    e.recallDeadline env =
      ({ entry := { e.revoked r.targets kept with recalling := none }
         notices := (hostIds.filter fun k => r.targets[k]).map fun k =>
          (k, .holdingRevoked env.page ((e.holding k).elim 0 Holding.gen) .recallTimeout)
         posts := []
         aborts := (hostIds.filter fun k => r.targets[k]).flatMap e.jobsOf } : EntryOut).serve env := by
  simp only [Entry.recallDeadline, hr, due, if_true, EntryOut.serveIf, Entry.inUse_of_recalling wf hr,
    Entry.revokeAll_targets wf hr hk]

end Deadline

/-! ## The drain end (R63, R64) -/

theorem EntryOut.recallIfBlocked_grant (env : Env) (o : EntryOut) :
    (o.recallIfBlocked env).entry.grant = o.entry.grant := by
  simp only [EntryOut.recallIfBlocked]
  split
  · rfl
  · split <;> rfl

/-- Without a stray operation no grant is held back. -/
theorem EntryOut.serve_grant (env : Env) {o : EntryOut} (hg : o.entry.grant = none) (calm : o.entry.hasStray = false) :
    (o.serve env).entry.grant = none := by
  simp only [EntryOut.serve]
  split
  · exact hg
  · split
    · simp only [EntryOut.decideGrant, calm, Bool.false_eq_true, if_false]
      rw [EntryOut.recallIfBlocked_grant, EntryOut.grant_def]
    · rw [EntryOut.recallIfBlocked_grant]
      exact hg

section Drain

variable {e : Entry} {g : PendingGrant} (hg : e.grant = some g)

include hg

theorem Entry.drainEnd_of_stray (stray : e.hasStray = true) (env : Env) : e.drainEnd env = EntryOut.start e := by
  simp [Entry.drainEnd, hg, stray]

variable (st : e.state = .transfer)

include st

theorem Entry.drainEnd_of_left (calm : e.hasStray = false) (left : g.left = true) (env : Env) :
    e.drainEnd env = (EntryOut.start { e with grant := none }).serve env := by
  simp [Entry.drainEnd, hg, st, calm, left]

/-- A drain end leaves TRANSFER for good (R63). -/
theorem Entry.drainEnd_ends (wf : e.wf = true) (calm : e.hasStray = false) (env : Env) :
    (e.drainEnd env).entry.state ≠ .transfer ∧ (e.drainEnd env).entry.grant = none := by
  have none : (e.drainEnd env).entry.grant = none := by
    obtain ⟨s, noX, hr, g', hg', heads⟩ := (Entry.wf_iff_of_transfer st).1 wf
    obtain rfl : g = g' := Option.some.inj (hg.symm.trans hg')
    cases left : g.left with
    | true =>
      rw [Entry.drainEnd_of_left hg st calm left env]
      exact EntryOut.serve_grant env rfl calm
    | false =>
      obtain ⟨gs, rest, split, hgs⟩ := heads.split
      have granted := Entry.grantedTo_grantOf s calm split (hgs ▸ heads.mayGrant noX left)
      rw [Entry.drainEnd_of_whole s hr env hg st calm left split hgs]
      exact EntryOut.serve_grant env rfl granted.stays_calm
  refine ⟨fun still => ?_, none⟩
  obtain ⟨-, -, -, g', hg', -⟩ := (Entry.wf_iff_of_transfer still).1 (Entry.wf_drainEnd wf env)
  simp [none] at hg'

end Drain

/-- An event that changes nothing and hands nothing over. -/
theorem State.applyEntry_start (s : State) (p : PageId) : s.applyEntry p (EntryOut.start (s.page p)) = s :=
  s.setPage_page_self p

end Sys2Proof.Machine
end

section
/-! The serving of the list: after the last RELEASE, at the recall deadline, and at the drain end. -/

namespace Sys2Proof.Proofs

open Sys2Proof Sys2Proof.Machine

/-- Settles O32: without the last target's holding no holder blocks the head, and the serving is that of R28 to R30. -/
theorem lastReleaseGrantsTheHead : Obligations.LastReleaseGrantsTheHead := by
  intro s h p pl v r ok d hv free hr last e he
  obtain rfl := d.host
  have entry : ((s.page p).dropHolding pl.host).answerRecall pl.host = e := by
    rw [Entry.answerRecall_of_last (e := (s.page p).dropHolding pl.host) hr last, he]
    rfl
  have sound : e.Sound := entry ▸ ((Entry.sound_of_wf (ok p)).dropHolding pl.host).congr (by simp) (by simp) (by simp)
  have noRecall : e.recalling = none := by rw [he]
  have holds : ∀ k, e.holds k = ((s.page p).holds k && decide (k ≠ pl.host)) := fun k => by
    rw [← entry, Entry.holds_congr (Entry.answerRecall_holdings _ _), Entry.dropHolding_holds]
  obtain ⟨nonempty, serves⟩ := Entry.head_serves (ok p) hr sound (g := fun w => w.clearedFor pl.host) (by rw [he])
    (fun w => w.clearedFor_place _) fun k hk => by
      rw [holds k, Bool.and_eq_true, decide_eq_true_eq] at hk
      exact ⟨hk.1, last k hk.2⟩
  obtain ⟨t, ns, posts, served, serve⟩ :=
    EntryOut.serve_servedAs (s.env p) (o := EntryOut.start e) sound noRecall nonempty
  refine ⟨t, ns, posts, served, serves, ?_⟩
  have surrender : (s.page p).surrender (s.env p) pl.host =
      { entry := t, notices := ns, posts := posts, aborts := [] } := by
    rw [Entry.surrender, entry, Entry.inUse_of_recalling (ok p) hr]
    exact serve
  rw [d.exec_release, Entry.release_of_held hv free, surrender, State.applyEntry_mk, State.postAll_append]
  rfl

/-- Settles O34: the targets of the recall are the holders that block the head, and all of them are revoked. -/
theorem recallDeadlineRevokes : Obligations.RecallDeadlineRevokes := by
  intro s p r ok hr due kept jobs ns e hk hjobs hns he
  have entry : e = { (s.page p).revoked r.targets kept with recalling := none } := he
  have sound : e.Sound := entry ▸ (Entry.sound_revoked (ok p) hr hk).congr rfl rfl rfl
  have noRecall : e.recalling = none := by rw [he]
  have holds : ∀ k, e.holds k = true → (s.page p).holds k = true ∧ r.targets[k] = false := by
    intro k held
    have held : (kept[k]).isSome = true := by rw [he] at held; exact held
    rw [hk k] at held
    cases target : r.targets[k] with
    | true => simp [target] at held
    | false => exact ⟨by simpa [target, Entry.holds_eq] using held, rfl⟩
  obtain ⟨nonempty, serves⟩ := Entry.head_serves (ok p) hr sound
    (g := fun w => if r.targets[w.place.host] then { w with upgrade := false } else w) (by rw [he])
    (fun w => by split <;> rfl) holds
  obtain ⟨t, fresh, posts, served, serve⟩ :=
    EntryOut.serve_servedAs (s.env p) (o := { entry := e, notices := ns, posts := [], aborts := jobs }) sound noRecall
      nonempty
  refine ⟨t, fresh, posts, served, serves, ?_⟩
  have deadline : (s.page p).recallDeadline (s.env p) =
      { entry := t, notices := ns ++ fresh, posts := posts, aborts := jobs } := by
    rw [Entry.recallDeadline_of_due (ok p) hr hk due, ← entry]
    exact serve ▸ (by rw [hns, hjobs]; rfl)
  show Host.Outcome.next (s.applyEntry p _) = _
  rw [deadline]
  rfl

/-- Settles O35: the whole choice is granted and the list behind served; a choice that a waiter has left is served
anew. -/
theorem drainEndMakesTheHeldBackGrant : Obligations.DrainEndMakesTheHeldBackGrant := by
  intro s p g ok st hg
  obtain ⟨sound, noX, noRecall, g', hg', heads⟩ := (Entry.wf_iff_of_transfer st).1 (ok p)
  obtain rfl : g = g' := Option.some.inj (hg.symm.trans hg')
  have row : exec (.drainEnd p) s = .next (s.applyEntry p ((s.page p).drainEnd (s.env p))) := rfl
  refine ⟨fun stray => ?_, fun calm => ⟨?_, fun left chosen behind split hosts => ?_, fun left empty => ?_,
    fun left waiting => ?_⟩⟩
  · rw [row, Entry.drainEnd_of_stray hg stray, State.applyEntry_start]
  · have noMarks := ((s.page p).keeps_drainEnd (s.env p)).aborts
    obtain ⟨state, grant⟩ := Entry.drainEnd_ends hg st (ok p) calm (s.env p)
    refine ⟨_, row, ?_⟩
    rw [State.page_applyEntry_self, State.applyEntry_of_no_aborts noMarks]
    refine ⟨state, grant, ?_, fun q hq => ?_⟩
    · rw [State.postAll_frame, State.notifyAll_frame]
      rfl
    · rw [State.postAll_frame]
      exact (State.page_notifyAll _ _ q).trans (State.page_setPage_of_ne s _ hq)
  · have granted := Entry.grantedTo_grantOf sound calm split (hosts ▸ heads.mayGrant noX left)
    have whole := Entry.drainEnd_of_whole sound noRecall (s.env p) hg st calm left split hosts
    cases behind with
    | nil =>
      refine ⟨_, [], [], fun _ => ⟨rfl, rfl, rfl⟩, by simp, ?_⟩
      rw [row, whole, EntryOut.serve_of_nil _ rfl, List.append_nil]
      have same : { (s.page p).grantedTo g.mode chosen [] with
          state := ((s.page p).grantedTo g.mode chosen []).stateOfHoldings } = (s.page p).grantedTo g.mode chosen [] := by
        rw [← granted.state_eq]
      exact congrArg
        (fun e => Host.Outcome.next (s.applyEntry p { entry := e, notices := [], posts := _, aborts := [] })) same
    | cons w ws =>
      obtain ⟨t, ns, posts, served, serve⟩ := EntryOut.serve_servedAs (s.env p)
        (o := { EntryOut.start ((s.page p).grantedTo g.mode chosen (w :: ws)) with
                posts := grantReplies p ((s.page p).gen + 1) chosen })
        granted.sound rfl (by simp [EntryOut.start, Entry.grantedTo])
      refine ⟨t, ns, posts, by simp, fun _ => served, ?_⟩
      rw [row, whole]
      exact congrArg Host.Outcome.next ((congrArg (s.applyEntry p) serve).trans (State.applyEntry_mk s p ..))
  · have state : ({ s.page p with grant := none } : Entry).stateOfHoldings =
        if ∀ k, (s.page p).holds k = false then .free else .shared := by
      split
      · rename_i unheld
        exact Entry.stateOfHoldings_of_unheld (((s.page p).unheld_iff).2 unheld)
      · rename_i held
        refine Entry.stateOfHoldings_of_shared noX ?_
        rw [← Bool.not_eq_true]
        exact fun unheld => held (((s.page p).unheld_iff).1 unheld)
    rw [row, Entry.drainEnd_of_left hg st calm left, EntryOut.serve_of_nil _ empty]
    simp only [EntryOut.start] at state ⊢
    rw [state, State.applyEntry_mk]
    rfl
  · obtain ⟨t, ns, posts, served, serve⟩ := EntryOut.serve_servedAs (s.env p)
      (o := EntryOut.start { s.page p with grant := none }) (sound.congr rfl rfl rfl) noRecall waiting
    refine ⟨t, ns, posts, served, ?_⟩
    rw [row, Entry.drainEnd_of_left hg st calm left, serve]
    rfl

end Sys2Proof.Proofs
end

