-- ==== Sys2Proof/Proofs/JobChecks.lean ====
section
/-!
SUPPORT. A command whose session has ended, and the holding checks of the jobs (R11, R81, R121, R122).
-/

namespace Sys2Proof.Machine

open Sys2Proof

/-! ## A command whose session has ended (R81, R163) -/

theorem State.entryTakes_of_ended {s : State} {h : HostId} {p : PageId} {t : Transit}
    (arrives : s.arrival h (.entry p) = some t) (ended : s.current t.place = false) {f : Transit → Option (State → EntryOut)}
    {g : State → EntryOut} (means : f t = some g) : s.entryTakes h p f = s.dropTransit t.place := by
  simp only [State.entryTakes, arrives, means]
  exact State.taking_of_ended _ ended

/-- A COPY on its way to its destination takes its references with it (R121). -/
theorem State.page_removeRefs_copy (s : State) (pl : Place) (a b q : PageId) :
    (s.removeRefs (Job.fresh pl (.copy a) b)).page q =
      if q = a ∨ q = b then { s.page q with refs := (s.page q).refs.filter fun r => r.place ≠ pl } else s.page q := by
  rw [s.removeRefs_copy (j := Job.fresh pl (.copy a) b) rfl]
  show ((s.modifyPage a fun e => e.removeRef pl).modifyPage b fun e => e.removeRef pl).page q = _
  rw [State.page_modifyPage, State.page_modifyPage, State.page_modifyPage]
  by_cases hb : q = b
  · by_cases ha : b = a <;> simp [ha, hb, Entry.removeRef, List.filter_filter]
  · by_cases ha : q = a
    · rw [if_neg hb, if_pos ha, if_pos (.inl ha), ha]
      rfl
    · rw [if_neg hb, if_neg ha, if_neg (by simp [ha, hb])]

theorem State.removeRefs_copy_frame (s : State) (pl : Place) (a b : PageId) :
    s.removeRefs (Job.fresh pl (.copy a) b) = { s with pages := (s.removeRefs (Job.fresh pl (.copy a) b)).pages } := by
  rw [s.removeRefs_copy (j := Job.fresh pl (.copy a) b) rfl]
  rfl

/-! ## The holding checks (R121, R122) -/

theorem Entry.checkHolding_iff (e : Entry) (h : HostId) (need : Mode) :
    e.checkHolding h need = true ↔ e.mode h = some .X ∨ e.mode h = some need := by
  cases need with
  | X => simp [Entry.checkHolding, Entry.holdsX]
  | S => rw [Entry.checkHolding, Entry.holds_iff_mode, Entry.holdsX_iff, Entry.holdsS_iff]

/-- A page without a reference of the job has none removed. -/
theorem State.removeRef_of_none (s : State) {p : PageId} {pl : Place} (none : ∀ r ∈ (s.page p).refs, r.place ≠ pl) :
    (s.modifyPage p fun e => e.removeRef pl) = s := by
  have same : (s.page p).refs.filter (fun r => r.place ≠ pl) = (s.page p).refs :=
    List.filter_eq_self.2 fun r hr => by simpa using none r hr
  rw [State.modifyPage_eq, Entry.removeRef, same, State.setPage_page_self]

theorem State.lastCheck_of_held {s : State} {p : PageId} {need : Mode} {j : Job}
    (held : (s.page p).mode j.place.host = some .X ∨ (s.page p).mode j.place.host = some need) :
    s.lastCheck p need j = (s.modifyPage p fun e => e.addRef (queuedRef j.place (some need))).sendJob j := by
  rw [State.lastCheck, if_pos (((s.page p).checkHolding_iff _ _).2 held)]

theorem State.lastCheck_of_not_held {s : State} {p : PageId} {need : Mode} {j : Job}
    (noX : (s.page p).mode j.place.host ≠ some .X) (no : (s.page p).mode j.place.host ≠ some need) :
    s.lastCheck p need j = (s.removeRefs j).post j.place (Reply.ofPage .notHeld j.target) := by
  rw [State.lastCheck, if_neg fun held => (((s.page p).checkHolding_iff _ _).1 held).elim noX no]
  rfl

end Sys2Proof.Machine
end

section
/-! Commands of ended sessions, and the holding checks of jobs. -/

namespace Sys2Proof.Proofs

open Sys2Proof Sys2Proof.Machine

/-- Settles O40: each owner's row asks for the session first; COPY's destination row removes the references besides. -/
theorem endedSessionsCommandsAreDiscarded : Obligations.EndedSessionsCommandsAreDiscarded := by
  intro s h pl e arrives ended
  have host : pl.host = h := (State.arrival_spec arrives).2.1
  have past : s.current pl = false := by simpa [State.current, host] using ended
  refine ⟨fun other => ?_, fun a b copy => ?_⟩
  · have atEntry : ∀ {p : PageId} {f : Transit → Option (State → EntryOut)} {g : State → EntryOut},
        s.arrival h (.entry p) = some ⟨pl, e⟩ → f ⟨pl, e⟩ = some g →
          Host.Outcome.next (s.entryTakes h p f) = (.next (s.dropTransit pl) : Host.Outcome State Fault Refusal) :=
      fun a m => congrArg _ (State.entryTakes_of_ended a past m)
    have ends : ∀ f : State → State, s.taking pl f = s.dropTransit pl := fun f => State.taking_of_ended f past
    cases e with
    | acquire p m limit => exact atEntry arrives rfl
    | release p gen => exact atEntry arrives rfl
    | downgrade p gen => exact atEntry arrives rfl
    | cancelRequest p target => exact atEntry arrives rfl
    | query p => exact atEntry arrives rfl
    | retire p => exact atEntry arrives rfl
    | copyDestination a b => exact absurd rfl (other a b)
    | flush first count =>
      simp only [Errand.owner] at arrives
      simp only [Errand.row, exec, execFlush, arrives, ends]
    | copySource p q =>
      simp only [Errand.owner] at arrives
      simp [Errand.row, exec, execCopy, arrives, past]
    | fill p pattern =>
      simp only [Errand.owner] at arrives
      simp only [Errand.row, exec, execFill, arrives, ends]
    | checksum p =>
      simp only [Errand.owner] at arrives
      simp only [Errand.row, exec, execChecksum, arrives, ends]
    | restore p =>
      simp only [Errand.owner] at arrives
      simp only [Errand.row, exec, execRestore, arrives, ends]
    | setQuota named limit =>
      simp only [Errand.owner] at arrives
      simp only [Errand.row, exec, execSetQuota, arrives, ends]
    | setRecallLimit limit =>
      simp only [Errand.owner] at arrives
      simp only [Errand.row, exec, execSetRecallLimit, arrives, ends]
  · subst copy
    simp only [Errand.owner] at arrives
    refine ⟨(s.dropTransit pl).removeRefs (Job.fresh pl (.copy a) b), ?_, State.removeRefs_copy_frame _ pl a b,
      (s.dropTransit pl).page_removeRefs_copy pl a b⟩
    simp [Errand.row, exec, execCopyDestinationCheck, arrives, past]

/-- Settles O48: the check reads the mode of the job's host; it passes with the mode needed or X. -/
theorem holdingChecksOfJobs : Obligations.HoldingChecksOfJobs := by
  intro s h p q pl pattern
  refine ⟨fun e need job kind d => ?_, fun d => ?_, fun apart d => ?_⟩
  · obtain rfl := d.host
    have place : job.place = pl := by rcases kind with ⟨-, -, rfl⟩ | ⟨-, -, rfl⟩ <;> rfl
    have target : job.target = p := by rcases kind with ⟨-, -, rfl⟩ | ⟨-, -, rfl⟩ <;> rfl
    have refs : ∀ u : State, u.removeRefs job = u.modifyPage p fun e => e.removeRef pl := fun u => by
      rcases kind with ⟨-, -, rfl⟩ | ⟨-, -, rfl⟩ <;> rfl
    have row : exec (e.row pl.host) s = .next ((s.dropTransit pl).lastCheck p need job) := by
      rcases kind with ⟨rfl, rfl, rfl⟩ | ⟨rfl, rfl, rfl⟩
      · simp only [Errand.row, exec, execFill, d.1, d.taking]
      · simp only [Errand.row, exec, execChecksum, d.1, d.taking]
        rfl
    refine ⟨fun held => ?_, fun noX no none => ?_⟩
    · rw [row, State.lastCheck_of_held (place ▸ held), place]
      rfl
    · rw [row, State.lastCheck_of_not_held (place ▸ noX) (place ▸ no), refs, place, target,
        State.removeRef_of_none (s.dropTransit pl) none, d.post _ (by rfl)]
  · obtain rfl := d.host
    have held : (s.page p).checkHolding pl.host .S = true ↔ (s.page p).mode pl.host ≠ none := (s.page p).holds_iff pl.host
    refine ⟨fun some => ?_, fun none => ?_⟩
    · simp only [exec, execCopy, d.1, d.current, if_true, held.2 some]
      rfl
    · have no : (s.page p).checkHolding pl.host .S = false := ((s.page p).not_holds_iff pl.host).2 none
      simp only [exec, execCopy, d.1, d.current, if_true, no, Bool.false_eq_true, if_false]
      exact congrArg Host.Outcome.next (d.post _ rfl)
  · obtain rfl := d.host
    have row : exec (.copyDestinationCheck pl.host q) s =
        .next ((s.dropTransit pl).lastCheck q .X (Job.fresh pl (.copy p) q)) := by
      simp only [exec, execCopyDestinationCheck, d.1, d.current, if_true]
    refine ⟨fun held => ?_, fun noX none => ?_⟩
    · rw [row, State.lastCheck_of_held (.inl held)]
      rfl
    · have target : ((s.dropTransit pl).modifyPage p fun e => e.removeRef pl).page q = s.page q :=
        State.page_modifyPage_of_ne _ _ apart.symm
      have refs : (s.dropTransit pl).removeRefs (Job.fresh pl (.copy p) q) =
          (s.dropTransit pl).modifyPage p fun e => e.removeRef pl := by
        rw [State.removeRefs_copy _ (j := Job.fresh pl (.copy p) q) rfl]
        exact State.removeRef_of_none _ (target ▸ none)
      rw [row, State.lastCheck_of_not_held noX noX, refs]
      exact congrArg Host.Outcome.next (d.post _ rfl)

end Sys2Proof.Proofs
end

