-- ==== Sys2Proof/Proofs/ResetAndRecords.lean ====
section
/-!
SUPPORT. The device's reset and sweep, and the ways of a completion, a notice and an abort mark (R18, R76 to R78, R115 to
R117, R127, R148).
-/

namespace Sys2Proof.Machine

open Sys2Proof

/-! ## Reset and the sweep (R18, R115 to R117) -/

/-- At the assertion of RESET a write being performed may or may not have changed its word (R117). -/
theorem State.storeAtReset_of_ready {s : State} (ready : s.phase = .ready) :
    s.storeAtReset = s.store ∨ ∃ op ∈ s.arbiter.performing, s.storeAtReset = s.store.perform op := by
  cases hp : s.arbiter.performing with
  | none => exact .inl (by simp [State.storeAtReset, ready, hp])
  | some op =>
    by_cases lands : op.dir = .write ∧ Config.resetWriteLands s.freeCount
    · refine .inr ⟨op, rfl, ?_⟩
      simp [State.storeAtReset, ready, hp, lands, Store.perform]
    · exact .inl (by simp only [State.storeAtReset, ready, hp, if_neg lands])

/-- A port group after reset asserts no interrupt (R155). -/
theorem PortGroup.interrupt_afterReset (g : PortGroup) (manager : Bool) : (g.afterReset manager).interrupt = false := rfl

/-- Every byte of the swept array is zero with correct parity (R105, R106, R116). -/
theorem Store.zero_byte (a : Nat) :
    Store.zero.readByte a = 0 ∧ Store.zero.mismatched a = false ∧ Store.zero.parityBit a = true := by
  have byte : Store.zero.readByte a = 0 := rfl
  have sound : Store.zero.mismatched a = false := rfl
  refine ⟨byte, sound, ?_⟩
  rw [Store.parityBit, byte, sound]
  decide

/-! ## Completions (R76, R78) -/

section Completion

variable {g : PortGroup} {pl : Place} {f : Taken}

/-- The completion that leaves only a FENCE uncompleted is followed by the FENCE's OK (R76). -/
theorem PortGroup.complete_of_fence (left : (g.uncompleted.filter fun t => t.place ≠ pl) = [f])
    (fence : f.place.kind = Kind.fence.code) (r : Reply) :
    g.complete pl r =
      { g with
        uncompleted := []
        cq := g.cq ++ [completionOf pl r, completionOf f.place (Reply.bare .ok)] } := by
  simp only [PortGroup.complete, PortGroup.settleFence, left, fence, if_true, List.append_assoc]
  rfl

theorem PortGroup.complete_of_no_fence
    (left : ∀ f : Taken, f.place.kind = Kind.fence.code → (g.uncompleted.filter fun t => t.place ≠ pl) ≠ [f]) (r : Reply) :
    g.complete pl r =
      { g with
        uncompleted := g.uncompleted.filter fun t => t.place ≠ pl
        cq := g.cq ++ [completionOf pl r] } := by
  simp only [PortGroup.complete, PortGroup.settleFence]
  split
  · rename_i t ht
    exact if_neg fun fence => left t fence ht
  · rfl

end Completion

end Sys2Proof.Machine
end

section
/-! Reset, records, and the invariants of the state after reset. -/

namespace Sys2Proof.Proofs

open Sys2Proof Sys2Proof.Machine

/-- Settles O5: the three rows' own records, field by field. -/
theorem resetSetsResetValues : Obligations.ResetSetsResetValues := by
  intro s
  refine ⟨fun running => ?_, fun held straps => ?_, fun sweeping => ?_⟩
  · refine ⟨_, congrArg Host.Outcome.next (if_neg running), rfl, rfl, fun p => ?_, fun n => ?_, fun n => ?_, rfl, rfl, rfl,
      State.storeAtReset_of_ready⟩
    · simp [State.page]
    · simp [State.port, PortGroup.afterReset]
    · simp only [State.int, State.port, Fin.getElem_fin, mapVec_getElem]
      exact PortGroup.interrupt_afterReset _ _
  · refine ⟨_, congrArg Host.Outcome.next (if_pos held), rfl, rfl, rfl, fun p => ?_, fun n => ?_, rfl, rfl, rfl, rfl, rfl⟩
    · simp [State.page]
    · simp only [State.port, Fin.getElem_fin, mapVec_getElem]
      rw [hostVector_getElem]
      rfl
  · exact ⟨_, congrArg Host.Outcome.next (if_pos sweeping), rfl, rfl, Store.zero_byte⟩

/-- Settles O20: the cases of a completion by what it leaves uncompleted, of a notice by the port's state and queue, and
the one equation of a mark. -/
theorem recordsReachTheirQueues : Obligations.RecordsReachTheirQueues := by
  refine ⟨fun s pl r => ⟨fun ended => ?_, fun place => ⟨fun f fence left => ?_, fun left => ?_⟩⟩, fun g x => ?_, fun s => ?_⟩
  · exact State.post_of_not_hasPlace r (by simp [PortGroup.hasPlace, ended])
  · rw [State.post_of_hasPlace r place, PortGroup.complete_of_fence left fence]
    rfl
  · rw [State.post_of_hasPlace r place, PortGroup.complete_of_no_fence left]
    rfl
  · refine ⟨fun out => ?_, fun attached room => ?_, fun attached full => ?_⟩
    · simp [PortGroup.notify, out]
    · simp [PortGroup.notify, attached, Config.noticeQueueSize, room]
    · simp [PortGroup.notify, attached, Config.noticeQueueSize, Nat.not_lt.2 full]
  · refine ⟨⟨rfl, rfl, rfl⟩, fun _ _ _ => rfl, fun _ _ _ => rfl, fun job => ?_⟩
    exact ⟨s.markJob job, fun _ => rfl, rfl, s.page_markJob job, rfl⟩

/-- Settles O53: every entry and port group of the state after reset is empty, and so are engine, store and table of
commands. -/
theorem resetMeetsEveryInvariant : Obligations.ResetMeetsEveryInvariant := by
  refine ⟨fun p => ?_, fun n => ?_, State.resourcesOk_of_reset State.page_reset, State.reset_store_wf, ?_,
    State.requestsOk_of_idle rfl rfl State.page_reset fun n => ?_⟩
  · rw [State.page_reset]
    exact Entry.reset_wf
  · rw [State.port_reset]
    exact ⟨PortGroup.reset_wf, PortGroup.reset_placesOk n _⟩
  · simp [State.jobsOk, State.workPlaces, State.reset, Engine.reset]
  · rw [State.port_reset]
    rfl

end Sys2Proof.Proofs
end

