-- ==== Sys2Proof/Proofs/AnswersAtTheEntry.lean ====
section
/-!
SUPPORT. The answers an entry gives without a change of its own: the ACQUIRE that the holding answers (R23), and the
refusals of RELEASE and DOWNGRADE (R31, R33, R35), an equation a case.
-/

namespace Sys2Proof.Machine

open Sys2Proof

section AtEntry

variable {s : State} {h : HostId} {p : PageId} {pl : Place}

theorem State.delivers.exec_downgrade {gen : BitVec 16} (d : s.delivers h (.entry p) pl (.downgrade p gen)) :
    exec (.downgrade h p) s = .next ((s.dropTransit pl).applyEntry p ((s.page p).downgrade (s.env p) pl gen)) :=
  congrArg Host.Outcome.next (d.entryTakes (g := fun u => (u.page p).downgrade (u.env p) pl gen) rfl)

theorem State.delivers.exec_cancelRequest {target : Place} (d : s.delivers h (.entry p) pl (.cancelRequest p target)) :
    exec (.cancelRequest h p) s =
      .next ((s.dropTransit pl).applyEntry p ((s.page p).cancelRequest (s.env p) pl target)) :=
  congrArg Host.Outcome.next (d.entryTakes (g := fun u => (u.page p).cancelRequest (u.env p) pl target) rfl)

end AtEntry

theorem Entry.mode_of_holding {e : Entry} {h : HostId} {v : Holding} (hv : e.holding h = some v) :
    e.mode h = some v.mode := by
  simp [Entry.mode, hv]

theorem Entry.holds_of_holding {e : Entry} {h : HostId} {v : Holding} (hv : e.holding h = some v) : e.holds h = true := by
  simp [Entry.holds, hv]

/-- The holding answers an ACQUIRE of its own mode, and of S if it is X (R23). -/
theorem Entry.acquire_of_answered {e : Entry} {pl : Place} {m : Mode} {v : Holding}
    (live : ¬(e.state = .retired ∨ e.state = .scrub)) (hv : e.holding pl.host = some v) (hm : v.mode = m ∨ v.mode = .X)
    (env : Env) (q f : Bool) (limit : BitVec 16) :
    e.acquire env q f pl m limit = e.reply pl { status := .ok, page := some env.page, gen := some v.gen, result := none } := by
  have answers : e.answersFromHolding pl.host m = true := by
    by_contra no
    obtain ⟨noX, noM⟩ := (e.answersFromHolding_eq_false_iff pl.host m).1 (by simpa using no)
    rw [Entry.mode_of_holding hv] at noX noM
    rcases hm with hm | hm
    · exact noM (congrArg some hm)
    · exact noX (congrArg some hm)
  simp only [Entry.acquire, if_neg live, answers, if_true, hv, Option.map_some]

/-! ## The jobs in the way of a surrender (R35) -/

theorem Entry.blocksRelease_iff (e : Entry) (h : HostId) :
    e.blocksRelease h = true ↔ ∃ r ∈ e.refs, r.place.host = h ∧ r.marked = false := by
  simp [Entry.blocksRelease]

theorem Entry.blocksDowngrade_iff (e : Entry) (h : HostId) :
    e.blocksDowngrade h = true ↔ ∃ r ∈ e.refs, r.place.host = h ∧ r.marked = false ∧ r.need = some .X := by
  simp [Entry.blocksDowngrade, and_assoc]

/-! ## The refusals of RELEASE and DOWNGRADE (R31, R33) -/

section Refusals

variable {e : Entry} {pl : Place} (env : Env)

theorem Entry.release_of_not_held (none : e.holds pl.host = false) (gen : BitVec 16) :
    e.release env pl gen = e.reply pl (Reply.ofPage .notHeld env.page) := by
  have hv : e.holding pl.host = .none := by simpa [Entry.holds] using none
  simp only [Entry.release, hv]

theorem Entry.downgrade_of_no_exclusive (noX : e.mode pl.host ≠ some .X) (gen : BitVec 16) :
    e.downgrade env pl gen = e.reply pl (Reply.ofPage .notHeld env.page) := by
  simp only [Entry.downgrade]
  cases hv : e.holding pl.host with
  | none => rfl
  | some v =>
    have hS : v.mode = .S := by
      rw [Entry.mode_of_holding hv] at noX
      cases hm : v.mode
      · rfl
      · exact absurd (congrArg some hm) noX
    exact if_pos hS

variable {v : Holding} (hv : e.holding pl.host = some v)

include hv

theorem Entry.release_of_stale {gen : BitVec 16} (stale : v.gen ≠ gen) :
    e.release env pl gen = e.reply pl (Reply.ofPage .stale env.page) := by
  simp only [Entry.release, hv, if_pos stale]

theorem Entry.release_of_job (job : e.blocksRelease pl.host = true) :
    e.release env pl v.gen = e.reply pl (Reply.ofPage .inUse env.page) := by
  simp [Entry.release, hv, job]

variable (hX : v.mode = .X)

include hX

theorem Entry.downgrade_of_stale {gen : BitVec 16} (stale : v.gen ≠ gen) :
    e.downgrade env pl gen = e.reply pl (Reply.ofPage .stale env.page) := by
  simp [Entry.downgrade, hv, hX, stale]

theorem Entry.downgrade_of_job (job : e.blocksDowngrade pl.host = true) :
    e.downgrade env pl v.gen = e.reply pl (Reply.ofPage .inUse env.page) := by
  simp [Entry.downgrade, hv, hX, job]

end Refusals

end Sys2Proof.Machine
end

section
/-! Commands that leave the entry as it is. -/

namespace Sys2Proof.Proofs

open Sys2Proof Sys2Proof.Machine

/-- Settles O26: the holding answers, and the entry replies. -/
theorem acquireAnsweredFromTheHolding : Obligations.AcquireAnsweredFromTheHolding := by
  intro s h p pl m limit v d retired scrub hv hm
  obtain rfl := d.host
  rw [d.exec_acquire, Entry.acquire_of_answered (by simp [retired, scrub]) hv hm, d.reply]
  rfl

/-- Settles O30: one equation for each of the six refusals. -/
theorem releaseAndDowngradeRefusals : Obligations.ReleaseAndDowngradeRefusals := by
  intro s h p pl gen st
  refine ⟨fun d why => ?_, fun d why => ?_⟩ <;> obtain rfl := d.host
  · have refused : (s.page p).release (s.env p) pl gen = (s.page p).reply pl (Reply.ofPage st p) := by
      obtain ⟨none, rfl⟩ | ⟨v, hv, ⟨stale, rfl⟩ | ⟨rfl, job, rfl⟩⟩ := why
      · exact Entry.release_of_not_held _ none gen
      · exact Entry.release_of_stale _ hv stale
      · exact Entry.release_of_job _ hv (((s.page p).blocksRelease_iff pl.host).2 job)
    rw [d.exec_release, refused, d.reply]
  · have refused : (s.page p).downgrade (s.env p) pl gen = (s.page p).reply pl (Reply.ofPage st p) := by
      obtain ⟨noX, rfl⟩ | ⟨v, hv, hX, ⟨stale, rfl⟩ | ⟨rfl, job, rfl⟩⟩ := why
      · exact Entry.downgrade_of_no_exclusive _ noX gen
      · exact Entry.downgrade_of_stale _ hv hX stale
      · exact Entry.downgrade_of_job _ hv hX (((s.page p).blocksDowngrade_iff pl.host).2 job)
    rw [d.exec_downgrade, refused, d.reply]

end Sys2Proof.Proofs
end

