-- ==== Sys2Proof/Proofs/TimebaseAndTakes.lean ====
section
/-!
SUPPORT. The tick of the timebase (R19, R20), and the taking of the command at the head of a ring (R72): what a descriptor
that passes the checks becomes, and how CANCEL selects its ACQUIRE (R39).
-/

namespace Sys2Proof.Machine

open Sys2Proof

/-! ## The tick (R19, R20) -/

/-- The expiry of a deadline, written as one change of the delivered marks. -/
theorem Entry.expire_eq (e : Entry) (now : Word) :
    e.expire now =
      { e with
        waiters := e.waiters.map fun w => { w with due := w.due || decide (w.deadline = some now) }
        recalling := e.recalling.map fun r => { r with due := r.due || decide (r.deadline = now) } } := by
  have waiter : (fun w : Waiter => if w.deadline = some now then { w with due := true } else w) =
      fun w => { w with due := w.due || decide (w.deadline = some now) } := by
    funext w
    by_cases hw : w.deadline = some now <;> simp [hw]
  have record : (fun r : Recall => if r.deadline = now then { r with due := true } else r) =
      fun r => { r with due := r.due || decide (r.deadline = now) } := by
    funext r
    by_cases hr : r.deadline = now <;> simp [hr]
  simp only [Entry.expire, waiter, record]

/-! ## The fields of a descriptor (R74, R182) -/

theorem pageOfField_of_toNat {f : BitVec 16} {p : PageId} (h : f.toNat = p.val) : pageOfField f = some p := by
  simp [pageOfField, h]

theorem hostOfField_of_toNat {f : BitVec 16} {k : HostId} (h : f.toNat = k.val) : hostOfField f = some k := by
  simp [hostOfField, h]

theorem modeOfField_of_toNat {f : BitVec 2} {m : Mode} (h : f.toNat = (match m with | .S => 1 | .X => 2)) :
    modeOfField f = some m := by
  cases m <;> simp only [modeOfField, h]

/-- A known kind, permitted on the port, with arguments in range passes the command unit's checks (R73, R74). -/
theorem checkCommand_of_kind {manager : Bool} {d : Descriptor} {k : Kind} {c : Command}
    (kind : Kind.ofCode d.kindCode = some k) (privilege : k.isManager = true → manager = true)
    (arguments : d.command k = some c) : checkCommand manager d = .ok c := by
  have permitted : (k.isManager && !manager) = false := by
    cases hk : k.isManager
    · rfl
    · simp [privilege hk]
  simp only [checkCommand, kind, permitted, Bool.false_eq_true, if_false, arguments]

/-- The kinds whose only argument that can be refused is the page of word 1. -/
theorem checkCommand_of_page {manager : Bool} {d : Descriptor} {k : Kind} {f : PageId → Errand} {p : PageId}
    (kind : Kind.ofCode d.kindCode = some k) (privilege : k.isManager = true → manager = true)
    (reads : d.command k = (pageOfField (d.half 1)).map fun p => .errand (f p)) (page : (d.half 1).toNat = p.val) :
    checkCommand manager d = .ok (.errand (f p)) :=
  checkCommand_of_kind kind privilege (by rw [reads, pageOfField_of_toNat page, Option.map_some])

/-- The command unit reads a descriptor as the table "Command Descriptor" does (R182). -/
theorem checkCommand_of_asks {manager : Bool} {d : Descriptor} {e : Errand} (asks : d.asks e)
    (privilege : e.isManager = true → manager = true) : checkCommand manager d = .ok (.errand e) := by
  have plain : ∀ k : Kind, k.isManager = false → k.isManager = true → manager = true := fun k no yes => by simp [no] at yes
  cases e with
  | acquire p m limit =>
    obtain ⟨kind, page, mode, rfl⟩ := asks
    refine checkCommand_of_kind (k := .acquire) (by rw [kind]; rfl) (plain _ rfl) ?_
    simp only [Descriptor.command, pageOfField_of_toNat page, modeOfField_of_toNat mode]
  | release p gen =>
    obtain ⟨kind, page, rfl⟩ := asks
    exact checkCommand_of_page (k := .release) (f := fun p => .release p _) (by rw [kind]; rfl) (plain _ rfl) rfl page
  | downgrade p gen =>
    obtain ⟨kind, page, rfl⟩ := asks
    exact checkCommand_of_page (k := .downgrade) (f := fun p => .downgrade p _) (by rw [kind]; rfl) (plain _ rfl) rfl page
  | cancelRequest p target => exact asks.elim
  | flush first count =>
    obtain ⟨kind, rfl, rfl, range⟩ := asks
    exact checkCommand_of_kind (k := .flush) (by rw [kind]; rfl) (plain _ rfl) (if_pos range)
  | copySource p q =>
    obtain ⟨kind, source, destination, apart⟩ := asks
    refine checkCommand_of_kind (k := .copy) (by rw [kind]; rfl) (plain _ rfl) ?_
    simp only [Descriptor.command, pageOfField_of_toNat source, pageOfField_of_toNat destination, if_neg apart]
  | copyDestination p q => exact asks.elim
  | fill p pattern =>
    obtain ⟨kind, page, rfl⟩ := asks
    exact checkCommand_of_page (k := .fill) (f := fun p => .fill p _) (by rw [kind]; rfl) (plain _ rfl) rfl page
  | checksum p => exact checkCommand_of_page (k := .checksum) (by rw [asks.1]; rfl) (plain _ rfl) rfl asks.2
  | query p => exact checkCommand_of_page (k := .query) (by rw [asks.1]; rfl) (plain _ rfl) rfl asks.2
  | retire p => exact checkCommand_of_page (k := .retire) (by rw [asks.1]; rfl) (fun _ => privilege rfl) rfl asks.2
  | restore p => exact checkCommand_of_page (k := .restore) (by rw [asks.1]; rfl) (fun _ => privilege rfl) rfl asks.2
  | setQuota k limit =>
    obtain ⟨kind, host, rfl, range⟩ := asks
    refine checkCommand_of_kind (k := .setQuota) (by rw [kind]; rfl) (fun _ => privilege rfl) ?_
    simp only [Descriptor.command, hostOfField_of_toNat host, if_pos range]
  | setRecallLimit limit =>
    obtain ⟨kind, rfl, range⟩ := asks
    exact checkCommand_of_kind (k := .setRecallLimit) (by rw [kind]; rfl) (fun _ => privilege rfl) (if_neg range)

/-- A CANCEL passes the checks with its target tag (R39). -/
theorem checkCommand_of_cancel {d : Descriptor} (kind : d.kindCode = 0x04) (manager : Bool) :
    checkCommand manager d = .ok (.cancel (d.half 1)) :=
  checkCommand_of_kind (k := .cancel) (by rw [kind]; rfl) (by simp [Kind.isManager]) rfl

/-! ## The take at the head of the ring (R70, R72) -/

/-- A RUNNING ring is that of an ATTACHED port without an outstanding FENCE (R70). -/
theorem PortGroup.attached_of_running {g : PortGroup} (running : g.ringState = .running) :
    g.phase = .attached ∧ g.fenceOutstanding = false := by
  simp only [PortGroup.ringState] at running
  by_cases attached : g.phase = .attached
  · cases fence : g.fenceOutstanding
    · exact ⟨attached, rfl⟩
    · simp [attached, fence] at running
  · simp [attached] at running

/-- A port group whose ring has given up its head to a command that has just been taken (R71, R72). -/
def PortGroup.afterTake (g : PortGroup) (rest : List Descriptor) (pl : Place) (page : Option PageId) : PortGroup :=
  { g with ring := rest, uncompleted := g.uncompleted ++ [Taken.mk pl page] }

theorem State.takeHead_of_running {s : State} {n : HostId} {d : Descriptor} {rest : List Descriptor}
    (running : (s.port n).ringState = .running) (ring : (s.port n).ring = d :: rest) {wanted : Descriptor → Bool}
    (kind : wanted d = true) {c : Except Status Command} (check : checkCommand (s.port n).manager d = c) :
    s.takeHead n wanted =
      (({ s with taken := s.taken + 1 } : State).setPort n
        ((s.port n).afterTake rest (s.placeFor n d) (Command.acquirePage c))).dispatch (s.placeFor n d) c := by
  subst check
  simp only [State.takeHead, running, if_true, ring, kind]
  rfl

theorem acquirePage_eq_none {e : Errand} (other : ∀ p m limit, e ≠ .acquire p m limit) :
    Command.acquirePage (.ok (.errand e)) = none := by
  cases e with
  | acquire p m limit => exact absurd rfl (other p m limit)
  | _ => rfl

/-! ## The selection of an ACQUIRE (R39) -/

theorem PortGroup.selectAcquire_eq_none {g : PortGroup} {target : BitVec 16}
    (none : ∀ t ∈ g.uncompleted, t.place.tag = target → t.page = none) : g.selectAcquire target = .none := by
  refine List.findSome?_eq_none_iff.2 fun t ht => ?_
  split
  · simp [none t ht ‹_›]
  · rfl

/-- The oldest uncompleted ACQUIRE of the tag is selected. -/
theorem PortGroup.selectAcquire_of_oldest {g : PortGroup} {older newer : List Taken} {pl : Place} {p : PageId}
    (split : g.uncompleted = older ++ ⟨pl, some p⟩ :: newer)
    (oldest : ∀ t ∈ older, t.place.tag = pl.tag → t.page = none) : g.selectAcquire pl.tag = some (pl, p) := by
  have skipped : older.findSome? (fun t => if t.place.tag = pl.tag then t.page.map fun p => (t.place, p) else none) =
      none := PortGroup.selectAcquire_eq_none (g := { g with uncompleted := older }) oldest
  simp only [PortGroup.selectAcquire, split, List.findSome?_append, skipped, Option.none_or, List.findSome?_cons, if_true,
    Option.map_some]

/-! ## A command completed at its take (R73, R76, R39) -/

/-- A command that completes as soon as it is taken leaves its record and no place (R71). -/
theorem PortGroup.complete_taken {g : PortGroup} {pl : Place} (fresh : ∀ t ∈ g.uncompleted, t.place ≠ pl)
    (noFence : g.fenceOutstanding = false) (rest : List Descriptor) (page : Option PageId) (r : Reply) :
    (g.afterTake rest pl page).complete pl r = { g with ring := rest, cq := g.cq ++ [completionOf pl r] } := by
  have left : ((g.afterTake rest pl page).uncompleted.filter fun t => t.place ≠ pl) = g.uncompleted := by
    simpa [PortGroup.afterTake, List.filter_append] using fresh
  rw [PortGroup.complete_of_no_fence, left]
  · rfl
  · intro f fence only
    rw [left] at only
    simp [PortGroup.fenceOutstanding, only, fence] at noFence

/-- The place of a command that is taken now differs from that of every uncompleted one (R71). -/
theorem State.portsOk.fresh {s : State} (ok : s.portsOk) (n : HostId) (d : Descriptor) :
    ∀ t ∈ (s.port n).uncompleted, t.place ≠ s.placeFor n d := by
  intro t ht same
  have places := (ok n).2
  simp only [PortGroup.placesOk, Bool.and_eq_true, List.all_eq_true, decide_eq_true_eq] at places
  have older := (places.1 t ht).2
  rw [same] at older
  exact Nat.lt_irrefl _ older

theorem State.post_taken_command {s : State} (ok : s.portsOk) {n : HostId} (running : (s.port n).ringState = .running)
    (d : Descriptor) (rest : List Descriptor) (page : Option PageId) (st : Status) :
    (({ s with taken := s.taken + 1 } : State).setPort n ((s.port n).afterTake rest (s.placeFor n d) page)).post
        (s.placeFor n d) (Reply.bare st) =
      ({ s with taken := s.taken + 1 } : State).setPort n
        { s.port n with ring := rest, cq := (s.port n).cq ++ [d.bareRecord st] } := by
  obtain ⟨attached, noFence⟩ := PortGroup.attached_of_running running
  have host : (s.placeFor n d).host = n := rfl
  have place : ((s.port n).afterTake rest (s.placeFor n d) page).hasPlace (s.placeFor n d) = true := by
    simp [PortGroup.hasPlace, PortGroup.afterTake, PortGroup.session, attached, State.placeFor]
  rw [State.post_of_hasPlace _ (by rw [host, State.port_setPort_self]; exact place), host, State.port_setPort_self,
    State.setPort_setPort_self, PortGroup.complete_taken (ok.fresh n d) noFence]
  rfl

end Sys2Proof.Machine
end

section
/-! The tick, the dispatch of a taken command, and the take of a CANCEL. -/

namespace Sys2Proof.Proofs

open Sys2Proof Sys2Proof.Machine

/-- Settles O6: the tick is one addition and one change of the delivered marks on every entry. -/
theorem timebaseAdvanceDeliversDeadlines : Obligations.TimebaseAdvanceDeliversDeadlines := by
  refine fun s => ⟨fun running => ?_, fun held => congrArg Host.Outcome.next (if_pos held)⟩
  refine ⟨_, congrArg Host.Outcome.next (if_neg running), rfl, ?_, fun p => ?_⟩
  · show (s.timebase + 1).toNat = _
    rw [BitVec.toNat_add]
    rfl
  · rw [State.page_mapPages, Entry.expire_eq]
    rfl

/-- Settles O17: the checks read the descriptor as the table does, and the errand goes into transit. -/
theorem takeDispatchesToTheOwner : Obligations.TakeDispatchesToTheOwner := by
  intro s n d rest e running ring asks privilege
  refine ⟨(s.port n).afterTake rest (s.placeFor n d) (Command.acquirePage (.ok (.errand e))), ?_, ?_, rfl, _, rfl, ?_,
    acquirePage_eq_none⟩
  · exact congrArg Host.Outcome.next
      (State.takeHead_of_running running ring rfl (checkCommand_of_asks asks privilege))
  · simp only [PortGroup.creditSum, PortGroup.afterTake, List.length_append, List.length_singleton]
    omega
  · rintro p m limit rfl
    rfl

/-- Settles O18: the take of the CANCEL selects among the commands uncompleted before it. -/
theorem cancelSelectsTheOldestAcquire : Obligations.CancelSelectsTheOldestAcquire := by
  intro s n d rest ok running ring kind
  have check := checkCommand_of_cancel kind (s.port n).manager
  have cancel : exec (.cancel n) s = .next
      ((({ s with taken := s.taken + 1 } : State).setPort n ((s.port n).afterTake rest (s.placeFor n d) none)).dispatch
        (s.placeFor n d) (.ok (.cancel (d.half 1)))) :=
    congrArg Host.Outcome.next (State.takeHead_of_running running ring (by simp [kind, Kind.code]) check)
  have port : (({ s with taken := s.taken + 1 } : State).setPort n
      ((s.port n).afterTake rest (s.placeFor n d) none)).port (s.placeFor n d).host =
        (s.port n).afterTake rest (s.placeFor n d) none := State.port_setPort_self _ n _
  refine ⟨?_, fun none => ?_, fun older newer target p split tag oldest => ?_⟩
  · rw [cancel]
    exact congrArg Host.Outcome.next (State.takeHead_of_running running ring rfl check)
  · have select : ((s.port n).afterTake rest (s.placeFor n d) .none).selectAcquire (d.half 1) = .none := by
      refine PortGroup.selectAcquire_eq_none fun t ht => ?_
      rcases List.mem_append.1 ht with ht | ht
      · exact none t ht
      · rw [List.mem_singleton.1 ht]
        exact fun _ => rfl
    rw [cancel, State.dispatch, port, select]
    exact congrArg Host.Outcome.next (State.post_taken_command ok running d rest .none .notFound)
  · have select : ((s.port n).afterTake rest (s.placeFor n d) none).selectAcquire (d.half 1) = some (target, p) := by
      rw [← tag] at oldest ⊢
      refine PortGroup.selectAcquire_of_oldest (newer := newer ++ [⟨s.placeFor n d, none⟩]) ?_ oldest
      simp [PortGroup.afterTake, split]
    rw [cancel, State.dispatch, port, select]
    rfl

end Sys2Proof.Proofs
end

