-- ==== Sys2Proof/Proofs/SurrendersAndDepartures.lean ====
section
/-!
SUPPORT. An accepted RELEASE or DOWNGRADE (R32, R33, R46, R47, R62), and the departure of a waiter (R36 to R40, R50, R51):
what each hands to the serving of the list, and that the serving changes nothing while a running recall blocks the head.
-/

namespace Sys2Proof.Machine

open Sys2Proof

/-! ## A serving that serves nobody (R28, R42) -/

/-- With no waiter, or with the recall of a head that must wait still running, the serving sets the state alone. -/
theorem EntryOut.serve_of_settled (env : Env) {o : EntryOut} (s : o.entry.Sound) (recalls : o.entry.RecallsForHead)
    (settled : o.entry.waiters = [] ∨ o.entry.recalling ≠ none) :
    o.serve env = { o with entry := { o.entry with state := o.entry.stateOfHoldings } } := by
  rcases settled with hw | running
  · exact EntryOut.serve_of_nil env hw
  · obtain ⟨r, hr⟩ := Option.ne_none_iff_exists'.1 running
    obtain ⟨w, ws, hw, -, -, targets, blocking⟩ := recalls r hr
    have blocked := (s.blocked_iff (w := w) (by simp [hw])).2 (targets ▸ blocking)
    rw [EntryOut.serve_of_blocked env hw blocked]
    exact EntryOut.recallIfBlocked_of_recalling env (o := { o with entry := { o.entry with state := _ } }) running

/-! ## The recall that a surrender answers (R46, R47) -/

theorem Entry.answerRecall_of_none {e : Entry} (hr : e.recalling = none) (h : HostId) : e.answerRecall h = e := by
  simp only [Entry.answerRecall, hr]

/-- A recall with another target goes on without the host that answers it (R46). -/
theorem Entry.answerRecall_of_remaining {e : Entry} {r : Recall} (hr : e.recalling = some r) {h k : HostId} (hk : k ≠ h)
    (target : r.targets[k] = true) :
    e.answerRecall h = { e with recalling := some { r with targets := r.targets.set h.val false h.isLt } } := by
  have remains : (hostIds.any fun k => (r.targets.set h.val false h.isLt)[k]) = true := by
    refine (any_hostIds _).2 ⟨k, ?_⟩
    rw [Fin.getElem_fin, Vector.getElem_set_ne _ _ (Fin.val_ne_iff.2 hk.symm)]
    exact target
  simp only [Entry.answerRecall, hr, remains, if_true]

theorem Entry.dropHolding_of_no_waiter {e : Entry} (hw : e.waiters = []) (h : HostId) :
    e.dropHolding h = { e with holdings := e.holdings.set h.val none h.isLt } := by
  simp only [Entry.dropHolding, Entry.setHolding, hw, List.map_nil]

/-- The state that the holdings give once a holder has surrendered its own: an X holder leaves the page unheld (R2). -/
theorem Entry.Sound.stateOfHoldings_dropHolding {e : Entry} (s : e.Sound) {h : HostId} (holds : e.holds h = true) :
    (e.dropHolding h).stateOfHoldings = if ∀ k, k ≠ h → e.holds k = false then .free else .shared := by
  split
  · rename_i others
    refine Entry.stateOfHoldings_of_unheld ((Entry.unheld_iff _).2 fun k => ?_)
    by_cases hk : k = h <;> simp [Entry.dropHolding_holds, hk, others]
  · rename_i some
    refine Entry.stateOfHoldings_of_shared ((Entry.exclusivelyHeld_eq_false_iff _).2 fun k => ?_)
      ((Entry.unheld_eq_false_iff _).2 ?_)
    · rw [Entry.dropHolding_holdsX, Bool.and_eq_false_iff]
      refine (Bool.eq_false_or_eq_true (e.holdsX k)).symm.imp_right fun x => ?_
      simp [s.sole k h x holds]
    · push Not at some
      obtain ⟨k, hk, held⟩ := some
      exact ⟨k, by simp [Entry.dropHolding_holds, hk, held]⟩

/-! ## RELEASE (R32, R46, R62) -/

section Release

variable {e : Entry} (wf : e.wf = true) {h : HostId} (holds : e.holds h = true)

include wf holds

/-- On a page in use whose list is empty, or whose recall goes on, a surrender serves nobody. -/
theorem Entry.surrender_of_settled (use : e.inUse = true)
    (settled : e.waiters = [] ∨ ((e.dropHolding h).answerRecall h).recalling ≠ none) (env : Env) :
    e.surrender env h =
      EntryOut.start
        { (e.dropHolding h).answerRecall h with
          state := if ∀ k, k ≠ h → e.holds k = false then .free else .shared } := by
  have ready := (Entry.ready_of_wf wf (.inl holds)).dropHolding h
  have state : ((e.dropHolding h).answerRecall h).stateOfHoldings = (e.dropHolding h).stateOfHoldings := by
    rw [Entry.answerRecall_frame]
    rfl
  have settled : ((e.dropHolding h).answerRecall h).waiters = [] ∨ ((e.dropHolding h).answerRecall h).recalling ≠ none :=
    settled.imp_left fun hw => by simp [hw]
  rw [← (Entry.sound_of_wf wf).stateOfHoldings_dropHolding holds, ← state, Entry.surrender, use]
  exact EntryOut.serve_of_settled env (o := EntryOut.start _) ready.sound (ready.inUse use).2 settled

omit holds in
/-- In TRANSFER a surrender removes the holding and serves nobody (R62). -/
theorem Entry.surrender_of_transfer (st : e.state = .transfer) (env : Env) :
    e.surrender env h = EntryOut.start (e.dropHolding h) := by
  have use : e.inUse = false := by simp [Entry.inUse, st]
  obtain ⟨-, -, hr, -⟩ := (Entry.wf_iff_of_transfer st).1 wf
  rw [Entry.surrender, use, Entry.answerRecall_of_none (e := e.dropHolding h) hr]
  rfl

/-- A surrender on a page with an empty list (R32). -/
theorem Entry.surrender_of_no_waiter (hw : e.waiters = []) (env : Env) :
    e.surrender env h =
      EntryOut.start
        { e with
          holdings := e.holdings.set h.val none h.isLt
          state :=
            if e.state = .transfer then .transfer
            else if ∀ k, k ≠ h → e.holds k = false then .free else .shared } := by
  rcases e.state_cases with use | st | idle
  · have notTransfer : e.state ≠ .transfer := fun st => by simp [Entry.inUse, st] at use
    have hr := Entry.recalling_of_no_waiter wf use hw
    rw [Entry.surrender_of_settled wf holds use (.inl hw), Entry.answerRecall_of_none (e := e.dropHolding h) hr,
      Entry.dropHolding_of_no_waiter hw, if_neg notTransfer]
  · rw [Entry.surrender_of_transfer wf st, Entry.dropHolding_of_no_waiter hw, if_pos st, ← st]
  · have unheld := ((Entry.wf_iff_of_idle idle).1 wf).2.1
    simp [(e.unheld_iff).1 unheld h] at holds

/-- A surrender that leaves the recall another target leaves the page SHARED and the recall running (R46). -/
theorem Entry.surrender_of_remaining {r : Recall} (hr : e.recalling = some r) {k : HostId} (hk : k ≠ h)
    (target : r.targets[k] = true) (env : Env) :
    e.surrender env h =
      EntryOut.start
        { e with
          holdings := e.holdings.set h.val none h.isLt
          waiters := e.waiters.map fun w => w.clearedFor h
          state := .shared
          recalling := some { r with targets := r.targets.set h.val false h.isLt } } := by
  have others : ¬∀ j, j ≠ h → e.holds j = false := fun no => by
    simpa [no k hk] using Entry.holds_of_target wf hr target
  have answered := Entry.answerRecall_of_remaining (e := e.dropHolding h) hr hk target
  rw [Entry.surrender_of_settled wf holds (Entry.inUse_of_recalling wf hr) (.inr (by simp [answered])), answered,
    if_neg others]
  rfl

end Release

/-- An event of the entry that hands over one completion, that of the command taken. -/
theorem State.delivers.reply_changed {s : State} {h : HostId} {p : PageId} {pl : Place} {e : Errand}
    (d : s.delivers h (.entry p) pl e) (f : Entry) (r : Reply) :
    (s.dropTransit pl).applyEntry p (f.reply pl r) =
      ((s.dropTransit pl).setPage p f).setPort h ((s.port h).complete pl r) :=
  (State.applyEntry_mk (s.dropTransit pl) p f [] [(pl, r)]).trans (d.post r rfl)

/-- A RELEASE whose surrender hands nothing over completes OK. -/
theorem Entry.release_of_surrender {e f : Entry} {pl : Place} {v : Holding} {env : Env} (hv : e.holding pl.host = some v)
    (free : ∀ x ∈ e.refs, x.place.host = pl.host → x.marked = true)
    (surrender : e.surrender env pl.host = EntryOut.start f) :
    e.release env pl v.gen = f.reply pl (Reply.ofPage .ok env.page) := by
  rw [Entry.release_of_held hv free, surrender]
  rfl

/-! ## DOWNGRADE (R33, R47) -/

section Downgrade

variable {e : Entry} {pl : Place} {v : Holding}

/-- An accepted DOWNGRADE on a page in use: S of the same generation, the recall answered if it is for S, and the list
served. -/
theorem Entry.downgrade_of_held (hv : e.holding pl.host = some v) (hX : v.mode = .X) (use : e.inUse = true)
    (free : ∀ r ∈ e.refs, r.place.host = pl.host → r.need = some .X → r.marked = true) (env : Env) :
    e.downgrade env pl v.gen =
      let o := (EntryOut.start
        { (e.setHolding pl.host (some { v with mode := .S })).answerByDowngrade pl.host with state := .shared }).serve env
      { o with posts := o.posts ++ [(pl, Reply.ofPage .ok env.page)] } := by
  have unblocked : e.blocksDowngrade pl.host = false := by
    rw [← Bool.not_eq_true, Entry.blocksDowngrade_iff]
    rintro ⟨r, hr, host, unmarked, need⟩
    simp [free r hr host need] at unmarked
  simp [Entry.downgrade, hv, hX, unblocked, use, EntryOut.serveIf]

/-- A recall for X is not answered by a downgrade, and without a recall there is nothing to answer (R47). -/
theorem Entry.answerByDowngrade_of_not_shared {e : Entry} (no : ∀ r, e.recalling = some r → r.wanted = .X) (h : HostId) :
    e.answerByDowngrade h = e := by
  cases hr : e.recalling with
  | none => simp only [Entry.answerByDowngrade, hr]
  | some r => simp [Entry.answerByDowngrade, hr, no r hr]

variable (wf : e.wf = true) {h : HostId} (x : e.holdsX h = true)

include wf x

/-- A recall for S on a page held in X targets the X holder alone, and its downgrade ends it (R43, R47). -/
theorem Entry.answerByDowngrade_of_shared {r : Recall} (hr : e.recalling = some r) (shared : r.wanted = .S) (v : Holding) :
    (e.setHolding h (some v)).answerByDowngrade h = { e.setHolding h (some v) with recalling := none } := by
  have hr' : (e.setHolding h (some v)).recalling = some r := hr
  have last : ∀ k, k ≠ h → r.targets[k] = false := by
    intro k hk
    by_contra target
    exact hk ((Entry.sound_of_wf wf).sole h k x (Entry.holds_of_target wf hr (by simpa using target)))
  simp only [Entry.answerByDowngrade, hr', shared, if_true]
  exact Entry.answerRecall_of_last hr' last

/-- After the downgrade of the X holder every holder has S. -/
theorem Entry.mode_ne_exclusive_of_downgrade {v : Holding} (hS : v.mode = .S) (k : HostId) :
    (e.setHolding h (some v)).mode k ≠ some .X := by
  rw [Entry.setHolding_mode]
  split
  · simp [hS]
  · rename_i hk
    exact fun xk => hk ((Entry.sound_of_wf wf).sole h k x (Entry.holds_of_holdsX ((e.holdsX_iff k).2 xk)))

theorem Entry.stateOfHoldings_downgrade {v : Holding} (hS : v.mode = .S) :
    (e.setHolding h (some v)).stateOfHoldings = .shared := by
  refine Entry.stateOfHoldings_of_shared ((Entry.exclusivelyHeld_eq_false_iff _).2 fun k => ?_)
    ((Entry.unheld_eq_false_iff _).2 ⟨h, Entry.holds_of_holding (e.setHolding_self h (some v))⟩)
  simpa [Entry.holdsX] using Entry.mode_ne_exclusive_of_downgrade wf x hS k

/-- A downgrade that ends no recall serves nobody. -/
theorem Entry.serve_downgrade_of_settled {v : Holding} (hS : v.mode = .S)
    (settled : e.waiters = [] ∨ ∃ r, e.recalling = some r ∧ r.wanted = .X) (env : Env) :
    (EntryOut.start { (e.setHolding h (some v)).answerByDowngrade h with state := .shared }).serve env =
      EntryOut.start { e.setHolding h (some v) with state := .shared } := by
  have use := Entry.inUse_of_holdsX wf x
  have sound := Entry.sound_of_wf wf
  have recalls := ((Entry.ready_of_wf wf (.inl (Entry.holds_of_holdsX x))).inUse use).2.downgrade sound x v
  have keeps : (e.setHolding h (some v)).answerByDowngrade h = e.setHolding h (some v) := by
    refine Entry.answerByDowngrade_of_not_shared (fun r hr => ?_) h
    rcases settled with hw | ⟨r', hr', wanted⟩
    · exact absurd ((Entry.recalling_of_no_waiter wf use hw).symm.trans hr) (by simp)
    · exact Option.some.inj (hr'.symm.trans hr) ▸ wanted
  rw [keeps] at recalls ⊢
  rw [EntryOut.serve_of_settled env (o := EntryOut.start { e.setHolding h (some v) with state := .shared })
    ((sound.downgrade x v hS).congr rfl rfl rfl) recalls]
  · exact congrArg (fun st => EntryOut.start { e.setHolding h (some v) with state := st })
      (Entry.stateOfHoldings_downgrade wf x hS)
  · exact settled.imp_right fun ⟨r, hr, _⟩ none => by
      have none : e.recalling = .none := none
      simp [none] at hr

end Downgrade

/-! ## A waiter leaves (R36, R38, R40, R50) -/

/-- With one waiter a host, the departure of a host's waiter leaves those ahead of it and behind it. -/
theorem filter_others {ahead behind : List Waiter} {w : Waiter}
    (nodup : ((ahead ++ w :: behind).map fun v => v.place.host).Nodup) :
    (ahead ++ w :: behind).filter (fun v => v.place.host ≠ w.place.host) = ahead ++ behind := by
  simp only [List.map_append, List.map_cons, List.nodup_append, List.nodup_cons, List.mem_map, List.mem_cons] at nodup
  obtain ⟨-, ⟨apart, -⟩, before⟩ := nodup
  rw [List.filter_append, List.filter_cons_of_neg (by simp), List.filter_eq_self.2, List.filter_eq_self.2]
  · exact fun v hv => decide_eq_true fun same => apart ⟨v, hv, same⟩
  · exact fun v hv => decide_eq_true fun same => before _ ⟨v, hv, rfl⟩ _ (.inl rfl) same

/-- A waiter is found by any test that only its host's waiter can pass. -/
theorem Entry.Sound.find_waiter {e : Entry} (s : e.Sound) {w : Waiter} (hw : w ∈ e.waiters) {test : Waiter → Bool}
    (passes : test w = true) (only : ∀ v, test v = true → v.place.host = w.place.host) :
    e.waiters.find? test = some w := by
  cases found : e.waiters.find? test with
  | none => exact absurd passes (by simpa using List.find?_eq_none.1 found w hw)
  | some v =>
    rw [List.inj_on_of_nodup_map s.nodup (List.mem_of_find?_eq_some found) hw (only v (List.find?_some found))]

/-- What the departure of a waiter leaves and hands over before its own completion. -/
def Entry.departure (e : Entry) (env : Env) (h : HostId) : EntryOut :=
  ((EntryOut.start e).removeWaiter env h).serveIf env e.inUse

theorem Entry.depart_eq (e : Entry) (env : Env) (w : Waiter) (st : Status) :
    e.depart env w st =
      { e.departure env w.place.host with
        posts := (e.departure env w.place.host).posts ++ [(w.place, Reply.ofPage st env.page)] } := rfl

theorem Entry.departure_aborts (e : Entry) (env : Env) (h : HostId) : (e.departure env h).aborts = [] :=
  ((EntryOut.keeps_removeWaiter env h _).trans (EntryOut.keeps_serveIf env _ _)).aborts

/-- The departure and the completions behind it, handed over (R16). -/
theorem State.applyEntry_departure (s : State) (p : PageId) (e : Entry) (env : Env) (h : HostId)
    (posts : List (Place × Reply)) :
    s.applyEntry p { e.departure env h with posts := (e.departure env h).posts ++ posts } =
      (((s.setPage p (e.departure env h).entry).notifyAll (e.departure env h).notices).postAll
        (e.departure env h).posts).postAll posts :=
  (State.applyEntry_of_no_aborts (o := { e.departure env h with posts := (e.departure env h).posts ++ posts })
    (e.departure_aborts env h)).trans (State.postAll_append ..)

theorem Entry.waitTimeout_of_due {e : Entry} (s : e.Sound) {w : Waiter} (hw : w ∈ e.waiters) (due : w.due = true)
    (env : Env) : e.waitTimeout env w.place.host = e.depart env w .timedOut := by
  have found := s.find_waiter hw (test := fun v => v.place.host = w.place.host && v.due) (by simp [due])
    fun v hv => by simpa using (Bool.and_eq_true_iff.1 hv).1
  simp only [Entry.waitTimeout, found]

theorem Entry.cancelRequest_of_waiter {e : Entry} (s : e.Sound) {w : Waiter} (hw : w ∈ e.waiters) (pl : Place)
    (env : Env) :
    e.cancelRequest env pl w.place =
      { e.departure env w.place.host with
        posts :=
          (e.departure env w.place.host).posts ++
            [(w.place, Reply.ofPage .cancelled env.page), (pl, Reply.bare .ok)] } := by
  have found := s.find_waiter hw (test := fun v => v.place = w.place) (by simp) fun v hv => by
    rw [of_decide_eq_true hv]
  simp only [Entry.cancelRequest, found, Entry.depart_eq, List.append_assoc]
  rfl

theorem Entry.cancelRequest_of_gone {e : Entry} {target : Place} (gone : ∀ w ∈ e.waiters, w.place ≠ target) (pl : Place)
    (env : Env) : e.cancelRequest env pl target = e.reply pl (Reply.bare .notFound) := by
  have none : e.waiters.find? (fun w => w.place = target) = .none :=
    List.find?_eq_none.2 fun w hw => by simpa using gone w hw
  simp only [Entry.cancelRequest, none]

section Departure

variable {e : Entry} {ahead behind : List Waiter} {w : Waiter} (wf : e.wf = true)
  (split : e.waiters = ahead ++ w :: behind)

include wf split

/-- The waiters but the one that leaves are those ahead of it and those behind it. -/
theorem Entry.filter_waiters : (e.waiters.filter fun v => v.place.host ≠ w.place.host) = ahead ++ behind := by
  have nodup := (Entry.sound_of_wf wf).nodup
  rw [Entry.waitingHosts, split] at nodup
  rw [split, filter_others nodup]

/-- Without a recall of its own to withdraw, a waiter that leaves hands nothing over. -/
theorem Entry.removeWaiter_of_no_recall (env : Env) (own : ahead ≠ [] ∨ e.recalling = none) :
    (EntryOut.start e).removeWaiter env w.place.host =
      EntryOut.start
        { e with waiters := ahead ++ behind, grant := e.grant.map fun g => g.without w.place.host } := by
  have filtered := Entry.filter_waiters wf split
  simp only [EntryOut.removeWaiter, EntryOut.start, filtered]
  split
  · rename_i head
    have none : e.recalling = none := own.resolve_left fun ne => by
      obtain ⟨v, vs, rfl⟩ := List.exists_cons_of_ne_nil ne
      have nodup := (Entry.sound_of_wf wf).nodup
      simp [Entry.waitingHosts, split] at nodup head
      simp [head] at nodup
    simp only [EntryOut.withdraw, none]
    rfl
  · rfl

/-- From behind the head a waiter leaves alone (R38). -/
theorem Entry.departure_behind (use : e.inUse = true) (ne : ahead ≠ []) (env : Env) :
    e.departure env w.place.host = EntryOut.start { e with waiters := ahead ++ behind } := by
  obtain ⟨-, state, noGrant, -, running⟩ := (Entry.wf_iff_of_inUse use).1 wf
  have mem : w ∈ e.waiters := by simp [split]
  have ready := Entry.Ready.removeWaiter (o := EntryOut.start e)
    (Entry.ready_of_wf wf (.inr (List.mem_map_of_mem mem))) env w.place.host
  rw [Entry.removeWaiter_of_no_recall wf split env (.inl ne), noGrant] at ready
  rw [Entry.departure, Entry.removeWaiter_of_no_recall wf split env (.inl ne), use, noGrant]
  refine (EntryOut.serve_of_settled env ready.sound (ready.inUse use).2
    (.inr (running (by simp [split])))).trans ?_
  show EntryOut.start { e with waiters := ahead ++ behind, grant := none, state := e.stateOfHoldings } = _
  rw [← state, ← noGrant]

/-- In TRANSFER a waiter leaves the list and the choice, and the list is not served (R38, R62). -/
theorem Entry.departure_of_transfer (st : e.state = .transfer) (env : Env) :
    e.departure env w.place.host =
      EntryOut.start
        { e with waiters := ahead ++ behind, grant := e.grant.map fun g => g.without w.place.host } := by
  have use : e.inUse = false := by simp [Entry.inUse, st]
  obtain ⟨-, -, hr, -⟩ := (Entry.wf_iff_of_transfer st).1 wf
  rw [Entry.departure, use, Entry.removeWaiter_of_no_recall wf split env (.inr hr)]
  rfl

end Departure

/-- A head takes its recall with it, WITHDRAWN to each remaining target, and the list behind it is served (R50, R51). -/
theorem Entry.departure_of_head {e : Entry} {behind : List Waiter} {w : Waiter} {r : Recall} (wf : e.wf = true)
    (split : e.waiters = w :: behind) (hr : e.recalling = some r) (env : Env) :
    e.departure env w.place.host =
      ({ entry := { e with waiters := behind, recalling := none }
         notices := (hostIds.filter fun k => r.targets[k]).map fun k => (k, .recallWithdrawn env.page w.place.host)
         posts := []
         aborts := [] } : EntryOut).serve env := by
  have use := Entry.inUse_of_recalling wf hr
  obtain ⟨-, -, noGrant, recalls, -⟩ := (Entry.wf_iff_of_inUse use).1 wf
  obtain ⟨w', ws, hw, -, requester, -⟩ := recalls r hr
  obtain ⟨rfl, rfl⟩ := List.cons.inj (split.symm.trans hw)
  have filtered := Entry.filter_waiters wf (ahead := []) split
  have head : (e.waiters.head?.map fun v => v.place.host) = some w.place.host := by simp [split]
  have removed : (EntryOut.start e).removeWaiter env w.place.host =
      { entry := { e with waiters := behind, recalling := none }
        notices := (hostIds.filter fun k => r.targets[k]).map fun k => (k, .recallWithdrawn env.page w.place.host)
        posts := []
        aborts := [] } := by
    simp only [EntryOut.removeWaiter, EntryOut.start, filtered, head, if_true, EntryOut.withdraw, hr, requester, noGrant]
    rfl
  rw [Entry.departure, removed, use]
  rfl

end Sys2Proof.Machine
end

section
/-! Accepted RELEASE and DOWNGRADE, and waiters that leave. -/

namespace Sys2Proof.Proofs

open Sys2Proof Sys2Proof.Machine

/-- Settles O31: the surrender of each case, and the two ways a downgrade meets a recall. -/
theorem releaseAndDowngradeAccepted : Obligations.ReleaseAndDowngradeAccepted := by
  intro s h p pl v ok hv
  have wf := ok p
  have holds := Entry.holds_of_holding hv
  refine ⟨fun d free => ?_, fun hX d free e he => ?_⟩ <;> obtain rfl := d.host
  · refine ⟨fun hw => ?_, fun st => ?_, fun r hr ⟨k, hk, target⟩ => ?_⟩ <;> rw [d.exec_release]
    · rw [Entry.release_of_surrender hv free (Entry.surrender_of_no_waiter wf holds hw _)]
      exact congrArg Host.Outcome.next (d.reply_changed _ _)
    · rw [Entry.release_of_surrender hv free (Entry.surrender_of_transfer wf st _)]
      exact congrArg Host.Outcome.next (d.reply_changed _ _)
    · rw [Entry.release_of_surrender hv free (Entry.surrender_of_remaining wf holds hr hk target _)]
      exact congrArg Host.Outcome.next (d.reply_changed _ _)
  · have x : (s.page p).holdsX pl.host = true := by rw [Entry.holdsX_iff, Entry.mode_of_holding hv, hX]
    have accepted := Entry.downgrade_of_held hv hX (Entry.inUse_of_holdsX wf x) free (s.env p)
    refine ⟨fun settled => ?_, fun ⟨r, hr, shared⟩ => ?_⟩ <;> rw [d.exec_downgrade, accepted]
    · rw [Entry.serve_downgrade_of_settled wf x rfl settled, he]
      exact congrArg Host.Outcome.next (d.reply_changed _ _)
    · have entry : { ((s.page p).setHolding pl.host (some { v with mode := .S })).answerByDowngrade pl.host with
          state := .shared } = { e with recalling := none } := by
        rw [Entry.answerByDowngrade_of_shared wf x hr shared, he]
        rfl
      obtain ⟨-, -, -, recalls, -⟩ := (Entry.wf_iff_of_inUse (Entry.inUse_of_recalling wf hr)).1 wf
      obtain ⟨w, ws, hw, wanted, -⟩ := recalls r hr
      have waiters : e.waiters = w :: ws := by rw [he]; exact hw
      have sound : ({ e with recalling := none } : Entry).Sound :=
        ((Entry.sound_of_wf wf).downgrade x { v with mode := .S } rfl).congr (by rw [he]; rfl) (by rw [he]; rfl)
          (by rw [he]; rfl)
      obtain ⟨t, ns, posts, served, serve⟩ := EntryOut.serve_servedAs (s.env p)
        (o := EntryOut.start { e with recalling := none }) sound rfl (by simp [EntryOut.start, waiters])
      refine ⟨t, ns, posts, served, fun w' hw' => ?_, ?_⟩
      · obtain rfl : w = w' := by simpa [waiters] using hw'
        have noX : ∀ k, e.mode k ≠ some .X := fun k => by
          rw [he]
          exact Entry.mode_ne_exclusive_of_downgrade wf x (v := { v with mode := .S }) rfl k
        have hS : w.mode = .S := wanted.symm.trans shared
        exact ⟨fun _ => noX, fun hX => by simp [hS] at hX, fun hX => by simp [hS] at hX⟩
      · rw [entry, serve]
        exact congrArg Host.Outcome.next ((State.applyEntry_mk _ p ..).trans (State.postAll_append ..))

/-- Settles O33: the departure by the waiter's place in the list and the page's state; both events hand over the same. -/
theorem waiterDeparts : Obligations.WaiterDeparts := by
  intro s h p ok
  have wf := ok p
  have sound := Entry.sound_of_wf wf
  refine ⟨fun pl target d gone => ?_, fun ahead behind w split => ?_⟩
  · rw [d.exec_cancelRequest, Entry.cancelRequest_of_gone gone, d.reply]
  have mem : w ∈ (s.page p).waiters := by simp [split]
  refine ⟨((s.page p).departure (s.env p) w.place.host).entry, ((s.page p).departure (s.env p) w.place.host).notices,
    ((s.page p).departure (s.env p) w.place.host).posts, fun use ne => ?_, fun r use atHead hr => ?_,
    fun g st hg => ?_, fun host due => ?_, fun pl d => ?_⟩
  · rw [Entry.departure_behind wf split use ne]
    exact ⟨rfl, rfl, rfl⟩
  · subst atHead
    obtain ⟨-, state, -, -, -⟩ := (Entry.wf_iff_of_inUse use).1 wf
    rw [Entry.departure_of_head wf split hr]
    by_cases last : behind = []
    · subst last
      rw [EntryOut.serve_of_nil _ rfl]
      refine ⟨[], (List.append_nil _).symm, fun _ => ⟨?_, rfl, rfl⟩, fun ne => absurd rfl ne⟩
      show { s.page p with state := (s.page p).stateOfHoldings, waiters := [], recalling := none } = _
      rw [← state]
    · have rest : ({ s.page p with waiters := behind, recalling := none } : Entry).Sound := by
        rw [← List.nil_append behind, ← Entry.filter_waiters wf split]
        exact (sound.filterWaiters _).congr rfl rfl rfl
      obtain ⟨t, fresh, posts, served, serve⟩ := EntryOut.serve_servedAs (s.env p)
        (o := { entry := { s.page p with waiters := behind, recalling := none }
                notices := (hostIds.filter fun k => r.targets[k]).map fun k => (k, .recallWithdrawn p w.place.host)
                posts := []
                aborts := [] }) rest rfl last
      exact ⟨fresh, congrArg EntryOut.notices serve, fun none => absurd none last, fun _ => serve ▸ served⟩
  · rw [Entry.departure_of_transfer wf split st, hg]
    refine ⟨rfl, rfl, ?_⟩
    simp [EntryOut.start, PendingGrant.without]
  · subst host
    show Host.Outcome.next (s.applyEntry p ((s.page p).waitTimeout (s.env p) w.place.host)) = _
    rw [Entry.waitTimeout_of_due sound mem due, Entry.depart_eq, State.applyEntry_departure]
    rfl
  · rw [d.exec_cancelRequest, Entry.cancelRequest_of_waiter sound mem, State.applyEntry_departure]
    rfl

end Sys2Proof.Proofs
end

