-- ==== Sys2Proof/Proofs/Fixtures.lean ====
section
/-!
SUPPORT. What no command of a port, a page entry or the page engine changes: the timebase, the manager settings, the
manager flags and, but for the end of a write, the array (`State.fixtures`). One equation per shared operation, and one
for every row that is not named for such a change (`fixtures_of_exec`).
-/

namespace Sys2Proof.Machine

open Sys2Proof

/-- The parts of the state that have commands of their own (R19, R105, R171, R172). -/
structure Fixtures where
  timebase : Word
  settings : Settings
  managers : HostId → Bool
  store : Store

/-- The fixtures of a state. -/
def State.fixtures (s : State) : Fixtures :=
  { timebase := s.timebase, settings := s.settings, managers := fun n => (s.port n).manager, store := s.store }

/-! ## Updates outside the fixtures -/

section Updates

variable (s : State)

@[simp] theorem State.fixtures_setPage (p : PageId) (e : Entry) : (s.setPage p e).fixtures = s.fixtures := rfl
@[simp] theorem State.fixtures_modifyPage (p : PageId) (f : Entry → Entry) : (s.modifyPage p f).fixtures = s.fixtures := rfl
@[simp] theorem State.fixtures_mapPages (f : Entry → Entry) : (s.mapPages f).fixtures = s.fixtures := rfl
@[simp] theorem State.fixtures_modifyEngine (f : Engine → Engine) : (s.modifyEngine f).fixtures = s.fixtures := rfl
@[simp] theorem State.fixtures_setQueue (q : List Job) : (s.setQueue q).fixtures = s.fixtures := rfl
@[simp] theorem State.fixtures_setJob (j : Job) : (s.setJob j).fixtures = s.fixtures := rfl
@[simp] theorem State.fixtures_sendJob (j : Job) : (s.sendJob j).fixtures = s.fixtures := rfl
@[simp] theorem State.fixtures_request (op : WordOp) : (s.request op).fixtures = s.fixtures := rfl
@[simp] theorem State.fixtures_choose : s.choose.fixtures = s.fixtures := rfl
@[simp] theorem State.fixtures_dropTransit (pl : Place) : (s.dropTransit pl).fixtures = s.fixtures := rfl
@[simp] theorem State.fixtures_redirect (pl : Place) (e : Errand) : (s.redirect pl e).fixtures = s.fixtures := rfl
@[simp] theorem State.fixtures_markJob (job : Place) : (s.markJob job).fixtures = s.fixtures := rfl
@[simp] theorem State.fixtures_set_arbiter (a : Arbiter) : ({ s with arbiter := a } : State).fixtures = s.fixtures := rfl
@[simp] theorem State.fixtures_set_taken (k : Nat) : ({ s with taken := k } : State).fixtures = s.fixtures := rfl
@[simp] theorem State.fixtures_set_transit (l : List Transit) : ({ s with transit := l } : State).fixtures = s.fixtures := rfl

/-- A port group that keeps its manager flag. -/
@[simp] theorem State.fixtures_modifyPort (n : HostId) {f : PortGroup → PortGroup}
    (manager : ∀ g, (f g).manager = g.manager) : (s.modifyPort n f).fixtures = s.fixtures := by
  have managers : (fun m => ((s.modifyPort n f).port m).manager) = fun m => (s.port m).manager := by
    funext m
    rw [State.port_modifyPort]
    split
    · rename_i h; rw [h, manager]
    · rfl
  show ({ timebase := _, settings := _, managers := _, store := _ } : Fixtures) = _
  rw [managers]
  rfl

end Updates

/-! ## The manager flag of a port group (R171) -/

section Manager

variable (g : PortGroup)

@[simp] theorem PortGroup.manager_complete (pl : Place) (r : Reply) : (g.complete pl r).manager = g.manager := by
  rw [PortGroup.complete_frame]
@[simp] theorem PortGroup.manager_settleFence : g.settleFence.manager = g.manager := by
  simp only [PortGroup.settleFence]
  split
  · split <;> rfl
  · rfl
@[simp] theorem PortGroup.manager_notify (x : Notice) : (g.notify x).manager = g.manager := by
  rw [PortGroup.notify_frame]
@[simp] theorem PortGroup.manager_recordFault (k : FaultKind) (slot : Option SlotId) (p : Option PageId) (d : Dir) :
    (g.recordFault k slot p d).manager = g.manager := by
  rw [PortGroup.recordFault_frame]
@[simp] theorem PortGroup.manager_startDetaching : g.startDetaching.manager = g.manager := rfl
@[simp] theorem PortGroup.manager_endAccess (r : InFlight) (a : Answer) : (g.endAccess r a).manager = g.manager := by
  simp only [PortGroup.endAccess]
  split <;> rfl
@[simp] theorem PortGroup.manager_windowAccess (slot : SlotId) (w : WordIdx) (d : Dir) (en : BitVec 4) (data : Word) :
    (g.windowAccess slot w d en data).manager = g.manager := by
  simp only [PortGroup.windowAccess]
  split
  · rfl
  · exact g.manager_recordFault ..

end Manager

/-! ## The shared operations -/

section Operations

variable (s : State)

@[simp] theorem State.fixtures_post (pl : Place) (r : Reply) : (s.post pl r).fixtures = s.fixtures := by
  simp only [State.post]
  split <;> simp
@[simp] theorem State.fixtures_postAll (l : List (Place × Reply)) : (s.postAll l).fixtures = s.fixtures := by
  induction l generalizing s with
  | nil => rfl
  | cons x l ih => exact (ih _).trans (s.fixtures_post x.1 x.2)
@[simp] theorem State.fixtures_notifyAll (l : List (HostId × Notice)) : (s.notifyAll l).fixtures = s.fixtures := by
  induction l generalizing s with
  | nil => rfl
  | cons x l ih => exact (ih _).trans (s.fixtures_modifyPort x.1 (by simp))
@[simp] theorem State.fixtures_markAll (l : List Place) : (s.markAll l).fixtures = s.fixtures := by
  induction l generalizing s with
  | nil => rfl
  | cons j l ih => exact (ih _).trans (s.fixtures_markJob j)
@[simp] theorem State.fixtures_applyEntry (p : PageId) (o : EntryOut) : (s.applyEntry p o).fixtures = s.fixtures := by
  simp [State.applyEntry]
@[simp] theorem State.fixtures_answer (n : HostId) (a : Answer) : (s.answer n a).fixtures = s.fixtures := by
  simp [State.answer]
@[simp] theorem State.fixtures_attachedWrite (n : HostId) {f : PortGroup → PortGroup}
    (manager : ∀ g, (f g).manager = g.manager) : (s.attachedWrite n f).fixtures = s.fixtures := by
  simp only [State.attachedWrite]
  split_ifs <;> simp [manager]
/-- An owner takes a command, and its meaning keeps the fixtures. -/
@[simp] theorem State.fixtures_taking (pl : Place) {f : State → State}
    (keeps : ∀ u : State, (f u).fixtures = u.fixtures) : (s.taking pl f).fixtures = s.fixtures := by
  simp only [State.taking]
  split
  · exact keeps _
  · rfl
@[simp] theorem State.fixtures_entryTakes (h : HostId) (p : PageId) (f : Transit → Option (State → EntryOut)) :
    (s.entryTakes h p f).fixtures = s.fixtures := by
  simp only [State.entryTakes]
  split
  · rfl
  · split
    · rfl
    · exact s.fixtures_taking _ fun u => u.fixtures_applyEntry ..

end Operations

/-! ## The command unit, the sessions and the access path -/

section Ports

variable (s : State) (n : HostId)

@[simp] theorem State.fixtures_submit : (s.submit n).fixtures = s.fixtures := by
  simp only [State.submit]
  split_ifs <;> simp
@[simp] theorem State.fixtures_dispatch (pl : Place) (c : Except Status Command) :
    (s.dispatch pl c).fixtures = s.fixtures := by
  simp only [State.dispatch]
  split
  · simp
  · rfl
  · split
    · simp
    · rfl
  · simp
@[simp] theorem State.fixtures_takeHead (wanted : Descriptor → Bool) : (s.takeHead n wanted).fixtures = s.fixtures := by
  simp only [State.takeHead]
  split
  · split
    · rfl
    · split <;> simp [State.takeDescriptor]
  · rfl
@[simp] theorem State.fixtures_abandon : (s.abandon n).fixtures = s.fixtures := by
  simp only [State.abandon]
  split
  · rfl
  · split <;> simp
@[simp] theorem State.fixtures_prstAssert : (s.prstAssert n).fixtures = s.fixtures := by
  simp only [State.prstAssert]
  split_ifs
  · rfl
  · exact (State.fixtures_modifyPort _ n PortGroup.manager_startDetaching).trans (by simp)
  · simp
@[simp] theorem State.fixtures_attach : (s.attach n).fixtures = s.fixtures := by
  simp only [State.attach]
  split_ifs <;> simp
@[simp] theorem State.fixtures_teardownAtEntry (p : PageId) : (s.teardownAtEntry n p).fixtures = s.fixtures := by
  simp only [State.teardownAtEntry]
  split_ifs <;> simp
@[simp] theorem State.fixtures_passCheck (a : WindowAccess) : (s.passCheck n a).fixtures = s.fixtures := by
  simp [State.passCheck]
@[simp] theorem State.fixtures_failCheck (a : WindowAccess) (k : FaultKind) : (s.failCheck n a k).fixtures = s.fixtures := by
  simp [State.failCheck]
@[simp] theorem State.fixtures_accessEnd (r : InFlight) : (s.accessEnd n r).fixtures = s.fixtures := by
  simp [State.accessEnd]
@[simp] theorem State.fixtures_accessParity (r : InFlight) : (s.accessParity n r).fixtures = s.fixtures := by
  simp only [State.accessParity]
  refine (State.fixtures_modifyPort _ n fun g => ?_).trans (s.fixtures_applyEntry _ _)
  split <;> simp
@[simp] theorem State.fixtures_portOperationEnd (failed : Bool) : (s.portOperationEnd n failed).fixtures = s.fixtures := by
  simp only [State.portOperationEnd]
  split
  · rfl
  · split <;> simp

end Ports

/-! ## The page engine -/

section Jobs

variable (s : State) (j : Job)

@[simp] theorem State.fixtures_completeJob (st : Status) : (s.completeJob j st).fixtures = s.fixtures := s.fixtures_post ..
@[simp] theorem State.fixtures_removeRefs : (s.removeRefs j).fixtures = s.fixtures := by
  rcases s.removeRefs_cases j with ⟨source, -, h⟩ | ⟨-, h⟩ | ⟨-, -, h⟩ <;> rw [h] <;> rfl
@[simp] theorem State.fixtures_runRefs : (s.runRefs j).fixtures = s.fixtures := by
  rw [State.runRefs_frame]
  rfl
@[simp] theorem State.fixtures_startFrom (l : List Job) : (s.startFrom l).fixtures = s.fixtures := by
  induction l generalizing s with
  | nil => rfl
  | cons j l ih =>
    simp only [State.startFrom]
    split <;> simp [ih]
@[simp] theorem State.fixtures_startNext : s.startNext.fixtures = s.fixtures := by
  simp only [State.startNext]
  split <;> simp
@[simp] theorem State.fixtures_dropQueued : (s.dropQueued j).fixtures = s.fixtures := s.fixtures_removeRefs j
@[simp] theorem State.fixtures_endJob (st : Status) : (s.endJob j st).fixtures = s.fixtures := by
  simp [State.endJob, State.dequeue]
@[simp] theorem State.fixtures_advanceJob : (s.advanceJob j).fixtures = s.fixtures := rfl
@[simp] theorem State.fixtures_engineWriteEnd : (s.engineWriteEnd j).fixtures = s.fixtures := by
  simp only [State.engineWriteEnd]
  split_ifs <;> simp
@[simp] theorem State.fixtures_engineReadEnd (data : Word) : (s.engineReadEnd j data).fixtures = s.fixtures := by
  simp only [State.engineReadEnd]
  split
  · simp
  · split
    · simp
    · split <;> simp
    all_goals rfl
@[simp] theorem State.fixtures_engineParity (p : PageId) : (s.engineParity j p).fixtures = s.fixtures := by
  simp [State.engineParity]
@[simp] theorem State.fixtures_engineOperationEnd (op : WordOp) (failed : Bool) :
    (s.engineOperationEnd op failed).fixtures = s.fixtures := by
  simp only [State.engineOperationEnd]
  split
  · rfl
  · split
    · simp
    · split <;> simp
@[simp] theorem State.fixtures_stopRunning : (s.stopRunning j).fixtures = s.fixtures := by
  simp only [State.stopRunning]
  split <;> simp [State.withdrawAndStop]
@[simp] theorem State.fixtures_lastCheck (p : PageId) (need : Mode) : (s.lastCheck p need j).fixtures = s.fixtures := by
  simp only [State.lastCheck]
  split <;> simp
@[simp] theorem State.fixtures_queueJob : (s.queueJob j).fixtures = s.fixtures := by
  simp only [State.queueJob]
  split_ifs <;> simp
@[simp] theorem State.fixtures_takeAbort (job : Place) : (s.takeAbort job).fixtures = s.fixtures := by
  simp only [State.takeAbort]
  split
  · rfl
  · split <;> simp
@[simp] theorem State.fixtures_restore (p : PageId) (pl : Place) : (s.restore p pl).fixtures = s.fixtures := by
  simp only [State.restore]
  split <;> simp
@[simp] theorem State.fixtures_admitScrub : (s.admitScrub j).fixtures = s.fixtures := by
  simp only [State.admitScrub]
  split <;> simp
@[simp] theorem State.fixtures_dropQueuedOf (n : HostId) : (s.dropQueuedOf n).fixtures = s.fixtures := by
  simp only [State.dropQueuedOf]
  generalize (s.engine.queue.filter fun j => j.place.host = n && !j.running && !j.isScrub) = l
  induction l generalizing s with
  | nil => rfl
  | cons j l ih => exact (ih _).trans (s.fixtures_dropQueued j)
@[simp] theorem State.fixtures_stopRunningOf (n : HostId) : (s.stopRunningOf n).fixtures = s.fixtures := by
  simp only [State.stopRunningOf]
  split
  · rfl
  · split <;> simp
@[simp] theorem State.fixtures_teardownAtEngine (n : HostId) : (s.teardownAtEngine n).fixtures = s.fixtures := by
  simp only [State.teardownAtEngine]
  split <;> simp

end Jobs

/-! ## The rows that change a fixture -/

/-- The end of a word operation changes the array alone of the fixtures (R108 to R110). -/
theorem State.fixtures_operationEnd (s : State) (op : WordOp) :
    (s.operationEnd op).fixtures = { s.fixtures with store := s.store.perform op } := by
  simp only [State.operationEnd]
  split
  · exact State.fixtures_portOperationEnd ..
  · exact State.fixtures_engineOperationEnd ..

theorem State.fixtures_wordOperationEnd {s t : State} (h : exec .wordOperationEnd s = .next t) :
    ∃ store, t.fixtures = { s.fixtures with store := store } := by
  obtain rfl := Host.Outcome.next.inj h
  split
  · exact ⟨s.store, rfl⟩
  · exact ⟨_, s.fixtures_operationEnd _⟩

/-- The tick changes the timebase alone of the fixtures (R19). -/
theorem State.fixtures_tick (s : State) : ∃ now, s.tick.fixtures = { s.fixtures with timebase := now } := by
  simp only [State.tick]
  split
  · exact ⟨s.timebase, rfl⟩
  · exact ⟨s.timebase + 1, rfl⟩

theorem State.fixtures_sweepEnd (s : State) : ∃ store, s.sweepEnd.fixtures = { s.fixtures with store := store } := by
  simp only [State.sweepEnd]
  split
  · exact ⟨Store.zero, rfl⟩
  · exact ⟨s.store, rfl⟩

/-- The assertion of RESET keeps the settings and the manager flags (notes/assumptions/19.md). -/
theorem State.fixtures_resetAssert (s : State) :
    ∃ now store, s.resetAssert.fixtures = { s.fixtures with timebase := now, store := store } := by
  simp only [State.resetAssert]
  split
  · exact ⟨s.timebase, s.store, rfl⟩
  · refine ⟨0, s.storeAtReset, ?_⟩
    simp only [State.fixtures, State.port_def, mapVec_getElem]
    rfl

/-- SET_QUOTA and SET_RECALL_LIMIT change the settings alone of the fixtures (R177, R178). -/
theorem State.fixtures_setQuota (s : State) (pl : Place) (h : HostId) (limit : Nat) :
    ∃ set, (s.setQuota pl h limit).fixtures = { s.fixtures with settings := set } := by
  simp only [State.setQuota]
  split
  · exact ⟨s.settings, State.fixtures_post ..⟩
  · exact ⟨_, State.fixtures_post ..⟩

/-- A row of the manager settings by which they take a command, if one has arrived (R81, R163). -/
theorem State.fixtures_taking_sets {s : State} (pl : Place) {f : State → State}
    (sets : ∀ u : State, ∃ set, (f u).fixtures = { u.fixtures with settings := set }) :
    ∃ set, (s.taking pl f).fixtures = { s.fixtures with settings := set } := by
  simp only [State.taking]
  split
  · exact sets _
  · exact ⟨s.settings, rfl⟩

theorem State.fixtures_execSetQuota {s t : State} {h : HostId} (e : exec (.setQuota h) s = .next t) :
    ∃ set, t.fixtures = { s.fixtures with settings := set } := by
  obtain rfl := Host.Outcome.next.inj e
  split
  · exact State.fixtures_taking_sets _ fun u => u.fixtures_setQuota ..
  · exact ⟨s.settings, rfl⟩

theorem State.fixtures_execSetRecallLimit {s t : State} {h : HostId} (e : exec (.setRecallLimit h) s = .next t) :
    ∃ set, t.fixtures = { s.fixtures with settings := set } := by
  obtain rfl := Host.Outcome.next.inj e
  split
  · exact State.fixtures_taking_sets _ fun u => ⟨_, State.fixtures_post ..⟩
  · exact ⟨s.settings, rfl⟩

/-! ## Every other row -/

/-- The rows that are named for a change of a fixture. -/
def movesFixture : Instr → Bool
  | .deviceResetAssert | .deviceResetNegate _ | .initializationSweepEnd | .setQuota _ | .setRecallLimit _
  | .wordOperationEnd | .timebaseAdvance | .arrayUpset _ _ _ _ _ => true
  | _ => false

/-- Every other command of the table keeps the fixtures. -/
theorem fixtures_of_exec {c : Instr} {s t : State} (h : exec c s = .next t) (other : movesFixture c = false) :
    t.fixtures = s.fixtures := by
  have row : ∀ {u : State}, exec c s = .next u → u.fixtures = s.fixtures → t.fixtures = s.fixtures := fun e keeps =>
    Host.Outcome.next.inj (e.symm.trans h) ▸ keeps
  cases c with
  | prstAssert n => exact row rfl (s.fixtures_prstAssert n)
  | prstNegate n => exact row rfl (s.fixtures_modifyPort n fun _ => rfl)
  | attach n => exact row rfl (s.fixtures_attach n)
  | detach n => exact row rfl (s.fixtures_attachedWrite n fun _ => rfl)
  | teardownAtEngine n => exact row rfl (s.fixtures_teardownAtEngine n)
  | teardownAtEntry n p => exact row rfl (s.fixtures_teardownAtEntry n p)
  | portDetached n =>
    refine row rfl ?_
    split
    · exact s.fixtures_modifyPort n fun _ => rfl
    · rfl
  | stagingWrite n k en data => exact row rfl (s.fixtures_attachedWrite n fun _ => rfl)
  | submit n => exact row rfl (s.fixtures_submit n)
  | takeCommand n => exact row rfl (s.fixtures_takeHead n _)
  | completionPop n => exact row rfl (s.fixtures_attachedWrite n fun _ => rfl)
  | acquire k p => exact row rfl (s.fixtures_entryTakes k p _)
  | release k p => exact row rfl (s.fixtures_entryTakes k p _)
  | downgrade k p => exact row rfl (s.fixtures_entryTakes k p _)
  | cancel n => exact row rfl (s.fixtures_takeHead n _)
  | cancelRequest k p => exact row rfl (s.fixtures_entryTakes k p _)
  | fence n => exact row rfl (s.fixtures_takeHead n _)
  | flush k =>
    refine row rfl ?_
    split
    · exact s.fixtures_taking _ fun u => by simp
    · rfl
  | copy k p =>
    refine row rfl ?_
    split
    · split_ifs <;> simp
    · rfl
  | copyDestinationCheck k p =>
    refine row rfl ?_
    split
    · split_ifs <;> simp
    · rfl
  | fill k p =>
    refine row rfl ?_
    split
    · exact s.fixtures_taking _ fun u => u.fixtures_lastCheck ..
    · rfl
  | checksum k p =>
    refine row rfl ?_
    split
    · exact s.fixtures_taking _ fun u => u.fixtures_lastCheck ..
    · rfl
  | jobQueueing k =>
    refine row rfl ?_
    split <;> simp
  | query k p => exact row rfl (s.fixtures_entryTakes k p _)
  | retire k p => exact row rfl (s.fixtures_entryTakes k p _)
  | restore k p =>
    refine row rfl ?_
    split
    · exact s.fixtures_taking _ fun u => u.fixtures_restore ..
    · rfl
  | scrubAdmission p =>
    refine row rfl ?_
    split <;> simp
  | scrubRefusal p =>
    refine row rfl ?_
    split <;> simp
  | waitTimeout h p => exact row rfl (s.fixtures_applyEntry ..)
  | recallDeadline p => exact row rfl (s.fixtures_applyEntry ..)
  | drainEnd p => exact row rfl (s.fixtures_applyEntry ..)
  | windowAccess n a d en data =>
    simp only [exec, execWindowAccess] at h
    split at h <;> cases h
    split_ifs <;> simp
  | accessCheck n =>
    refine row rfl ?_
    split
    · rfl
    · split <;> simp
  | outOfRangeAccess n a d =>
    simp only [exec, execOutOfRangeAccess] at h
    split at h <;> cases h <;> split <;> simp
  | jobStart => exact row rfl s.fixtures_startNext
  | engineAbortEvent which =>
    refine row rfl ?_
    split <;> simp
  | noticePop n => exact row rfl (s.fixtures_attachedWrite n fun _ => rfl)
  | noticeLostClear n => exact row rfl (s.fixtures_attachedWrite n fun _ => rfl)
  | faultPop n => exact row rfl (s.fixtures_attachedWrite n fun _ => rfl)
  | overflowClear n => exact row rfl (s.fixtures_attachedWrite n fun _ => rfl)
  | eventEnablesWrite n en data => exact row rfl (s.fixtures_attachedWrite n fun _ => rfl)
  | windowMapEntryWrite n slot en data => exact row rfl (s.fixtures_attachedWrite n fun _ => rfl)
  | registerWrite n a en data =>
    simp only [exec, execRegisterWrite] at h
    split at h
    · split at h <;> cases h
      split <;> simp
    all_goals cases h
  | _ => cases other

end Sys2Proof.Machine
end

section
/-! The timebase, the manager settings and the manager flags. -/

namespace Sys2Proof.Proofs

open Sys2Proof Sys2Proof.Machine

/-- Settles O3: a row not named for a change of a fixture keeps them all, and each of the others changes its own. -/
theorem timebaseSettingsAndManagerFlagsKept : Obligations.TimebaseSettingsAndManagerFlagsKept := by
  intro c s t h
  have timebase : ∀ {f : Fixtures}, t.fixtures = f → t.timebase = f.timebase := congrArg Fixtures.timebase
  have settings : ∀ {f : Fixtures}, t.fixtures = f → t.settings = f.settings := congrArg Fixtures.settings
  have managers : ∀ {f : Fixtures}, t.fixtures = f → ∀ n, (t.port n).manager = f.managers n := fun e =>
    congrFun (congrArg Fixtures.managers e)
  cases other : movesFixture c with
  | false =>
    have same := fixtures_of_exec h other
    exact ⟨fun _ _ _ => timebase same, fun _ _ _ => settings same, fun _ => managers same⟩
  | true =>
    cases c with
    | deviceResetAssert =>
      obtain ⟨now, store, same⟩ := s.fixtures_resetAssert
      obtain rfl := Host.Outcome.next.inj h
      exact ⟨fun _ no => absurd rfl no, fun _ _ _ => settings same, fun _ => managers same⟩
    | deviceResetNegate straps =>
      exact ⟨fun _ _ no => absurd rfl (no straps), fun _ _ no => absurd rfl (no straps), fun no => absurd rfl (no straps)⟩
    | initializationSweepEnd =>
      obtain ⟨store, same⟩ := s.fixtures_sweepEnd
      obtain rfl := Host.Outcome.next.inj h
      exact ⟨fun _ _ _ => timebase same, fun _ _ _ => settings same, fun _ => managers same⟩
    | setQuota k =>
      obtain ⟨set, same⟩ := State.fixtures_execSetQuota h
      exact ⟨fun _ _ _ => timebase same, fun no => absurd rfl (no k), fun _ => managers same⟩
    | setRecallLimit k =>
      obtain ⟨set, same⟩ := State.fixtures_execSetRecallLimit h
      exact ⟨fun _ _ _ => timebase same, fun _ no => absurd rfl (no k), fun _ => managers same⟩
    | wordOperationEnd =>
      obtain ⟨store, same⟩ := State.fixtures_wordOperationEnd h
      exact ⟨fun _ _ _ => timebase same, fun _ _ _ => settings same, fun _ => managers same⟩
    | timebaseAdvance =>
      obtain ⟨now, same⟩ := s.fixtures_tick
      obtain rfl := Host.Outcome.next.inj h
      exact ⟨fun no => absurd rfl no, fun _ _ _ => settings same, fun _ => managers same⟩
    | arrayUpset p w b flips parityFlips =>
      obtain rfl := Host.Outcome.next.inj h
      exact ⟨fun _ _ _ => rfl, fun _ _ _ => rfl, fun _ _ => rfl⟩
    | _ => cases other

end Sys2Proof.Proofs
end

