-- ==== Sys2Proof/Proofs/ParityReports.lean ====
section
/-!
SUPPORT. A read word operation that ends: the word it reads, the parity report at the page entry (R58, R60, R113), and the
end of a job that is alone in the engine queue (R130).
-/

namespace Sys2Proof.Machine

open Sys2Proof

/-! ## The word that an operation reads (R105, R109) -/

/-- The bytes of a word put together are its bytes. -/
theorem byte_ofBytes (b0 b1 b2 b3 : Byte) (b : ByteIdx) : (Word.ofBytes b0 b1 b2 b3).byte b = #v[b0, b1, b2, b3][b] := by
  have above : ∀ {v len : Nat} (x : BitVec v) (y : Byte) (k : Nat),
      (x ++ y).extractLsb' (8 + k) len = x.extractLsb' k len := fun x y k => by
    rw [BitVec.extractLsb'_append_eq_of_le (by omega), Nat.add_sub_cancel_left]
  have byte1 : (b3 ++ b2 ++ b1 ++ b0).extractLsb' (8 + 0) 8 = b1 := by
    rw [above, BitVec.extractLsb'_append_eq_right]
  have byte2 : (b3 ++ b2 ++ b1 ++ b0).extractLsb' (8 + (8 + 0)) 8 = b2 := by
    rw [above, above, BitVec.extractLsb'_append_eq_right]
  have byte3 : (b3 ++ b2 ++ b1 ++ b0).extractLsb' (8 + (8 + (8 + 0))) 8 = b3 := by
    rw [above, above, above, BitVec.extractLsb'_eq_self]
  match b with
  | 0 => exact BitVec.extractLsb'_append_eq_right
  | 1 => exact byte1
  | 2 => exact byte2
  | 3 => exact byte3

theorem Store.byte_readWord (m : Store) (p : PageId) (w : WordIdx) (b : ByteIdx) :
    (m.readWord p w).byte b = m.readByte (byteAddress p w b) := by
  rw [Store.readWord, byte_ofBytes]
  match b with
  | 0 | 1 | 2 | 3 => rfl

/-- A word is mismatched exactly if one of its bytes is. -/
theorem Store.wordMismatched_iff (m : Store) (p : PageId) (w : WordIdx) :
    m.wordMismatched p w = true ↔ ∃ b : ByteIdx, m.mismatched (byteAddress p w b) = true := by
  simp [Store.wordMismatched, Fin.exists_fin_succ, or_assoc]

theorem Store.wordMismatched_eq_false_iff (m : Store) (p : PageId) (w : WordIdx) :
    m.wordMismatched p w = false ↔ ∀ b : ByteIdx, m.mismatched (byteAddress p w b) = false := by
  simp [← Bool.not_eq_true, Store.wordMismatched_iff]

/-! ## The parity report at the entry (R58, R60) -/

/-- A page out of use is left as it is (R60). -/
theorem Entry.parityReport_of_gone {e : Entry} (gone : e.state = .retired ∨ e.state = .scrub) (env : Env) :
    e.parityReport env = EntryOut.start e := if_pos gone

/-- A page in use is retired: its holders are revoked, its waiters leave, its jobs are marked (R58). -/
theorem Entry.parityReport_of_present {e : Entry} (retired : e.state ≠ .retired) (scrub : e.state ≠ .scrub) (env : Env) :
    e.parityReport env =
      { entry :=
          { e with state := .retired, holdings := Vector.replicate 4 none, waiters := [], recalling := none, grant := none }
        notices := (hostIds.filter fun k => e.holds k).map fun k =>
          (k, .holdingRevoked env.page ((e.holding k).elim 0 Holding.gen) .parity)
        posts := e.waiters.map fun w => (w.place, Reply.ofPage .retired env.page)
        aborts := (e.refs.filter fun r => !r.marked).map JobRef.place } := by
  simp only [Entry.parityReport, retired, scrub, or_self, if_false]
  congr 1
  generalize hostIds = hs
  induction hs with
  | nil => rfl
  | cons h hs ih => cases held : e.holding h <;> simp [ih, held, Entry.holds_eq]

/-- A report on a page that is out of use changes its entry alone, by the pair or reference that has left (R60, R113). -/
theorem State.applyEntry_parityReport_of_gone (s : State) (p : PageId) {e : Entry}
    (gone : e.state = .retired ∨ e.state = .scrub) (env : Env) : s.applyEntry p (e.parityReport env) = s.setPage p e := by
  rw [Entry.parityReport_of_gone gone]
  rfl

/-! ## What an entry hands over, and a job's references, without the arbiter -/

section Arbiter

variable (a : Arbiter)

theorem State.post_set_arbiter (s : State) (pl : Place) (r : Reply) :
    ({ s with arbiter := a } : State).post pl r = { s.post pl r with arbiter := a } := by
  simp only [State.post_eq]
  split <;> simp_all [State.port, State.setPort]

theorem State.postAll_set_arbiter (s : State) (l : List (Place × Reply)) :
    ({ s with arbiter := a } : State).postAll l = { s.postAll l with arbiter := a } := by
  induction l generalizing s with
  | nil => rfl
  | cons x l ih => rw [State.postAll_cons, State.post_set_arbiter, ih]; rfl

theorem State.notifyAll_set_arbiter (s : State) (l : List (HostId × Notice)) :
    ({ s with arbiter := a } : State).notifyAll l = { s.notifyAll l with arbiter := a } := by
  induction l generalizing s with
  | nil => rfl
  | cons x l ih => exact ih (s.modifyPort x.1 fun g => g.notify x.2)

theorem State.markAll_set_arbiter (s : State) (l : List Place) :
    ({ s with arbiter := a } : State).markAll l = { s.markAll l with arbiter := a } := by
  induction l generalizing s with
  | nil => rfl
  | cons job l ih => exact ih (s.markJob job)

/-- An entry's event is the same whatever the arbiter does. -/
theorem State.applyEntry_set_arbiter (s : State) (p : PageId) (o : EntryOut) :
    ({ s with arbiter := a } : State).applyEntry p o = { s.applyEntry p o with arbiter := a } := by
  simp only [State.applyEntry]
  rw [← State.postAll_set_arbiter, ← State.notifyAll_set_arbiter, ← State.markAll_set_arbiter]
  rfl

theorem State.removeRefs_set_arbiter (s : State) (j : Job) :
    ({ s with arbiter := a } : State).removeRefs j = { s.removeRefs j with arbiter := a } := by
  cases work : j.work with
  | copy source => rw [State.removeRefs_copy _ work, State.removeRefs_copy _ work]; rfl
  | scrub => rw [State.removeRefs_scrub _ work, State.removeRefs_scrub _ work]; rfl
  | fill pattern | checksum register =>
    rw [State.removeRefs_of_one_page _ (by simp [work]) (by simp [work]),
      State.removeRefs_of_one_page _ (by simp [work]) (by simp [work])]
    rfl

end Arbiter

/-! ## The end of the only job in the queue (R126, R130) -/

/-- Marks keep the places of the jobs in the queue, in their order. -/
theorem State.markAll_queue_places (s : State) (l : List Place) :
    (s.markAll l).engine.queue.map Job.place = s.engine.queue.map Job.place := by
  induction l generalizing s with
  | nil => rfl
  | cons job l ih =>
    rw [State.markAll_cons, ih]
    show (s.engine.queue.map _).map Job.place = _
    rw [List.map_map]
    refine List.map_congr_left fun j _ => ?_
    simp only [Function.comp_apply]
    split <;> rfl

theorem State.applyEntry_queue_places (s : State) (p : PageId) (o : EntryOut) :
    (s.applyEntry p o).engine.queue.map Job.place = s.engine.queue.map Job.place := by
  simp only [State.applyEntry]
  rw [State.postAll_frame, State.notifyAll_frame]
  exact State.markAll_queue_places (s.setPage p o.entry) o.aborts

/-- A posting reads the port groups alone. -/
theorem State.post_ports_congr {s t : State} (same : t.ports = s.ports) (pl : Place) (r : Reply) :
    (t.post pl r).ports = (s.post pl r).ports := by
  simp only [State.post_eq, State.port_congr same]
  split <;> simp [State.setPort, same]

/-- The end of the only job: its references and its place in the queue go, its completion is posted, no other starts. -/
theorem State.endJob_of_only {s : State} {j : Job} (only : s.engine.queue.map Job.place = [j.place]) (st : Status) :
    s.endJob j st =
      { s with
        pages := (s.removeRefs j).pages
        ports := (s.post j.place (j.reply st)).ports
        engine := { s.engine with queue := [] } } := by
  obtain ⟨k, queue, place⟩ := List.map_eq_singleton_iff.1 only
  have refs : s.removeRefs j = { s with pages := (s.removeRefs j).pages } := by
    rcases s.removeRefs_cases j with ⟨source, -, h⟩ | ⟨-, h⟩ | ⟨-, -, h⟩ <;> rw [h] <;> rfl
  have left : (s.removeRefs j).dequeue j =
      { s with pages := (s.removeRefs j).pages, engine := { s.engine with queue := [] } } := by
    rw [refs]
    simp [State.dequeue, State.setQueue, State.modifyEngine, queue, place]
  have posted := State.post_ports_congr (s := s) (t := (s.removeRefs j).dequeue j) (by rw [left]) j.place (j.reply st)
  simp only [State.endJob, State.completeJob]
  rw [State.post_frame, posted, left]
  rfl

theorem Job.pages_of_copy {j : Job} {source : PageId} (copy : j.work = .copy source) : j.pages = [source, j.target] := by
  simp only [Job.pages, copy]

theorem Job.pages_of_not_copy {j : Job} (noCopy : ∀ source, j.work ≠ .copy source) : j.pages = [j.target] := by
  cases work : j.work with
  | copy source => exact absurd work (noCopy source)
  | fill pattern | checksum register | scrub => simp only [Job.pages, work]

/-- The pages that a job other than a scrub names lose their references of it (R11). -/
theorem State.page_removeRefs (s : State) {j : Job} (work : j.work ≠ .scrub) (p : PageId) :
    (s.removeRefs j).page p =
      if p ∈ j.pages then { s.page p with refs := (s.page p).refs.filter fun r => r.place ≠ j.place } else s.page p := by
  rcases s.removeRefs_cases j with ⟨source, copy, h⟩ | ⟨scrub, -⟩ | ⟨noCopy, -, h⟩
  · have pages := Job.pages_of_copy copy
    have fresh : s.removeRefs j = s.removeRefs (Job.fresh j.place (.copy source) j.target) :=
      h.trans (s.removeRefs_copy (j := Job.fresh j.place (.copy source) j.target) rfl).symm
    simpa only [fresh, pages, List.mem_cons, List.not_mem_nil, or_false] using
      s.page_removeRefs_copy j.place source j.target p
  · exact absurd scrub work
  · rw [h, Job.pages_of_not_copy noCopy, State.page_modifyPage]
    by_cases target : p = j.target
    · simp [target, Entry.removeRef]
    · simp [target]

/-! ## Reads of the page engine (R124) -/

/-- Whatever its work, a job asks for its next word in the engine's name. -/
theorem Job.request_engine_nextWord (j : Job) : j.request.requester = .engine ∧ j.request.word = j.nextWord := by
  cases work : j.work with
  | copy source => cases held : j.held <;> simp [Job.request, work, held, engineRead, engineWrite]
  | fill pattern | checksum register | scrub => simp [Job.request, work, engineRead, engineWrite]

/-- A scrub only writes. -/
theorem Job.work_ne_scrub_of_read {j : Job} (read : j.request.dir = .read) : j.work ≠ .scrub := by
  intro scrub
  simp [Job.request, scrub, engineWrite] at read

theorem Job.reply_parity (j : Job) : j.reply .parity = Reply.ofPage .parity j.target := rfl

/-! ## The end of a read word operation (R110) -/

theorem State.exec_wordOperationEnd {s : State} {op : WordOp} (performing : s.arbiter.performing = some op) :
    exec .wordOperationEnd s = .next (s.operationEnd op).choose := by
  simp only [exec, execWordOperationEnd, performing]

section Read

variable {s : State} {op : WordOp} (read : op.dir = .read)

include read

theorem Store.perform_of_read (m : Store) : m.perform op = m := by simp only [Store.perform, read]

theorem Store.failed_of_read (m : Store) : m.failed op = m.wordMismatched op.page op.word := by
  simp only [Store.failed, read]

theorem State.operationEnd_of_port_read {n : HostId} (requester : op.requester = .port n) :
    s.operationEnd op =
      ({ s with arbiter := { s.arbiter with performing := none } } : State).portOperationEnd n
        (s.store.wordMismatched op.page op.word) := by
  simp only [State.operationEnd, requester, Store.perform_of_read read, Store.failed_of_read read]

theorem State.operationEnd_of_engine_read (requester : op.requester = .engine) :
    s.operationEnd op =
      ({ s with arbiter := { s.arbiter with performing := none } } : State).engineOperationEnd op
        (s.store.wordMismatched op.page op.word) := by
  simp only [State.operationEnd, requester, Store.perform_of_read read, Store.failed_of_read read]

end Read

/-- The end of a host read: the access ends with the word, or with a parity failure (R100, R101). -/
theorem State.exec_hostReadEnd {s : State} {n : HostId} {r : InFlight}
    (performing : s.arbiter.performing = some (r.request n)) (inFlight : (s.port n).inFlight = some r)
    (read : r.dir = .read) {t : State} (idle : t = { s with arbiter := { s.arbiter with performing := none } }) :
    exec .wordOperationEnd s =
      .next (if s.store.wordMismatched r.page r.word then t.accessParity n r else t.accessEnd n r).choose := by
  have still : (t.port n).inFlight = some r := idle ▸ inFlight
  rw [State.exec_wordOperationEnd performing, State.operationEnd_of_port_read (n := n) (by exact read) rfl, ← idle]
  simp only [State.portOperationEnd, still]
  rfl

/-- The only job's read meets a mismatch: the report at the entry without its reference, then its end (R113, R130). -/
theorem State.engineParity_of_only {s u : State} {j : Job} {p : PageId} {a : Arbiter}
    (only : s.engine.queue.map Job.place = [j.place])
    (report : u = s.applyEntry p (((s.page p).removeRef j.place).parityReport (s.env p))) :
    ({ s with arbiter := a } : State).engineParity j p =
      { u with
        pages := (u.removeRefs j).pages
        ports := (u.post j.place (Reply.ofPage .parity j.target)).ports
        engine := { u.engine with queue := [] }
        arbiter := a } := by
  have reported : ({ s with arbiter := a } : State).applyEntry p (((s.page p).removeRef j.place).parityReport (s.env p)) =
      { u with arbiter := a } := by rw [State.applyEntry_set_arbiter, report]
  have queue : ({ u with arbiter := a } : State).engine.queue.map Job.place = [j.place] := by
    rw [← only, report]
    exact s.applyEntry_queue_places p _
  show (({ s with arbiter := a } : State).applyEntry p _).endJob j .parity = _
  rw [← Job.reply_parity, ← State.post_ports_congr (s := u) (t := { u with arbiter := a }) rfl]
  exact (congrArg (fun t => State.endJob t j .parity) reported).trans
    ((State.endJob_of_only queue .parity).trans (by rw [State.removeRefs_set_arbiter]))

/-- The access that has met a mismatch ends with the error response, its fault recorded unless it was abandoned, and the
arbiter chooses (R101, R102, R111). -/
theorem State.choose_endAccess_of_parity {u : State} (n : HostId) (r : InFlight) {a : Arbiter} (arbiter : u.arbiter = a) :
    (u.modifyPort n fun g =>
        (if r.abandoned then g else g.recordFault .parity (some r.slot) (some r.page) .read).endAccess r
          .errorResponse).choose =
      { u.setPort n
          { (if r.abandoned then u.port n else (u.port n).recordFault .parity (some r.slot) (some r.page) .read) with
            inFlight := none
            answer := if r.abandoned then (u.port n).answer else some .errorResponse } with
        arbiter := a.choose } := by
  subst arbiter
  simp only [PortGroup.endAccess]
  cases r.abandoned <;> rfl

/-- The end of a read of the running job that meets a mismatch (R130). -/
theorem State.exec_engineReadEnd_of_mismatch {s : State} {j : Job} (performing : s.arbiter.performing = some j.request)
    (running : s.engine.running = some j) (read : j.request.dir = .read)
    (mismatch : s.store.wordMismatched j.request.page j.nextWord = true) :
    exec .wordOperationEnd s =
      .next
        (({ s with arbiter := { s.arbiter with performing := none } } : State).engineParity j j.request.page).choose := by
  obtain ⟨requester, word⟩ := j.request_engine_nextWord
  rw [State.exec_wordOperationEnd performing, State.operationEnd_of_engine_read read requester, word, mismatch]
  simp only [State.engineOperationEnd, running, if_true]

end Sys2Proof.Machine
end

section
/-! The ends of reads, by a host and by the page engine. -/

namespace Sys2Proof.Proofs

open Sys2Proof Sys2Proof.Machine

/-- Settles O47: the access ends with the word, or the report is taken at the entry without the pair and the fault
recorded. -/
theorem hostReadEnds : Obligations.HostReadEnds := by
  intro s n r performing inFlight read e a he ha
  have row := State.exec_hostReadEnd performing inFlight read (t := { s with arbiter := a }) (by rw [ha])
  refine ⟨fun sound => ⟨s.store.readWord r.page r.word, s.store.byte_readWord r.page r.word, ?_⟩, fun mismatch => ?_⟩
  · rw [row, (s.store.wordMismatched_eq_false_iff _ _).2 sound, he]
    simp only [Bool.false_eq_true, if_false, State.accessEnd, PortGroup.endAccess, InFlight.answer, read]
    cases r.abandoned <;> rfl
  · refine ⟨_, ({ s with arbiter := a } : State).applyEntry r.page (e.parityReport (s.env r.page)), row, ?_,
      fun gone => State.applyEntry_parityReport_of_gone _ _ gone _, fun retired scrub => ?_⟩
    · rw [(s.store.wordMismatched_iff _ _).2 mismatch, if_pos rfl, he]
      exact State.choose_endAccess_of_parity n r (by rw [State.applyEntry_set_arbiter])
    · rw [Entry.parityReport_of_present retired scrub]
      rfl

/-- Settles O52: the report is taken at the entry without the job's reference; then the only job ends. -/
theorem engineReadMeetsAMismatch : Obligations.EngineReadMeetsAMismatch := by
  intro s j q e _ queue runs performing read page mismatch he
  subst page
  have running : s.engine.running = some j := by simp [Engine.running, queue, runs]
  have row := State.exec_engineReadEnd_of_mismatch performing running read mismatch
  refine ⟨_, s.applyEntry j.request.page (e.parityReport (s.env j.request.page)), row,
    fun gone => State.applyEntry_parityReport_of_gone _ _ gone _, fun retired scrub => ?_, ?_⟩
  · rw [Entry.parityReport_of_present retired scrub]
    rfl
  · have ends := State.engineParity_of_only (s := s) (j := j) (a := { s.arbiter with performing := none })
      (u := s.applyEntry j.request.page (e.parityReport (s.env j.request.page))) (p := j.request.page)
      (by rw [queue]; rfl) (by rw [he]; rfl)
    rw [ends]
    refine ⟨rfl, rfl, rfl, ?_, fun p => ?_⟩
    · rw [State.applyEntry_frame]
      rfl
    · exact State.page_removeRefs _ (Job.work_ne_scrub_of_read read) p

end Sys2Proof.Proofs
end

