-- ==== Sys2Proof/Proofs/EntryTeardown.lean ====
section
/-!
SUPPORT. The teardown of a host at a page entry (R57, R62, R165): what the entry keeps of the host, and that nothing which
the entry hands over reaches a port without a session.
-/

namespace Sys2Proof.Machine

open Sys2Proof

/-! ## The host at the entry -/

/-- A host counts for nothing on a page exactly if it neither holds it nor waits for it (R15). -/
theorem Entry.count_eq_zero_iff (e : Entry) (h : HostId) :
    e.count h = 0 ↔ e.holds h = false ∧ e.hasWaiter h = false := by
  rw [Entry.count_eq, Nat.add_eq_zero_iff, List.count_eq_zero, ← Entry.hasWaiter_iff]
  cases e.holds h <;> simp

/-- A teardown leaves neither a holding nor a waiter of its host: both go before the list is served (R57, R165). -/
theorem Entry.teardown_count (e : Entry) (env : Env) (h : HostId) : (e.teardown env h).entry.count h = 0 := by
  simp only [Entry.teardown]
  split
  · refine Nat.le_zero.1 (((EntryOut.shrinks_serveIf env e.inUse _).count h).trans (Nat.le_zero.2 ?_))
    rw [Entry.count_eq_zero_iff, Entry.holds_congr (Entry.answerRecall_holdings _ h), Entry.dropHolding_holds,
      ← Bool.not_eq_true, ← Bool.not_eq_true, Entry.hasWaiter_iff]
    simp [Entry.waitingHosts, EntryOut.removeWaiter_entry, EntryOut.start]
  · rename_i absent
    simpa [Entry.count_eq_zero_iff, EntryOut.start] using absent

/-- On a well-formed page the targets of a recall hold it, so a host without a holding has no summary bit (R43, R152). -/
theorem Entry.summaryBit_of_not_holds {e : Entry} (wf : e.wf = true) {h : HostId} (none : e.holds h = false) :
    e.summaryBit h = false := by
  simp only [Entry.summaryBit]
  split
  · rename_i r hr
    rw [← Bool.not_eq_true]
    intro target
    simp [Entry.holds_of_target wf hr target] at none
  · rfl

/-- A teardown changes nothing on a page without a holding or a waiter of the host. -/
theorem Entry.teardown_of_absent {e : Entry} {h : HostId} (holding : e.holds h = false) (waiter : e.hasWaiter h = false)
    (env : Env) : e.teardown env h = EntryOut.start e := by
  simp [Entry.teardown, holding, waiter]

/-! ## A port without a session (R149, R163) -/

theorem PortGroup.notify_of_not_attached {g : PortGroup} (h : g.phase ≠ .attached) (x : Notice) : g.notify x = g :=
  if_pos h

section NoSession

variable {s : State} {n : HostId} (away : (s.port n).phase ≠ .attached)

include away

theorem State.port_notifyAll_of_not_attached (l : List (HostId × Notice)) : (s.notifyAll l).port n = s.port n := by
  induction l generalizing s with
  | nil => rfl
  | cons x l ih =>
    obtain ⟨m, x⟩ := x
    have first : (s.modifyPort m fun g => g.notify x).port n = s.port n := by
      rw [State.port_modifyPort]
      split
      · rename_i same
        rw [← same, PortGroup.notify_of_not_attached away]
      · rfl
    rw [State.notifyAll_cons, ih (by rwa [first]), first]

theorem State.port_postAll_of_not_attached (l : List (Place × Reply)) : (s.postAll l).port n = s.port n := by
  induction l generalizing s with
  | nil => rfl
  | cons x l ih =>
    obtain ⟨pl, r⟩ := x
    have first : (s.post pl r).port n = s.port n := by
      rw [State.port_post, if_neg]
      rintro ⟨rfl, place⟩
      simp [PortGroup.hasPlace_of_not_attached pl away] at place
    rw [State.postAll_cons, ih (by rwa [first]), first]

/-- Nothing that an entry hands over reaches the port. -/
theorem State.port_applyEntry_of_not_attached (p : PageId) (o : EntryOut) : (s.applyEntry p o).port n = s.port n := by
  have marked : ((s.setPage p o.entry).markAll o.aborts).port n = s.port n := State.port_markAll _ _ n
  have notified := State.port_notifyAll_of_not_attached (n := n) (marked.symm ▸ away) o.notices
  rw [State.applyEntry, State.port_postAll_of_not_attached (by rwa [notified, marked]), notified, marked]

end NoSession

/-! ## An event without abort marks -/

/-- Without abort marks an event changes one entry of the page table. -/
theorem State.applyEntry_pages_of_no_aborts (s : State) (p : PageId) {o : EntryOut} (h : o.aborts = []) :
    (s.applyEntry p o).pages = (s.setPage p o.entry).pages := by
  rw [State.page_applyEntry_pages, h, State.markAll_nil]

theorem State.teardownAtEntry_of_waiting {s : State} {n : HostId} {p : PageId} (phase : (s.port n).phase = .detaching)
    (engine : (s.port n).teardownEngine = true) (waits : p ∈ (s.port n).teardownEntries) :
    s.teardownAtEntry n p =
      (s.applyEntry p ((s.page p).teardown (s.env p) n)).setPort n
        { s.port n with teardownEntries := (s.port n).teardownEntries.filter fun q => q ≠ p } := by
  rw [State.teardownAtEntry, if_pos ⟨phase, engine, waits⟩, State.modifyPort_eq,
    State.port_applyEntry_of_not_attached (by simp [phase])]

end Sys2Proof.Machine
end

section
/-! The teardown of a host at a page entry. -/

namespace Sys2Proof.Proofs

open Sys2Proof Sys2Proof.Machine

/-- Settles O12: the host is off the page before the list is served, no serving brings it back, and what the entry hands
over does not reach its DETACHING port. -/
theorem entryTakesTheTeardown : Obligations.EntryTakesTheTeardown := by
  intro s n p ok phase engine waits
  have torn := State.teardownAtEntry_of_waiting phase engine waits
  have noAborts : ((s.page p).teardown (s.env p) n).aborts = [] := ((s.page p).keeps_teardown (s.env p) n).aborts
  have pages : (s.teardownAtEntry n p).pages = (s.setPage p ((s.page p).teardown (s.env p) n).entry).pages := by
    rw [torn]
    exact s.applyEntry_pages_of_no_aborts p noAborts
  have own : (s.teardownAtEntry n p).page p = ((s.page p).teardown (s.env p) n).entry :=
    (State.page_congr pages p).trans (s.page_setPage_self p _)
  obtain ⟨noHolding, noWaiter⟩ := (Entry.count_eq_zero_iff _ n).1 ((s.page p).teardown_count (s.env p) n)
  refine ⟨s.teardownAtEntry n p, rfl, own ▸ noHolding, own ▸ noWaiter, ?_, ?_, fun q other => ?_, ?_,
    fun holding waiter => ?_⟩
  · rw [State.summaryBit, own]
    exact Entry.summaryBit_of_not_holds (Entry.wf_teardown (ok p) (s.env p) n) noHolding
  · rw [torn, State.port_setPort_self]
  · exact (State.page_congr pages q).trans (s.page_setPage_of_ne _ other)
  · rw [torn, State.applyEntry_of_no_aborts noAborts, State.postAll_frame, State.notifyAll_frame]
    rfl
  · rw [pages, Entry.teardown_of_absent holding waiter]
    exact congrArg State.pages (s.setPage_page_self p)

end Sys2Proof.Proofs
end

