-- ==== Sys2Proof/Proofs/PortGroups.lean ====
section
/-!
SUPPORT. The bounds of a port group and its emptiness outside a session (R69, R71, R91, R136, R139, R147, R162): the
invariant of one group with its parts by name (`PortGroup.Sound`), and each change that a command makes of a group.
-/

namespace Sys2Proof.Machine

open Sys2Proof

/-- A port group of host `n` within its bounds, empty outside a session, whose uncompleted commands are of its host and
its last session and have places of their own among those taken. -/
structure PortGroup.Sound (g : PortGroup) (n : HostId) (taken : Nat) : Prop where
  ring : g.ring.length ≤ Config.ringSize
  credit : g.creditSum ≤ Config.creditLimit
  notices : g.notices.length ≤ Config.noticeQueueSize
  faults : g.faults.length ≤ Config.faultFileSize
  counts : ∀ r ∈ g.faults, 1 ≤ r.count ∧ r.count ≤ Config.repeatLimit
  cache : g.cache.length ≤ Config.cacheSize
  slots : (g.cache.map Prod.fst).Nodup
  quiet : g.quiet = true
  places : ∀ t ∈ g.uncompleted, t.place.host = n ∧ t.place.session = g.sessionCount ∧ t.place.seq < taken
  distinct : (g.uncompleted.map Taken.place).Nodup

theorem PortGroup.sound_iff (g : PortGroup) (n : HostId) (taken : Nat) :
    g.Sound n taken ↔ g.wf = true ∧ g.placesOk n taken = true := by
  simp only [PortGroup.wf, PortGroup.bounded, PortGroup.placesOk, Bool.and_eq_true, decide_eq_true_eq, List.all_eq_true]
  constructor
  · intro h
    exact ⟨⟨⟨⟨⟨⟨⟨⟨h.ring, h.credit⟩, h.notices⟩, h.faults⟩, h.counts⟩, h.cache⟩, h.slots⟩, h.quiet⟩,
      fun t ht => ⟨⟨(h.places t ht).1, (h.places t ht).2.1⟩, (h.places t ht).2.2⟩, h.distinct⟩
  · rintro ⟨⟨⟨⟨⟨⟨⟨⟨ring, credit⟩, notices⟩, faults⟩, counts⟩, cache⟩, slots⟩, quiet⟩, places, distinct⟩
    exact ⟨ring, credit, notices, faults, counts, cache, slots, quiet,
      fun t ht => ⟨(places t ht).1.1, (places t ht).1.2, (places t ht).2⟩, distinct⟩

/-- In a session nothing has to be empty (R162). -/
theorem PortGroup.quiet_of_attached {g : PortGroup} (h : g.phase = .attached) : g.quiet = true := by
  simp [PortGroup.quiet, h]

theorem PortGroup.sound_afterReset (g : PortGroup) (manager : Bool) (n : HostId) (taken : Nat) :
    (g.afterReset manager).Sound n taken :=
  (PortGroup.sound_iff _ n taken).2 ⟨PortGroup.reset_wf, PortGroup.reset_placesOk n taken⟩

/-- Settling a FENCE changes nothing, or leaves no command uncompleted (R76). -/
theorem PortGroup.settleFence_cases (g : PortGroup) :
    g.settleFence = g ∨ ∃ cq, g.settleFence = { g with uncompleted := [], cq := cq } := by
  simp only [PortGroup.settleFence]
  split
  · split
    · exact .inr ⟨_, rfl⟩
    · exact .inl rfl
  · exact .inl rfl

/-! ## The lists of a translation cache (R91 to R95) -/

/-- Every slot has one entry after a touch, however many it had. -/
theorem slots_cacheTouch {cache : List (SlotId × PageId)} (slots : (cache.map Prod.fst).Nodup) (slot : SlotId)
    (page : PageId) : ((cacheTouch cache slot page).map Prod.fst).Nodup := by
  refine List.nodup_cons.2 ⟨?_, slots.sublist (List.filter_sublist.map _)⟩
  simp

theorem length_cacheTouch_of_hit {cache : List (SlotId × PageId)} {slot : SlotId} {p : PageId}
    (hit : cacheLookup cache slot = some p) (page : PageId) : (cacheTouch cache slot page).length ≤ cache.length := by
  obtain ⟨c, found, -⟩ := Option.map_eq_some_iff.1 hit
  have mine : c.1 = slot := by simpa using List.find?_some found
  exact List.length_filter_lt_length_iff_exists.2 ⟨c, List.mem_of_find?_eq_some found, by simp [mine]⟩

theorem flushCache_sublist (cache : List (SlotId × PageId)) (first count : Nat) :
    (flushCache cache first count).Sublist cache := by
  simp only [flushCache]
  split
  · exact List.filter_sublist
  · exact List.nil_sublist _

namespace PortGroup.Sound

variable {g : PortGroup} {n : HostId} {taken : Nat}

/-! ## Completions (R71, R76, R78) -/

theorem mono (h : g.Sound n taken) {later : Nat} (le : taken ≤ later) : g.Sound n later :=
  { h with places := fun t ht => (h.places t ht).imp_right (And.imp_right fun lt => lt.trans_le le) }

/-- A FENCE that completes leaves no uncompleted command and gives its place to its record. -/
theorem settleFence (h : g.Sound n taken) (attached : g.phase = .attached) : g.settleFence.Sound n taken := by
  have credit := g.creditSum_settleFence.trans_le h.credit
  rcases g.settleFence_cases with same | ⟨cq, settled⟩
  · exact same.symm ▸ h
  · rw [settled] at credit ⊢
    exact { h with credit, quiet := quiet_of_attached attached, places := by simp, distinct := by simp }

/-- A completion takes the place that its command gives up. -/
theorem complete (h : g.Sound n taken) {pl : Place} (place : g.hasPlace pl = true) (r : Reply) :
    (g.complete pl r).Sound n taken := by
  simp only [PortGroup.hasPlace, Bool.and_eq_true, decide_eq_true_eq, List.any_eq_true] at place
  obtain ⟨session, t, ht, rfl⟩ := place
  have attached : g.phase = .attached := by
    by_contra away
    simp [PortGroup.session, away] at session
  have fewer : (g.uncompleted.filter fun u => u.place ≠ t.place).length < g.uncompleted.length :=
    List.length_filter_lt_length_iff_exists.2 ⟨t, ht, by simp⟩
  have credit := h.credit
  refine settleFence ?_ attached
  exact { h with
    credit := by
      simp only [PortGroup.creditSum, List.length_append, List.length_singleton] at credit ⊢
      omega
    quiet := quiet_of_attached attached
    places := fun u hu => h.places u (List.mem_filter.1 hu).1
    distinct := h.distinct.sublist (List.filter_sublist.map _) }

/-- A command that is taken has the next number of those taken (R71, R72). -/
theorem afterTake (h : g.Sound n taken) (running : g.ringState = .running) {d : Descriptor} {rest : List Descriptor}
    (ring : g.ring = d :: rest) {pl : Place} (host : pl.host = n) (session : pl.session = g.sessionCount)
    (number : pl.seq = taken) (page : Option PageId) : (g.afterTake rest pl page).Sound n (taken + 1) := by
  have room : g.creditSum < Config.creditLimit := by
    by_contra full
    simp only [PortGroup.ringState, Nat.not_lt.1 full, if_true] at running
    split_ifs at running
  have older := h.mono (Nat.le_add_right taken 1)
  have fresh : ∀ t ∈ g.uncompleted, t.place ≠ pl := fun t ht same => by
    have lt := (h.places t ht).2.2
    rw [same, number] at lt
    exact lt.false
  exact { older with
    ring := by
      have bound := h.ring
      rw [ring] at bound
      exact Nat.le_of_succ_le bound
    credit := by
      simp only [PortGroup.creditSum, PortGroup.afterTake, List.length_append, List.length_singleton] at room ⊢
      omega
    quiet := quiet_of_attached (PortGroup.attached_of_running running).1
    places := fun t ht => by
      rcases List.mem_append.1 ht with ht | ht
      · exact older.places t ht
      · obtain rfl := List.mem_singleton.1 ht
        exact ⟨host, session, number ▸ Nat.lt_succ_self _⟩
    distinct := by
      simp only [PortGroup.afterTake, List.map_append, List.map_singleton, List.nodup_append, List.nodup_singleton,
        List.mem_map, List.mem_singleton]
      refine ⟨h.distinct, trivial, ?_⟩
      rintro _ ⟨t, ht, rfl⟩ _ rfl
      exact fresh t ht }

/-! ## Records that the host removes (R80, R142, R150) -/

theorem completionPop (h : g.Sound n taken) (attached : g.phase = .attached) :
    ({ g with cq := g.cq.tail } : PortGroup).Sound n taken :=
  { h with
    credit := by
      have credit := h.credit
      simp only [PortGroup.creditSum, List.length_tail] at credit ⊢
      omega
    quiet := quiet_of_attached attached }

theorem noticePop (h : g.Sound n taken) (attached : g.phase = .attached) :
    ({ g with notices := g.notices.tail } : PortGroup).Sound n taken :=
  { h with notices := g.notices.tail_sublist.length_le.trans h.notices, quiet := quiet_of_attached attached }

theorem faultPop (h : g.Sound n taken) (attached : g.phase = .attached) :
    ({ g with faults := g.faults.tail } : PortGroup).Sound n taken :=
  { h with
    faults := g.faults.tail_sublist.length_le.trans h.faults
    counts := fun r hr => h.counts r (List.mem_of_mem_tail hr)
    quiet := quiet_of_attached attached }

/-! ## Notices and faults (R138, R139, R147 to R149) -/

theorem notify (h : g.Sound n taken) (x : Notice) : (g.notify x).Sound n taken := by
  simp only [PortGroup.notify]
  split_ifs with away room
  · exact h
  · exact { h with
      notices := by simpa using room
      quiet := quiet_of_attached (not_not.1 away) }
  · exact { h with quiet := quiet_of_attached (not_not.1 away) }

theorem recordFault (h : g.Sound n taken) (kind : FaultKind) (slot : Option SlotId) (page : Option PageId) (dir : Dir) :
    (g.recordFault kind slot page dir).Sound n taken := by
  simp only [PortGroup.recordFault]
  split_ifs with away overflow folds room
  · exact h
  · exact h
  · cases newest : g.faults.getLast? with
    | none => simp [newest] at folds
    | some r =>
      have mem := List.mem_of_getLast? newest
      exact { h with
        faults := by
          have := List.length_pos_of_mem mem
          have := h.faults
          simp only [Option.map_some, Option.toList_some, List.length_append, List.length_dropLast,
            List.length_singleton]
          omega
        counts := fun x hx => by
          rcases List.mem_append.1 hx with hx | hx
          · exact h.counts x (List.mem_of_mem_dropLast hx)
          · obtain rfl := List.mem_singleton.1 hx
            have := h.counts r mem
            simp only [FaultRecord.fold]
            split_ifs <;> omega
        quiet := quiet_of_attached (not_not.1 away) }
  · exact { h with
      faults := by simpa using room
      counts := fun x hx => by
        rcases List.mem_append.1 hx with hx | hx
        · exact h.counts x hx
        · obtain rfl := List.mem_singleton.1 hx
          exact ⟨le_rfl, (by decide : 1 ≤ Config.repeatLimit)⟩
      quiet := quiet_of_attached (not_not.1 away) }
  · exact { h with quiet := quiet_of_attached (not_not.1 away) }

/-! ## Translation (R92, R93) -/

/-- Fewer entries in the cache; an empty one stays empty. -/
theorem shrinkCache (h : g.Sound n taken) {cache : List (SlotId × PageId)} (fewer : cache.Sublist g.cache) :
    ({ g with cache := cache } : PortGroup).Sound n taken :=
  { h with
    cache := fewer.length_le.trans h.cache
    slots := h.slots.sublist (fewer.map _)
    quiet := by
      have quiet := h.quiet
      have empty : g.cache = [] → cache = [] := fun e => List.sublist_nil.1 (e ▸ fewer)
      simp only [PortGroup.quiet, Bool.or_eq_true, Bool.and_eq_true, List.isEmpty_iff] at quiet ⊢
      exact quiet.imp_right fun ⟨⟨⟨rest, bare⟩, access⟩, inFlight⟩ => ⟨⟨⟨rest, empty bare⟩, access⟩, inFlight⟩ }

/-- A translation touches an entry of the cache or fills one, within its size (R92, R93). -/
theorem translate (h : g.Sound n taken) {slot : SlotId} {p : PageId} {cache : List (SlotId × PageId)}
    (translated : g.translate slot = some (p, cache)) :
    cache.length ≤ Config.cacheSize ∧ (cache.map Prod.fst).Nodup := by
  simp only [PortGroup.translate] at translated
  split at translated
  · rename_i hit
    obtain ⟨rfl, rfl⟩ := Prod.mk.inj (Option.some.inj translated)
    exact ⟨(length_cacheTouch_of_hit hit _).trans h.cache, slots_cacheTouch h.slots _ _⟩
  · split at translated
    · obtain ⟨rfl, rfl⟩ := Prod.mk.inj (Option.some.inj translated)
      exact ⟨List.length_take_le _ _, (slots_cacheTouch h.slots _ _).sublist ((List.take_sublist _ _).map _)⟩
    · cases translated

theorem windowAccess (h : g.Sound n taken) (attached : g.phase = .attached) (slot : SlotId) (w : WordIdx) (d : Dir)
    (en : BitVec 4) (data : Word) : (g.windowAccess slot w d en data).Sound n taken := by
  simp only [PortGroup.windowAccess]
  split
  · rename_i translated
    obtain ⟨cache, slots⟩ := h.translate translated
    exact { h with cache, slots, quiet := quiet_of_attached attached }
  · exact { h.recordFault .unmapped (some slot) none d with }

/-! ## Sessions (R159, R162) -/

/-- DETACHING starts with every block of the group empty; an access in flight has been abandoned (R102, R162). -/
theorem startDetaching (abandoned : ∀ r ∈ g.inFlight, r.abandoned = true) : g.startDetaching.Sound n taken where
  ring := Nat.zero_le _
  credit := Nat.zero_le _
  notices := Nat.zero_le _
  faults := Nat.zero_le _
  counts := by simp [PortGroup.startDetaching]
  cache := Nat.zero_le _
  slots := List.nodup_nil
  quiet := by
    cases inFlight : g.inFlight with
    | none => simp [PortGroup.quiet, PortGroup.startDetaching, inFlight]
    | some r => simp [PortGroup.quiet, PortGroup.startDetaching, inFlight, abandoned r inFlight]
  places := by simp [PortGroup.startDetaching]
  distinct := List.nodup_nil

/-- A new session starts with no command uncompleted (R158, R163). -/
theorem attach (h : g.Sound n taken) (detached : g.phase = .detached) :
    ({ g with phase := .attached, sessionCount := g.sessionCount + 1, enables := Events.none } : PortGroup).Sound n
      taken := by
  have none : g.uncompleted = [] := by
    have quiet := h.quiet
    simp only [PortGroup.quiet, detached, Bool.or_eq_true, Bool.and_eq_true, List.isEmpty_iff] at quiet
    simp_all
  exact { h with quiet := quiet_of_attached rfl, places := by simp [none] }

/-- A port that has no session has none afterwards either (R167). -/
theorem portDetached (h : g.Sound n taken) (away : g.phase ≠ .attached) :
    ({ g with phase := .detached } : PortGroup).Sound n taken :=
  { h with
    quiet := by
      have quiet := h.quiet
      simp only [PortGroup.quiet, away, decide_false, Bool.false_or] at quiet
      simp only [PortGroup.quiet, quiet, Bool.or_true] }

/-- An access in flight ends (R100, R102). -/
theorem endAccess (h : g.Sound n taken) (r : InFlight) (a : Answer) : (g.endAccess r a).Sound n taken := by
  have ended : ({ g with inFlight := none } : PortGroup).Sound n taken :=
    { h with
      quiet := by
        have quiet := h.quiet
        simp only [PortGroup.quiet, Bool.or_eq_true, Bool.and_eq_true] at quiet ⊢
        exact quiet.imp_right fun rest => ⟨rest.1, rfl⟩ }
  simp only [PortGroup.endAccess]
  split
  · exact ended
  · exact { ended with }

end PortGroup.Sound

end Sys2Proof.Machine
end

