-- ==== Sys2Proof/Proofs/PortSteps.lean ====
section
/-!
SUPPORT. Every row of the table keeps every port group within its bounds: what each shared operation makes of the four
groups, and the rows one by one (`State.portsOk.exec`).
-/

namespace Sys2Proof.Machine

open Sys2Proof

theorem State.portsOk_iff (s : State) : s.portsOk ↔ ∀ n, (s.port n).Sound n s.taken :=
  forall_congr' fun n => ((s.port n).sound_iff n s.taken).symm

/-- Port groups depend on nothing but the groups and the count of commands taken. -/
theorem State.portsOk.congr {s t : State} (ok : s.portsOk) (ports : t.ports = s.ports) (taken : t.taken = s.taken) :
    t.portsOk := by
  intro n
  rw [State.port_congr ports n, taken]
  exact ok n

/-- A port that can start an access has no access in flight but an abandoned one (R102). -/
theorem PortGroup.abandoned_of_idle {g : PortGroup} (idle : g.busy = false) : ∀ r ∈ g.inFlight, r.abandoned = true := by
  intro r inFlight
  have inFlight : g.inFlight = some r := inFlight
  simp only [PortGroup.busy, inFlight, Bool.or_eq_false_iff] at idle
  simpa using idle.2

/-- PRSTn leaves no access in flight but an abandoned one (R102). -/
theorem State.abandoned_of_abandon (s : State) (n : HostId) :
    ∀ r ∈ ((s.abandon n).port n).inFlight, r.abandoned = true := by
  intro r
  simp only [State.abandon]
  split
  · rename_i none
    simp [none]
  · split
    · rw [State.port_modifyPort_self]
      rintro ⟨⟩
      rfl
    · rw [State.port_modifyPort_self]
      rintro ⟨⟩

namespace State.portsOk

variable {s : State} (ok : s.portsOk)

include ok

theorem sound (n : HostId) : (s.port n).Sound n s.taken := (s.portsOk_iff).1 ok n

/-! ## One port group -/

theorem modifyPort (n : HostId) {f : PortGroup → PortGroup}
    (keeps : (s.port n).Sound n s.taken → (f (s.port n)).Sound n s.taken) : (s.modifyPort n f).portsOk := by
  obtain ⟨wf, places⟩ := ((f (s.port n)).sound_iff n s.taken).1 (keeps (ok.sound n))
  exact State.portsOk_setPort ok n wf places

theorem answer (n : HostId) (a : Answer) : (s.answer n a).portsOk := ok.modifyPort n fun h => { h with }

/-- A register write whose effect on an ATTACHED port keeps the group within its bounds (R180). -/
theorem attachedWrite (n : HostId) {f : PortGroup → PortGroup}
    (keeps : (s.port n).phase = .attached → (s.port n).busy = false → (s.port n).Sound n s.taken →
      (f (s.port n)).Sound n s.taken) : (s.attachedWrite n f).portsOk := by
  simp only [State.attachedWrite]
  split_ifs with accepts attached
  · simp only [State.accepts, Bool.and_eq_true, Bool.not_eq_true'] at accepts
    exact State.portsOk.answer (ok.modifyPort n (keeps attached accepts.2)) n _
  · exact ok.answer n _
  · exact ok

/-! ## What is handed to the port groups (R16, R78, R148) -/

theorem post (pl : Place) (r : Reply) : (s.post pl r).portsOk := by
  simp only [State.post]
  split
  · rename_i place
    refine ok.modifyPort pl.host fun h => h.complete place r
  · exact ok

theorem postAll (l : List (Place × Reply)) : (s.postAll l).portsOk := by
  induction l generalizing s with
  | nil => exact ok
  | cons x l ih => exact ih (ok.post x.1 x.2)

theorem notifyAll (l : List (HostId × Notice)) : (s.notifyAll l).portsOk := by
  induction l generalizing s with
  | nil => exact ok
  | cons x l ih => exact ih (ok.modifyPort x.1 fun h => h.notify x.2)

theorem markAll (l : List Place) : (s.markAll l).portsOk :=
  ok.congr (by simp) (by rw [State.markAll_frame])

theorem applyEntry (p : PageId) (o : EntryOut) : (s.applyEntry p o).portsOk :=
  State.portsOk.postAll (State.portsOk.notifyAll (State.portsOk.markAll (s := s.setPage p o.entry) ok _) _) _

/-! ## Commands at their owners (R81, R163) -/

theorem taking (pl : Place) {f : State → State} (keeps : ∀ u : State, u.portsOk → (f u).portsOk) :
    (s.taking pl f).portsOk := by
  simp only [State.taking]
  split
  · exact keeps _ ok
  · exact ok

theorem entryTakes (h : HostId) (p : PageId) (f : Transit → Option (State → EntryOut)) :
    (s.entryTakes h p f).portsOk := by
  rcases s.entryTakes_cases h p f with e | ⟨t, -, e | ⟨g, -, e⟩⟩ <;> rw [e]
  · exact ok
  · exact ok
  · exact State.portsOk.applyEntry (s := s.dropTransit t.place) ok p _

theorem restore (p : PageId) (pl : Place) : (s.restore p pl).portsOk := by
  simp only [State.restore]
  split
  · exact ok
  · exact ok.post pl _

theorem setQuota (pl : Place) (h : HostId) (limit : Nat) : (s.setQuota pl h limit).portsOk := by
  simp only [State.setQuota]
  split
  · exact ok.post pl _
  · refine State.portsOk.post ?_ pl _
    exact ok

/-! ## The page engine: its completions alone reach the port groups (R126 to R130) -/

theorem removeRefs (j : Job) : (s.removeRefs j).portsOk := by
  rcases s.removeRefs_cases j with ⟨source, -, h⟩ | ⟨-, h⟩ | ⟨-, -, h⟩ <;> rw [h] <;> exact ok

theorem dropQueued (j : Job) : (s.dropQueued j).portsOk := (ok.removeRefs j).congr rfl rfl

theorem completeJob (j : Job) (st : Status) : (s.completeJob j st).portsOk := ok.post _ _

theorem startFrom (l : List Job) : (s.startFrom l).portsOk := by
  induction l generalizing s with
  | nil => exact ok
  | cons j js ih =>
    simp only [State.startFrom]
    split
    · exact ih ((ok.removeRefs j).completeJob j _)
    · rw [State.runRefs_frame]
      exact ok

theorem startNext : s.startNext.portsOk := by
  simp only [State.startNext]
  split
  · exact ok
  · exact ok.startFrom _

theorem endJob (j : Job) (st : Status) : (s.endJob j st).portsOk :=
  ((ok.dropQueued j).completeJob j st).startNext

theorem engineWriteEnd (j : Job) : (s.engineWriteEnd j).portsOk := by
  simp only [State.engineWriteEnd]
  split_ifs
  · exact ok.endJob _ _
  · exact ok.endJob _ _
  · exact ok

theorem engineReadEnd (j : Job) (data : Word) : (s.engineReadEnd j data).portsOk := by
  simp only [State.engineReadEnd]
  split
  · exact ok.endJob _ _
  · split
    · exact ok
    · split
      · exact ok.endJob _ _
      · exact ok
    all_goals exact ok

theorem engineParity (j : Job) (p : PageId) : (s.engineParity j p).portsOk := (ok.applyEntry p _).endJob j _

theorem stopRunning (j : Job) : (s.stopRunning j).portsOk := by
  simp only [State.stopRunning]
  split
  · exact ok
  · exact State.portsOk.endJob (s := { s with arbiter := s.arbiter.withdraw .engine }) ok j _

theorem lastCheck (p : PageId) (need : Mode) (j : Job) : (s.lastCheck p need j).portsOk := by
  simp only [State.lastCheck]
  split
  · exact ok
  · exact (ok.removeRefs j).completeJob j _

theorem queueJob (j : Job) : (s.queueJob j).portsOk := by
  simp only [State.queueJob]
  split_ifs
  · exact ok.removeRefs j
  · exact (ok.removeRefs j).completeJob j _
  · exact (ok.removeRefs j).completeJob j _
  · exact ok

theorem takeAbort (job : Place) : (s.takeAbort job).portsOk := by
  simp only [State.takeAbort]
  split
  · exact ok
  · split
    · exact ok.stopRunning _
    · exact (ok.dropQueued _).completeJob _ _

theorem admitScrub (j : Job) : (s.admitScrub j).portsOk := by
  simp only [State.admitScrub]
  split <;> exact ok

/-! ## The command unit (R68, R72 to R76) -/

theorem submit (n : HostId) : (s.submit n).portsOk := by
  simp only [State.submit]
  split_ifs with _ room
  · refine State.portsOk.answer (ok.modifyPort n fun h => ?_) n _
    exact { h with
      ring := by simpa using room.2
      quiet := PortGroup.quiet_of_attached room.1 }
  · exact ok.answer n _
  · exact ok

theorem dispatch (pl : Place) (c : Except Status Command) (attached : (s.port pl.host).phase = .attached) :
    (s.dispatch pl c).portsOk := by
  simp only [State.dispatch]
  split
  · exact ok.post pl _
  · exact ok
  · split
    · exact ok.post pl _
    · exact ok
  · exact ok.modifyPort pl.host fun h => h.settleFence attached

/-- The count of commands taken goes up with the place that the command reserves (R71, R72). -/
theorem takeHead (n : HostId) (wanted : Descriptor → Bool) : (s.takeHead n wanted).portsOk := by
  by_cases running : (s.port n).ringState = .running
  · cases ring : (s.port n).ring with
    | nil => simpa only [State.takeHead, running, if_true, ring] using ok
    | cons d rest =>
      cases kind : wanted d with
      | false => simpa only [State.takeHead, running, if_true, ring, kind, Bool.false_eq_true, if_false] using ok
      | true =>
        rw [State.takeHead_of_running running ring kind rfl]
        have later : ({ s with taken := s.taken + 1 } : State).portsOk :=
          (State.portsOk_iff _).2 fun m => (ok.sound m).mono (Nat.le_add_right _ 1)
        obtain ⟨wf, places⟩ := (PortGroup.sound_iff _ n _).1 ((ok.sound n).afterTake running ring
          (pl := s.placeFor n d) rfl rfl rfl (Command.acquirePage (checkCommand (s.port n).manager d)))
        refine State.portsOk.dispatch (State.portsOk_setPort later n wf places) _ _ ?_
        show (State.port _ n).phase = _
        rw [State.port_setPort_self]
        exact (PortGroup.attached_of_running running).1
  · simpa only [State.takeHead, running, if_false] using ok

/-! ## Sessions (R159 to R167) -/

theorem abandon {n : HostId} (attached : (s.port n).phase = .attached) : (s.abandon n).portsOk := by
  simp only [State.abandon]
  split
  · exact ok
  · rename_i r _
    have cleared : (({ s with arbiter := s.arbiter.withdraw (.port n) } : State).modifyPage r.page
      fun e => e.setPair n none).portsOk := ok
    split
    · exact ok.modifyPort n fun h => { h with quiet := PortGroup.quiet_of_attached attached }
    · exact cleared.modifyPort n fun h => { h with quiet := PortGroup.quiet_of_attached attached }

theorem prstAssert (n : HostId) : (s.prstAssert n).portsOk := by
  have pins : (s.modifyPort n fun g => { g with prst := true, answer := none }).portsOk :=
    ok.modifyPort n fun h => { h with }
  simp only [State.prstAssert]
  split_ifs with _ attached
  · exact ok
  · have same : ((s.modifyPort n fun g => { g with prst := true, answer := none }).port n).phase = .attached := by
      rw [State.port_modifyPort_self]
      exact attached
    exact (pins.abandon same).modifyPort n fun _ => .startDetaching (State.abandoned_of_abandon _ n)
  · exact pins

theorem attach (n : HostId) : (s.attach n).portsOk := by
  simp only [State.attach]
  split_ifs with _ can
  · exact State.portsOk.answer (ok.modifyPort n fun h => h.attach can.1) n _
  · exact ok.answer n _
  · exact ok

theorem detach (n : HostId) : (s.attachedWrite n PortGroup.startDetaching).portsOk :=
  ok.attachedWrite n fun _ idle _ => .startDetaching (PortGroup.abandoned_of_idle idle)

theorem dropQueuedOf (n : HostId) : (s.dropQueuedOf n).portsOk := by
  simp only [State.dropQueuedOf]
  generalize (s.engine.queue.filter fun j => j.place.host = n && !j.running && !j.isScrub) = l
  induction l generalizing s with
  | nil => exact ok
  | cons j l ih => exact ih (ok.dropQueued j)

theorem stopRunningOf (n : HostId) : (s.stopRunningOf n).portsOk := by
  simp only [State.stopRunningOf]
  split
  · exact ok
  · split
    · exact State.portsOk.stopRunning (by exact ok) _
    · exact ok

theorem teardownAtEngine (n : HostId) : (s.teardownAtEngine n).portsOk := by
  simp only [State.teardownAtEngine]
  split
  · exact ((ok.dropQueuedOf n).stopRunningOf n).modifyPort n fun h => { h with }
  · exact ok

theorem teardownAtEntry (n : HostId) (p : PageId) : (s.teardownAtEntry n p).portsOk := by
  simp only [State.teardownAtEntry]
  split
  · exact (ok.applyEntry p _).modifyPort n fun h => { h with }
  · exact ok

/-! ## The window access path (R92, R97, R100 to R103) -/

theorem passCheck {n : HostId} {a : WindowAccess} (access : (s.port n).access = some a) : (s.passCheck n a).portsOk := by
  have attached := ok.attached_of_access access
  have paired : (s.modifyPage a.page fun e => e.setPair n (some a.dir)).portsOk := ok
  have passed := paired.modifyPort n (f := fun g => { g with access := none, inFlight := some a.inFlight }) fun h =>
    { h with quiet := PortGroup.quiet_of_attached attached }
  exact passed.congr rfl rfl

theorem failCheck {n : HostId} {a : WindowAccess} (access : (s.port n).access = some a) (k : FaultKind) :
    (s.failCheck n a k).portsOk := by
  refine ok.modifyPort n fun h => ?_
  have fault := h.recordFault k (some a.slot) (some a.page) a.dir
  refine { fault with quiet := PortGroup.quiet_of_attached ?_ }
  rw [PortGroup.recordFault_frame]
  exact ok.attached_of_access access

theorem portOperationEnd (n : HostId) (failed : Bool) : (s.portOperationEnd n failed).portsOk := by
  simp only [State.portOperationEnd]
  split
  · exact ok
  · rename_i r _
    split
    · refine (ok.applyEntry r.page _).modifyPort n fun h => PortGroup.Sound.endAccess ?_ r _
      split
      · exact h
      · exact h.recordFault _ _ _ _
    · exact State.portsOk.modifyPort (s := s.modifyPage r.page _) ok n fun h => h.endAccess r _

theorem engineOperationEnd (op : WordOp) (failed : Bool) : (s.engineOperationEnd op failed).portsOk := by
  simp only [State.engineOperationEnd]
  split
  · exact ok
  · split
    · exact ok.engineParity _ _
    · split
      · exact ok.engineWriteEnd _
      · exact ok.engineReadEnd _ _

theorem operationEnd (op : WordOp) : (s.operationEnd op).portsOk := by
  simp only [State.operationEnd]
  split
  · exact State.portsOk.portOperationEnd (by exact ok) _ _
  · exact State.portsOk.engineOperationEnd (by exact ok) _ _

/-! ## Device reset (R18, R117) -/

theorem resetAssert : s.resetAssert.portsOk := by
  simp only [State.resetAssert]
  split
  · exact ok
  · refine (State.portsOk_iff _).2 fun n => ?_
    simp only [State.port_def, mapVec_getElem]
    exact PortGroup.sound_afterReset ..

theorem resetNegate (straps : BitVec 4) : (s.resetNegate straps).portsOk := by
  simp only [State.resetNegate]
  split
  · refine (State.portsOk_iff _).2 fun n => ?_
    simp only [State.port_def, mapVec_getElem]
    exact PortGroup.sound_afterReset ..
  · exact ok

/-! ## The rows of the table -/

/-- Every command keeps every port group within its bounds. -/
theorem exec {t : State} {c : Instr} (h : Machine.exec c s = .next t) : t.portsOk := by
  have row : ∀ {u : State}, Machine.exec c s = .next u → u.portsOk → t.portsOk := fun e ok =>
    Host.Outcome.next.inj (e.symm.trans h) ▸ ok
  cases c with
  | deviceResetAssert => exact row rfl ok.resetAssert
  | deviceResetNegate straps => exact row rfl (ok.resetNegate straps)
  | initializationSweepEnd =>
    refine row rfl ?_
    simp only [State.sweepEnd]
    split <;> exact ok
  | prstAssert n => exact row rfl (ok.prstAssert n)
  | prstNegate n => exact row rfl (ok.modifyPort n fun h => { h with })
  | attach n => exact row rfl (ok.attach n)
  | detach n => exact row rfl (ok.detach n)
  | teardownAtEngine n => exact row rfl (ok.teardownAtEngine n)
  | teardownAtEntry n p => exact row rfl (ok.teardownAtEntry n p)
  | portDetached n =>
    refine row rfl ?_
    split
    · rename_i can
      have detaching : (s.port n).phase = .detaching := by
        simp only [State.canDetach, Bool.and_eq_true, decide_eq_true_eq] at can
        exact can.1.1.1.1
      exact ok.modifyPort n fun h => h.portDetached (by simp [detaching])
    · exact ok
  | stagingWrite n k en data =>
    exact row rfl (ok.attachedWrite n fun on _ h => { h with quiet := PortGroup.quiet_of_attached on })
  | submit n => exact row rfl (ok.submit n)
  | takeCommand n => exact row rfl (ok.takeHead n _)
  | completionPop n => exact row rfl (ok.attachedWrite n fun on _ h => h.completionPop on)
  | acquire k p => exact row rfl (ok.entryTakes k p _)
  | release k p => exact row rfl (ok.entryTakes k p _)
  | downgrade k p => exact row rfl (ok.entryTakes k p _)
  | cancel n => exact row rfl (ok.takeHead n _)
  | cancelRequest k p => exact row rfl (ok.entryTakes k p _)
  | fence n => exact row rfl (ok.takeHead n _)
  | flush k =>
    refine row rfl ?_
    split
    · exact ok.taking _ fun u ok =>
        State.portsOk.post (ok.modifyPort k fun h => h.shrinkCache (flushCache_sublist ..)) _ _
    · exact ok
  | copy k p =>
    refine row rfl ?_
    split
    · split_ifs
      · exact ok
      · exact State.portsOk.completeJob (by exact ok) _ _
      · exact ok
    · exact ok
  | copyDestinationCheck k p =>
    refine row rfl ?_
    split
    · split_ifs
      · exact State.portsOk.lastCheck (by exact ok) _ _ _
      · exact State.portsOk.removeRefs (by exact ok) _
    · exact ok
  | fill k p =>
    refine row rfl ?_
    split
    · exact ok.taking _ fun u ok => ok.lastCheck _ _ _
    · exact ok
  | checksum k p =>
    refine row rfl ?_
    split
    · exact ok.taking _ fun u ok => ok.lastCheck _ _ _
    · exact ok
  | jobQueueing k =>
    refine row rfl ?_
    split
    · exact ok
    · exact State.portsOk.queueJob (by exact ok) _
  | query k p => exact row rfl (ok.entryTakes k p _)
  | retire k p => exact row rfl (ok.entryTakes k p _)
  | restore k p =>
    refine row rfl ?_
    split
    · exact ok.taking _ fun u ok => ok.restore _ _
    · exact ok
  | scrubAdmission p =>
    refine row rfl ?_
    split
    · exact ok
    · exact State.portsOk.admitScrub (by exact ok) _
  | scrubRefusal p =>
    refine row rfl ?_
    split
    · exact ok
    · exact State.portsOk.applyEntry (by exact ok) p _
  | setQuota k =>
    refine row rfl ?_
    split
    · exact ok.taking _ fun u ok => ok.setQuota _ _ _
    · exact ok
  | setRecallLimit k =>
    refine row rfl ?_
    split
    · exact ok.taking _ fun u ok => State.portsOk.post (by exact ok) _ _
    · exact ok
  | waitTimeout k p => exact row rfl (ok.applyEntry p _)
  | recallDeadline p => exact row rfl (ok.applyEntry p _)
  | drainEnd p => exact row rfl (ok.applyEntry p _)
  | windowAccess n a d en data =>
    simp only [Machine.exec, execWindowAccess] at h
    split at h <;> cases h
    split_ifs with _ attached
    · exact ok.modifyPort n fun h => h.windowAccess attached _ _ _ _ _
    · exact ok.answer n _
    · exact ok
  | accessCheck n =>
    refine row rfl ?_
    split
    · exact ok
    · split
      · exact ok.passCheck ‹_›
      · exact ok.failCheck ‹_› _
  | outOfRangeAccess n a d =>
    have range : (if s.accepts n then
        (s.modifyPort n fun g => g.recordFault .range none none d).answer n .errorResponse else s).portsOk := by
      split
      · exact State.portsOk.answer (ok.modifyPort n fun h => h.recordFault _ _ _ _) n _
      · exact ok
    simp only [Machine.exec, execOutOfRangeAccess] at h
    split at h <;> cases h <;> exact range
  | wordOperationEnd =>
    refine row rfl ?_
    split
    · exact ok
    · exact State.portsOk.congr (ok.operationEnd _) rfl rfl
  | jobStart => exact row rfl ok.startNext
  | engineAbortEvent which =>
    refine row rfl ?_
    split
    · exact ok
    · exact State.portsOk.takeAbort (by exact ok) _
  | noticePop n => exact row rfl (ok.attachedWrite n fun on _ h => h.noticePop on)
  | noticeLostClear n =>
    exact row rfl (ok.attachedWrite n fun on _ h => { h with quiet := PortGroup.quiet_of_attached on })
  | faultPop n => exact row rfl (ok.attachedWrite n fun on _ h => h.faultPop on)
  | overflowClear n =>
    exact row rfl (ok.attachedWrite n fun on _ h => { h with quiet := PortGroup.quiet_of_attached on })
  | eventEnablesWrite n en data =>
    exact row rfl (ok.attachedWrite n fun on _ h => { h with quiet := PortGroup.quiet_of_attached on })
  | windowMapEntryWrite n slot en data =>
    exact row rfl (ok.attachedWrite n fun on _ h => { h with quiet := PortGroup.quiet_of_attached on })
  | registerWrite n a en data =>
    simp only [Machine.exec, execRegisterWrite] at h
    split at h
    · split at h <;> cases h
      split
      · exact ok.answer n _
      · exact ok
    all_goals cases h
  | timebaseAdvance =>
    refine row rfl ?_
    simp only [State.tick]
    split <;> exact ok
  | arrayUpset p w b flips parityFlips => exact row rfl ok

end State.portsOk

end Sys2Proof.Machine
end

section
/-! The port groups stay within their bounds. -/

namespace Sys2Proof.Proofs

open Sys2Proof Sys2Proof.Machine

/-- Settles O55: each row is made of changes of one port group, and each of those keeps the group within its bounds. -/
theorem portsStayWithinBounds : Obligations.PortsStayWithinBounds := by
  intro s t ok h
  rcases step_cases h with rfl | ⟨c, rest, e⟩
  · exact ok
  · exact State.portsOk.exec (s := { s with pending := rest }) ok e

end Sys2Proof.Proofs
end

