-- ==== Sys2Proof/Proofs/EngineQueue.lean ====
section
/-!
SUPPORT. The order of the engine queue and the places of the commands at work (R71, R119 to R121, R123): what the shared
operations make of the queue, and a command that leaves one owner and joins the next with its place.
-/

namespace Sys2Proof.Machine

open Sys2Proof

/-- The place is of a command that has been taken, and no owner has work for it. -/
structure State.Free (s : State) (pl : Place) : Prop where
  absent : s.workPlaces.count pl = 0
  taken : pl.seq < s.taken

/-- The work for a place, owner by owner. -/
theorem State.count_workPlaces (s : State) (pl : Place) :
    s.workPlaces.count pl =
      (s.transit.map Transit.place).count pl + (s.engine.arriving.map Job.place).count pl +
        (s.engine.scrubs.map Job.place).count pl + (s.engine.refusals.map Job.place).count pl +
          (s.engine.queue.map Job.place).count pl := by
  simp only [State.workPlaces, List.count_append]

/-- A list without the records of one place: none of that place, and no more of any other. -/
theorem count_without {α : Type} (place : α → Place) (l : List α) (pl q : Place) :
    ((l.filter fun x => place x ≠ pl).map place).count q = if q = pl then 0 else (l.map place).count q := by
  have places : (l.filter fun x => place x ≠ pl).map place = (l.map place).filter fun x => x ≠ pl := by
    rw [List.filter_map]
    rfl
  rw [places]
  split
  · rename_i same
    exact List.count_eq_zero.2 fun mem => by simpa [same] using (List.mem_filter.1 mem).2
  · rename_i other
    exact List.count_filter (by simpa using other)

namespace State.jobsOk

variable {s : State} (ok : s.jobsOk)

include ok

/-- No command has more work than before, and the queue is still in order. -/
theorem of_fewer {t : State} (length : t.engine.queue.length ≤ Config.engineQueueSize)
    (idle : ∀ j ∈ t.engine.queue.tail ++ t.engine.arriving ++ t.engine.scrubs, j.running = false)
    (fewer : ∀ pl, t.workPlaces.count pl ≤ s.workPlaces.count pl) (taken : s.taken ≤ t.taken) : t.jobsOk := by
  obtain ⟨-, -, nodup, bound⟩ := ok
  refine ⟨length, idle, List.nodup_iff_count_le_one.2 fun pl => ?_, fun pl mem => ?_⟩
  · exact (fewer pl).trans (List.nodup_iff_count_le_one.1 nodup pl)
  · exact (bound pl (List.count_pos_iff.1 ((List.count_pos_iff.2 mem).trans_le (fewer pl)))).trans_le taken

theorem length : s.engine.queue.length ≤ Config.engineQueueSize := ok.1

theorem idle : ∀ j ∈ s.engine.queue.tail ++ s.engine.arriving ++ s.engine.scrubs, j.running = false := ok.2.1

theorem nodup : s.workPlaces.Nodup := ok.2.2.1

/-! ## The queue (R119, R123) -/

/-- The queue replaced by one in which only the oldest job can run, of jobs that were in it. -/
theorem setQueue {q : List Job} (tail : ∀ j ∈ q.tail, j.running = false)
    (places : (q.map Job.place).Sublist (s.engine.queue.map Job.place)) : (s.setQueue q).jobsOk := by
  refine ok.of_fewer ?_ ?_ (fun pl => ?_) le_rfl
  · have := places.length_le
    simp only [List.length_map] at this
    exact this.trans ok.length
  · intro j hj
    simp only [setQueue_queue, setQueue_arriving, setQueue_scrubs, List.append_assoc, List.mem_append] at hj
    rcases hj with hj | hj
    · exact tail j hj
    · exact ok.idle j (by simp [hj])
  · have := places.count_le pl
    simp only [State.count_workPlaces, setQueue_queue, setQueue_arriving, setQueue_scrubs, setQueue_refusals,
      setQueue_transit]
    omega

theorem dequeue (j : Job) : (s.dequeue j).jobsOk :=
  ok.setQueue (ok.runsFirst.filter _).tail (List.filter_sublist.map _)

/-- The records of the queue changed, but for place and running flag. -/
theorem mapQueue {f : Job → Job} (place : ∀ j, (f j).place = j.place)
    (running : ∀ j ∈ s.engine.queue, (f j).running = j.running) : (s.setQueue (s.engine.queue.map f)).jobsOk := by
  have places : Job.place ∘ f = Job.place := funext place
  refine ok.setQueue (ok.runsFirst.map place running).tail ?_
  rw [List.map_map, places]

/-- The record of the running job replaced. -/
theorem setJob {j k : Job} (running : s.engine.running = some k) (place : j.place = k.place) (runs : j.running = true) :
    (s.setJob j).jobsOk := by
  obtain ⟨mem, rk⟩ := runningIn_eq_some running
  refine ok.mapQueue (fun i => ?_) fun i hi => ?_
  · split
    · rename_i same; exact same.symm
    · rfl
  · split
    · rename_i same
      rw [ok.runsFirst.eq_of_place hi mem (same.trans place), runs, rk]
    · rfl

/-! ## What an entry hands over (R127) -/

theorem markJob (job : Place) : (s.markJob job).jobsOk :=
  ok.mapQueue (f := fun j => if j.place = job then { j with marked := true } else j) (fun j => by split <;> rfl)
    fun j _ => by split <;> rfl

theorem markAll (l : List Place) : (s.markAll l).jobsOk := by
  induction l generalizing s with
  | nil => exact ok
  | cons j l ih => exact ih (ok.markJob j)

/-- The engine's part, the commands in transit and the count of those taken are the same. -/
theorem congr {t : State} (engine : t.engine = s.engine) (transit : t.transit = s.transit) (taken : t.taken = s.taken) :
    t.jobsOk := by
  simpa only [State.jobsOk, State.workPlaces, engine, transit, taken] using ok

theorem post (pl : Place) (r : Reply) : (s.post pl r).jobsOk := ok.congr (by simp) (by simp) (by simp)

theorem applyEntry (p : PageId) (o : EntryOut) : (s.applyEntry p o).jobsOk := by
  have marked : ((s.setPage p o.entry).markAll o.aborts).jobsOk := State.jobsOk.markAll (s := s.setPage p o.entry) ok _
  simp only [State.applyEntry]
  rw [State.postAll_frame, State.notifyAll_frame]
  exact marked

/-! ## The start, the stop and the end of a job (R123, R126 to R131) -/

theorem removeRefs (j : Job) : (s.removeRefs j).jobsOk := by
  rcases s.removeRefs_cases j with ⟨source, -, h⟩ | ⟨-, h⟩ | ⟨-, -, h⟩ <;> rw [h] <;> exact ok

theorem dropQueued (j : Job) : (s.dropQueued j).jobsOk := (ok.removeRefs j).dequeue j

/-- The oldest job without an abort mark runs, and those before it leave (R123). -/
theorem startFrom {l : List Job} (idle : ∀ j ∈ l, j.running = false)
    (places : (l.map Job.place).Sublist (s.engine.queue.map Job.place)) : (s.startFrom l).jobsOk := by
  induction l generalizing s with
  | nil => exact ok.setQueue (by simp) (List.nil_sublist _)
  | cons j js ih =>
    simp only [State.startFrom]
    split
    · refine ih ((ok.removeRefs j).post _ _) (fun k hk => idle k (List.mem_cons_of_mem j hk)) ?_
      rw [State.completeJob, State.post_engine, State.removeRefs_engine]
      exact (List.sublist_cons_self _ _).trans places
    · have started : (s.setQueue ({ j with running := true } :: js)).jobsOk :=
        ok.setQueue (fun k hk => idle k (List.mem_cons_of_mem j hk)) places
      rw [State.runRefs_frame]
      exact started

theorem startNext : s.startNext.jobsOk := by
  simp only [State.startNext]
  cases none : s.engine.running with
  | some j => exact ok
  | none => exact ok.startFrom (fun j hj => by simpa using List.find?_eq_none.1 none j hj) (List.Sublist.refl _)

theorem endJob (j : Job) (st : Status) : (s.endJob j st).jobsOk :=
  State.jobsOk.startNext ((ok.dropQueued j).post _ _)

section Running

variable {j : Job} (running : s.engine.running = some j)

include running

theorem engineWriteEnd : (s.engineWriteEnd j).jobsOk := by
  simp only [State.engineWriteEnd]
  split_ifs
  · exact ok.endJob _ _
  · exact ok.endJob _ _
  · exact ok.setJob running rfl (runningIn_eq_some running).2

theorem engineReadEnd (data : Word) : (s.engineReadEnd j data).jobsOk := by
  have runs := (runningIn_eq_some running).2
  simp only [State.engineReadEnd]
  split
  · exact ok.endJob _ _
  · split
    · exact ok.setJob running rfl runs
    · split
      · exact ok.endJob _ _
      · exact ok.setJob running rfl runs
    all_goals exact ok

theorem stopRunning : (s.stopRunning j).jobsOk := by
  simp only [State.stopRunning]
  split
  · exact ok.setJob running rfl (runningIn_eq_some running).2
  · exact State.jobsOk.endJob (s := { s with arbiter := s.arbiter.withdraw .engine }) ok j _

end Running

theorem engineOperationEnd (op : WordOp) (failed : Bool) : (s.engineOperationEnd op failed).jobsOk := by
  simp only [State.engineOperationEnd]
  split
  · exact ok
  · split
    · exact (ok.applyEntry op.page _).endJob _ _
    · split
      · exact ok.engineWriteEnd ‹_›
      · exact ok.engineReadEnd ‹_› _

theorem takeAbort (job : Place) : (s.takeAbort job).jobsOk := by
  simp only [State.takeAbort]
  split
  · exact ok
  · rename_i j hj
    split
    · rename_i runs
      exact ok.stopRunning (ok.runsFirst.runningIn_of_mem (List.mem_of_find?_eq_some hj) runs)
    · exact (ok.dropQueued j).post _ _

theorem dropQueuedOf (n : HostId) : (s.dropQueuedOf n).jobsOk := by
  simp only [State.dropQueuedOf]
  generalize (s.engine.queue.filter fun j => j.place.host = n && !j.running && !j.isScrub) = l
  induction l generalizing s with
  | nil => exact ok
  | cons j l ih => exact ih (ok.dropQueued j)

theorem stopRunningOf (n : HostId) : (s.stopRunningOf n).jobsOk := by
  simp only [State.stopRunningOf]
  split
  · exact ok
  · rename_i j running
    split
    · have runs := (runningIn_eq_some running).2
      have marked : ((s.mapPages fun e => e.markRef j.place).setJob { j with marked := true }).jobsOk :=
        ok.setJob (j := { j with marked := true }) running rfl runs
      exact marked.stopRunning (ok.runsFirst.runningIn_replace running rfl runs)
    · exact ok

/-! ## A command goes from one owner to the next (R75, R81, R121, R132) -/

/-- An owner lets go of a command it had work for: the place of the command is free, since no other owner has work for
it (R71). -/
theorem release {t : State} {α : Type} {place : α → Place} {l : List α} {x : α} (mem : x ∈ l) {before after : List Place}
    (work : s.workPlaces = before ++ l.map place ++ after)
    (left : t.workPlaces = before ++ (l.filter fun y => place y ≠ place x).map place ++ after)
    (queue : t.engine.queue = s.engine.queue)
    (idle : (t.engine.arriving ++ t.engine.scrubs).Sublist (s.engine.arriving ++ s.engine.scrubs))
    (taken : t.taken = s.taken) : t.jobsOk ∧ t.Free (place x) := by
  have here := List.count_pos_iff.2 (List.mem_map_of_mem (f := place) mem)
  have one := List.nodup_iff_count_le_one.1 ok.nodup (place x)
  have held : place x ∈ s.workPlaces := by
    rw [work]
    exact List.mem_append_left _ (List.mem_append_right _ (List.mem_map_of_mem mem))
  have without : ∀ q, t.workPlaces.count q = if q = place x then 0 else s.workPlaces.count q := fun q => by
    simp only [left, work, List.count_append, count_without] at one ⊢
    split
    · rename_i same
      rw [same]
      omega
    · rfl
  refine ⟨ok.of_fewer (queue ▸ ok.length) (fun j hj => ok.idle j ?_) (fun q => ?_) taken.ge,
    (without _).trans (if_pos rfl), taken ▸ ok.2.2.2 _ held⟩
  · rw [List.append_assoc, queue] at hj
    rw [List.append_assoc]
    exact (idle.append_left _).subset hj
  · rw [without]
    split
    · exact Nat.zero_le _
    · exact le_rfl

theorem release_transit {t : Transit} (mem : t ∈ s.transit) :
    (s.dropTransit t.place).jobsOk ∧ (s.dropTransit t.place).Free t.place :=
  ok.release (place := Transit.place) mem (before := [])
    (after := s.engine.arriving.map Job.place ++ s.engine.scrubs.map Job.place ++ s.engine.refusals.map Job.place ++
      s.engine.queue.map Job.place)
    (by simp [State.workPlaces]) (by simp [State.workPlaces]) rfl (List.Sublist.refl _) rfl

theorem release_arriving {j : Job} (mem : j ∈ s.engine.arriving) {u : State}
    (hu : u = s.modifyEngine fun g => { g with arriving := g.arriving.filter fun k => k.place ≠ j.place }) :
    u.jobsOk ∧ u.Free j.place := by
  subst hu
  exact ok.release (place := Job.place) mem (before := s.transit.map Transit.place)
    (after := s.engine.scrubs.map Job.place ++ s.engine.refusals.map Job.place ++ s.engine.queue.map Job.place)
    (by simp [State.workPlaces]) (by simp [State.workPlaces]) rfl (List.filter_sublist.append_right _) rfl

theorem release_scrub {j : Job} (mem : j ∈ s.engine.scrubs) {u : State}
    (hu : u = s.modifyEngine fun g => { g with scrubs := g.scrubs.filter fun k => k.place ≠ j.place }) :
    u.jobsOk ∧ u.Free j.place := by
  subst hu
  exact ok.release (place := Job.place) mem (before := s.transit.map Transit.place ++ s.engine.arriving.map Job.place)
    (after := s.engine.refusals.map Job.place ++ s.engine.queue.map Job.place)
    (by simp [State.workPlaces]) (by simp [State.workPlaces]) rfl (List.filter_sublist.append_left _) rfl

theorem release_refusal {j : Job} (mem : j ∈ s.engine.refusals) {u : State}
    (hu : u = s.modifyEngine fun g => { g with refusals := g.refusals.filter fun k => k.place ≠ j.place }) :
    u.jobsOk ∧ u.Free j.place := by
  subst hu
  exact ok.release (place := Job.place) mem
    (before := s.transit.map Transit.place ++ s.engine.arriving.map Job.place ++ s.engine.scrubs.map Job.place)
    (after := s.engine.queue.map Job.place) (by simp [State.workPlaces]) (by simp [State.workPlaces]) rfl
    (List.Sublist.refl _) rfl

/-- An owner takes on work for a free place: a command in transit, or a job that does not run. -/
theorem take {t : State} {pl : Place} (free : s.Free pl) {before after : List Place}
    (work : s.workPlaces = before ++ after) (joined : t.workPlaces = before ++ pl :: after)
    (length : t.engine.queue.length ≤ Config.engineQueueSize)
    (idle : ∀ j ∈ t.engine.queue.tail ++ t.engine.arriving ++ t.engine.scrubs,
      j.running = false ∨ j ∈ s.engine.queue.tail ++ s.engine.arriving ++ s.engine.scrubs)
    (taken : t.taken = s.taken) : t.jobsOk := by
  have places : t.workPlaces.Perm (pl :: s.workPlaces) := by
    rw [joined, work]
    exact List.perm_middle
  refine ⟨length, fun j hj => (idle j hj).elim id (ok.idle j), ?_, fun q hq => ?_⟩
  · exact places.nodup_iff.2 (List.nodup_cons.2 ⟨List.count_eq_zero.1 free.absent, ok.nodup⟩)
  · rw [taken]
    rcases List.mem_cons.1 (places.subset hq) with rfl | hq
    · exact free.taken
    · exact ok.2.2.2 q hq

/-- A command goes into transit. -/
theorem putTransit {pl : Place} (free : s.Free pl) (e : Errand) :
    ({ s with transit := s.transit ++ [Transit.mk pl e] } : State).jobsOk :=
  ok.take free (before := s.transit.map Transit.place)
    (after := s.engine.arriving.map Job.place ++ s.engine.scrubs.map Job.place ++ s.engine.refusals.map Job.place ++
      s.engine.queue.map Job.place)
    (by simp [State.workPlaces]) (by simp [State.workPlaces]) ok.length (fun _ => .inr) rfl

section Joins

variable {j : Job} (free : s.Free j.place)

include free

/-- A scrub that the engine refuses goes back to its entry (R132). -/
theorem refuse : (s.modifyEngine fun g => { g with refusals := g.refusals ++ [j] }).jobsOk :=
  ok.take free
    (before := s.transit.map Transit.place ++ s.engine.arriving.map Job.place ++ s.engine.scrubs.map Job.place ++
      s.engine.refusals.map Job.place)
    (after := s.engine.queue.map Job.place) (by simp [State.workPlaces]) (by simp [State.workPlaces]) ok.length
    (fun _ => .inr) rfl

variable (idle : j.running = false)

include idle

/-- A job whose checks have passed goes to the engine (R121). -/
theorem sendJob : (s.sendJob j).jobsOk := by
  refine ok.take free (before := s.transit.map Transit.place ++ s.engine.arriving.map Job.place)
    (after := s.engine.scrubs.map Job.place ++ s.engine.refusals.map Job.place ++ s.engine.queue.map Job.place)
    (by simp [State.workPlaces]) (by simp [State.workPlaces, State.sendJob]) ok.length (fun k hk => ?_) rfl
  simp only [State.sendJob, modifyEngine_engine, List.mem_append, List.mem_singleton] at hk ⊢
  rcases hk with (hk | hk | rfl) | hk
  · exact .inr (.inl (.inl hk))
  · exact .inr (.inl (.inr hk))
  · exact .inl idle
  · exact .inr (.inr hk)

/-- An entry hands a scrub to the engine (R175). -/
theorem sendScrub : (s.modifyEngine fun g => { g with scrubs := g.scrubs ++ [j] }).jobsOk := by
  refine ok.take free
    (before := s.transit.map Transit.place ++ s.engine.arriving.map Job.place ++ s.engine.scrubs.map Job.place)
    (after := s.engine.refusals.map Job.place ++ s.engine.queue.map Job.place)
    (by simp [State.workPlaces]) (by simp [State.workPlaces]) ok.length (fun k hk => ?_) rfl
  simp only [modifyEngine_engine, List.mem_append, List.mem_singleton] at hk ⊢
  rcases hk with hk | hk | rfl
  · exact .inr (.inl hk)
  · exact .inr (.inr hk)
  · exact .inl idle

/-- A job joins the tail of a queue with room (R119, R121). -/
theorem enqueue (room : s.engine.queue.length < Config.engineQueueSize) :
    (s.setQueue (s.engine.queue ++ [j])).jobsOk := by
  refine ok.take free
    (before := s.transit.map Transit.place ++ s.engine.arriving.map Job.place ++ s.engine.scrubs.map Job.place ++
      s.engine.refusals.map Job.place ++ s.engine.queue.map Job.place)
    (after := []) (by simp [State.workPlaces]) (by simp [State.workPlaces]) (by simpa using room) (fun k hk => ?_) rfl
  have tail : k ∈ (s.engine.queue ++ [j]).tail → k ∈ s.engine.queue.tail ∨ k = j := by
    cases s.engine.queue with
    | nil => simp
    | cons i is => simp
  simp only [setQueue_queue, setQueue_arriving, setQueue_scrubs, List.append_assoc, List.mem_append] at hk ⊢
  rcases hk with hk | hk
  · rcases tail hk with hk | rfl
    · exact .inr (.inl hk)
    · exact .inl idle
  · exact .inr (.inr hk)

theorem lastCheck (p : PageId) (need : Mode) : (s.lastCheck p need j).jobsOk := by
  simp only [State.lastCheck]
  split
  · exact ok.sendJob free idle
  · exact (ok.removeRefs j).post _ _

theorem queueJob : (s.queueJob j).jobsOk := by
  simp only [State.queueJob]
  split_ifs with _ _ full
  · exact ok.removeRefs j
  · exact (ok.removeRefs j).post _ _
  · exact (ok.removeRefs j).post _ _
  · exact ok.enqueue free idle (Nat.lt_of_not_le full)

theorem admitScrub : (s.admitScrub j).jobsOk := by
  simp only [State.admitScrub]
  split
  · exact ok.enqueue free idle ‹_›
  · exact ok.refuse free

end Joins

/-! ## Commands at their owners -/

/-- An owner takes a command, and with it its place (R81, R163). -/
theorem taking {t : Transit} (mem : t ∈ s.transit) {f : State → State}
    (keeps : ∀ u : State, u.jobsOk → u.Free t.place → (f u).jobsOk) : (s.taking t.place f).jobsOk := by
  obtain ⟨dropped, free⟩ := ok.release_transit mem
  simp only [State.taking]
  split
  · exact keeps _ dropped free
  · exact dropped

theorem dropTransit (pl : Place) : (s.dropTransit pl).jobsOk := by
  refine ok.of_fewer ok.length ok.idle (fun q => ?_) le_rfl
  simp only [State.count_workPlaces, dropTransit_engine, dropTransit_transit, count_without]
  split <;> omega

/-- A COPY in transit keeps its place between its two pages (R121). -/
theorem redirect (pl : Place) (e : Errand) : (s.redirect pl e).jobsOk := by
  have same : (s.redirect pl e).transit.map Transit.place = s.transit.map Transit.place := by
    simp only [State.redirect, List.map_map]
    refine List.map_congr_left fun t _ => ?_
    simp only [Function.comp_apply]
    split <;> rfl
  refine ok.of_fewer ok.length ok.idle (fun q => ?_) le_rfl
  simp only [State.count_workPlaces, same, redirect_engine, le_rfl]

theorem entryTakes (h : HostId) (p : PageId) (f : Transit → Option (State → EntryOut)) :
    (s.entryTakes h p f).jobsOk := by
  rcases s.entryTakes_cases h p f with e | ⟨t, -, e | ⟨g, -, e⟩⟩ <;> rw [e]
  · exact ok
  · exact ok.dropTransit _
  · exact (ok.dropTransit _).applyEntry p _

theorem restore {pl : Place} (free : s.Free pl) (p : PageId) : (s.restore p pl).jobsOk := by
  simp only [State.restore]
  split
  · exact ok.sendScrub (j := Job.fresh pl .scrub p) free rfl
  · exact ok.post pl _

theorem setQuota (pl : Place) (h : HostId) (limit : Nat) : (s.setQuota pl h limit).jobsOk := by
  simp only [State.setQuota]
  split
  · exact ok.post pl _
  · exact State.jobsOk.post (by exact ok) pl _

/-! ## The command unit (R72 to R76) -/

theorem dispatch {pl : Place} (free : s.Free pl) (c : Except Status Command) : (s.dispatch pl c).jobsOk := by
  simp only [State.dispatch]
  split
  · exact ok.post pl _
  · exact ok.putTransit free _
  · split
    · exact ok.post pl _
    · exact ok.putTransit free _
  · exact ok

/-- The place of a command is new when it is taken: every other is of an earlier command (R71, R72). -/
theorem takeHead (n : HostId) (wanted : Descriptor → Bool) : (s.takeHead n wanted).jobsOk := by
  simp only [State.takeHead]
  split
  · split
    · exact ok
    · rename_i d rest _
      split
      · have later : ({ s with taken := s.taken + 1 } : State).jobsOk :=
          ok.of_fewer ok.length ok.idle (fun _ => le_rfl) (Nat.le_add_right _ 1)
        have free : ({ s with taken := s.taken + 1 } : State).Free (s.placeFor n d) :=
          ⟨List.count_eq_zero.2 fun mem => (ok.2.2.2 _ mem).false, Nat.lt_succ_self _⟩
        exact State.jobsOk.dispatch (s := ({ s with taken := s.taken + 1 } : State).modifyPort n _) later
          ⟨free.absent, free.taken⟩ _
      · exact ok
  · exact ok

/-! ## Sessions, accesses and the array -/

theorem attachedWrite (n : HostId) (f : PortGroup → PortGroup) : (s.attachedWrite n f).jobsOk := by
  rcases s.attachedWrite_cases n f with h | ⟨g, h⟩ <;> rw [h] <;> exact ok

theorem abandon (n : HostId) : (s.abandon n).jobsOk := by
  simp only [State.abandon]
  split
  · exact ok
  · split <;> exact ok

theorem prstAssert (n : HostId) : (s.prstAssert n).jobsOk := by
  have pins : (s.modifyPort n fun g => { g with prst := true, answer := none }).jobsOk := ok
  simp only [State.prstAssert]
  split_ifs
  · exact ok
  · exact State.jobsOk.congr (pins.abandon n) rfl rfl rfl
  · exact pins

theorem teardownAtEngine (n : HostId) : (s.teardownAtEngine n).jobsOk := by
  simp only [State.teardownAtEngine]
  split
  · exact State.jobsOk.congr ((ok.dropQueuedOf n).stopRunningOf n) rfl rfl rfl
  · exact ok

theorem teardownAtEntry (n : HostId) (p : PageId) : (s.teardownAtEntry n p).jobsOk := by
  simp only [State.teardownAtEntry]
  split
  · exact State.jobsOk.congr (ok.applyEntry p _) rfl rfl rfl
  · exact ok

theorem portOperationEnd (n : HostId) (failed : Bool) : (s.portOperationEnd n failed).jobsOk := by
  simp only [State.portOperationEnd]
  split
  · exact ok
  · split
    · exact State.jobsOk.congr (ok.applyEntry _ _) rfl rfl rfl
    · exact ok

theorem operationEnd (op : WordOp) : (s.operationEnd op).jobsOk := by
  simp only [State.operationEnd]
  split
  · exact State.jobsOk.portOperationEnd (by exact ok) _ _
  · exact State.jobsOk.engineOperationEnd (by exact ok) _ _

end State.jobsOk

/-- Device reset leaves no work (R117, R133). -/
theorem State.jobsOk_of_reset {s : State} (engine : s.engine = Engine.reset) (transit : s.transit = []) : s.jobsOk := by
  simp [State.jobsOk, State.workPlaces, engine, transit, Engine.reset]

/-! ## The rows of the table -/

/-- Every command keeps the engine queue in order and every place at one owner. -/
theorem State.jobsOk.exec {s t : State} (ok : s.jobsOk) {c : Instr} (h : Machine.exec c s = .next t) : t.jobsOk := by
  have row : ∀ {u : State}, Machine.exec c s = .next u → u.jobsOk → t.jobsOk := fun e ok =>
    Host.Outcome.next.inj (e.symm.trans h) ▸ ok
  cases c with
  | deviceResetAssert =>
    refine row rfl ?_
    simp only [State.resetAssert]
    split
    · exact ok
    · exact State.jobsOk_of_reset rfl rfl
  | deviceResetNegate straps =>
    refine row rfl ?_
    simp only [State.resetNegate]
    split
    · exact State.jobsOk_of_reset rfl rfl
    · exact ok
  | initializationSweepEnd =>
    refine row rfl ?_
    simp only [State.sweepEnd]
    split <;> exact ok
  | prstAssert n => exact row rfl (ok.prstAssert n)
  | prstNegate n => exact row rfl ok
  | attach n =>
    refine row rfl ?_
    simp only [State.attach]
    split_ifs <;> exact ok
  | detach n => exact row rfl (ok.attachedWrite n _)
  | teardownAtEngine n => exact row rfl (ok.teardownAtEngine n)
  | teardownAtEntry n p => exact row rfl (ok.teardownAtEntry n p)
  | portDetached n =>
    refine row rfl ?_
    split <;> exact ok
  | stagingWrite n k en data => exact row rfl (ok.attachedWrite n _)
  | submit n =>
    refine row rfl ?_
    simp only [State.submit]
    split_ifs <;> exact ok
  | takeCommand n => exact row rfl (ok.takeHead n _)
  | completionPop n => exact row rfl (ok.attachedWrite n _)
  | acquire k p => exact row rfl (ok.entryTakes k p _)
  | release k p => exact row rfl (ok.entryTakes k p _)
  | downgrade k p => exact row rfl (ok.entryTakes k p _)
  | cancel n => exact row rfl (ok.takeHead n _)
  | cancelRequest k p => exact row rfl (ok.entryTakes k p _)
  | fence n => exact row rfl (ok.takeHead n _)
  | flush k =>
    refine row rfl ?_
    split
    · rename_i arrives
      exact ok.taking (State.arrival_spec arrives).1 fun u ok _ => State.jobsOk.post (by exact ok.congr rfl rfl rfl) _ _
    · exact ok
  | copy k p =>
    refine row rfl ?_
    split
    · split_ifs
      · exact State.jobsOk.redirect (by exact ok) _ _
      · exact State.jobsOk.post (ok.dropTransit _) _ _
      · exact ok.dropTransit _
    · exact ok
  | copyDestinationCheck k p =>
    refine row rfl ?_
    split
    · rename_i arrives
      obtain ⟨dropped, free⟩ := ok.release_transit (State.arrival_spec arrives).1
      split_ifs
      · exact dropped.lastCheck (j := Job.fresh _ _ _) free rfl _ _
      · exact dropped.removeRefs _
    · exact ok
  | fill k p =>
    refine row rfl ?_
    split
    · rename_i arrives
      exact ok.taking (State.arrival_spec arrives).1 fun u ok free => ok.lastCheck (j := Job.fresh _ _ _) free rfl _ _
    · exact ok
  | checksum k p =>
    refine row rfl ?_
    split
    · rename_i arrives
      exact ok.taking (State.arrival_spec arrives).1 fun u ok free => ok.lastCheck (j := Job.fresh _ _ _) free rfl _ _
    · exact ok
  | jobQueueing k =>
    refine row rfl ?_
    split
    · exact ok
    · rename_i j arrives
      have mem := List.mem_of_find?_eq_some arrives
      obtain ⟨released, free⟩ := ok.release_arriving mem rfl
      exact released.queueJob free (ok.arriving_idle mem)
  | query k p => exact row rfl (ok.entryTakes k p _)
  | retire k p => exact row rfl (ok.entryTakes k p _)
  | restore k p =>
    refine row rfl ?_
    split
    · rename_i arrives
      exact ok.taking (State.arrival_spec arrives).1 fun u ok free => ok.restore free _
    · exact ok
  | scrubAdmission p =>
    refine row rfl ?_
    split
    · exact ok
    · rename_i j arrives
      have mem := List.mem_of_find?_eq_some arrives
      obtain ⟨released, free⟩ := ok.release_scrub mem rfl
      exact released.admitScrub free (ok.scrubs_idle mem)
  | scrubRefusal p =>
    refine row rfl ?_
    split
    · exact ok
    · exact (ok.release_refusal (List.mem_of_find?_eq_some ‹_›) rfl).1.applyEntry p _
  | setQuota k =>
    refine row rfl ?_
    split
    · rename_i arrives
      exact ok.taking (State.arrival_spec arrives).1 fun u ok _ => ok.setQuota _ _ _
    · exact ok
  | setRecallLimit k =>
    refine row rfl ?_
    split
    · rename_i arrives
      exact ok.taking (State.arrival_spec arrives).1 fun u ok _ => State.jobsOk.post (by exact ok.congr rfl rfl rfl) _ _
    · exact ok
  | waitTimeout k p => exact row rfl (ok.applyEntry p _)
  | recallDeadline p => exact row rfl (ok.applyEntry p _)
  | drainEnd p => exact row rfl (ok.applyEntry p _)
  | windowAccess n a d en data =>
    simp only [Machine.exec, execWindowAccess] at h
    split at h <;> cases h
    split_ifs <;> exact ok
  | accessCheck n =>
    refine row rfl ?_
    split
    · exact ok
    · split <;> exact ok
  | outOfRangeAccess n a d =>
    simp only [Machine.exec, execOutOfRangeAccess] at h
    split at h <;> cases h <;> split <;> exact ok
  | wordOperationEnd =>
    refine row rfl ?_
    split
    · exact ok
    · exact State.jobsOk.congr (ok.operationEnd _) rfl rfl rfl
  | jobStart => exact row rfl ok.startNext
  | engineAbortEvent which =>
    refine row rfl ?_
    split
    · exact ok
    · exact State.jobsOk.takeAbort (by exact ok) _
  | noticePop n => exact row rfl (ok.attachedWrite n _)
  | noticeLostClear n => exact row rfl (ok.attachedWrite n _)
  | faultPop n => exact row rfl (ok.attachedWrite n _)
  | overflowClear n => exact row rfl (ok.attachedWrite n _)
  | eventEnablesWrite n en data => exact row rfl (ok.attachedWrite n _)
  | windowMapEntryWrite n slot en data => exact row rfl (ok.attachedWrite n _)
  | registerWrite n a en data =>
    simp only [Machine.exec, execRegisterWrite] at h
    split at h
    · split at h <;> cases h
      split <;> exact ok
    all_goals cases h
  | timebaseAdvance =>
    refine row rfl ?_
    simp only [State.tick]
    split <;> exact ok
  | arrayUpset p w b flips parityFlips => exact row rfl ok

end Sys2Proof.Machine
end

section
/-! The engine queue stays in order. -/

namespace Sys2Proof.Proofs

open Sys2Proof Sys2Proof.Machine

/-- Settles O58: a command that goes from one owner to the next leaves the one before it joins the other, and only the
oldest job of the queue is ever started. -/
theorem engineQueueStaysInOrder : Obligations.EngineQueueStaysInOrder := by
  intro s t ok h
  rcases step_cases h with rfl | ⟨c, rest, e⟩
  · exact ok
  · exact State.jobsOk.exec (s := { s with pending := rest }) ok e

end Sys2Proof.Proofs
end

