-- ==== Sys2Proof/Proofs/HostWrites.lean ====
section
/-!
SUPPORT. The host's writes to its own port group (R67, R68, R80, R90, R149, R150, R154, R160, R180, R181): the bytes that a
storage word takes, and the port group at the start of DETACHING.
-/

namespace Sys2Proof.Machine

open Sys2Proof

/-! ## The bytes of a storage word (R181) -/

/-- A write replaces exactly the bytes whose enables are asserted. -/
theorem byte_mergeWord (en : BitVec 4) (old new : Word) (b : ByteIdx) :
    (mergeWord en old new).byte b = if en.getLsbD b.val then new.byte b else old.byte b := by
  rw [mergeWord, byte_ofBytes]
  match b with
  | 0 | 1 | 2 | 3 => rfl

/-- A bit of a word is the bit of its byte. -/
theorem getLsbD_of_byte (w : Word) (b : ByteIdx) {i : Nat} (hi : i < 8) :
    w.getLsbD (8 * b.val + i) = (w.byte b).getLsbD i := by
  simp [Word.byte, hi]

theorem getLsbD_mergeWord (en : BitVec 4) (old new : Word) (b : ByteIdx) {i : Nat} (hi : i < 8) :
    (mergeWord en old new).getLsbD (8 * b.val + i) =
      if en.getLsbD b.val then new.getLsbD (8 * b.val + i) else old.getLsbD (8 * b.val + i) := by
  rw [getLsbD_of_byte _ b hi, getLsbD_of_byte new b hi, getLsbD_of_byte old b hi, byte_mergeWord]
  split <;> rfl

/-- The five event bits lie in byte 0 (R154, R180). -/
theorem eventsOfWord_mergeWord (en : BitVec 4) (old new : Word) :
    eventsOfWord (mergeWord en old new) = if en.getLsbD 0 then eventsOfWord new else eventsOfWord old := by
  have bit : ∀ i, i < 8 → (mergeWord en old new).getLsbD i = if en.getLsbD 0 then new.getLsbD i else old.getLsbD i :=
    fun i hi => by simpa using getLsbD_mergeWord en old new 0 hi
  simp only [eventsOfWord, bit 0 (by decide), bit 1 (by decide), bit 2 (by decide), bit 3 (by decide), bit 4 (by decide)]
  split <;> rfl

/-- The event enables read back as they were written. -/
theorem eventsOfWord_eventsWord (e : Events) : eventsOfWord (eventsWord e) = e := by
  obtain ⟨cq, nq, nl, fr, fo⟩ := e
  revert cq nq nl fr fo
  decide

/-- The bound bit of a map entry is bit 31, its page byte 0 (R180). -/
theorem mapEntryOfWord_eq (w : Word) :
    mapEntryOfWord w = if w.getLsbD 31 then some (Fin.ofNat 256 (w.byte 0).toNat) else none := rfl

theorem mapEntryWord_bound (m : Option PageId) : (mapEntryWord m).getLsbD 31 = m.isSome := by
  cases m with
  | none => rfl
  | some p =>
    have top : (1#32 <<< 31).getLsbD 31 = true := by decide
    rw [mapEntryWord, BitVec.getLsbD_or, top]
    rfl

theorem mapEntryWord_page (m : Option PageId) : Fin.ofNat 256 ((mapEntryWord m).byte 0).toNat = m.getD 0 := by
  cases m with
  | none => rfl
  | some p =>
    have top : (1#32 <<< 31).extractLsb' 0 8 = 0#8 := by decide
    have low : ((mapEntryWord (some p)).byte 0).toNat = p.val := by
      show ((1#32 <<< 31 ||| BitVec.ofNat 32 p.val).extractLsb' 0 8).toNat = p.val
      rw [BitVec.extractLsb'_or, top, BitVec.zero_or, BitVec.extractLsb'_toNat, BitVec.toNat_ofNat]
      omega
    rw [low]
    exact Fin.ofNat_val_eq_self p

theorem mapEntryOfWord_mergeWord (en : BitVec 4) (m : Option PageId) (new : Word) :
    mapEntryOfWord (mergeWord en (mapEntryWord m) new) =
      if (if en.getLsbD 3 then new.getLsbD 31 else m.isSome) then
        some (if en.getLsbD 0 then Fin.ofNat 256 (new.byte 0).toNat else m.getD 0)
      else none := by
  have bound : (mergeWord en (mapEntryWord m) new).getLsbD 31 = if en.getLsbD 3 then new.getLsbD 31 else m.isSome := by
    rw [← mapEntryWord_bound m]
    exact getLsbD_mergeWord en (mapEntryWord m) new 3 (i := 7) (by decide)
  have page : Fin.ofNat 256 ((mergeWord en (mapEntryWord m) new).byte 0).toNat =
      if en.getLsbD 0 then Fin.ofNat 256 (new.byte 0).toNat else m.getD 0 := by
    rw [byte_mergeWord, ← mapEntryWord_page m]
    exact apply_ite (fun v : Byte => Fin.ofNat 256 v.toNat) _ _ _
  rw [mapEntryOfWord_eq, bound, page]

end Sys2Proof.Machine
end

section
/-! The host's writes to its own port group. -/

namespace Sys2Proof.Proofs

open Sys2Proof Sys2Proof.Machine

/-- Settles O9: the start of DETACHING leaves the reset values but for the fields that `emptied` names. -/
theorem detachStartsDetaching : Obligations.DetachStartsDetaching := by
  intro s n accepts
  refine ⟨fun attached => ?_, fun away => ?_⟩
  · exact congrArg Host.Outcome.next (State.attachedWrite_of_attached _ accepts attached)
  · exact congrArg Host.Outcome.next (State.attachedWrite_of_not_attached _ accepts away)

/-- Settles O14: the three storage words merge the enabled bytes; the events and the bound bit and page of a map entry are
read off the merged word. -/
theorem storageWordsTakeEnabledBytes : Obligations.StorageWordsTakeEnabledBytes := by
  intro s n k slot en data accepts
  have writes : ∀ f : PortGroup → PortGroup, (s.port n).phase = .attached →
      (.next (s.attachedWrite n f) : Host.Outcome State Fault Refusal) =
        .next (s.setPort n { f (s.port n) with answer := some ackWrite }) :=
    fun f attached => congrArg _ (State.attachedWrite_of_attached f accepts attached)
  refine ⟨fun attached => ⟨⟨_, writes _ attached, byte_mergeWord en _ data⟩, ?_, ?_⟩, fun away c hc => ?_⟩
  · refine (writes _ attached).trans ?_
    rw [eventsOfWord_mergeWord, eventsOfWord_eventsWord]
    rfl
  · refine (writes _ attached).trans ?_
    rw [mapEntryOfWord_mergeWord]
    rfl
  · rcases hc with rfl | rfl | rfl <;>
      exact congrArg Host.Outcome.next (State.attachedWrite_of_not_attached _ accepts away)

/-- Settles O15: the row SUBMIT by port state and room in the ring. -/
theorem submitAppendsTheStagedDescriptor : Obligations.SubmitAppendsTheStagedDescriptor := by
  intro s n accepts
  have row : exec (.submit n) s = .next (s.submit n) := rfl
  refine ⟨fun attached room => ?_, fun refused => ?_⟩
  · rw [row, State.submit, if_pos accepts, if_pos ⟨attached, room⟩, State.answer_eq, State.port_modifyPort_self,
      State.modifyPort_eq, State.setPort_setPort_self]
    rfl
  · have no : ¬((s.port n).phase = .attached ∧ (s.port n).ring.length < Config.ringSize) := fun ⟨attached, room⟩ =>
      refused.elim (fun away => away attached) fun full => Nat.lt_irrefl 16 (full.trans_lt room)
    rw [row, State.submit, if_pos accepts, if_neg no, State.answer_eq]

/-- Settles O21: each is a register write with its own effect on the group. -/
theorem popAndClearAnswer : Obligations.PopAndClearAnswer := by
  intro s n accepts
  refine ⟨fun attached => ?_, fun away c hc => ?_⟩
  · have writes : ∀ f : PortGroup → PortGroup, (.next (s.attachedWrite n f) : Host.Outcome State Fault Refusal) =
        .next (s.setPort n { f (s.port n) with answer := some ackWrite }) :=
      fun f => congrArg _ (State.attachedWrite_of_attached f accepts attached)
    rw [List.drop_one, List.drop_one]
    exact ⟨writes _, writes _, writes _⟩
  · rcases hc with rfl | rfl | rfl | rfl | rfl <;>
      exact congrArg Host.Outcome.next (State.attachedWrite_of_not_attached _ accepts away)

end Sys2Proof.Proofs
end

