-- ==== Sys2Proof/Proofs/RefusedTakes.lean ====
section
/-!
SUPPORT. The commands that the command unit completes itself (R73, R74, R76): the descriptors it refuses, and a FENCE.
-/

namespace Sys2Proof.Machine

open Sys2Proof

/-! ## Kind codes (R73, R182) -/

/-- The codes 0x00 and 0x0F to 0xFF name no kind. -/
theorem Kind.ofCode_eq_none {c : BitVec 8} (unknown : c.toNat = 0 ∨ 0x0E < c.toNat) : Kind.ofCode c = none := by
  simp only [Kind.ofCode]
  split
  case h_15 => rfl
  all_goals omega

/-- Every other code is the code of the kind it names. -/
theorem Kind.exists_of_code {c : BitVec 8} (pos : 1 ≤ c.toNat) (known : c.toNat ≤ 0x0E) : ∃ k : Kind, c = k.code := by
  match h : c.toNat with
  | 0 => omega
  | 1 => exact ⟨.acquire, BitVec.eq_of_toNat_eq h⟩
  | 2 => exact ⟨.release, BitVec.eq_of_toNat_eq h⟩
  | 3 => exact ⟨.downgrade, BitVec.eq_of_toNat_eq h⟩
  | 4 => exact ⟨.cancel, BitVec.eq_of_toNat_eq h⟩
  | 5 => exact ⟨.fence, BitVec.eq_of_toNat_eq h⟩
  | 6 => exact ⟨.flush, BitVec.eq_of_toNat_eq h⟩
  | 7 => exact ⟨.copy, BitVec.eq_of_toNat_eq h⟩
  | 8 => exact ⟨.fill, BitVec.eq_of_toNat_eq h⟩
  | 9 => exact ⟨.checksum, BitVec.eq_of_toNat_eq h⟩
  | 10 => exact ⟨.query, BitVec.eq_of_toNat_eq h⟩
  | 11 => exact ⟨.retire, BitVec.eq_of_toNat_eq h⟩
  | 12 => exact ⟨.restore, BitVec.eq_of_toNat_eq h⟩
  | 13 => exact ⟨.setQuota, BitVec.eq_of_toNat_eq h⟩
  | 14 => exact ⟨.setRecallLimit, BitVec.eq_of_toNat_eq h⟩
  | n + 15 => omega

theorem Kind.ofCode_code (k : Kind) : Kind.ofCode k.code = some k := by cases k <;> rfl

/-- The manager kinds are the four highest codes. -/
theorem Kind.isManager_iff (k : Kind) : k.isManager = true ↔ 0x0B ≤ k.code.toNat := by
  cases k <;> decide

/-! ## Arguments out of range (R74) -/

theorem pageOfField_eq_none {f : BitVec 16} (high : 255 < f.toNat) : pageOfField f = none := dif_neg (by omega)

theorem hostOfField_eq_none {f : BitVec 16} (high : 3 < f.toNat) : hostOfField f = none := dif_neg (by omega)

theorem modeOfField_eq_none {f : BitVec 2} (neither : f.toNat = 0 ∨ f.toNat = 3) : modeOfField f = none := by
  rcases neither with h | h <;> simp only [modeOfField, h]

/-- The arguments that the table of R74 refuses make no command. -/
theorem Descriptor.command_eq_none {d : Descriptor} {k : Kind} (kind : d.kindCode = k.code) (bad : d.badArguments) :
    d.command k = none := by
  rw [Descriptor.badArguments, kind] at bad
  have page : ∀ f : PageId → Command, 255 < (d.half 1).toNat → (pageOfField (d.half 1)).map f = none := fun f high => by
    rw [pageOfField_eq_none high, Option.map_none]
  cases k with
  | acquire =>
    rcases bad with high | mode
    · simp only [Descriptor.command, pageOfField_eq_none high]
    · simp only [Descriptor.command, modeOfField_eq_none mode]
      cases pageOfField (d.half 1) <;> rfl
  | release => exact page _ bad
  | downgrade => exact page _ bad
  | cancel => exact bad.elim
  | fence => exact bad.elim
  | flush =>
    have bad : 127 < (d.half 1).toNat ∨ (d.half 2).toNat = 0 ∨ 128 < (d.half 2).toNat ∨
      128 < (d.half 1).toNat + (d.half 2).toNat := bad
    exact if_neg (by omega)
  | copy =>
    rcases bad with high | high | same
    · simp only [Descriptor.command, pageOfField_eq_none high]
    · simp only [Descriptor.command, pageOfField_eq_none high]
      cases pageOfField (d.half 1) <;> rfl
    · simp only [Descriptor.command, same]
      cases pageOfField (d.half 2) with
      | none => rfl
      | some p => exact if_pos rfl
  | fill => exact page _ bad
  | checksum => exact page _ bad
  | query => exact page _ bad
  | retire => exact page _ bad
  | restore => exact page _ bad
  | setQuota =>
    rcases bad with high | limit
    · simp only [Descriptor.command, hostOfField_eq_none high]
    · simp only [Descriptor.command]
      split
      · exact if_neg (Nat.not_le.2 limit)
      · rfl
  | setRecallLimit =>
    have zero : (d.half 1).toNat = 0 := bad
    exact if_pos (BitVec.eq_of_toNat_eq zero)

/-! ## The checks in their order (R73, R74) -/

theorem checkCommand_of_unknown {d : Descriptor} (unknown : d.kindCode.toNat = 0 ∨ 0x0E < d.kindCode.toNat)
    (manager : Bool) : checkCommand manager d = .error .badCommand := by
  simp only [checkCommand, Kind.ofCode_eq_none unknown]

theorem checkCommand_of_no_privilege {d : Descriptor} (manages : 0x0B ≤ d.kindCode.toNat)
    (known : d.kindCode.toNat ≤ 0x0E) : checkCommand false d = .error .privilege := by
  obtain ⟨k, kind⟩ := Kind.exists_of_code (by omega) known
  have isManager : k.isManager = true := (Kind.isManager_iff k).2 (kind ▸ manages)
  simp [checkCommand, kind, Kind.ofCode_code, isManager]

theorem checkCommand_of_bad_arguments {d : Descriptor} {manager : Bool} (bad : d.badArguments)
    (permitted : d.kindCode.toNat < 0x0B ∨ (d.kindCode.toNat ≤ 0x0E ∧ manager = true)) :
    checkCommand manager d = .error .badCommand := by
  by_cases zero : d.kindCode.toNat = 0
  · exact checkCommand_of_unknown (.inl zero) manager
  · obtain ⟨k, kind⟩ := Kind.exists_of_code (c := d.kindCode) (by omega) (by omega)
    have privilege : (k.isManager && !manager) = false := by
      rcases permitted with low | ⟨-, rfl⟩
      · have plain : k.isManager = false := by
          rw [← Bool.not_eq_true, Kind.isManager_iff, ← kind]
          omega
        rw [plain, Bool.false_and]
      · simp
    rw [checkCommand, kind, Kind.ofCode_code]
    simp only [privilege, Bool.false_eq_true, if_false, Descriptor.command_eq_none kind bad]

theorem checkCommand_of_fence {d : Descriptor} (kind : d.kindCode = 0x05) (manager : Bool) :
    checkCommand manager d = .ok .fence :=
  checkCommand_of_kind (k := .fence) (by rw [kind]; rfl) (by simp [Kind.isManager]) rfl

/-! ## FENCE (R76) -/

/-- A FENCE with a command before it waits. -/
theorem PortGroup.settleFence_of_older {g : PortGroup} {older : List Taken} {t : Taken} (some : older ≠ [])
    (uncompleted : g.uncompleted = older ++ [t]) : g.settleFence = g := by
  simp only [PortGroup.settleFence]
  split
  · rename_i only
    have length := congrArg List.length (uncompleted.symm.trans only)
    have := List.length_pos_of_ne_nil some
    simp only [List.length_append, List.length_singleton] at length
    omega
  · rfl

/-- While a FENCE is uncompleted the ring of an ATTACHED port waits (R70). -/
theorem PortGroup.ringState_of_fence {g : PortGroup} (attached : g.phase = .attached) {t : Taken}
    (mem : t ∈ g.uncompleted) (fence : t.place.kind = Kind.fence.code) : g.ringState = .fenceWait := by
  have outstanding : g.fenceOutstanding = true := List.any_eq_true.2 ⟨t, mem, by simpa using fence⟩
  rw [PortGroup.ringState, if_neg (not_not.2 attached), if_pos outstanding]

/-- A FENCE taken while no command is uncompleted completes at once and leaves its record alone. -/
theorem PortGroup.settleFence_afterTake {g : PortGroup} {pl : Place} (none : g.uncompleted = [])
    (fence : pl.kind = Kind.fence.code) (rest : List Descriptor) (page : Option PageId) :
    (g.afterTake rest pl page).settleFence =
      { g with ring := rest, cq := g.cq ++ [completionOf pl (Reply.bare .ok)] } := by
  simp only [PortGroup.settleFence, PortGroup.afterTake, none, List.nil_append, fence, if_true]

end Sys2Proof.Machine
end

section
/-! The commands that the command unit completes itself. -/

namespace Sys2Proof.Proofs

open Sys2Proof Sys2Proof.Machine

/-- Settles O16: the checks refuse in the order kind, privilege, arguments, and the refusal is posted at the take. -/
theorem takeRefusesBadCommands : Obligations.TakeRefusesBadCommands := by
  intro s n d rest st ok running ring refused
  have check : checkCommand (s.port n).manager d = .error st := by
    rcases refused with ⟨unknown, rfl⟩ | ⟨⟨manages, known⟩, plain, rfl⟩ | ⟨permitted, bad, rfl⟩
    · exact checkCommand_of_unknown unknown _
    · exact plain ▸ checkCommand_of_no_privilege manages known
    · exact checkCommand_of_bad_arguments bad permitted
  refine congrArg Host.Outcome.next ?_
  rw [State.takeHead_of_running running ring rfl check]
  exact State.post_taken_command ok running d rest none st

/-- Settles O19: the take of the FENCE settles it against the commands uncompleted before it. -/
theorem fenceCompletesOrWaits : Obligations.FenceCompletesOrWaits := by
  intro s n d rest running ring kind
  have check := checkCommand_of_fence kind (s.port n).manager
  have attached := (PortGroup.attached_of_running running).1
  have take : ∀ wanted : Descriptor → Bool, wanted d = true → s.takeHead n wanted =
      ({ s with taken := s.taken + 1 } : State).setPort n
        ((s.port n).afterTake rest (s.placeFor n d) none).settleFence := fun wanted wants => by
    rw [State.takeHead_of_running running ring wants check]
    show (State.setPort _ n _).setPort n (State.port _ n).settleFence = _
    rw [State.port_setPort_self, State.setPort_setPort_self]
    rfl
  have row : exec (.fence n) s = .next (({ s with taken := s.taken + 1 } : State).setPort n
      ((s.port n).afterTake rest (s.placeFor n d) none).settleFence) :=
    congrArg Host.Outcome.next (take _ (by simp [kind, Kind.code]))
  refine ⟨(congrArg Host.Outcome.next (take _ rfl)).trans row.symm, fun none => ?_, fun older => ?_⟩
  · rw [row, PortGroup.settleFence_afterTake none kind]
    rfl
  · rw [PortGroup.settleFence_of_older older rfl] at row
    refine ⟨_, row, ?_, rfl⟩
    rw [State.port_setPort_self]
    exact PortGroup.ringState_of_fence attached (t := ⟨s.placeFor n d, none⟩) (by simp [PortGroup.afterTake]) kind

end Sys2Proof.Proofs
end

