-- ==== Sys2Proof/Proofs/JobAdmission.lean ====
section
/-!
SUPPORT. The way of a job or a scrub into the engine queue and its start there (R75, R119, R121, R123, R124, R132, R175).
-/

namespace Sys2Proof.Machine

open Sys2Proof

/-! ## Whose turn it is at the engine (R75, R121) -/

theorem State.engineTurn_eq_false_iff (s : State) (pl : Place) : s.engineTurn pl = false ↔ ¬s.firstForEngine pl := by
  rw [← State.engineTurn_iff, Bool.not_eq_true]

/-- The engine takes the job of the host that was dispatched first. -/
theorem State.engineArrival_of_first {s : State} {h : HostId} {j : Job} {older newer : List Job}
    (arriving : s.engine.arriving = older ++ j :: newer) (host : j.place.host = h)
    (later : ∀ k ∈ older, k.place.host = h → j.place.seq < k.place.seq) (first : s.firstForEngine j.place) :
    s.engineArrival h = some j := by
  refine List.find?_eq_some_iff_append.2 ⟨?_, older, newer, arriving, fun k hk => ?_⟩
  · simp [host, (s.engineTurn_iff j.place).2 first]
  · by_cases mine : k.place.host = h
    · have waits : s.engineTurn k.place = false := (s.engineTurn_eq_false_iff _).2 fun turn => by
        have older : k.place.seq ≤ j.place.seq := turn.2 j (by simp [arriving]) (host.trans mine.symm)
        exact Nat.lt_irrefl _ ((later k hk mine).trans_le older)
      simp [waits]
    · simp [mine]

theorem State.engineArrival_eq_none {s : State} {h : HostId}
    (none : ∀ j ∈ s.engine.arriving, j.place.host = h → ¬s.firstForEngine j.place) : s.engineArrival h = .none := by
  refine List.find?_eq_none.2 fun j hj => ?_
  by_cases mine : j.place.host = h
  · simp [(s.engineTurn_eq_false_iff _).2 (none j hj mine)]
  · simp [mine]

/-- The scrub of a page that the engine takes (R132). -/
theorem State.scrubArrival_of_first {s : State} {p : PageId} {j : Job} {older newer : List Job}
    (scrubs : s.engine.scrubs = older ++ j :: newer) (target : j.target = p) (other : ∀ k ∈ older, k.target ≠ p)
    (first : s.firstForEngine j.place) : s.scrubArrival p = some j := by
  refine List.find?_eq_some_iff_append.2 ⟨?_, older, newer, scrubs, fun k hk => ?_⟩
  · simp [target, (s.engineTurn_iff j.place).2 first]
  · simp [other k hk]

theorem State.scrubArrival_eq_none {s : State} {p : PageId}
    (none : ∀ j ∈ s.engine.scrubs, j.target = p → ¬s.firstForEngine j.place) : s.scrubArrival p = .none := by
  refine List.find?_eq_none.2 fun j hj => ?_
  by_cases mine : j.target = p
  · simp [(s.engineTurn_eq_false_iff _).2 (none j hj mine)]
  · simp [mine]

/-! ## The references of a job (R11, R121, R123) -/

theorem State.removeRefs_frame (s : State) (j : Job) : s.removeRefs j = { s with pages := (s.removeRefs j).pages } := by
  rcases s.removeRefs_cases j with ⟨source, -, h⟩ | ⟨-, h⟩ | ⟨-, -, h⟩ <;> rw [h] <;> rfl

/-- A job that is gone has no reference left, a scrub neither (R11, R176). -/
theorem State.place_ne_of_removeRefs {s : State} {j : Job} {p : PageId} (mem : p ∈ j.pages) :
    ∀ r ∈ ((s.removeRefs j).page p).refs, r.place ≠ j.place := by
  have left : ((s.removeRefs j).page p).refs = (s.page p).refs.filter fun r => r.place ≠ j.place := by
    by_cases scrub : j.work = .scrub
    · have target : p = j.target := by
        rw [Job.pages_of_not_copy (by simp [scrub])] at mem
        exact List.mem_singleton.1 mem
      rw [s.removeRefs_scrub scrub, target, State.page_modifyPage_self]
      rfl
    · rw [s.page_removeRefs scrub, if_pos mem]
  rw [left]
  exact fun r hr => by simpa using (List.mem_filter.1 hr).2

theorem State.refMarked_iff (s : State) (j : Job) :
    s.refMarked j = true ↔ ∃ p ∈ j.pages, ∃ r ∈ (s.page p).refs, r.place = j.place ∧ r.marked = true := by
  simp [State.refMarked, Entry.hasMarkedRef]

theorem State.refMarked_eq_false_iff (s : State) (j : Job) :
    s.refMarked j = false ↔ ∀ p ∈ j.pages, ∀ r ∈ (s.page p).refs, r.place = j.place → r.marked = false := by
  simp [State.refMarked, Entry.hasMarkedRef]

theorem Entry.runRef_runRef (e : Entry) (job : Place) : (e.runRef job).runRef job = e.runRef job := by
  simp only [Entry.runRef, List.map_map]
  congr 1
  refine List.map_congr_left fun r _ => ?_
  by_cases mine : r.place = job <;> simp [mine]

/-- The running flag is set in the job's references on every page that it names (R123). -/
theorem State.page_runRefs (s : State) (j : Job) (p : PageId) :
    (s.runRefs j).page p = if p ∈ j.pages then (s.page p).runRef j.place else s.page p := by
  simp only [State.runRefs]
  induction j.pages generalizing s with
  | nil => rfl
  | cons q ps ih =>
    rw [List.foldl_cons, ih, State.page_modifyPage]
    by_cases here : p = q
    · subst here
      simp [Entry.runRef_runRef]
    · simp [here]

/-! ## The engine takes a job (R121 steps 3 to 5) -/

theorem State.current_iff (s : State) (pl : Place) :
    s.current pl = true ↔ (s.port pl.host).session = some pl.session := decide_eq_true_iff

section Queueing

variable {s : State} {j : Job}

theorem State.queueJob_of_ended (ended : s.current j.place = false) : s.queueJob j = s.removeRefs j := by
  simp [State.queueJob, ended]

theorem State.queueJob_of_marked (current : s.current j.place = true) (marked : s.refMarked j = true) :
    s.queueJob j = (s.removeRefs j).completeJob j .aborted := by
  simp [State.queueJob, current, marked]

variable (current : s.current j.place = true) (unmarked : s.refMarked j = false)

include current unmarked

theorem State.queueJob_of_full (full : Config.engineQueueSize ≤ s.engine.queue.length) :
    s.queueJob j = (s.removeRefs j).completeJob j .engineFull := by
  simp [State.queueJob, current, unmarked, full]

theorem State.queueJob_of_room (room : s.engine.queue.length < Config.engineQueueSize) :
    s.queueJob j = s.setQueue (s.engine.queue ++ [j]) := by
  simp [State.queueJob, current, unmarked, Nat.not_le.2 room]

end Queueing

theorem State.exec_jobQueueing {s : State} {h : HostId} {j : Job} (arrives : s.engineArrival h = some j) {e : Engine}
    (left : e = { s.engine with arriving := s.engine.arriving.filter fun k => k.place ≠ j.place }) :
    exec (.jobQueueing h) s = .next (({ s with engine := e } : State).queueJob j) := by
  subst left
  simp only [exec, execJobQueueing, arrives]
  rfl

/-- What an engine that refuses a job makes of the state: the references go and the completion is posted. -/
theorem State.completeJob_removeRefs (s : State) (e : Engine) (j : Job) (st : Status) :
    ((({ s with engine := e } : State).removeRefs j).completeJob j st).ports = (s.post j.place (j.reply st)).ports ∧
      (({ s with engine := e } : State).removeRefs j).completeJob j st =
        { s with
          pages := ((({ s with engine := e } : State).removeRefs j).completeJob j st).pages
          ports := ((({ s with engine := e } : State).removeRefs j).completeJob j st).ports
          engine := e } := by
  refine ⟨State.post_ports_congr ?_ _ _, ?_⟩
  · rw [State.removeRefs_frame]
  · rw [State.completeJob, State.post_frame, State.removeRefs_frame]

/-! ## The start of the oldest job (R123) -/

theorem State.exec_jobStart_of_idle {s : State} (idle : ∀ k ∈ s.engine.queue, k.running = false) :
    exec .jobStart s = .next (s.startFrom s.engine.queue) := by
  have none : s.engine.running = none := List.find?_eq_none.2 fun k hk => by simp [idle k hk]
  simp only [exec, execJobStart, State.startNext, none]

theorem State.startFrom_of_unmarked {s : State} {j : Job} {js : List Job} (unmarked : j.marked = false) :
    s.startFrom (j :: js) =
      ((s.setQueue ({ j with running := true } :: js)).runRefs j).request j.request := by
  simp only [State.startFrom]
  exact if_neg (by simp [unmarked])

theorem State.startFrom_of_marked {s : State} {j : Job} {js : List Job} (marked : j.marked = true) :
    s.startFrom (j :: js) = ((s.removeRefs j).completeJob j .aborted).startFrom js := by
  rw [State.startFrom, if_pos marked]

end Sys2Proof.Machine
end

section
/-! The way of jobs and scrubs into the engine queue. -/

namespace Sys2Proof.Proofs

open Sys2Proof Sys2Proof.Machine

/-- Settles O49: the four outcomes of R121 in their order, and the start of the oldest job. -/
theorem jobsAreQueuedAndStarted : Obligations.JobsAreQueuedAndStarted := by
  refine ⟨fun j => ⟨fun small => ?_, fun pattern work => ?_, fun work => ?_, fun c work => ?_, fun src work => ?_⟩,
    fun s h j older newer arriving host later first noScrub e he => ?_, fun s h none => ?_,
    fun s j js queue idle => ⟨fun unmarked => ?_, fun marked only => ?_⟩⟩
  · exact Nat.mod_eq_of_lt (by omega)
  · simp only [Job.request, work, engineWrite]
  · simp only [Job.request, work, engineWrite]
  · simp only [Job.request, work, engineRead]
  · cases held : j.held <;> simp only [Job.request, work, held, engineRead, engineWrite]
  · have row := State.exec_jobQueueing (State.engineArrival_of_first arriving host later first) he
    have session : ({ s with engine := e } : State).current j.place = true ↔
        (s.port h).session = some j.place.session := host ▸ State.current_iff _ _
    have unmarked_iff := ({ s with engine := e } : State).refMarked_eq_false_iff j
    have queue : e.queue = s.engine.queue := by rw [he]
    have pages : ∀ p, (({ s with engine := e } : State).removeRefs j).page p =
        if p ∈ j.pages then { s.page p with refs := (s.page p).refs.filter fun r => r.place ≠ j.place } else s.page p :=
      State.page_removeRefs _ noScrub
    refine ⟨fun current unmarked room => ?_, ?_⟩
    · rw [row, State.queueJob_of_room (session.2 current) (unmarked_iff.2 unmarked) (by rw [queue]; exact room)]
      subst he
      rfl
    · cases current : ({ s with engine := e } : State).current j.place with
      | false =>
        have ended : (s.port h).session ≠ some j.place.session := fun same => by simp [session.2 same] at current
        rw [State.queueJob_of_ended current] at row
        exact ⟨_, by rw [State.removeRefs_frame], pages, fun _ => ⟨by rw [State.removeRefs_frame], row⟩,
          fun same => absurd same ended, fun same => absurd same ended⟩
      | true =>
        have present := session.1 current
        cases mark : ({ s with engine := e } : State).refMarked j with
        | true =>
          obtain ⟨ports, frame⟩ := s.completeJob_removeRefs e j .aborted
          rw [State.queueJob_of_marked current mark] at row
          refine ⟨_, frame, fun p => (State.page_post ..).trans (pages p), absurd present, fun _ _ => ⟨ports, row⟩,
            fun _ unmarked => ?_⟩
          simp [unmarked_iff.2 unmarked] at mark
        | false =>
          obtain ⟨ports, frame⟩ := s.completeJob_removeRefs e j .engineFull
          refine ⟨_, frame, fun p => (State.page_post ..).trans (pages p), absurd present, fun _ marked => ?_,
            fun _ _ full => ⟨ports, ?_⟩⟩
          · exact absurd ((State.refMarked_iff { s with engine := e } j).2 marked) (by simp [mark])
          · rw [row, State.queueJob_of_full current mark (by rw [queue]; exact full)]
  · have none : s.engineArrival h = .none := State.engineArrival_eq_none none
    simp only [exec, execJobQueueing, none]
  · have row := State.exec_jobStart_of_idle (queue.symm ▸ idle)
    rw [queue, State.startFrom_of_unmarked unmarked] at row
    refine ⟨_, row, ?_, ?_, fun p => ?_⟩
    · rw [State.runRefs_frame]
      rfl
    · rw [State.runRefs_frame]
      rfl
    · rw [State.page_request, State.page_runRefs]
      rfl
  · have row := State.exec_jobStart_of_idle (queue.symm ▸ idle)
    rw [queue, only, State.startFrom_of_marked marked, State.startFrom] at row
    obtain ⟨ports, -⟩ := s.completeJob_removeRefs s.engine j .aborted
    refine ⟨_, row, ?_, ?_, ?_, fun p mem => ?_⟩
    · have engine : ((s.removeRefs j).completeJob j .aborted).engine = s.engine := by
        rw [State.completeJob, State.post_engine, State.removeRefs_engine]
      rw [State.setQueue, State.modifyEngine_engine, engine]
    · rw [State.setQueue_arbiter, State.completeJob, State.post_arbiter, State.removeRefs_arbiter]
    · exact State.port_congr ports _
    · rw [State.page_setQueue, State.completeJob, State.page_post]
      exact State.place_ne_of_removeRefs mem

/-- Settles O38: the row RESTORE by the page's state, the two outcomes at the engine, and the refusal at the entry. -/
theorem restoreRunsAScrub : Obligations.RestoreRunsAScrub := by
  refine ⟨fun s h p pl d => ?_, fun s p j older newer scrubs target other first => ?_, fun s p none => ?_,
    fun s p j refusal scrub => ?_⟩
  · have row : exec (.restore h p) s = .next ((s.dropTransit pl).restore p pl) := by
      simp only [exec, execRestore, d.1, d.taking]
    refine ⟨fun retired => ?_, fun other => ?_⟩
    · have retired : ((s.dropTransit pl).page p).state = .retired := retired
      rw [row, State.restore, if_pos retired]
      rfl
    · have other : ((s.dropTransit pl).page p).state ≠ .retired := other
      rw [row, State.restore, if_neg other]
      exact congrArg Host.Outcome.next (d.post _ rfl)
  · have row : exec (.scrubAdmission p) s = .next
        ((s.modifyEngine fun g => { g with scrubs := g.scrubs.filter fun k => k.place ≠ j.place }).admitScrub j) := by
      simp only [exec, execScrubAdmission, State.scrubArrival_of_first scrubs target other first]
    subst target
    refine ⟨fun room => ?_, fun full => ?_⟩
    · rw [row, State.admitScrub, if_pos (by exact room)]
      rfl
    · rw [row, State.admitScrub, if_neg (by exact Nat.not_lt.2 full)]
      rfl
  · simp only [exec, execScrubAdmission, State.scrubArrival_eq_none none]
  · simp only [exec, execScrubRefusal, refusal]
    simp only [Entry.scrubRefused, scrub, if_true]
    rfl

end Sys2Proof.Proofs
end

