-- ==== Sys2Proof/Proofs/WindowAccesses.lean ====
section
/-!
SUPPORT. A window access from its start to its end (R86 to R103, R108): the address it decodes, its translation, its
check, the faults it records, the end of its write, its abandonment by PRSTn, and the FLUSH of the cache it reads.
-/

namespace Sys2Proof.Machine

open Sys2Proof

/-! ## Addresses of the window (R86) -/

/-- The window starts at 0x20000; a slot takes 1024 bytes of it, a word 4, and the two low bits are disregarded. -/
theorem decodeAddress_of_window (slot : SlotId) (w : WordIdx) (low : Fin 4) :
    decodeAddress (BitVec.ofNat 18 (0x20000 + 1024 * slot.val + 4 * w.val + low.val)) = .window slot w := by
  have value : (BitVec.ofNat 18 (0x20000 + 1024 * slot.val + 4 * w.val + low.val)).toNat =
      0x20000 + (1024 * slot.val + (4 * w.val + low.val)) := by
    rw [BitVec.toNat_ofNat]
    omega
  have slotPart : (1024 * slot.val + (4 * w.val + low.val)) / 1024 = slot.val := by omega
  have wordPart : (1024 * slot.val + (4 * w.val + low.val)) % 1024 / 4 = w.val := by omega
  rw [decodeAddress, value, if_neg (by omega), if_neg (by omega), Nat.add_sub_cancel_left, slotPart, wordPart,
    Fin.ofNat_val_eq_self, Fin.ofNat_val_eq_self]

/-! ## The translation cache (R91 to R93, R95) -/

section Slot

variable {cache : List (SlotId × PageId)} {slot : SlotId} (miss : ∀ c ∈ cache, c.1 ≠ slot)

include miss

theorem find_slot_eq_none : (cache.find? fun c => c.1 = slot) = none := by simpa using miss

theorem filter_slot_eq_self : (cache.filter fun c => c.1 ≠ slot) = cache := List.filter_eq_self.2 (by simpa using miss)

theorem cacheLookup_eq_none : cacheLookup cache slot = none := by
  rw [cacheLookup, find_slot_eq_none miss, Option.map_none]

end Slot

/-- In a cache with one entry a slot, no other entry is of the slot of a given one. -/
theorem slots_apart {newer older : List (SlotId × PageId)} {slot : SlotId} {p : PageId}
    (slots : ((newer ++ (slot, p) :: older).map Prod.fst).Nodup) :
    (∀ c ∈ newer, c.1 ≠ slot) ∧ ∀ c ∈ older, c.1 ≠ slot := by
  rw [List.map_append, List.map_cons, List.nodup_middle, List.nodup_cons, List.mem_append, not_or] at slots
  obtain ⟨⟨before, behind⟩, -⟩ := slots
  exact ⟨fun c mem same => before (List.mem_map.2 ⟨c, mem, same⟩),
    fun c mem same => behind (List.mem_map.2 ⟨c, mem, same⟩)⟩

section Translation

variable {g : PortGroup} {slot : SlotId} {p : PageId}

/-- A hit moves the entry to the most recent end (R92). -/
theorem PortGroup.translate_of_hit {newer older : List (SlotId × PageId)} (hit : g.cache = newer ++ (slot, p) :: older)
    (slots : (g.cache.map Prod.fst).Nodup) : g.translate slot = some (p, (slot, p) :: (newer ++ older)) := by
  rw [hit] at slots
  obtain ⟨before, behind⟩ := slots_apart slots
  have lookup : cacheLookup g.cache slot = some p := by
    rw [cacheLookup, hit, List.find?_append, find_slot_eq_none before, Option.none_or,
      List.find?_cons_of_pos (by simp), Option.map_some]
  have touch : cacheTouch g.cache slot p = (slot, p) :: (newer ++ older) := by
    rw [cacheTouch, hit, List.filter_append, List.filter_cons_of_neg (by simp), filter_slot_eq_self before,
      filter_slot_eq_self behind]
  simp only [PortGroup.translate, lookup, touch]

section Miss

variable (miss : ∀ c ∈ g.cache, c.1 ≠ slot)

include miss

/-- A miss of a bound slot fills; of a full cache the least recently used entry goes (R93). -/
theorem PortGroup.translate_of_fill (bound : g.map[slot] = some p) :
    g.translate slot = some (p, (slot, p) :: g.cache.take 7) := by
  have fill : cacheFill g.cache slot p = (slot, p) :: g.cache.take 7 := by
    rw [cacheFill, cacheTouch, filter_slot_eq_self miss]
    rfl
  simp only [PortGroup.translate, cacheLookup_eq_none miss, bound, fill]

theorem PortGroup.translate_of_unbound (unbound : g.map[slot] = none) : g.translate slot = none := by
  simp only [PortGroup.translate, cacheLookup_eq_none miss, unbound]

end Miss

/-- A translated access goes to its check with the cache after it (R92). -/
theorem PortGroup.windowAccess_of_translate {cache : List (SlotId × PageId)}
    (translated : g.translate slot = some (p, cache)) (w : WordIdx) (d : Dir) (en : BitVec 4) (data : Word) :
    g.windowAccess slot w d en data =
      { g with
        cache := cache
        access := some { slot := slot, word := w, page := p, dir := d, enables := en, data := dataOf d data }
        answer := none } := by
  simp only [PortGroup.windowAccess, translated]

theorem PortGroup.windowAccess_of_unbound (untranslated : g.translate slot = none) (w : WordIdx) (d : Dir)
    (en : BitVec 4) (data : Word) :
    g.windowAccess slot w d en data =
      { (g.recordFault .unmapped (some slot) none d) with answer := some .errorResponse } := by
  simp only [PortGroup.windowAccess, untranslated]

end Translation

/-- A FLUSH of up to 8 slots keeps the entries outside its range (R95). -/
theorem flushCache_of_range (cache : List (SlotId × PageId)) (first : Nat) {count : Nat} (few : count ≤ 8) :
    flushCache cache first count = cache.filter fun c => c.1.val < first || first + count ≤ c.1.val := by
  rw [flushCache, if_pos (by exact few)]
  refine List.filter_congr fun c _ => ?_
  rw [← Bool.decide_or, decide_eq_decide]
  omega

/-- A FLUSH of more than 8 slots empties the cache (R95). -/
theorem flushCache_of_all (cache : List (SlotId × PageId)) (first : Nat) {count : Nat} (many : 9 ≤ count) :
    flushCache cache first count = [] := if_neg (Nat.not_le.2 many)

/-! ## The start of a window access (R87, R92) -/

section Start

variable {s : State} {n : HostId} {a : BitVec 18} {slot : SlotId} {w : WordIdx} (accepts : s.accepts n = true)
  (window : decodeAddress a = .window slot w) (d : Dir) (en : BitVec 4) (data : Word)

include accepts window

theorem State.exec_windowAccess_of_attached (attached : (s.port n).phase = .attached) :
    exec (.windowAccess n a d en data) s = .next (s.setPort n ((s.port n).windowAccess slot w d en data)) := by
  simp only [exec, execWindowAccess, window, accepts, attached, if_true, State.modifyPort_eq]

theorem State.exec_windowAccess_of_not_attached (away : (s.port n).phase ≠ .attached) :
    exec (.windowAccess n a d en data) s = .next (s.setPort n { s.port n with answer := some .errorResponse }) := by
  simp only [exec, execWindowAccess, window, accepts, if_true, if_neg away, State.answer_eq]

end Start

/-! ## The access check (R97) -/

/-- The three refusals of the check, in their order. -/
theorem Entry.checkAccess_eq_some {e : Entry} {h : HostId} {d : Dir} {k : FaultKind}
    (refused : ((e.state = .retired ∨ e.state = .scrub) ∧ k = .retired) ∨
      (e.state ≠ .retired ∧ e.state ≠ .scrub ∧
        ((e.mode h = none ∧ k = .notHeld) ∨ (e.mode h = some .S ∧ d = .write ∧ k = .readOnly)))) :
    e.checkAccess h d = some k := by
  obtain ⟨gone, rfl⟩ | ⟨retired, scrub, held⟩ := refused
  · exact if_pos gone
  have present : ¬(e.state = .retired ∨ e.state = .scrub) := by simp [retired, scrub]
  obtain ⟨unheld, rfl⟩ | ⟨shared, write, rfl⟩ := held
  · rw [Entry.checkAccess, if_neg present, if_pos (by simp [(e.not_holds_iff h).2 unheld])]
  · have holdsS := (e.holdsS_iff h).2 shared
    rw [Entry.checkAccess, if_neg present, if_neg (by simp [Entry.holds_of_holdsS holdsS]), if_pos ⟨write, holdsS⟩]

/-- An access that the holding permits passes the check on a page in use. -/
theorem Entry.checkAccess_of_permitted {e : Entry} {h : HostId} {d : Dir} (retired : e.state ≠ .retired)
    (scrub : e.state ≠ .scrub) (permitted : e.mode h = some .X ∨ (e.mode h = some .S ∧ d = .read)) :
    e.checkAccess h d = none := by
  have present : ¬(e.state = .retired ∨ e.state = .scrub) := by simp [retired, scrub]
  have holds : e.holds h = true := by
    rw [Entry.holds_iff]
    rcases permitted with exclusive | ⟨shared, -⟩
    · simp [exclusive]
    · simp [shared]
  have readable : ¬(d = .write ∧ e.holdsS h = true) := by
    rintro ⟨rfl, shared⟩
    rw [Entry.holdsS_iff] at shared
    simp [shared] at permitted
  rw [Entry.checkAccess, if_neg present, if_neg (by simp [holds]), if_neg readable]

section Check

variable {s : State} {n : HostId} {a : WindowAccess} (access : (s.port n).access = some a)

include access

theorem State.exec_accessCheck_of_fault {k : FaultKind} (refused : (s.page a.page).checkAccess n a.dir = some k) :
    exec (.accessCheck n) s = .next (s.failCheck n a k) := by
  simp only [exec, execAccessCheck, access, refused]

theorem State.exec_accessCheck_of_pass (passed : (s.page a.page).checkAccess n a.dir = none) :
    exec (.accessCheck n) s = .next (s.passCheck n a) := by
  simp only [exec, execAccessCheck, access, passed]

end Check

/-! ## The fault unit (R137 to R139) -/

section Faults

variable {g : PortGroup} {kind : FaultKind} {slot : Option SlotId} {d : Dir} (page : Option PageId)

/-- No fault reaches the unit of a port that is not ATTACHED (R137). -/
theorem PortGroup.recordFault_of_not_attached (away : g.phase ≠ .attached) : g.recordFault kind slot page d = g :=
  if_pos away

/-- The newest record takes no fault of another kind, slot or direction (R139). -/
theorem PortGroup.newest_not_matches
    (other : ∀ r ∈ g.faults.getLast?, ¬(r.kind = kind ∧ r.slot = slot ∧ r.dir = d)) :
    (g.faults.getLast?.map fun r => r.matches kind slot d) ≠ some true := by
  intro folds
  obtain ⟨r, newest, same⟩ := Option.map_eq_some_iff.1 folds
  refine other r newest ?_
  simpa [FaultRecord.matches, and_assoc] using same

section Attached

variable (attached : g.phase = .attached)

include attached

/-- During overflow every fault is discarded (R138). -/
theorem PortGroup.recordFault_of_overflow (overflow : g.overflow = true) : g.recordFault kind slot page d = g := by
  rw [PortGroup.recordFault, if_neg (not_not.2 attached), if_pos overflow]

variable (room : g.overflow = false)

include room

/-- A fault like the newest one is counted in its record (R139). -/
theorem PortGroup.recordFault_of_newest {older : List FaultRecord} {r : FaultRecord} (faults : g.faults = older ++ [r])
    (same : r.kind = kind ∧ r.slot = slot ∧ r.dir = d) :
    g.recordFault kind slot page d =
      { g with faults := older ++ [{ r with count := if r.count < 255 then r.count + 1 else r.count }] } := by
  have folds : (g.faults.getLast?.map fun r => r.matches kind slot d) = some true := by
    simp [faults, FaultRecord.matches, same]
  rw [PortGroup.recordFault, if_neg (not_not.2 attached), if_neg (by simp [room]), if_pos folds, faults,
    List.dropLast_concat, List.getLast?_concat]
  rfl

/-- A fault unlike the newest one is recorded in a file with room, and otherwise sets the overflow flag (R138). -/
theorem PortGroup.recordFault_of_other
    (other : ∀ r ∈ g.faults.getLast?, ¬(r.kind = kind ∧ r.slot = slot ∧ r.dir = d)) :
    g.recordFault kind slot page d =
      if g.faults.length < 4 then
        { g with faults := g.faults ++ [{ kind := kind, slot := slot, page := page, dir := d, count := 1 }] }
      else { g with overflow := true } := by
  rw [PortGroup.recordFault, if_neg (not_not.2 attached), if_neg (by simp [room]),
    if_neg (PortGroup.newest_not_matches other)]
  rfl

end Attached

end Faults

/-- An access in neither area or to an undefined offset: its fault, and the error response (R88). -/
theorem State.exec_outOfRangeAccess {s : State} {n : HostId} {a : BitVec 18} (accepts : s.accepts n = true)
    (outside : decodeAddress a = .neither ∨ decodeAddress a = .undefinedOffset) (d : Dir) :
    exec (.outOfRangeAccess n a d) s =
      .next
        (s.setPort n { (s.port n).recordFault .range none none d with answer := some .errorResponse }) := by
  have row : exec (.outOfRangeAccess n a d) s =
      .next ((s.modifyPort n fun g => g.recordFault .range none none d).answer n .errorResponse) := by
    rcases outside with area | area <;> simp only [exec, execOutOfRangeAccess, area, accepts, if_true]
  rw [row, State.answer_eq, State.port_modifyPort_self, State.modifyPort_eq, State.setPort_setPort_self]

/-! ## PRSTn on a port with an access in flight (R102, R161) -/

/-- The change of a port group that has just been written, beside any change of the arbiter. -/
theorem State.modifyPort_setPort_self (s : State) (n : HostId) (g : PortGroup) (a : Arbiter)
    (f : PortGroup → PortGroup) :
    ({ s.setPort n g with arbiter := a } : State).modifyPort n f = { s.setPort n (f g) with arbiter := a } := by
  have port : ({ s.setPort n g with arbiter := a } : State).port n = g := s.port_setPort_self n g
  rw [State.modifyPort_eq, port]
  exact congrArg (fun t : State => { t with arbiter := a }) (s.setPort_setPort_self n g (f g))

theorem PortGroup.startDetaching_eq_emptied (g : PortGroup) : g.startDetaching = g.emptied := rfl

/-- The start of DETACHING keeps the level of PRSTn, the answer and the access in flight. -/
theorem PortGroup.emptied_with (g : PortGroup) (prst : Bool) (answer : Option Answer) (inFlight : Option InFlight) :
    ({ g with prst := prst, answer := answer, inFlight := inFlight } : PortGroup).emptied =
      { g.emptied with prst := prst, answer := answer, inFlight := inFlight } := by
  simp only [PortGroup.emptied]

/-- The operation at the store is the port's exactly in the stage PERFORMING (R99). -/
theorem State.performs_of_stage {s : State} {n : HostId} {stage : Stage} (h : s.stage n = some stage) :
    s.arbiter.performs (.port n) = decide (stage = .performing) := by
  obtain ⟨r, -, rfl⟩ := Option.map_eq_some_iff.1 h
  cases s.arbiter.performs (.port n) <;> rfl

section Abandon

variable {s : State} {n : HostId} {g : PortGroup}

theorem State.abandon_of_none (none : g.inFlight = none) : (s.setPort n g).abandon n = s.setPort n g := by
  simp only [State.abandon, State.port_setPort_self, none]

variable {r : InFlight} (inFlight : g.inFlight = some r)

include inFlight

/-- An access that is being performed is marked and left to complete (R102). -/
theorem State.abandon_of_performing (stage : s.stage n = some .performing) :
    (s.setPort n g).abandon n = s.setPort n { g with inFlight := some { r with abandoned := true } } := by
  have performs : s.arbiter.performs (.port n) = true := State.performs_of_stage stage
  simp only [State.abandon, State.port_setPort_self, inFlight, State.setPort_arbiter, performs, if_true,
    State.modifyPort_eq, State.setPort_setPort_self]

/-- An access that awaits the store leaves it, its page and its port (R102, R112). -/
theorem State.abandon_of_awaiting (stage : s.stage n = some .awaiting) :
    (s.setPort n g).abandon n =
      { (s.setPage r.page ((s.page r.page).setPair n none)).setPort n { g with inFlight := none } with
        arbiter := s.arbiter.withdraw (.port n) } := by
  have awaits : s.arbiter.performs (.port n) = false := State.performs_of_stage stage
  simp only [State.abandon, State.port_setPort_self, inFlight, State.setPort_arbiter, awaits, Bool.false_eq_true,
    if_false]
  exact State.modifyPort_setPort_self (s.setPage r.page ((s.page r.page).setPair n none)) n g _ _

end Abandon

section Prst

variable {s : State} {n : HostId} (negated : (s.port n).prst = false)

include negated

/-- On an ATTACHED port DETACHING starts once the access has been abandoned (R161, R162). -/
theorem State.exec_prstAssert_of_attached (attached : (s.port n).phase = .attached) {t : State} {a : Arbiter}
    {inFlight : Option InFlight}
    (abandoned : (s.setPort n { s.port n with prst := true, answer := none }).abandon n =
      { t.setPort n { s.port n with prst := true, answer := none, inFlight := inFlight } with arbiter := a }) :
    exec (.prstAssert n) s =
      .next
        { t.setPort n { (s.port n).emptied with prst := true, answer := none, inFlight := inFlight } with
          arbiter := a } := by
  simp only [exec, execPrstAssert, State.prstAssert, negated, Bool.false_eq_true, if_false, attached, if_true]
  rw [State.modifyPort_eq s, abandoned, State.modifyPort_setPort_self, PortGroup.startDetaching_eq_emptied,
    PortGroup.emptied_with]

theorem State.exec_prstAssert_of_not_attached (away : (s.port n).phase ≠ .attached) :
    exec (.prstAssert n) s = .next (s.setPort n { s.port n with prst := true, answer := none }) := by
  simp only [exec, execPrstAssert, State.prstAssert, negated, Bool.false_eq_true, if_false, if_neg away,
    State.modifyPort_eq]

end Prst

/-! ## The end of a host write (R100, R108) -/

/-- A write leaves the parity of every byte outside its word alone. -/
theorem Store.mismatched_writeWord_of_ne (m : Store) (p : PageId) (w : WordIdx) (en : BitVec 4) (data : Word) {a : Nat}
    (ha : ∀ b : ByteIdx, a ≠ byteAddress p w b) : (m.writeWord p w en data).mismatched a = m.mismatched a := by
  simp only [Store.writeWord, Store.mismatched_writeLane, ha, decide_false, Bool.false_and, Bool.not_false,
    Bool.and_true]

/-- A byte written has correct parity; one whose enable is negated keeps its own. -/
theorem Store.mismatched_writeWord (m : Store) (p : PageId) (w : WordIdx) (en : BitVec 4) (data : Word) (b : ByteIdx) :
    (m.writeWord p w en data).mismatched (byteAddress p w b) =
      (!en.getLsbD b.val && m.mismatched (byteAddress p w b)) := by
  simp only [Store.writeWord, Store.mismatched_writeLane, byteAddress_inj, true_and]
  match b with
  | 0 | 1 | 2 | 3 => simp [Bool.and_comm]

section Write

variable {op : WordOp} (write : op.dir = .write)

include write

theorem Store.perform_of_write (m : Store) :
    m.perform op = m.writeWord op.page op.word op.enables (op.data.getD 0) := by
  simp only [Store.perform, write]

/-- A write checks no parity (R108). -/
theorem Store.failed_of_write (m : Store) : m.failed op = false := by simp only [Store.failed, write]

theorem State.operationEnd_of_port_write {s : State} {n : HostId} (requester : op.requester = .port n) :
    s.operationEnd op =
      ({ s with
          store := s.store.writeWord op.page op.word op.enables (op.data.getD 0)
          arbiter := { s.arbiter with performing := none } } : State).portOperationEnd n false := by
  simp only [State.operationEnd, requester, Store.perform_of_write write, Store.failed_of_write write]

end Write

theorem State.portOperationEnd_of_sound {s : State} {n : HostId} {r : InFlight}
    (inFlight : (s.port n).inFlight = some r) : s.portOperationEnd n false = s.accessEnd n r := by
  simp only [State.portOperationEnd, inFlight, Bool.false_eq_true, if_false]

/-- The end of a host write: the array written, the pair and the record gone, the acknowledge given unless the access
was abandoned, and the arbiter's choice (R100, R102, R108, R110). -/
theorem State.exec_hostWriteEnd {s : State} {n : HostId} {r : InFlight} {data : Word}
    (performing : s.arbiter.performing = some (r.request n)) (inFlight : (s.port n).inFlight = some r)
    (write : r.dir = .write) (written : r.data = some data) :
    exec .wordOperationEnd s =
      .next
        { (s.setPage r.page ((s.page r.page).setPair n none)).setPort n
            { s.port n with
              inFlight := none
              answer := if r.abandoned then (s.port n).answer else some (.acknowledge none) } with
          store := s.store.writeWord r.page r.word r.enables data
          arbiter := { s.arbiter with performing := none }.choose } := by
  have word : (r.request n).data.getD 0 = data := by simp only [InFlight.request, written, Option.getD_some]
  rw [State.exec_wordOperationEnd performing, State.operationEnd_of_port_write (n := n) (by exact write) rfl, word,
    State.portOperationEnd_of_sound (by exact inFlight)]
  simp only [State.accessEnd, PortGroup.endAccess, InFlight.answer, write]
  cases r.abandoned <;> rfl

end Sys2Proof.Machine
end

section
/-! Window accesses, the faults of the access path, PRSTn and FLUSH. -/

namespace Sys2Proof.Proofs

open Sys2Proof Sys2Proof.Machine

/-- Settles O41: the decode of every window address, and the row WINDOW_ACCESS by port state and translation. -/
theorem windowAccessTranslates : Obligations.WindowAccessTranslates := by
  refine ⟨decodeAddress_of_window, fun s n a slot w d en data accepts window => ?_⟩
  have starts := State.exec_windowAccess_of_attached accepts window d en data
  have sent : ∀ {p : PageId} {cache : List (SlotId × PageId)}, (s.port n).phase = .attached →
      (s.port n).translate slot = some (p, cache) → exec (.windowAccess n a d en data) s =
        .next (s.setPort n { s.port n with
          cache := cache
          access := some { slot := slot, word := w, page := p, dir := d, enables := en, data := dataOf d data }
          answer := none }) := fun attached translated => by
    rw [starts attached, PortGroup.windowAccess_of_translate translated]
  refine ⟨State.exec_windowAccess_of_not_attached accepts window d en data, fun older newer p attached ok hit => ?_,
    fun p attached miss bound => ?_, fun attached miss unbound => ?_⟩
  · exact sent attached (PortGroup.translate_of_hit hit (ok.sound n).slots)
  · exact sent attached (PortGroup.translate_of_fill miss bound)
  · rw [starts attached, PortGroup.windowAccess_of_unbound (PortGroup.translate_of_unbound miss unbound)]

/-- Settles O46: the row at the end of a host write, and the array after it byte by byte. -/
theorem hostWriteEnds : Obligations.HostWriteEnds := by
  intro s n r data ok performing inFlight write written
  refine ⟨_, State.exec_hostWriteEnd performing inFlight write written, rfl, fun b => ⟨?_, ?_⟩,
    fun x outside => ⟨?_, ?_⟩⟩
  · exact Store.readByte_writeWord ok r.page r.word r.enables data b
  · exact s.store.mismatched_writeWord r.page r.word r.enables data b
  · exact Store.readByte_writeWord_of_ne ok r.page r.word r.enables data outside
  · exact s.store.mismatched_writeWord_of_ne r.page r.word r.enables data outside

/-- Settles O10: the access of an ATTACHED port is abandoned by its stage before the group is emptied. -/
theorem portResetAbandonsTheAccess : Obligations.PortResetAbandonsTheAccess := by
  refine fun s n => ⟨fun negated => ⟨fun attached none => ?_, fun r attached inFlight stage => ?_,
    fun r attached inFlight stage => ?_, State.exec_prstAssert_of_not_attached negated⟩, rfl⟩
  · exact State.exec_prstAssert_of_attached negated attached (t := s) (a := s.arbiter)
      (inFlight := (s.port n).inFlight) (State.abandon_of_none none)
  · exact State.exec_prstAssert_of_attached negated attached (t := s) (a := s.arbiter)
      (State.abandon_of_performing inFlight stage)
  · exact State.exec_prstAssert_of_attached negated attached (State.abandon_of_awaiting inFlight stage)

/-- Settles O42: the outcome of the check decides between the fault and the word operation. -/
theorem accessCheckDecides : Obligations.AccessCheckDecides := by
  intro s n a access
  refine ⟨fun k refused => ?_, fun retired scrub permitted => ?_⟩
  · exact State.exec_accessCheck_of_fault access (Entry.checkAccess_eq_some refused)
  · exact State.exec_accessCheck_of_pass access (Entry.checkAccess_of_permitted retired scrub permitted)

/-- Settles O43: the row is the fault unit's answer to fault RANGE with the error response. -/
theorem outOfRangeAccessFaults : Obligations.OutOfRangeAccessFaults := by
  intro s n a d accepts outside
  refine ⟨_, State.exec_outOfRangeAccess accepts outside d, PortGroup.recordFault_of_not_attached none, fun attached =>
    ⟨PortGroup.recordFault_of_overflow none attached, fun room => ⟨fun older r faults kind slot dir => ?_,
      fun other => ⟨?_, ?_⟩⟩⟩⟩
  · exact PortGroup.recordFault_of_newest none attached room faults ⟨kind, slot, dir⟩
  · exact fun short => (PortGroup.recordFault_of_other none attached room other).trans (if_pos short)
  · exact fun full => (PortGroup.recordFault_of_other none attached room other).trans (if_neg (Nat.not_lt.2 full))

/-- Settles O44: the dispatch of a FLUSH, the entries it leaves in the cache, and a translation that misses them. -/
theorem flushInvalidatesItsScope : Obligations.FlushInvalidatesItsScope := by
  refine ⟨fun s n d rest first count running ring asks => ?_, fun s h pl first count d _ _ _ => ?_⟩
  · have check := checkCommand_of_asks (manager := (s.port n).manager) asks (by simp [Errand.isManager])
    exact ⟨_, congrArg Host.Outcome.next (State.takeHead_of_running running ring rfl check), rfl, rfl, rfl⟩
  · obtain rfl := d.host
    refine ⟨flushCache (s.port pl.host).cache first count, ?_, flushCache_of_range _ first, flushCache_of_all _ first,
      fun slot p miss bound => ?_⟩
    · simp only [exec, execFlush, d.1, d.taking, State.modifyPort_eq]
      rw [State.post_of_hasPlace _ (by rw [State.port_setPort_self]; exact d.hasPlace), State.port_setPort_self,
        State.setPort_setPort_self]
      rfl
    · exact congrArg (Option.map Prod.fst) (PortGroup.translate_of_fill
        (g := { s.port pl.host with cache := flushCache (s.port pl.host).cache first count }) miss bound)

end Sys2Proof.Proofs
end

