-- ==== Sys2Proof/Proofs/PageStore.lean ====
section
/-!
SUPPORT. The page store: what every row makes of the array (`exec_storeChange`), the arbiter's choice by cyclic distance
(R111), and the abort event at the page engine (R127 to R129).
-/

namespace Sys2Proof.Machine

open Sys2Proof

/-! ## What a row makes of the array (R105, R106, R108, R109, R115 to R117) -/

/-- The array that a command leaves: the same, or that of one of its four events. -/
inductive State.StoreChange (s : State) : Instr → Store → Prop
  | same (c : Instr) : s.StoreChange c s.store
  | operationEnd (op : WordOp) : op ∈ s.arbiter.performing → s.StoreChange .wordOperationEnd (s.store.perform op)
  | sweepEnd : s.StoreChange .initializationSweepEnd Store.zero
  | resetAssert : s.StoreChange .deviceResetAssert s.storeAtReset
  | upset (p : PageId) (w : WordIdx) (b : ByteIdx) (flips : Byte) (parityFlips : Bool) :
      s.StoreChange (.arrayUpset p w b flips parityFlips) (s.store.upset (byteAddress p w b) flips parityFlips)

theorem State.storeChange_wordOperationEnd {s t : State} (h : exec .wordOperationEnd s = .next t) :
    s.StoreChange .wordOperationEnd t.store := by
  cases performing : s.arbiter.performing with
  | none =>
    simp only [exec, execWordOperationEnd, performing] at h
    obtain rfl := Host.Outcome.next.inj h
    exact .same _
  | some op =>
    rw [State.exec_wordOperationEnd performing] at h
    obtain rfl := Host.Outcome.next.inj h
    have ended : (s.operationEnd op).choose.store = s.store.perform op :=
      congrArg Fixtures.store (s.fixtures_operationEnd op)
    rw [ended]
    exact .operationEnd op performing

/-- Every command of the table leaves the array as it is, or changes it by its own event. -/
theorem exec_storeChange {c : Instr} {s t : State} (h : exec c s = .next t) : s.StoreChange c t.store := by
  have kept : t.store = s.store → s.StoreChange c t.store := fun same => same ▸ .same c
  cases other : movesFixture c with
  | false => exact kept (congrArg Fixtures.store (fixtures_of_exec h other))
  | true =>
    cases c with
    | deviceResetAssert =>
      obtain rfl := Host.Outcome.next.inj h
      simp only [State.resetAssert]
      split
      · exact .same _
      · exact .resetAssert
    | deviceResetNegate straps =>
      obtain rfl := Host.Outcome.next.inj h
      simp only [State.resetNegate]
      split <;> exact .same _
    | initializationSweepEnd =>
      obtain rfl := Host.Outcome.next.inj h
      simp only [State.sweepEnd]
      split
      · exact .sweepEnd
      · exact .same _
    | setQuota k =>
      obtain ⟨settings, same⟩ := State.fixtures_execSetQuota h
      exact kept (congrArg Fixtures.store same)
    | setRecallLimit k =>
      obtain ⟨settings, same⟩ := State.fixtures_execSetRecallLimit h
      exact kept (congrArg Fixtures.store same)
    | wordOperationEnd => exact State.storeChange_wordOperationEnd h
    | timebaseAdvance =>
      obtain ⟨now, same⟩ := s.fixtures_tick
      obtain rfl := Host.Outcome.next.inj h
      exact kept (congrArg Fixtures.store same)
    | arrayUpset p w b flips parityFlips =>
      obtain rfl := Host.Outcome.next.inj h
      exact .upset p w b flips parityFlips
    | _ => cases other

/-- Each event of the array keeps its canonical form. -/
theorem State.StoreChange.wf {s : State} {c : Instr} {m : Store} (change : s.StoreChange c m) (ok : s.storeOk) :
    m.wf = true := by
  cases change with
  | same => exact ok
  | operationEnd op _ => exact Store.wf_perform ok op
  | sweepEnd => exact Store.wf_zero
  | resetAssert => exact State.wf_storeAtReset ok
  | upset p w b flips parityFlips => exact Store.wf_upset ok (byteAddress_lt p w b) flips parityFlips

/-! ## Parity (R106) -/

theorem Byte.odd_xor (x y : Byte) : Byte.odd (x ^^^ y) = (Byte.odd x ^^ Byte.odd y) := by
  have exchange : ∀ (a b : Bool) (i : Nat),
      ((a ^^ b) ^^ (x.getLsbD i ^^ y.getLsbD i)) = ((a ^^ x.getLsbD i) ^^ (b ^^ y.getLsbD i)) := fun a b i => by
    generalize x.getLsbD i = c, y.getLsbD i = d
    revert a b c d
    decide
  simp only [Byte.odd, BitVec.getLsbD_xor, exchange]

/-- An upset moves the stored parity bit of its byte by the parity flip alone. -/
theorem Store.parityBit_upset {m : Store} (ok : m.wf = true) (a : Nat) (flips : Byte) (parityFlips : Bool) :
    (m.upset a flips parityFlips).parityBit a = (m.parityBit a ^^ parityFlips) := by
  simp only [Store.parityBit, Store.readByte_upset ok, Store.mismatched_upset, if_true, Byte.odd_xor]
  generalize Byte.odd (m.readByte a) = o, m.mismatched a = w, Byte.odd flips = f
  revert o w f parityFlips
  decide

/-! ## The arbiter's choice (R111) -/

theorem Requester.mem_orderAfter (last r : Requester) : r ∈ last.orderAfter := by
  cases last with
  | engine =>
    cases r with
    | engine => decide
    | port n => revert n; decide
  | port m =>
    cases r with
    | engine => revert m; decide
    | port n => revert m n; decide

/-- The order in which the arbiter looks is that of the cyclic distance. -/
theorem Requester.orderAfter_rising (last : Requester) :
    last.orderAfter.Pairwise fun r t => last.turnsAfter r < last.turnsAfter t := by
  cases last with
  | engine => decide
  | port n => revert n; decide

theorem Arbiter.requestOf_eq_none_iff {a : Arbiter} {r : Requester} :
    a.requestOf r = none ↔ ∀ op ∈ a.requests, op.requester ≠ r := by
  simp [Arbiter.requestOf]

/-- Where requests are pending, one of them is next. -/
theorem Arbiter.exists_next {a : Arbiter} (pending : a.requests ≠ []) : ∃ op, a.next = some op := by
  obtain ⟨o, mem⟩ := List.exists_mem_of_ne_nil _ pending
  rw [← Option.isSome_iff_exists, Option.isSome_iff_ne_none]
  intro none
  have absent := List.findSome?_eq_none_iff.1 none o.requester (Requester.mem_orderAfter _ _)
  exact Arbiter.requestOf_eq_none_iff.1 absent o mem rfl

theorem Arbiter.next_of_no_requests {a : Arbiter} (empty : a.requests = []) : a.next = none :=
  Option.eq_none_iff_forall_ne_some.2 fun op h => by simpa [empty] using Arbiter.next_mem h

/-- No pending request is nearer in the cyclic order than the one that is next. -/
theorem Arbiter.next_least {a : Arbiter} {op : WordOp} (next : a.next = some op) :
    ∀ o ∈ a.requests, a.lastServed.turnsAfter op.requester ≤ a.lastServed.turnsAfter o.requester := by
  intro o mem
  obtain ⟨before, r, after, order, found, absent⟩ := List.findSome?_eq_some_iff.1 next
  obtain ⟨-, rfl⟩ := Arbiter.requestOf_spec found
  have rising := a.lastServed.orderAfter_rising
  have listed := Requester.mem_orderAfter a.lastServed o.requester
  rw [order] at rising listed
  obtain ⟨-, rest, -⟩ := List.pairwise_append.1 rising
  rcases List.mem_append.1 listed with early | late
  · exact absurd rfl (Arbiter.requestOf_eq_none_iff.1 (absent _ early) o mem)
  · rcases List.mem_cons.1 late with same | later
    · exact same ▸ le_rfl
    · exact ((List.pairwise_cons.1 rest).1 _ later).le

/-- A choice at an idle store with requests pending serves one of the least cyclic distance. -/
theorem Arbiter.choose_of_pending {a : Arbiter} (idle : a.performing = none) (pending : a.requests ≠ []) :
    ∃ op ∈ a.requests,
      a.choose =
        { lastServed := op.requester, requests := a.requests.filter fun o => o.requester ≠ op.requester,
          performing := some op } ∧
      ∀ o ∈ a.requests, a.lastServed.turnsAfter op.requester ≤ a.lastServed.turnsAfter o.requester := by
  obtain ⟨op, next⟩ := Arbiter.exists_next pending
  exact ⟨op, Arbiter.next_mem next, Arbiter.choose_of_next idle next, Arbiter.next_least next⟩

/-- The only request at an idle store is served at once. -/
theorem Arbiter.request_of_idle {a : Arbiter} (idle : a.performing = none) (empty : a.requests = []) (op : WordOp) :
    a.request op = { lastServed := op.requester, requests := [], performing := some op } := by
  have joined : a.requests ++ [op] = [op] := by rw [empty, List.nil_append]
  rw [Arbiter.request, joined]
  obtain ⟨o, mem, served, -⟩ := Arbiter.choose_of_pending (a := { a with requests := [op] }) idle (by simp)
  obtain rfl := List.mem_singleton.1 mem
  rw [served]
  simp

theorem Arbiter.request_of_busy {a : Arbiter} {o : WordOp} (busy : a.performing = some o) (op : WordOp) :
    a.request op = { a with requests := a.requests ++ [op] } :=
  Arbiter.choose_of_performing (by exact busy)

theorem Arbiter.performs_iff (a : Arbiter) (r : Requester) :
    a.performs r = true ↔ ∃ op ∈ a.performing, op.requester = r := by
  simp [Arbiter.performs]

/-! ## The abort event at the page engine (R127 to R129) -/

/-- A job in a queue in order is found by its place. -/
theorem RunsFirst.find_place {q : List Job} (first : RunsFirst q) {j : Job} (mem : j ∈ q) :
    q.find? (fun k => k.place = j.place) = some j := by
  cases found : q.find? (fun k => k.place = j.place) with
  | none => simpa using List.find?_eq_none.1 found j mem
  | some k =>
    have place : k.place = j.place := by simpa using List.find?_some found
    rw [first.eq_of_place (List.mem_of_find?_eq_some found) mem place]

theorem State.exec_engineAbortEvent {s : State} {which : Nat} {job : Place}
    (waits : s.engine.abortEvents[which]? = some job) {e : Engine}
    (taken : e = { s.engine with abortEvents := s.engine.abortEvents.eraseIdx which }) :
    exec (.engineAbortEvent which) s = .next (({ s with engine := e } : State).takeAbort job) := by
  subst taken
  simp only [exec, execEngineAbortEvent, waits]
  rfl

/-- The event of a job that has left the queue is disregarded (R129). -/
theorem State.takeAbort_of_absent {s : State} {job : Place} (absent : ∀ j ∈ s.engine.queue, j.place ≠ job) :
    s.takeAbort job = s := by
  have none : s.engine.queue.find? (fun j => j.place = job) = none :=
    List.find?_eq_none.2 fun j hj => by simpa using absent j hj
  simp only [State.takeAbort, none]

theorem Job.work_ne_scrub {j : Job} (noScrub : j.isScrub = false) : j.work ≠ .scrub := by
  simpa [Job.isScrub] using noScrub

theorem Job.reply_aborted (j : Job) : j.reply .aborted = Reply.ofPage .aborted j.target := rfl

section InQueue

variable {s : State} {j : Job} (first : RunsFirst s.engine.queue) (mem : j ∈ s.engine.queue)

include first mem

/-- A queued job leaves and completes ABORTED (R127). -/
theorem State.takeAbort_of_queued (queued : j.running = false) :
    s.takeAbort j.place =
      { s with
        pages := (s.removeRefs j).pages
        ports := (s.post j.place (Reply.ofPage .aborted j.target)).ports
        engine := { s.engine with queue := s.engine.queue.filter fun k => k.place ≠ j.place } } := by
  have left : s.dropQueued j =
      { s with
        pages := (s.removeRefs j).pages
        engine := { s.engine with queue := s.engine.queue.filter fun k => k.place ≠ j.place } } := by
    rw [State.dropQueued, State.removeRefs_frame]
    rfl
  have posted := State.post_ports_congr (s := s) (t := s.dropQueued j) (by rw [left]) j.place (j.reply .aborted)
  simp only [State.takeAbort, first.find_place mem, queued, Bool.false_eq_true, if_false, State.completeJob]
  rw [State.post_frame, posted, left, Job.reply_aborted]

theorem State.takeAbort_of_running (running : j.running = true) : s.takeAbort j.place = s.stopRunning j := by
  simp only [State.takeAbort, first.find_place mem, running, if_true]

end InQueue

/-- The only job, its word not being performed, stops at once: its request is withdrawn and it ends ABORTED (R128). -/
theorem State.stopRunning_of_only {s : State} {j : Job} (pending : s.arbiter.performs .engine = false)
    (only : s.engine.queue = [j]) :
    s.stopRunning j =
      { s with
        pages := (s.removeRefs j).pages
        ports := (s.post j.place (Reply.ofPage .aborted j.target)).ports
        engine := { s.engine with queue := [] }
        arbiter := s.arbiter.withdraw .engine } := by
  have place : s.engine.queue.map Job.place = [j.place] := by rw [only]; rfl
  have posted := State.post_ports_congr (s := s) (t := { s with arbiter := s.arbiter.withdraw .engine }) rfl j.place
    (Reply.ofPage .aborted j.target)
  rw [State.stopRunning, pending, if_neg Bool.false_ne_true, State.withdrawAndStop,
    State.endJob_of_only (s := { s with arbiter := s.arbiter.withdraw .engine }) place, State.removeRefs_set_arbiter,
    Job.reply_aborted, posted]

/-- A word being performed is left to end, its job marked as stopping (R128). -/
theorem State.stopRunning_of_performing {s : State} {j : Job} (performing : s.arbiter.performs .engine = true) :
    s.stopRunning j = s.setJob { j with stopping := true } := if_pos performing

end Sys2Proof.Machine
end

section
/-! The page store and its requesters. -/

namespace Sys2Proof.Proofs

open Sys2Proof Sys2Proof.Machine

/-- Settles O4: of the four events of the array, three are excluded by their commands, and the operation that ends is
a read, which leaves the array alone. -/
theorem arrayChangesOnlyByItsEvents : Obligations.ArrayChangesOnlyByItsEvents := by
  intro c s t h notSweep notReset notUpset onlyReads
  have change := exec_storeChange h
  generalize t.store = m at change ⊢
  cases change with
  | same => rfl
  | operationEnd op performing => exact Store.perform_of_read (onlyReads rfl op performing) _
  | sweepEnd => exact absurd rfl notSweep
  | resetAssert => exact absurd rfl notReset
  | upset p w b flips parityFlips => exact absurd rfl (notUpset p w b flips parityFlips)

/-- Settles O7: reads, mismatches and the parity bit of an upset array, at the byte upset and at every other. -/
theorem upsetChangesOneByte : Obligations.UpsetChangesOneByte := by
  intro s p w b flips parityFlips ok
  refine ⟨_, rfl, rfl, ?_, Store.parityBit_upset ok _ flips parityFlips, ?_, fun a other => ⟨?_, ?_⟩⟩
  · exact (Store.readByte_upset ok ..).trans (if_pos rfl)
  · rw [Store.mismatched_upset, if_pos rfl, Bool.xor_assoc]
  · exact (Store.readByte_upset ok ..).trans (if_neg other)
  · exact (Store.mismatched_upset ..).trans (if_neg other)

/-- Settles O57: a step idles or executes a command, whose event at the array keeps the form. -/
theorem arrayStaysCanonical : Obligations.ArrayStaysCanonical := by
  intro s t ok h
  rcases step_cases h with rfl | ⟨c, rest, e⟩
  · exact ok
  · exact (exec_storeChange e).wf ok

/-- Settles O45: a choice at a busy store, at an idle one with and without requests, and the arrival of a request. -/
theorem arbiterServesInCyclicOrder : Obligations.ArbiterServesInCyclicOrder := fun _ =>
  ⟨fun _ busy => Arbiter.choose_of_performing busy, Arbiter.choose_of_pending,
    fun _ empty => Arbiter.choose_of_no_next (Arbiter.next_of_no_requests empty), fun op =>
    ⟨fun idle empty => Arbiter.request_of_idle idle empty op, fun _ busy => Arbiter.request_of_busy busy op⟩⟩

/-- Settles O50: the event finds no job, a queued one, the running one between two words, or the running one while its
word is performed. -/
theorem abortEventStopsTheJob : Obligations.AbortEventStopsTheJob := by
  intro s which job waits e he
  have row := State.exec_engineAbortEvent waits he
  have queue : e.queue = s.engine.queue := by rw [he]
  refine ⟨fun absent => ?_, fun j mem place ok => ?_⟩
  · rw [row, State.takeAbort_of_absent (by rw [queue]; exact absent)]
  subst place
  have first : RunsFirst e.queue := queue ▸ ok.runsFirst
  have mem' : j ∈ e.queue := queue ▸ mem
  have posted := State.post_ports_congr (s := s) (t := { s with engine := e }) rfl j.place
    (Reply.ofPage .aborted j.target)
  refine ⟨fun queued noScrub => ?_, fun running idle only noScrub => ?_, fun running performing => ?_⟩
  · rw [State.takeAbort_of_queued first mem' queued] at row
    refine ⟨_, row, by rw [← queue], posted, rfl, ?_⟩
    exact State.page_removeRefs { s with engine := e } (Job.work_ne_scrub noScrub)
  · have pending : s.arbiter.performs .engine = false := by
      rw [← Bool.not_eq_true, Arbiter.performs_iff]
      exact fun ⟨op, busy, engine⟩ => idle op busy engine
    rw [State.takeAbort_of_running first mem' running, 
      State.stopRunning_of_only (s := { s with engine := e }) pending (queue.trans only)] at row
    refine ⟨_, row, rfl, rfl, posted, rfl, ?_⟩
    exact State.page_removeRefs { s with engine := e } (Job.work_ne_scrub noScrub)
  · have busy := (Arbiter.performs_iff s.arbiter .engine).2 performing
    rw [row, State.takeAbort_of_running first mem' running,
      State.stopRunning_of_performing (s := { s with engine := e }) busy, ← queue]
    rfl

end Sys2Proof.Proofs
end

