-- ==== Sys2Proof/Proofs/EngineWords.lean ====
section
/-!
SUPPORT. The end of a word of the running job at the page engine: the check register (R125), the next word (R124), and
the end of a job with the start of the one behind it (R126, R128, R176).
-/

namespace Sys2Proof.Machine

open Sys2Proof

/-! ## The check register (R125) -/

theorem crcBit_eq (r : BitVec 16) (b : Bool) : crcBit r b = if r.msb ≠ b then (r <<< 1) ^^^ 0x1021 else r <<< 1 := by
  rw [crcBit, BitVec.msb_eq_getLsbD_last]
  cases r.getLsbD 15 <;> cases b <;> rfl

/-- A byte of a word goes through the register bit by bit, its most significant bit first. -/
theorem crcByte_byte (r : BitVec 16) (w : Word) (b : ByteIdx) :
    crcByte r (w.byte b) = ([7, 6, 5, 4, 3, 2, 1, 0].map fun k => w.getLsbD (8 * b.val + k)).foldl crcBit r := by
  simp [crcByte, Word.byte]

/-- A word goes through the register byte by byte, byte 0 first. -/
theorem crcWord_eq_foldl (c : BitVec 16) (w : Word) :
    crcWord c w =
      ([0, 1, 2, 3].flatMap fun i => [7, 6, 5, 4, 3, 2, 1, 0].map fun k => w.getLsbD (8 * i + k)).foldl crcBit c := by
  rw [List.foldl_flatMap]
  simp only [List.foldl_cons, List.foldl_nil, crcWord, crcByte_byte]
  rfl

/-! ## What the running job asks for (R124) -/

theorem Job.request_of_write {j : Job} (write : j.request.dir = .write) :
    j.request = engineWrite j.target j.nextWord (j.request.data.getD 0) := by
  cases work : j.work with
  | copy source =>
    cases held : j.held with
    | none => simp [Job.request, work, held, engineRead] at write
    | some data => simp [Job.request, work, held, engineWrite]
  | checksum c => simp [Job.request, work, engineRead] at write
  | fill pattern | scrub => simp [Job.request, work, engineWrite]

/-- A CHECKSUM only reads. -/
theorem Job.work_ne_checksum_of_write {j : Job} (write : j.request.dir = .write) (c : BitVec 16) :
    j.work ≠ .checksum c := by
  intro work
  simp [Job.request, work, engineRead] at write

theorem Job.request_of_checksum {j : Job} {c : BitVec 16} (work : j.work = .checksum c) :
    j.request = engineRead j.target j.nextWord := by
  simp only [Job.request, work]

/-- A COPY reads its source before it holds the word, and then writes what it holds. -/
theorem Job.request_of_copy_read {j : Job} {source : PageId} (work : j.work = .copy source) (held : j.held = none) :
    j.request = engineRead source j.nextWord := by
  simp only [Job.request, work, held]

theorem Job.request_of_copy_write {j : Job} {source : PageId} (work : j.work = .copy source) (data : Word) :
    ({ j with held := some data } : Job).request = engineWrite j.target j.nextWord data := by
  simp only [Job.request, work]
  rfl

/-- A completion carries the target page alone, but for a CHECKSUM that ends OK (R126). -/
theorem Job.reply_ok {j : Job} (noCheck : ∀ c, j.work ≠ .checksum c) : j.reply .ok = Reply.ofPage .ok j.target := by
  cases work : j.work with
  | checksum c => exact absurd work (noCheck c)
  | copy source | fill pattern | scrub => simp only [Job.reply, work, Reply.ofPage]

/-! ## The end of its word (R110, R124) -/

section Word

variable {s u : State} {j : Job} (performing : s.arbiter.performing = some j.request)
  (running : s.engine.running = some j)
  (ended : u = { s with store := s.store.perform j.request, arbiter := { s.arbiter with performing := none } })

include performing running ended

theorem State.exec_engineWriteEnd (write : j.request.dir = .write) :
    exec .wordOperationEnd s = .next (u.engineWriteEnd j).choose := by
  subst ended
  rw [State.exec_wordOperationEnd performing]
  simp only [State.operationEnd, j.request_engine_nextWord.1, Store.failed, write, State.engineOperationEnd, running,
    Bool.false_eq_true, if_false]

theorem State.exec_engineReadEnd (read : j.request.dir = .read)
    (sound : s.store.wordMismatched j.request.page j.nextWord = false) :
    exec .wordOperationEnd s = .next (u.engineReadEnd j (s.store.readWord j.request.page j.nextWord)).choose := by
  subst ended
  obtain ⟨requester, word⟩ := j.request_engine_nextWord
  rw [State.exec_wordOperationEnd performing, State.operationEnd_of_engine_read read requester, word, sound,
    Store.perform_of_read read]
  simp only [State.engineOperationEnd, running, Bool.false_eq_true, if_false, read, word]

end Word

/-! ## The next word (R124) -/

/-- The running flag is set from the page table alone. -/
theorem State.runRefs_pages_congr {s t : State} (same : t.pages = s.pages) (j : Job) :
    (t.runRefs j).pages = (s.runRefs j).pages := by
  simp only [State.runRefs]
  induction j.pages generalizing s t with
  | nil => exact same
  | cons p ps ih => exact ih (by simp [State.modifyPage, State.setPage, State.page_def, same])

/-- The oldest job without an abort mark starts: it runs, its references too, and its next word is requested. -/
theorem State.startFrom_of_unmarked_frame {s u : State} {j : Job} {js : List Job} (unmarked : j.marked = false)
    (pages : s.pages = u.pages) :
    s.startFrom (j :: js) =
      { s with
        pages := (u.runRefs j).pages
        engine := { s.engine with queue := { j with running := true } :: js }
        arbiter := s.arbiter.request j.request } := by
  rw [State.startFrom_of_unmarked unmarked, State.runRefs_frame,
    State.runRefs_pages_congr (s := u) (t := s.setQueue ({ j with running := true } :: js)) pages]
  rfl

/-- A job that leaves takes its references and its place in the queue with it. -/
theorem State.dropQueued_frame (s : State) (j : Job) :
    s.dropQueued j =
      { s with
        pages := (s.removeRefs j).pages
        engine := { s.engine with queue := s.engine.queue.filter fun k => k.place ≠ j.place } } := by
  rw [State.dropQueued, State.removeRefs_frame]
  rfl

section First

variable {s : State} {j k : Job} {js : List Job} (first : RunsFirst s.engine.queue) (queue : s.engine.queue = j :: js)
  (place : k.place = j.place)

include first queue place

/-- The jobs behind the first one have other places. -/
theorem RunsFirst.place_ne_of_behind : ∀ i ∈ js, i.place ≠ k.place := by
  intro i mem same
  have nodup := first.nodup
  rw [queue, List.map_cons, List.nodup_cons] at nodup
  exact nodup.1 (List.mem_map.2 ⟨i, mem, same.trans place⟩)

/-- The first job goes on: its record is replaced and its next word requested. -/
theorem State.advanceJob_of_first :
    s.advanceJob k =
      { s with engine := { s.engine with queue := k :: js }, arbiter := s.arbiter.request k.request } := by
  have behind : js.map (fun i => if i.place = k.place then k else i) = js :=
    (List.map_congr_left fun i mem => if_neg (first.place_ne_of_behind queue place i mem)).trans js.map_id
  have replaced : s.setJob k = { s with engine := { s.engine with queue := k :: js } } := by
    rw [State.setJob, queue, List.map_cons, if_pos place.symm, behind]
    rfl
  rw [State.advanceJob, replaced]
  rfl

end First

/-- The first job ends with another behind it: its references and its place in the queue go, its completion is posted,
and the next job, where it carries no abort mark, starts. -/
theorem State.endJob_of_followed {s : State} {j k next : Job} {behind : List Job} (first : RunsFirst s.engine.queue)
    (queue : s.engine.queue = j :: next :: behind) (place : k.place = j.place) (unmarked : next.marked = false)
    (st : Status) :
    s.endJob k st =
      { s with
        pages := ((s.removeRefs k).runRefs next).pages
        ports := (s.post k.place (k.reply st)).ports
        engine := { s.engine with queue := { next with running := true } :: behind }
        arbiter := s.arbiter.request next.request } := by
  have others : (j :: next :: behind).filter (fun i => i.place ≠ k.place) = next :: behind := by
    rw [List.filter_cons_of_neg (by simp [place])]
    exact List.filter_eq_self.2 fun i mem => by simpa using first.place_ne_of_behind queue place i mem
  have left : (s.removeRefs k).dequeue k =
      { s with pages := (s.removeRefs k).pages, engine := { s.engine with queue := next :: behind } } := by
    rw [← others, ← queue]
    exact s.dropQueued_frame k
  have posted := State.post_ports_congr (s := s) (t := (s.removeRefs k).dequeue k) (by rw [left]) k.place (k.reply st)
  have idle : runningIn (next :: behind) = none := List.find?_eq_none.2 fun i mem => by
    simp [first.tail i (by rw [queue]; exact mem)]
  simp only [State.endJob, State.completeJob]
  rw [State.post_frame, posted, left]
  simp only [State.startNext, Engine.running_eq, idle]
  exact State.startFrom_of_unmarked_frame (u := s.removeRefs k) unmarked rfl

/-- Below word 255 a written word is followed by the next one. -/
theorem State.engineWriteEnd_of_more (s : State) {j : Job} (goes : j.stopping = false) (more : j.progress < 255) :
    s.engineWriteEnd j = s.advanceJob { j with progress := j.progress + 1, held := none } := by
  simp only [State.engineWriteEnd, goes, Bool.false_eq_true, if_false, pageWords]
  exact if_neg (by omega)

theorem State.engineReadEnd_of_copy (s : State) {j : Job} {source : PageId} (work : j.work = .copy source)
    (goes : j.stopping = false) (data : Word) : s.engineReadEnd j data = s.advanceJob { j with held := some data } := by
  simp only [State.engineReadEnd, goes, work, Bool.false_eq_true, if_false]

theorem State.engineReadEnd_of_more (s : State) {j : Job} {c : BitVec 16} (work : j.work = .checksum c)
    (goes : j.stopping = false) (more : j.progress < 255) (data : Word) :
    s.engineReadEnd j data =
      s.advanceJob { j with work := .checksum (crcWord c data), progress := j.progress + 1 } := by
  simp only [State.engineReadEnd, goes, work, Bool.false_eq_true, if_false, pageWords]
  exact if_neg (by omega)

/-! ## The last word of a job (R126, R128, R176) -/

/-- The record of a job names the same job: its place, its pages, and whether it is a scrub. -/
structure Job.Names (k j : Job) : Prop where
  place : k.place = j.place
  pages : k.pages = j.pages
  scrub : k.work = .scrub ↔ j.work = .scrub

theorem Job.Names.of_work {j k : Job} (place : k.place = j.place) (target : k.target = j.target)
    (work : k.work = j.work) : k.Names j :=
  ⟨place, by simp only [Job.pages, target, work], by rw [work]⟩

/-- How a word that is its job's last one ends it: a stopping job ABORTED, a written page OK, a CHECKSUM OK with its
check value. -/
def State.LastWord (s : State) (j : Job) (rep : Reply) : Prop :=
  (j.stopping = true ∧ rep = Reply.ofPage .aborted j.target) ∨
    (j.stopping = false ∧ j.request.dir = .write ∧ j.progress = 255 ∧ rep = Reply.ofPage .ok j.target) ∨
    ∃ c : BitVec 16, j.work = .checksum c ∧ j.stopping = false ∧ j.progress = 255 ∧
      rep =
        { status := .ok, page := some j.target, gen := none,
          result := some (.check (crcWord c (s.store.readWord j.target j.nextWord))) }

/-- A job ends at its last word. -/
theorem State.exec_lastWord {s u : State} {j : Job} (performing : s.arbiter.performing = some j.request)
    (running : s.engine.running = some j)
    (ended : u = { s with store := s.store.perform j.request, arbiter := { s.arbiter with performing := none } })
    (sound : j.request.dir = .read → s.store.wordMismatched j.request.page j.nextWord = false) {rep : Reply}
    (last : s.LastWord j rep) :
    ∃ k st, exec .wordOperationEnd s = .next (u.endJob k st).choose ∧ k.Names j ∧ k.reply st = rep := by
  rcases last with ⟨stops, rfl⟩ | ⟨goes, write, final, rfl⟩ | ⟨c, work, goes, final, rfl⟩
  · cases dir : j.request.dir with
    | write =>
      refine ⟨{ j with progress := j.progress + 1, held := none }, .aborted, ?_, .of_work rfl rfl rfl, rfl⟩
      rw [State.exec_engineWriteEnd performing running ended dir]
      simp only [State.engineWriteEnd, stops, if_true]
    | read =>
      refine ⟨j, .aborted, ?_, .of_work rfl rfl rfl, rfl⟩
      rw [State.exec_engineReadEnd performing running ended dir (sound dir)]
      simp only [State.engineReadEnd, stops, if_true]
  · refine ⟨{ j with progress := j.progress + 1, held := none }, .ok, ?_, .of_work rfl rfl rfl,
      Job.reply_ok (j := { j with progress := j.progress + 1, held := none })
        (Job.work_ne_checksum_of_write (j := j) write)⟩
    rw [State.exec_engineWriteEnd performing running ended write]
    simp only [State.engineWriteEnd, goes, final, pageWords, Bool.false_eq_true, if_false, Nat.reduceAdd, le_refl,
      if_true]
  · have request := Job.request_of_checksum work
    have read : j.request.dir = .read := by rw [request]; rfl
    refine ⟨{ j with
        work := .checksum (crcWord c (s.store.readWord j.target j.nextWord)), progress := j.progress + 1 }, .ok, ?_,
      ⟨rfl, by simp only [Job.pages, work], by simp [work]⟩, rfl⟩
    rw [State.exec_engineReadEnd performing running ended read (sound read), request]
    simp only [State.engineReadEnd, goes, work, final, pageWords, engineRead, Bool.false_eq_true, if_false,
      Nat.reduceAdd, le_refl, if_true]

/-- The pages that a job names lose their references of it; where it is a scrub, a page in SCRUB becomes FREE (R176). -/
theorem State.page_removeRefs_state (s : State) (j : Job) (p : PageId) :
    (s.removeRefs j).page p =
      if p ∈ j.pages then
        { s.page p with
          refs := (s.page p).refs.filter fun r => r.place ≠ j.place
          state := if j.work = .scrub ∧ (s.page p).state = .scrub then .free else (s.page p).state }
      else s.page p := by
  by_cases scrub : j.work = .scrub
  · rw [s.removeRefs_scrub scrub, State.page_modifyPage, Job.pages_of_not_copy (by simp [scrub])]
    by_cases target : p = j.target
    · simp [target, Entry.endScrub, Entry.removeRef, scrub]
    · simp [target]
  · simp only [s.page_removeRefs scrub, scrub, false_and, if_false]

end Sys2Proof.Machine
end

section
/-! The end of a word of the running job. -/

namespace Sys2Proof.Proofs

open Sys2Proof Sys2Proof.Machine

/-- Settles O51: the word that ended is followed by the next one, by the write of a COPY's word, or, where it was the
last, by the end of the job and the start from the jobs behind it. -/
theorem engineWordEnds : Obligations.EngineWordEnds := by
  refine ⟨fun c w => ?_, fun s j js ok queue runs performing => ?_⟩
  · rw [crcWord_eq_foldl, funext₂ crcBit_eq]
  have first := ok.runsFirst
  have running : s.engine.running = some j := by simp [Engine.running, queue, runs]
  refine ⟨fun write goes more => ?_, fun src work held goes sound => ?_, fun c work goes more sound => ⟨_, rfl, ?_⟩,
    fun rep after unmarked ⟨sound, last⟩ hafter => ?_⟩
  · have array : s.store.perform j.request =
        s.store.writeWord j.target j.nextWord 0xF (j.request.data.getD 0) := by
      rw [Job.request_of_write write]
      rfl
    rw [State.exec_engineWriteEnd performing running rfl write, State.engineWriteEnd_of_more _ goes more,
      State.advanceJob_of_first (by exact first) (by exact queue) (by rfl), array]
    rfl
  · have request := Job.request_of_copy_read work held
    have read : j.request.dir = .read := by rw [request]; rfl
    rw [State.exec_engineReadEnd performing running rfl read (by rw [request]; exact sound),
      State.engineReadEnd_of_copy _ work goes, State.advanceJob_of_first (by exact first) (by exact queue) (by rfl),
      Job.request_of_copy_write work, Store.perform_of_read read, request]
    rfl
  · have request := Job.request_of_checksum work
    have read : j.request.dir = .read := by rw [request]; rfl
    rw [State.exec_engineReadEnd performing running rfl read (by rw [request]; exact sound),
      State.engineReadEnd_of_more _ work goes more,
      State.advanceJob_of_first (by exact first) (by exact queue) (by rfl), Store.perform_of_read read, request]
    rfl
  · obtain ⟨u, ended⟩ : ∃ u : State,
        u = { s with store := s.store.perform j.request, arbiter := { s.arbiter with performing := none } } := ⟨_, rfl⟩
    obtain ⟨k, st, row, names, rfl⟩ := State.exec_lastWord performing running ended sound last
    have pages (p : PageId) : (u.removeRefs k).page p = after p := by
      rw [State.page_removeRefs_state, hafter, names.place, names.pages, ended]
      simp only [names.scrub]
      rfl
    have starts (next : Job) (p : PageId) : ((u.removeRefs k).runRefs next).page p =
        if p ∈ next.pages then (after p).runRef next.place else after p := by rw [State.page_runRefs, pages]
    have posted := State.post_ports_congr (s := s) (t := u) (by rw [ended]) k.place (k.reply st)
    rw [← names.place]
    subst ended
    cases js with
    | nil =>
      rw [State.endJob_of_only (by simp [queue, names.place])] at row
      exact ⟨_, row, rfl, posted, rfl, fun _ => ⟨rfl, rfl, pages⟩, by simp⟩
    | cons next behind =>
      rw [State.endJob_of_followed (by exact first) (by exact queue) names.place (unmarked next rfl)] at row
      refine ⟨_, row, rfl, posted, rfl, by simp, fun i is same => ?_⟩
      obtain ⟨rfl, rfl⟩ := List.cons.inj same
      exact ⟨rfl, rfl, starts next⟩

end Sys2Proof.Proofs
end

