-- ==== Sys2Proof/Proofs/EngineTeardown.lean ====
section
/-!
SUPPORT. The teardown of a host at the page engine (R131, R164): the host's queued jobs leave, its running job stops,
and neither its port group nor a holding changes.
-/

namespace Sys2Proof.Machine

open Sys2Proof

/-! ## The queued jobs of the host (R131) -/

/-- A queued job of the host other than a scrub. -/
def Job.queuedOf (n : HostId) (j : Job) : Bool := j.place.host = n && !j.running && !j.isScrub

theorem Job.queuedOf_eq_false_iff (n : HostId) (j : Job) :
    j.queuedOf n = false ↔ (j.place.host = n → j.isScrub = false → j.running = true) := by
  cases scrub : j.isScrub <;> cases running : j.running <;> simp [Job.queuedOf, scrub, running]

theorem not_any_place_cons (g : Job) (l : List Job) (pl : Place) :
    (!(g :: l).any fun k => k.place = pl) = ((!l.any fun k => k.place = pl) && decide (pl ≠ g.place)) := by
  rw [List.any_cons, Bool.not_or, Bool.and_comm, decide_not, decide_eq_decide.2 (eq_comm (a := g.place))]

/-- Jobs that are dropped one after the other leave every job of another place in the queue, and the rest of the
state. -/
theorem State.foldl_dropQueued_frame (s : State) (l : List Job) :
    l.foldl State.dropQueued s =
      { s with
        pages := (l.foldl State.dropQueued s).pages
        engine := { s.engine with queue := s.engine.queue.filter fun j => !l.any fun g => g.place = j.place } } := by
  induction l generalizing s with
  | nil => simp
  | cons g l ih =>
    rw [List.foldl_cons, ih, State.dropQueued_frame, List.filter_filter]
    simp only [not_any_place_cons]

/-- Their references leave the pages that they name. -/
theorem State.page_foldl_dropQueued (s : State) {l : List Job} (noScrub : ∀ g ∈ l, g.work ≠ .scrub) (p : PageId) :
    (l.foldl State.dropQueued s).page p =
      { s.page p with
        refs := (s.page p).refs.filter fun r => !l.any fun g => g.place = r.place && g.pages.contains p } := by
  induction l generalizing s with
  | nil => simp
  | cons g l ih =>
    have dropped : (s.dropQueued g).page p = (s.removeRefs g).page p := rfl
    rw [List.foldl_cons, ih _ fun k mem => noScrub k (List.mem_cons_of_mem g mem), dropped,
      s.page_removeRefs (noScrub g List.mem_cons_self)]
    by_cases named : p ∈ g.pages
    · simp only [named, if_true, List.filter_filter]
      congr 2
      funext r
      by_cases here : g.place = r.place
      · simp [here, named]
      · simp [here, Ne.symm here]
    · simp [named]

/-- The jobs that leave at a teardown, by the place of one of them. -/
theorem State.any_queuedOf (s : State) (n : HostId) (named : Job → Bool) :
    (s.engine.queue.filter (Job.queuedOf n)).any named =
      s.engine.queue.any fun g => named g && g.queuedOf n := by
  rw [List.any_filter]
  congr 1
  funext g
  exact Bool.and_comm ..

theorem State.dropQueuedOf_frame (s : State) (n : HostId) :
    s.dropQueuedOf n =
      { s with
        pages := (s.dropQueuedOf n).pages
        engine :=
          { s.engine with
            queue := s.engine.queue.filter fun j =>
              !s.engine.queue.any fun g => g.place = j.place && g.queuedOf n } } := by
  simp only [← State.any_queuedOf]
  exact s.foldl_dropQueued_frame _

theorem State.page_dropQueuedOf (s : State) (n : HostId) (p : PageId) :
    (s.dropQueuedOf n).page p =
      { s.page p with
        refs := (s.page p).refs.filter fun r =>
          !s.engine.queue.any fun g => (g.place = r.place && g.pages.contains p) && g.queuedOf n } := by
  simp only [← State.any_queuedOf]
  refine s.page_foldl_dropQueued (fun g mem => ?_) p
  have queued := (List.mem_filter.1 mem).2
  simp only [Bool.and_eq_true, Bool.not_eq_true'] at queued
  exact Job.work_ne_scrub queued.2

/-- A job that stays was in the queue, and is none of those that leave. -/
theorem State.mem_dropQueuedOf_queue {s : State} {n : HostId} {j : Job} (mem : j ∈ (s.dropQueuedOf n).engine.queue) :
    j ∈ s.engine.queue ∧ j.queuedOf n = false := by
  rw [State.dropQueuedOf_frame] at mem
  obtain ⟨old, stays⟩ := List.mem_filter.1 mem
  simp only [Bool.not_eq_true', List.any_eq_false] at stays
  exact ⟨old, by simpa using stays j old⟩

/-! ## The running job of the host (R128, R131) -/

theorem State.mem_setJob_queue {s : State} {i j : Job} (mem : i ∈ (s.setJob j).engine.queue) :
    i = j ∨ (i ∈ s.engine.queue ∧ i.place ≠ j.place) := by
  obtain ⟨k, old, rfl⟩ := List.mem_map.1 mem
  by_cases here : k.place = j.place
  · simp [here]
  · simp [here, old]

/-- A start makes one of the queued jobs run and lets others leave; each that stays keeps its place and its work. -/
theorem State.mem_startFrom_queue {s : State} {l : List Job} {i : Job} (mem : i ∈ (s.startFrom l).engine.queue) :
    ∃ k ∈ l, i.place = k.place ∧ i.work = k.work := by
  induction l generalizing s with
  | nil => cases mem
  | cons j js ih =>
    cases marked : j.marked with
    | true =>
      rw [State.startFrom_of_marked marked] at mem
      obtain ⟨k, behind, same⟩ := ih mem
      exact ⟨k, List.mem_cons_of_mem j behind, same⟩
    | false =>
      rw [State.startFrom_of_unmarked_frame (u := s) marked rfl] at mem
      rcases List.mem_cons.1 mem with rfl | behind
      · exact ⟨j, List.mem_cons_self, rfl, rfl⟩
      · exact ⟨i, List.mem_cons_of_mem j behind, rfl, rfl⟩

theorem State.mem_startNext_queue {s : State} {i : Job} (mem : i ∈ s.startNext.engine.queue) :
    ∃ k ∈ s.engine.queue, i.place = k.place ∧ i.work = k.work := by
  simp only [State.startNext] at mem
  split at mem
  · exact ⟨i, mem, rfl, rfl⟩
  · exact State.mem_startFrom_queue mem

/-- What is in the queue after the end of a job was in it before, at another place. -/
theorem State.mem_endJob_queue {s : State} {i j : Job} {st : Status} (mem : i ∈ (s.endJob j st).engine.queue) :
    ∃ k ∈ s.engine.queue, k.place ≠ j.place ∧ i.place = k.place ∧ i.work = k.work := by
  obtain ⟨k, left, same⟩ := State.mem_startNext_queue mem
  rw [State.completeJob, State.post_engine] at left
  have left : k ∈ (s.dropQueued j).engine.queue := left
  rw [State.dropQueued_queue] at left
  obtain ⟨old, other⟩ := List.mem_filter.1 left
  exact ⟨k, old, by simpa using other, same⟩

/-- Where the engine runs no job of the host but a scrub, nothing stops. -/
theorem State.stopRunningOf_of_spared {s : State} {n : HostId}
    (spared : ∀ j ∈ s.engine.queue, j.running = true → j.place.host = n → j.isScrub = true) :
    s.stopRunningOf n = s := by
  simp only [State.stopRunningOf]
  split
  · rfl
  · rename_i j running
    obtain ⟨mem, runs⟩ := runningIn_eq_some running
    refine if_neg fun stops => ?_
    simp only [Bool.and_eq_true, decide_eq_true_eq, Bool.not_eq_true'] at stops
    simp [spared j mem runs stops.1] at stops

/-- Afterwards every job of the host but a scrub runs, is marked and is stopping, if none was queued. -/
theorem State.stopping_of_stopRunningOf {s : State} {n : HostId} (first : RunsFirst s.engine.queue)
    (runs : ∀ j ∈ s.engine.queue, j.place.host = n → j.isScrub = false → j.running = true) :
    ∀ j ∈ (s.stopRunningOf n).engine.queue, j.place.host = n → j.isScrub = false →
      j.running = true ∧ j.marked = true ∧ j.stopping = true := by
  intro j mem host noScrub
  by_cases spared : ∀ j ∈ s.engine.queue, j.running = true → j.place.host = n → j.isScrub = true
  · rw [State.stopRunningOf_of_spared spared] at mem
    simp [spared j mem (runs j mem host noScrub) host] at noScrub
  · push Not at spared
    obtain ⟨k, queued, running, own, work⟩ := spared
    have own : (k.place.host = n && !k.isScrub) = true := by simpa [own] using work
    have found : s.engine.running = some k := first.runningIn_of_mem queued running
    simp only [State.stopRunningOf, found, own, if_true] at mem
    have alone : ∀ i : Job, i ∈ ((s.mapPages fun e => e.markRef k.place).setJob
        { k with marked := true }).engine.queue → i.place ≠ k.place → i.place.host = n → i.isScrub = true := by
      intro i present other host
      rcases State.mem_setJob_queue present with rfl | ⟨old, -⟩
      · exact absurd rfl other
      · by_contra noScrub
        have := first.eq_of_running old queued (runs i old host (by simpa using noScrub)) running
        exact other (congrArg Job.place this)
    simp only [State.stopRunning] at mem
    split at mem
    · rcases State.mem_setJob_queue mem with rfl | ⟨present, other⟩
      · exact ⟨running, rfl, rfl⟩
      · simp [alone j present other host] at noScrub
    · obtain ⟨i, present, other, place, work⟩ := State.mem_endJob_queue mem
      have scrub := alone i present other (place ▸ host)
      rw [Job.isScrub, ← work, ← Job.isScrub, noScrub] at scrub
      cases scrub

/-! ## What the teardown leaves alone (R163) -/

/-- The port group of the host and the holdings on every page are the same. -/
structure State.Spares (n : HostId) (s t : State) : Prop where
  port : t.port n = s.port n
  holdings : ∀ p, (t.page p).holdings = (s.page p).holdings

namespace State.Spares

variable {n : HostId}

theorem refl (s : State) : s.Spares n s := ⟨rfl, fun _ => rfl⟩

theorem trans {s t u : State} (a : s.Spares n t) (b : t.Spares n u) : s.Spares n u :=
  ⟨b.port.trans a.port, fun p => (b.holdings p).trans (a.holdings p)⟩

/-- A change of the page table that keeps the holdings. -/
theorem of_pages {s t : State} (ports : t.ports = s.ports)
    (holdings : ∀ p, (t.page p).holdings = (s.page p).holdings) : s.Spares n t := ⟨State.port_congr ports n, holdings⟩

theorem removeRefs (s : State) (j : Job) : s.Spares n (s.removeRefs j) := by
  refine of_pages (by rw [State.removeRefs_frame]) fun p => ?_
  rw [State.page_removeRefs_state]
  split <;> rfl

theorem dropQueued (s : State) (j : Job) : s.Spares n (s.dropQueued j) :=
  (removeRefs s j).trans (of_pages (t := (s.removeRefs j).dequeue j) rfl fun _ => rfl)

theorem dropQueuedOf (s : State) (m : HostId) : s.Spares n (s.dropQueuedOf m) :=
  of_pages (by rw [State.dropQueuedOf_frame]) fun p => by rw [State.page_dropQueuedOf]

section Away

variable {s : State} (away : (s.port n).phase ≠ .attached)

include away

/-- A completion does not reach a port without a session. -/
theorem completeJob (j : Job) (st : Status) : s.Spares n (s.completeJob j st) := by
  refine ⟨?_, fun p => by rw [State.completeJob, State.page_post]⟩
  exact State.port_postAll_of_not_attached away [(j.place, j.reply st)]

theorem startFrom (l : List Job) : s.Spares n (s.startFrom l) := by
  induction l generalizing s with
  | nil => exact of_pages rfl fun _ => rfl
  | cons j js ih =>
    cases marked : j.marked with
    | true =>
      have refs := removeRefs (n := n) s j
      have left := refs.trans (completeJob (refs.port ▸ away) j .aborted)
      rw [State.startFrom_of_marked marked]
      exact left.trans (ih (left.port ▸ away))
    | false =>
      rw [State.startFrom_of_unmarked_frame (u := s) marked rfl]
      refine of_pages rfl fun p => ?_
      show ((s.runRefs j).page p).holdings = _
      rw [State.page_runRefs]
      split <;> rfl

theorem startNext : s.Spares n s.startNext := by
  simp only [State.startNext]
  split
  · exact refl s
  · exact startFrom away _

theorem endJob (j : Job) (st : Status) : s.Spares n (s.endJob j st) := by
  have dropped := dropQueued (n := n) s j
  have completed := dropped.trans (completeJob (dropped.port ▸ away) j st)
  exact completed.trans (startNext (completed.port ▸ away))

theorem stopRunning (j : Job) : s.Spares n (s.stopRunning j) := by
  simp only [State.stopRunning]
  split
  · exact of_pages rfl fun _ => rfl
  · have withdrawn : s.Spares n { s with arbiter := s.arbiter.withdraw .engine } := of_pages rfl fun _ => rfl
    exact withdrawn.trans (endJob (by exact away) j .aborted)

theorem stopRunningOf (m : HostId) : s.Spares n (s.stopRunningOf m) := by
  simp only [State.stopRunningOf]
  split
  · exact refl s
  · rename_i j _
    split
    · have marked : s.Spares n ((s.mapPages fun e => e.markRef j.place).setJob { j with marked := true }) :=
        of_pages rfl fun p => by
          rw [State.page_setJob, State.page_mapPages]
          rfl
      exact marked.trans (stopRunning (marked.port ▸ away) _)
    · exact refl s

end Away

end State.Spares

/-! ## The event (R164) -/

theorem State.exec_teardownAtEngine {s : State} {n : HostId} (phase : (s.port n).phase = .detaching)
    (waits : (s.port n).teardownEngine = false) :
    exec (.teardownAtEngine n) s =
      .next (((s.dropQueuedOf n).stopRunningOf n).setPort n { s.port n with teardownEngine := true }) := by
  have dropped := State.Spares.dropQueuedOf (n := n) s n
  have stopped := dropped.trans (.stopRunningOf (dropped.port ▸ by simp [phase]) n)
  rw [← stopped.port]
  exact congrArg Host.Outcome.next (if_pos ⟨phase, waits⟩)

end Sys2Proof.Machine
end

section
/-! The teardown of a host at the page engine. -/

namespace Sys2Proof.Proofs

open Sys2Proof Sys2Proof.Machine

/-- Settles O11: the queued jobs leave first; then nothing stops, or the job that stops is the only one of the host. -/
theorem engineTakesTheTeardown : Obligations.EngineTakesTheTeardown := by
  intro s n phase waits
  have row := State.exec_teardownAtEngine phase waits
  refine ⟨fun spared => ?_, fun ok => ?_⟩
  · rw [State.stopRunningOf_of_spared fun j mem => spared j (State.mem_dropQueuedOf_queue mem).1] at row
    refine ⟨_, row, ?_, ?_, fun p => ?_⟩
    · rw [State.dropQueuedOf_frame]
      rfl
    · rw [State.dropQueuedOf_frame]
      rfl
    · rw [State.page_setPort, State.page_dropQueuedOf]
      rfl
  · have dropped := State.Spares.dropQueuedOf (n := n) s n
    have spares := dropped.trans (.stopRunningOf (dropped.port ▸ by simp [phase]) n)
    refine ⟨_, row, ?_, ?_, spares.holdings, ?_⟩
    · rw [State.port_setPort_self]
    · rw [State.port_setPort_self]
    · refine State.stopping_of_stopRunningOf (ok.dropQueuedOf n).runsFirst fun j mem => ?_
      exact (Job.queuedOf_eq_false_iff n j).1 (State.mem_dropQueuedOf_queue mem).2

end Sys2Proof.Proofs
end

