-- ==== Sys2Proof/Proofs/FaultFile.lean ====
section
/-!
SUPPORT. The host's two writes to its fault file (R142, R143): the POP of the head record and the overflow clear, with
the cause flags FR and FO of the file (R153).
-/

namespace Sys2Proof.Machine

open Sys2Proof

/-! ## The cause flags of the fault file (R153) -/

/-- FR is set exactly while the file has a record. -/
@[simp] theorem PortGroup.flags_fr_iff (g : PortGroup) : g.flags.fr = true ↔ g.faults ≠ [] := by
  simp [PortGroup.flags]

/-- FO is the overflow flag. -/
@[simp] theorem PortGroup.flags_fo (g : PortGroup) : g.flags.fo = g.overflow := rfl

/-! ## The two writes on an ATTACHED port (R142, R143) -/

section Attached

variable {s : State} {n : HostId} (accepts : s.accepts n = true) (attached : (s.port n).phase = .attached)

include accepts attached

/-- The POP leaves the file without its head; an empty file stays empty. -/
theorem State.exec_faultPop_of_attached :
    exec (.faultPop n) s =
      .next
        (s.setPort n { s.port n with faults := (s.port n).faults.tail, answer := some (.acknowledge none) }) :=
  congrArg Host.Outcome.next (State.attachedWrite_of_attached _ accepts attached)

/-- The overflow clear leaves the records of the file. -/
theorem State.exec_overflowClear_of_attached :
    exec (.overflowClear n) s =
      .next (s.setPort n { s.port n with overflow := false, answer := some (.acknowledge none) }) :=
  congrArg Host.Outcome.next (State.attachedWrite_of_attached _ accepts attached)

end Attached

end Sys2Proof.Machine
end

section
/-! The fault POP and the overflow clear write. -/

namespace Sys2Proof.Proofs

open Sys2Proof Sys2Proof.Machine

/-- Settles O22: the file becomes its tail, which ends in the same newest record unless it is empty. -/
theorem faultPopRemovesTheHead : Obligations.FaultPopRemovesTheHead := by
  intro s n accepts attached
  refine ⟨_, State.exec_faultPop_of_attached accepts attached, fun r rest file => ⟨?_, fun remains => ?_⟩,
    fun empty => ?_, ?_, PortGroup.flags_fr_iff _⟩
  · rw [file, List.tail_cons]
  · rw [State.port_setPort_self, file, List.tail_cons, List.getLast?_cons_of_ne_nil remains]
  · rw [empty, List.tail_nil, ← empty]
  · rw [State.port_setPort_self]

/-- Settles O23: after the write the unit is ATTACHED and not in overflow, so the newest record and the room in
the file decide the next fault. -/
theorem overflowClearResumesRecording : Obligations.OverflowClearResumesRecording := by
  intro s n accepts attached
  refine ⟨_, State.exec_overflowClear_of_attached accepts attached, rfl, ?_⟩
  rw [State.port_setPort_self]
  generalize after : { s.port n with overflow := false, answer := some (.acknowledge none) } = g
  have on : g.phase = .attached := after ▸ attached
  have room : g.overflow = false := after ▸ rfl
  refine ⟨g.flags_fo.trans room, fun k slot page d => ⟨fun older r file sameKind sameSlot sameDir => ?_,
    fun other => ⟨fun short => ?_, fun full => ?_⟩⟩⟩
  · exact PortGroup.recordFault_of_newest page on room file ⟨sameKind, sameSlot, sameDir⟩
  · exact (PortGroup.recordFault_of_other page on room other).trans (if_pos short)
  · exact (PortGroup.recordFault_of_other page on room other).trans (if_neg (Nat.not_lt.2 full))

end Sys2Proof.Proofs
end

