-- ==== Sys2Proof/Proofs/InterruptLine.lean ====
section
/-!
SUPPORT. The interrupt line of a port (R153, R155): the five causes that assert it, and the enables, which are all clear
outside a session and at its start (R154), so that no cause asserts it there.
-/

namespace Sys2Proof.Machine

open Sys2Proof

/-! ## The cause flags of the three queues (R153) -/

/-- CQ is set exactly while the completion queue has a record. -/
@[simp] theorem PortGroup.flags_cq_iff (g : PortGroup) : g.flags.cq = true ↔ g.cq ≠ [] := by
  simp [PortGroup.flags]

/-- NQ is set exactly while the notice queue has a record. -/
@[simp] theorem PortGroup.flags_nq_iff (g : PortGroup) : g.flags.nq = true ↔ g.notices ≠ [] := by
  simp [PortGroup.flags]

/-- NL is the notice-lost flag. -/
@[simp] theorem PortGroup.flags_nl (g : PortGroup) : g.flags.nl = g.noticeLost := rfl

/-! ## The line (R155) -/

/-- The line is asserted by any one cause that is set and enabled. -/
theorem PortGroup.interrupt_iff (g : PortGroup) :
    g.interrupt = true ↔
      (g.cq ≠ [] ∧ g.enables.cq = true) ∨ (g.notices ≠ [] ∧ g.enables.nq = true) ∨
        (g.noticeLost = true ∧ g.enables.nl = true) ∨ (g.faults ≠ [] ∧ g.enables.fr = true) ∨
        (g.overflow = true ∧ g.enables.fo = true) := by
  simp only [PortGroup.interrupt, Bool.or_eq_true, Bool.and_eq_true, PortGroup.flags_cq_iff, PortGroup.flags_nq_iff,
    PortGroup.flags_nl, PortGroup.flags_fr_iff, PortGroup.flags_fo, or_assoc]

/-- With every enable clear no cause asserts the line, whatever the queues hold. -/
theorem PortGroup.interrupt_of_enables_none {g : PortGroup} (clear : g.enables = Events.none) : g.interrupt = false := by
  simp [PortGroup.interrupt, clear, Events.none]

/-! ## The enables outside a session and at its start (R154) -/

/-- Outside a session every enable is clear (R154, R162). -/
theorem PortGroup.enables_of_quiet {g : PortGroup} (quiet : g.quiet = true) (away : g.phase ≠ .attached) :
    g.enables = Events.none := by
  simp only [PortGroup.quiet, away, decide_false, Bool.false_or, Bool.and_eq_true, decide_eq_true_eq] at quiet
  obtain ⟨⟨⟨⟨⟨-, clear⟩, -⟩, -⟩, -⟩, -⟩ := quiet
  exact clear

/-- An accepted ATTACH write opens a session with every enable clear (R154, R159). -/
theorem State.exec_attach_of_detached {s : State} {n : HostId} (accepts : s.accepts n = true)
    (detached : (s.port n).phase = .detached) (ready : s.phase = .ready) (negated : (s.port n).prst = false) :
    exec (.attach n) s =
      .next
        (s.setPort n
          { s.port n with
            phase := .attached, sessionCount := (s.port n).sessionCount + 1, enables := Events.none,
            answer := some (.acknowledge none) }) := by
  have row : exec (.attach n) s =
      .next ((s.modifyPort n fun g =>
        { g with phase := .attached, sessionCount := g.sessionCount + 1, enables := Events.none }).answer n ackWrite) :=
    congrArg Host.Outcome.next ((if_pos accepts).trans (if_pos ⟨detached, ready, negated⟩))
  rw [row, State.answer_eq, State.port_modifyPort_self, State.modifyPort_eq, State.setPort_setPort_self]
  rfl

end Sys2Proof.Machine
end

section
/-! The interrupt line. -/

namespace Sys2Proof.Proofs

open Sys2Proof Sys2Proof.Machine

/-- Settles O25: the line by its five causes; the two edges of RESET leave the reset values, and a port without a
session or with a session just opened has every enable clear. -/
theorem interruptFollowsFlagsAndEnables : Obligations.InterruptFollowsFlagsAndEnables := by
  refine ⟨fun s n => (s.port n).interrupt_iff, fun s t running row n => ?_, fun s t straps held row n => ?_,
    fun s n ok away => ?_, fun s t n accepts detached ready negated row => ?_⟩
  · obtain ⟨asserts, -⟩ := resetSetsResetValues s
    obtain ⟨u, next, -, -, -, -, int, -⟩ := asserts running
    obtain rfl : u = t := Host.Outcome.next.inj (next.symm.trans row)
    exact int n
  · obtain ⟨-, negates, -⟩ := resetSetsResetValues s
    obtain ⟨u, next, -, -, -, -, port, -⟩ := negates held straps
    obtain rfl : u = t := Host.Outcome.next.inj (next.symm.trans row)
    rw [State.int, port n]
    exact PortGroup.interrupt_of_enables_none rfl
  · exact PortGroup.interrupt_of_enables_none (PortGroup.enables_of_quiet (ok.sound n).quiet away)
  · obtain rfl := Host.Outcome.next.inj ((State.exec_attach_of_detached accepts detached ready negated).symm.trans row)
    rw [State.int, State.port_setPort_self]
    exact PortGroup.interrupt_of_enables_none rfl

end Sys2Proof.Proofs
end

