-- ==== Sys2Proof/Proofs/SessionEdges.lean ====
section
/-!
SUPPORT. The edges of a port session (R159, R167) and a register write without an effect (R180): an ATTACH write that is
refused, the conditions for the end of DETACHING, and the answer to a write to a passive word.
-/

namespace Sys2Proof.Machine

open Sys2Proof

/-! ## ATTACH (R159) -/

/-- An ATTACH write that one of its three conditions fails opens no session. -/
theorem State.exec_attach_of_refused {s : State} {n : HostId} (accepts : s.accepts n = true)
    (refused : ¬((s.port n).phase = .detached ∧ s.phase = .ready ∧ (s.port n).prst = false)) :
    exec (.attach n) s = .next (s.setPort n { s.port n with answer := some .errorResponse }) :=
  congrArg Host.Outcome.next ((if_pos accepts).trans (if_neg refused))

/-! ## The end of DETACHING (R167) -/

/-- The engine runs no job of the host exactly when each running job of the host is a scrub. -/
theorem State.runsJobOf_eq_false_iff (s : State) (n : HostId) :
    s.runsJobOf n = false ↔ ∀ j ∈ s.engine.queue, j.running = true → j.place.host = n → j.isScrub = true := by
  simp [State.runsJobOf]

/-- On a DETACHING port the four conditions of R167 decide. -/
theorem State.canDetach_iff {s : State} {n : HostId} (detaching : (s.port n).phase = .detaching) :
    s.canDetach n = true ↔
      (s.port n).teardownEngine = true ∧ (s.port n).teardownEntries = [] ∧ (s.port n).inFlight = none ∧
        ∀ j ∈ s.engine.queue, j.running = true → j.place.host = n → j.isScrub = true := by
  simp only [State.canDetach, detaching, Bool.and_eq_true, Bool.not_eq_true', decide_true, true_and, and_assoc,
    List.isEmpty_iff, Option.isNone_iff_eq_none, State.runsJobOf_eq_false_iff]

/-! ## A write to a passive word (R180) -/

theorem RegWord.isIdentification_iff (w : RegWord) :
    w.isIdentification = true ↔ w = .identification0 ∨ w = .identification1 := by
  cases w <;> simp [RegWord.isIdentification]

/-- The word and the port state decide the answer; the enables and the data have no part in it. -/
theorem State.exec_registerWrite_of_passive {s : State} {n : HostId} {a : BitVec 18} {w : RegWord}
    (accepts : s.accepts n = true) (word : decodeAddress a = .register w) (passive : w.isPassive = true)
    (en : BitVec 4) (data : Word) :
    exec (.registerWrite n a en data) s =
      .next
        (s.setPort n
          { s.port n with
            answer :=
              some
                (if (s.port n).phase = .attached ∨ w = .identification0 ∨ w = .identification1 then .acknowledge none
                else .errorResponse) }) := by
  simp only [exec, execRegisterWrite, word, passive, accepts, if_true, State.answer_eq, Bool.or_eq_true,
    decide_eq_true_eq, RegWord.isIdentification_iff, or_comm (b := (s.port n).phase = .attached), ackWrite]

end Sys2Proof.Machine
end

section
/-! ATTACH, the end of DETACHING, and the register writes that change nothing. -/

namespace Sys2Proof.Proofs

open Sys2Proof Sys2Proof.Machine

/-- Settles O8: the row ATTACH by the conjunction of its three conditions. -/
theorem attachOpensASession : Obligations.AttachOpensASession := by
  intro s n accepts
  exact ⟨fun ⟨detached, ready, negated⟩ => State.exec_attach_of_detached accepts detached ready negated,
    State.exec_attach_of_refused accepts⟩

/-- Settles O13: the model's test for the end of DETACHING is the conjunction of the four conditions. -/
theorem detachingEndsWhenAllIsDone : Obligations.DetachingEndsWhenAllIsDone := by
  intro s n detaching
  rw [← State.canDetach_iff detaching]
  exact ⟨fun done => congrArg Host.Outcome.next (if_pos done), fun waits => congrArg Host.Outcome.next (if_neg waits)⟩

/-- Settles O24: the answer is the acknowledge where the port is ATTACHED or the word an identification word. -/
theorem registerWriteChangesNothing : Obligations.RegisterWriteChangesNothing := by
  intro s n a w en data accepts word passive
  rw [State.exec_registerWrite_of_passive accepts word passive]
  refine ⟨fun acknowledged => ?_, fun away not0 not1 => ?_⟩
  · rw [if_pos acknowledged]
  · rw [if_neg (not_or.2 ⟨away, not_or.2 ⟨not0, not1⟩⟩)]

end Sys2Proof.Proofs
end

