-- ==== Sys2Proof/Proofs/Retirement.lean ====
section
/-!
SUPPORT. RETIRE by the state of the page (R173): an equation for each of the three outcomes at the entry.
-/

namespace Sys2Proof.Machine

open Sys2Proof

variable {e : Entry}

theorem Entry.retire_of_free (free : e.state = .free) (env : Env) (pl : Place) :
    e.retire env pl = ({ e with state := .retired } : Entry).reply pl (Reply.ofPage .ok env.page) := by
  simp only [Entry.retire, free]

theorem Entry.retire_of_retired (retired : e.state = .retired) (env : Env) (pl : Place) :
    e.retire env pl = e.reply pl (Reply.ofPage .ok env.page) := by
  simp only [Entry.retire, retired]

/-- A page in use, in TRANSFER or in SCRUB is not retired. -/
theorem Entry.retire_of_refused (notFree : e.state ≠ .free) (notRetired : e.state ≠ .retired) (env : Env) (pl : Place) :
    e.retire env pl = e.reply pl (Reply.ofPage .inUse env.page) := by
  cases st : e.state with
  | free => exact absurd st notFree
  | retired => exact absurd st notRetired
  | exclusive | shared | transfer | scrub => simp only [Entry.retire, st]

theorem State.delivers.exec_retire {s : State} {h : HostId} {p : PageId} {pl : Place}
    (d : s.delivers h (.entry p) pl (.retire p)) :
    exec (.retire h p) s = .next ((s.dropTransit pl).applyEntry p ((s.page p).retire (s.env p) pl)) :=
  congrArg Host.Outcome.next (d.entryTakes (g := fun u => (u.page p).retire (u.env p) pl) rfl)

end Sys2Proof.Machine
end

section
/-! RETIRE at an entry. -/

namespace Sys2Proof.Proofs

open Sys2Proof Sys2Proof.Machine

/-- Settles O37: the row RETIRE by the page's state; only on a FREE page does the entry change. -/
theorem retireTakesOnlyFreePages : Obligations.RetireTakesOnlyFreePages := by
  intro s h p pl d
  refine ⟨fun free => ?_, fun retired => ?_, fun notFree notRetired => ?_⟩
  · rw [d.exec_retire, Entry.retire_of_free free, d.reply_changed]
    rfl
  · rw [d.exec_retire, Entry.retire_of_retired retired, d.reply]
    rfl
  · rw [d.exec_retire, Entry.retire_of_refused notFree notRetired, d.reply]
    rfl

end Sys2Proof.Proofs
end

section
/-! What the step does with each shape of the queue. -/

namespace Sys2Proof.Machine

open Sys2Proof

theorem step_of_pending_nil {s : State} (empty : s.pending = []) : step s = .next s := by
  simp only [step, empty]

theorem step_of_pending_cons {s : State} {c : Instr} {rest : List Instr} (queued : s.pending = c :: rest) :
    step s = exec c { s with pending := rest } := by
  simp only [step, queued]

end Sys2Proof.Machine
end

section
/-! The block as a whole: the step and the queue. -/

namespace Sys2Proof.Proofs

open Sys2Proof Sys2Proof.Machine

/-- Settles O1: the two shapes of the queue, a command at its front or none. -/
theorem stepTakesTheFrontCommand : Obligations.StepTakesTheFrontCommand :=
  ⟨fun _ _ _ => step_of_pending_cons rfl, fun _ empty => step_of_pending_nil empty⟩

end Sys2Proof.Proofs
end
